-- ==== Sys2Proof/Word.lean ====
section
/-! DEFINITION. The words of the two serial links: bytes, 16-bit and 32-bit fields (R182). -/

namespace Sys2Proof

/-- One byte of a frame. -/
abbrev Byte := BitVec 8

/-- A field of two bytes. -/
abbrev Half := BitVec 16

/-- A field of four bytes. -/
abbrev Word := BitVec 32

end Sys2Proof
end

