-- ==== Sys2Proof/Syntax.lean ====
section
/-! DEFINITION. The commands of the part: one constructor of `Instr` for each row of spec/opcode_table.json, with the
operands the chapters give it. Fields of frames keep the widths of the wire (R182 to R184); enumerated and index fields of
a request are raw bytes, because a code outside its list reaches the owning block (R182). -/

namespace Sys2Proof

/-- The payload of a SAMPLE frame (R183). Its form (R166) is carried by the types: yes/no fields are `Bool` and the intensity
is at most 4,095. `adm` is the optional ADM part: distance and quality. -/
structure Sample where
  seq : Byte
  timestamp : Word
  azRaw : Word
  elRaw : Word
  ifmCount : Word
  ifmOk : Bool
  psdX : Half
  psdY : Half
  intensity : BitVec 12
  atHome : Bool
  adm : Option (Word × Byte)
  deriving DecidableEq, Repr

/-- drive_state (R183). -/
inductive DriveState where
  | disabled
  | enabled
  deriving DecidableEq, Repr

/-- A HEAD_STATUS frame as received: its destination byte (not read by the head port, R166), the two facts and the opaque
remainder of 0 to 238 bytes (R183). -/
structure HeadStatus where
  destination : Byte
  hasAdm : Bool
  driveState : DriveState
  remainder : List Byte
  deriving DecidableEq, Repr

/-- A FORWARD frame: any kind, destination HEAD, a payload of at most 240 bytes (R166). -/
structure ForwardFrame where
  kind : Byte
  payload : List Byte
  deriving DecidableEq, Repr

/-- The two serial ports. -/
inductive Port where
  | head
  | station
  deriving DecidableEq, Repr

/-- The two edges of TRIG, and the values of the trigger polarity parameter (R124). -/
inductive Edge where
  | rising
  | falling
  deriving DecidableEq, Repr

/-- One step of a request's run, as sent: two signed offsets and a dwell (R90, section 10.5). -/
structure StepField where
  dAz : Word
  dEl : Word
  dwell : Byte
  deriving DecidableEq, Repr

/-- The nine rotation entries and three translation entries of a WRITE_POSE, by rows (section 10.5). -/
structure PoseField where
  r11 : Word
  r12 : Word
  r13 : Word
  r21 : Word
  r22 : Word
  r23 : Word
  r31 : Word
  r32 : Word
  r33 : Word
  t1 : Word
  t2 : Word
  t3 : Word
  deriving DecidableEq, Repr

/-- The fields of a WRITE_FIDUCIAL after its index (section 10.5). -/
structure FiducialField where
  state : Byte
  nomX : Word
  nomY : Word
  nomZ : Word
  aimAz : Word
  aimEl : Word
  tolerance : Half
  checkMode : Byte
  descriptor : Byte
  deriving DecidableEq, Repr

/-- The 36 requests with their fields (section 10.5). -/
inductive Request where
  | loadCompBegin (table : Byte)
  | loadCompData (table start : Byte) (entries : List Half)
  | loadCompEnd (table count : Byte)
  | setRefraction (n : Word)
  | writePose (index : Byte) (pose : PoseField) (label : Half)
  | clearPose (index : Byte)
  | readPose (index : Byte)
  | selectPose (index : Byte)
  | establishAdm
  | establishHome
  | dropDistance
  | follow
  | park
  | goto (az el : Word) (thenAction : Byte)
  | writeSteps (start : Half) (steps : List StepField)
  | writeSearch (index state mode : Byte) (start length : Half) (repeats : Byte)
  | appendSteps (steps : List StepField)
  | resetStream
  | readSearch (index : Byte)
  | readSteps (start : Half) (count : Byte)
  | startSearch (index : Byte)
  | startMeasure (mode mask : Byte) (p1 p2 p3 : Word)
  | stopMeasure
  | readLatest
  | writeFiducial (index : Byte) (fields : FiducialField)
  | enableFiducial (index : Byte)
  | disableFiducial (index : Byte)
  | readFiducial (index : Byte)
  | startRound
  | stopRound
  | ackEvent (source : Byte)
  | raiseTest (source : Byte)
  | setFloor (f : Word)
  | setParam (id : Byte) (value : Word)
  | readStatus (sect : Byte)
  | restart
  deriving DecidableEq, Repr

/-- A REQUEST frame's payload after the form check of R184: a request of section 10.5 with its tag, or one that is not of
that table (an unknown code, or a known code with a payload of the wrong length, R174). -/
inductive RequestFrame where
  | named (tag : Half) (request : Request)
  | unnamed (tag : Half) (code : Byte)
  deriving DecidableEq, Repr

/-- What comes with a request command: the request's tag and the level of SERVICE, sampled as the request is taken
(R174, log 2). -/
structure Taking where
  tag : Half
  service : Bool
  deriving DecidableEq, Repr

/-- The commands, one constructor per row of spec/opcode_table.json, in the table's order. -/
inductive Instr where
  | sample (f : Sample)
  | headStatus (h : HeadStatus)
  | requestFrame (service : Bool) (r : RequestFrame)
  | forwardFrame (f : ForwardFrame)
  | discardedFrame (port : Port)
  | takeSample
  | headFrameSent
  | stationRecordSent (service : Bool)
  | eventAdmission
  | headSilent
  | establishTimerExpiry
  | aimTimerExpiry
  | measureTimerExpiry
  | slotTimerExpiry
  | roundPeriodExpiry
  | refractionStale
  | graceExpiry
  | dwellExpiry
  | dueRoundStart
  | trigEdge (edge : Edge)
  | linkBreak
  | powerOnReset
  | loadCompBegin (q : Taking) (table : Byte)
  | loadCompData (q : Taking) (table start : Byte) (entries : List Half)
  | loadCompEnd (q : Taking) (table count : Byte)
  | setRefraction (q : Taking) (n : Word)
  | writePose (q : Taking) (index : Byte) (pose : PoseField) (label : Half)
  | clearPose (q : Taking) (index : Byte)
  | readPose (q : Taking) (index : Byte)
  | selectPose (q : Taking) (index : Byte)
  | establishAdm (q : Taking)
  | establishHome (q : Taking)
  | dropDistance (q : Taking)
  | follow (q : Taking)
  | park (q : Taking)
  | goto (q : Taking) (az el : Word) (thenAction : Byte)
  | writeSteps (q : Taking) (start : Half) (steps : List StepField)
  | writeSearch (q : Taking) (index state mode : Byte) (start length : Half) (repeats : Byte)
  | appendSteps (q : Taking) (steps : List StepField)
  | resetStream (q : Taking)
  | readSearch (q : Taking) (index : Byte)
  | readSteps (q : Taking) (start : Half) (count : Byte)
  | startSearch (q : Taking) (index : Byte)
  | startMeasure (q : Taking) (mode mask : Byte) (p1 p2 p3 : Word)
  | stopMeasure (q : Taking)
  | readLatest (q : Taking)
  | writeFiducial (q : Taking) (index : Byte) (fields : FiducialField)
  | enableFiducial (q : Taking) (index : Byte)
  | disableFiducial (q : Taking) (index : Byte)
  | readFiducial (q : Taking) (index : Byte)
  | startRound (q : Taking)
  | stopRound (q : Taking)
  | ackEvent (q : Taking) (source : Byte)
  | raiseTest (q : Taking) (source : Byte)
  | setFloor (q : Taking) (f : Word)
  | setParam (q : Taking) (id : Byte) (value : Word)
  | readStatus (q : Taking) (sect : Byte)
  | restart (q : Taking)
  | unknownRequest (q : Taking) (code : Byte)
  | timeBaseTick
  | srxReturnsHigh
  deriving DecidableEq, Repr

end Sys2Proof
end

