-- ==== Sys2Proof/Decode.lean ====
section
/-! DEFINITION. From the bytes of the two links to commands and back: the check, the frame and form checks (R165, R166, R182 to
R184), the request codes and payloads (section 10.5), and the reading of a word of the opcode table, whose rows give no bits. -/

namespace Sys2Proof

/-! ### The opcode table -/

/-- No row of spec/opcode_table.json gives bits, so no word spells a command (log 25). -/
def decodeTableWord (_nbits _w : Nat) : Option Instr := none

/-! ### Bytes (R182) -/

/-- A field of two bytes, most significant byte first. -/
def half (a b : Byte) : Half := a ++ b

/-- A field of four bytes, most significant byte first. -/
def word (a b c d : Byte) : Word := a ++ b ++ c ++ d

def halfBytes (h : Half) : List Byte := [h.extractLsb' 8 8, h.extractLsb' 0 8]

def wordBytes (w : Word) : List Byte :=
  [w.extractLsb' 24 8, w.extractLsb' 16 8, w.extractLsb' 8 8, w.extractLsb' 0 8]

/-- The byte at an offset of a payload. -/
def byteAt (p : List Byte) (o : Nat) : Byte := p[o]?.getD 0

def halfAt (p : List Byte) (o : Nat) : Half := half (byteAt p o) (byteAt p (o + 1))

def wordAt (p : List Byte) (o : Nat) : Word := word (byteAt p o) (byteAt p (o + 1)) (byteAt p (o + 2)) (byteAt p (o + 3))

/-- A yes/no field: 0 is no, 1 is yes, any other code is none of them. -/
def yesNo (b : Byte) : Option Bool := if b.toNat = 0 then some false else if b.toNat = 1 then some true else none

def yesNoByte (b : Bool) : Byte := if b then 1 else 0

/-! ### The check (R165) -/

/-- One bit of the check: the register shifts left, and the generator polynomial is taken off when a one leaves it. -/
def crcShift (r : Half) : Half := if r.msb then (r <<< 1) ^^^ 0x1021#16 else r <<< 1

/-- One byte, most significant bit first. -/
def crcByte (r : Half) (b : Byte) : Half :=
  crcShift (crcShift (crcShift (crcShift (crcShift (crcShift (crcShift (crcShift (r ^^^ half b 0))))))))

/-- The check of a run of bytes. -/
def crc16 (bytes : List Byte) : Half := bytes.foldl crcByte 0xFFFF#16

/-! ### Frames (R165, R183) -/

/-- A frame's header, less its length, and its payload. -/
structure Frame where
  kind : Byte
  destination : Byte
  payload : List Byte
  deriving DecidableEq, Repr

/-- The three header bytes and the payload. -/
def Frame.checked (f : Frame) : List Byte := [f.kind, f.destination, BitVec.ofNat 8 f.payload.length] ++ f.payload

/-- The bytes of a frame on the line. -/
def Frame.bytes (f : Frame) : List Byte := [0x5A] ++ f.checked ++ halfBytes (crc16 f.checked)

/-- R165: the frame made by the bytes after a start delimiter, up to the idle line, when it passes the check and the length
tests. -/
def frameOf (bytes : List Byte) : Option Frame :=
  match bytes with
  | kind :: destination :: length :: rest =>
    let payload := rest.take (rest.length - 2)
    let check := rest.drop (rest.length - 2)
    if 2 ≤ rest.length ∧ length.toNat ≤ 240 ∧ length.toNat = payload.length ∧
        check = halfBytes (crc16 ([kind, destination, length] ++ payload)) then
      some ⟨kind, destination, payload⟩
    else none
  | _ => none

/-- The bytes from the start delimiter on, without it; `none` where a run of characters holds no start delimiter. -/
def afterDelimiter : List Byte → Option (List Byte)
  | [] => none
  | b :: rest => if b.toNat = 0x5A then some rest else afterDelimiter rest

/-! ### The head link (R166, R183) -/

/-- A SAMPLE payload, with its form check. -/
def parseSample (p : List Byte) : Option Sample :=
  if p.length = 25 ∨ p.length = 30 then
    match yesNo (byteAt p 17), yesNo (byteAt p 24) with
    | some ok, some home =>
      if (halfAt p 22).toNat ≤ 4095 then
        some
          { seq := byteAt p 0, timestamp := wordAt p 1, azRaw := wordAt p 5, elRaw := wordAt p 9, ifmCount := wordAt p 13,
            ifmOk := ok, psdX := halfAt p 18, psdY := halfAt p 20, intensity := (halfAt p 22).extractLsb' 0 12,
            atHome := home, adm := if p.length = 30 then some (wordAt p 25, byteAt p 29) else none }
      else none
    | _, _ => none
  else none

/-- The ADM part. -/
def admBytes (o : Option (Word × Byte)) : List Byte :=
  match o with
  | some a => wordBytes a.1 ++ [a.2]
  | none => []

def samplePayload (f : Sample) : List Byte :=
  [f.seq] ++ wordBytes f.timestamp ++ wordBytes f.azRaw ++ wordBytes f.elRaw ++ wordBytes f.ifmCount ++ [yesNoByte f.ifmOk] ++
    halfBytes f.psdX ++ halfBytes f.psdY ++ halfBytes (f.intensity.setWidth 16) ++ [yesNoByte f.atHome] ++ admBytes f.adm

/-- drive_state: DISABLED 0, ENABLED 1. -/
def driveOf (b : Byte) : Option DriveState :=
  if b.toNat = 0 then some .disabled else if b.toNat = 1 then some .enabled else none

def driveByte : DriveState → Byte
  | .disabled => 0
  | .enabled => 1

/-- A HEAD_STATUS frame, with its form check. -/
def parseHeadStatus (f : Frame) : Option HeadStatus :=
  match f.payload with
  | a :: d :: rest =>
    match yesNo a, driveOf d with
    | some hasAdm, some drive => some ⟨f.destination, hasAdm, drive, rest⟩
    | _, _ => none
  | _ => none

/-- The frame of a head status, as received and as forwarded (R178). -/
def headStatusFrame (h : HeadStatus) : Frame :=
  ⟨0x11, h.destination, [yesNoByte h.hasAdm, driveByte h.driveState] ++ h.remainder⟩

/-- R166: what a received frame is at the head port; `none` is a format error. -/
def headFrameOf (f : Frame) : Option Instr :=
  if f.kind = 0x10 then (parseSample f.payload).map .sample
  else if f.kind = 0x11 then (parseHeadStatus f).map .headStatus
  else none

/-- R165 and R166: the command that a run of characters at HRX makes; none where it holds no start delimiter (log 27). -/
def receiveHead (run : List Byte) : Option Instr :=
  (afterDelimiter run).map fun bytes => ((frameOf bytes).bind headFrameOf).getD (.discardedFrame .head)

/-! ### Requests (R184, section 10.5) -/

/-- The request code. -/
def requestCode : Request → Byte
  | .loadCompBegin _ => 0x01
  | .loadCompData _ _ _ => 0x02
  | .loadCompEnd _ _ => 0x03
  | .setRefraction _ => 0x04
  | .writePose _ _ _ => 0x05
  | .clearPose _ => 0x06
  | .readPose _ => 0x07
  | .selectPose _ => 0x08
  | .establishAdm => 0x09
  | .establishHome => 0x0A
  | .dropDistance => 0x0B
  | .follow => 0x0C
  | .park => 0x0D
  | .goto _ _ _ => 0x0E
  | .writeSteps _ _ => 0x0F
  | .writeSearch _ _ _ _ _ _ => 0x10
  | .appendSteps _ => 0x11
  | .resetStream => 0x12
  | .readSearch _ => 0x13
  | .readSteps _ _ => 0x14
  | .startSearch _ => 0x15
  | .startMeasure _ _ _ _ _ => 0x16
  | .stopMeasure => 0x17
  | .readLatest => 0x18
  | .writeFiducial _ _ => 0x19
  | .enableFiducial _ => 0x1A
  | .disableFiducial _ => 0x1B
  | .readFiducial _ => 0x1C
  | .startRound => 0x1D
  | .stopRound => 0x1E
  | .ackEvent _ => 0x1F
  | .raiseTest _ => 0x20
  | .setFloor _ => 0x21
  | .setParam _ _ => 0x22
  | .readStatus _ => 0x23
  | .restart => 0x24

/-- Whether a code names a request. -/
def codeNamed (code : Byte) : Bool := decide (1 ≤ code.toNat) && decide (code.toNat ≤ 36)

/-- The tag of a REQUEST frame. -/
def frameTag : RequestFrame → Half
  | .named tag _ => tag
  | .unnamed tag _ => tag

/-- The request code of a REQUEST frame. -/
def frameCode : RequestFrame → Byte
  | .named _ r => requestCode r
  | .unnamed _ code => code

/-- `n` compensation entries from an offset. -/
def entriesAt (p : List Byte) (o : Nat) : Nat → List Half
  | 0 => []
  | n + 1 => halfAt p o :: entriesAt p (o + 2) n

/-- `n` steps from an offset. -/
def stepsAt (p : List Byte) (o : Nat) : Nat → List StepField
  | 0 => []
  | n + 1 => ⟨wordAt p o, wordAt p (o + 4), byteAt p (o + 8)⟩ :: stepsAt p (o + 9) n

def poseAt (p : List Byte) (o : Nat) : PoseField :=
  { r11 := wordAt p o, r12 := wordAt p (o + 4), r13 := wordAt p (o + 8), r21 := wordAt p (o + 12), r22 := wordAt p (o + 16),
    r23 := wordAt p (o + 20), r31 := wordAt p (o + 24), r32 := wordAt p (o + 28), r33 := wordAt p (o + 32),
    t1 := wordAt p (o + 36), t2 := wordAt p (o + 40), t3 := wordAt p (o + 44) }

def fiducialAt (p : List Byte) (o : Nat) : FiducialField :=
  { state := byteAt p o, nomX := wordAt p (o + 1), nomY := wordAt p (o + 5), nomZ := wordAt p (o + 9),
    aimAz := wordAt p (o + 13), aimEl := wordAt p (o + 17), tolerance := halfAt p (o + 21), checkMode := byteAt p (o + 23),
    descriptor := byteAt p (o + 24) }

/-- The request that a payload of exactly `n` bytes makes. -/
def ofLength (p : List Byte) (n : Nat) (r : Request) : Option Request := if p.length = n then some r else none

/-- R184: the request of a payload, by its code and the length that section 10.5 gives for it; `none` is a failed form check
or an unknown code. -/
def requestOf (p : List Byte) : Option Request :=
  match (byteAt p 0).toNat with
  | 0x01 => ofLength p 4 (.loadCompBegin (byteAt p 3))
  | 0x02 =>
    ofLength p (6 + 2 * (byteAt p 5).toNat) (.loadCompData (byteAt p 3) (byteAt p 4) (entriesAt p 6 (byteAt p 5).toNat))
  | 0x03 => ofLength p 5 (.loadCompEnd (byteAt p 3) (byteAt p 4))
  | 0x04 => ofLength p 7 (.setRefraction (wordAt p 3))
  | 0x05 => ofLength p 54 (.writePose (byteAt p 3) (poseAt p 4) (halfAt p 52))
  | 0x06 => ofLength p 4 (.clearPose (byteAt p 3))
  | 0x07 => ofLength p 4 (.readPose (byteAt p 3))
  | 0x08 => ofLength p 4 (.selectPose (byteAt p 3))
  | 0x09 => ofLength p 3 .establishAdm
  | 0x0A => ofLength p 3 .establishHome
  | 0x0B => ofLength p 3 .dropDistance
  | 0x0C => ofLength p 3 .follow
  | 0x0D => ofLength p 3 .park
  | 0x0E => ofLength p 12 (.goto (wordAt p 3) (wordAt p 7) (byteAt p 11))
  | 0x0F => ofLength p (6 + 9 * (byteAt p 5).toNat) (.writeSteps (halfAt p 3) (stepsAt p 6 (byteAt p 5).toNat))
  | 0x10 =>
    ofLength p 11
      (.writeSearch (byteAt p 3) (byteAt p 4) (byteAt p 5) (halfAt p 6) (halfAt p 8) (byteAt p 10))
  | 0x11 => ofLength p (4 + 9 * (byteAt p 3).toNat) (.appendSteps (stepsAt p 4 (byteAt p 3).toNat))
  | 0x12 => ofLength p 3 .resetStream
  | 0x13 => ofLength p 4 (.readSearch (byteAt p 3))
  | 0x14 => ofLength p 6 (.readSteps (halfAt p 3) (byteAt p 5))
  | 0x15 => ofLength p 4 (.startSearch (byteAt p 3))
  | 0x16 => ofLength p 17 (.startMeasure (byteAt p 3) (byteAt p 4) (wordAt p 5) (wordAt p 9) (wordAt p 13))
  | 0x17 => ofLength p 3 .stopMeasure
  | 0x18 => ofLength p 3 .readLatest
  | 0x19 => ofLength p 29 (.writeFiducial (byteAt p 3) (fiducialAt p 4))
  | 0x1A => ofLength p 4 (.enableFiducial (byteAt p 3))
  | 0x1B => ofLength p 4 (.disableFiducial (byteAt p 3))
  | 0x1C => ofLength p 4 (.readFiducial (byteAt p 3))
  | 0x1D => ofLength p 3 .startRound
  | 0x1E => ofLength p 3 .stopRound
  | 0x1F => ofLength p 4 (.ackEvent (byteAt p 3))
  | 0x20 => ofLength p 4 (.raiseTest (byteAt p 3))
  | 0x21 => ofLength p 7 (.setFloor (wordAt p 3))
  | 0x22 => ofLength p 8 (.setParam (byteAt p 3) (wordAt p 4))
  | 0x23 => ofLength p 4 (.readStatus (byteAt p 3))
  | 0x24 => ofLength p 3 .restart
  | _ => none

/-- R166, R174: a REQUEST payload; `none` when it is too short to hold a code and a tag. -/
def parseRequest (p : List Byte) : Option RequestFrame :=
  if 3 ≤ p.length then
    some
      (match requestOf p with
       | some r => .named (halfAt p 1) r
       | none => .unnamed (halfAt p 1) (byteAt p 0))
  else none

/-! ### The encoder -/

def stepFieldBytes (f : StepField) : List Byte := wordBytes f.dAz ++ wordBytes f.dEl ++ [f.dwell]

def poseFieldBytes (p : PoseField) : List Byte :=
  wordBytes p.r11 ++ wordBytes p.r12 ++ wordBytes p.r13 ++ wordBytes p.r21 ++ wordBytes p.r22 ++ wordBytes p.r23 ++
    wordBytes p.r31 ++ wordBytes p.r32 ++ wordBytes p.r33 ++ wordBytes p.t1 ++ wordBytes p.t2 ++ wordBytes p.t3

def fiducialFieldBytes (f : FiducialField) : List Byte :=
  [f.state] ++ wordBytes f.nomX ++ wordBytes f.nomY ++ wordBytes f.nomZ ++ wordBytes f.aimAz ++ wordBytes f.aimEl ++
    halfBytes f.tolerance ++ [f.checkMode, f.descriptor]

/-- The count byte of a run. -/
def countByte (n : Nat) : Byte := BitVec.ofNat 8 n

/-- The fields of a request after its tag (section 10.5). -/
def requestFields : Request → List Byte
  | .loadCompBegin table => [table]
  | .loadCompData table start entries => [table, start, countByte entries.length] ++ entries.flatMap halfBytes
  | .loadCompEnd table count => [table, count]
  | .setRefraction n => wordBytes n
  | .writePose index pose label => [index] ++ poseFieldBytes pose ++ halfBytes label
  | .clearPose index => [index]
  | .readPose index => [index]
  | .selectPose index => [index]
  | .establishAdm => []
  | .establishHome => []
  | .dropDistance => []
  | .follow => []
  | .park => []
  | .goto az el thenAction => wordBytes az ++ wordBytes el ++ [thenAction]
  | .writeSteps start steps => halfBytes start ++ [countByte steps.length] ++ steps.flatMap stepFieldBytes
  | .writeSearch index state mode start length repeats =>
    [index, state, mode] ++ halfBytes start ++ halfBytes length ++ [repeats]
  | .appendSteps steps => [countByte steps.length] ++ steps.flatMap stepFieldBytes
  | .resetStream => []
  | .readSearch index => [index]
  | .readSteps start count => halfBytes start ++ [count]
  | .startSearch index => [index]
  | .startMeasure mode mask p1 p2 p3 => [mode, mask] ++ wordBytes p1 ++ wordBytes p2 ++ wordBytes p3
  | .stopMeasure => []
  | .readLatest => []
  | .writeFiducial index fields => [index] ++ fiducialFieldBytes fields
  | .enableFiducial index => [index]
  | .disableFiducial index => [index]
  | .readFiducial index => [index]
  | .startRound => []
  | .stopRound => []
  | .ackEvent source => [source]
  | .raiseTest source => [source]
  | .setFloor f => wordBytes f
  | .setParam id value => [id] ++ wordBytes value
  | .readStatus sect => [sect]
  | .restart => []

/-- A REQUEST payload. -/
def requestPayload (tag : Half) (r : Request) : List Byte := [requestCode r] ++ halfBytes tag ++ requestFields r

/-! ### The station link (R166) -/

/-- R166: what a received frame is at the station port while SERVICE has the given level; `none` is a format error. -/
def stationFrameOf (service : Bool) (f : Frame) : Option Instr :=
  if f.destination = 0x01 then
    if f.kind = 0x30 then (parseRequest f.payload).map (.requestFrame service) else none
  else if f.destination = 0x02 then some (.forwardFrame ⟨f.kind, f.payload⟩)
  else none

/-- R165 and R166: the command that a run of characters at SRX makes; none where it holds no start delimiter (log 27). -/
def receiveStation (service : Bool) (run : List Byte) : Option Instr :=
  (afterDelimiter run).map fun bytes => ((frameOf bytes).bind (stationFrameOf service)).getD (.discardedFrame .station)

end Sys2Proof
end

