-- ==== Sys2Proof/Config.lean ====
section
/-! DEFINITION. The free values: what the spec leaves open and nothing in the model may know. None has a body. -/

namespace Sys2Proof

/-- R23: which of the allowed values the part delivers for the sine of an angle (0 to 4,319,999 counts). Free value, log 8. -/
opaque Config.sinRound : Nat → Fin 3

/-- R23: which of the allowed values the part delivers for the cosine of an angle. Free value, log 8. -/
opaque Config.cosRound : Nat → Fin 3

/-- R152: whether the round unit's release comes before the distance unit's own action on a HEAD_SILENT assertion.
The argument counts the free values consumed so far. Free value, log 9. -/
opaque Config.releaseFirst : Nat → Bool

/-- The order in which timers that reach 0 on one tick are handled: those of smaller rank come first. The first argument counts
the free values consumed so far, the second is the timer. Free value, log 4. -/
opaque Config.expiryRank : Nat → Nat → Nat

/-- R173 and R161: whether the held request gets a freed place of the output queue before the event arbiter.
The argument counts the free values consumed so far. Free value, log 10. -/
opaque Config.requestFirst : Nat → Bool

end Sys2Proof
end

