-- ==== Sys2Proof/Machine/State.lean ====
section
/-! DEFINITION. The state of the part, block by block (spec/00_scope.md), its value after power-on reset (R181 and the reset
tables of the chapters), and the reasons a step can stop (there is none). -/

namespace Sys2Proof.Machine

/-! ### Correction unit (chapter 1) -/

/-- Load state of a compensation table (R9). -/
inductive LoadState where
  | empty
  | loading
  | loaded
  deriving DecidableEq, Repr

/-- One compensation table: load state, 240 entries in counts and the written-index set as 240 membership bits (R9). -/
structure CompTable where
  load : LoadState
  entries : Vector Int 240
  written : Vector Bool 240
  deriving DecidableEq, Repr

/-- The two compensation tables, by their codes AZC and ELC. -/
inductive Axis where
  | azc
  | elc
  deriving DecidableEq, Repr

structure CorrectionUnit where
  azc : CompTable
  elc : CompTable
  /-- N in ppb (R19). -/
  refraction : Int
  /-- Age of N in ms, saturating at 2^32 - 1 (R21). -/
  age : Nat
  /-- The latest elevation pair (R25). -/
  cosEl : Int
  sinEl : Int
  /-- The bad-sample counter (R3). -/
  badSamples : Nat
  deriving DecidableEq, Repr

/-! ### Pose table (chapter 2) -/

inductive PoseState where
  | empty
  | valid
  deriving DecidableEq, Repr

/-- Three signed components: a row of a rotation, a translation or a position. -/
structure Triple where
  c1 : Int
  c2 : Int
  c3 : Int
  deriving DecidableEq, Repr

/-- A rotation by rows, entries scaled by 2^30 (R26). -/
structure Rotation where
  row1 : Triple
  row2 : Triple
  row3 : Triple
  deriving DecidableEq, Repr

structure PoseEntry where
  state : PoseState
  rot : Rotation
  trans : Triple
  label : Half
  writeCount : Nat
  deriving DecidableEq, Repr

structure PoseTable where
  entries : Vector PoseEntry 8
  active : Option (Fin 8)
  deriving DecidableEq, Repr

/-! ### Distance unit (chapter 3) -/

/-- Source of a distance base, and kind of a wait. -/
inductive DistanceSource where
  | adm
  | home
  deriving DecidableEq, Repr

inductive WaitOwner where
  | station
  | follower
  | round
  deriving DecidableEq, Repr

/-- The distance state with the items held in it (R42): an item absent in a state is no field of that state. -/
inductive DistanceState where
  | none
  | awaitAdm (owner : WaitOwner) (timer : Nat)
  | awaitHome (owner : WaitOwner) (homeCopy timer : Nat)
  | established (source : DistanceSource) (baseOpt : Nat) (baseCount : Word)
  deriving DecidableEq, Repr

inductive LossCause where
  | none
  | sample
  | fault
  | silence
  | follower
  deriving DecidableEq, Repr

inductive WaitOutcome where
  | none
  | established
  | timedOut
  | cancelled
  deriving DecidableEq, Repr

structure DistanceUnit where
  state : DistanceState
  lastLoss : LossCause
  lastWaitKind : DistanceSource
  lastWaitOutcome : WaitOutcome
  homeDistance : Nat
  admQualityMin : Nat
  autoAdm : Bool
  deriving DecidableEq, Repr

/-! ### Follower (chapter 4) -/

inductive FollowerState where
  | parked
  | aiming
  | following
  | holding
  | searching
  | lost
  deriving DecidableEq, Repr

inductive ThenAction where
  | follow
  | hold
  deriving DecidableEq, Repr

inductive AimOwner where
  | station
  | round
  deriving DecidableEq, Repr

/-- The aim record with its timer (R65). -/
structure Aim where
  az : Int
  el : Int
  thenAction : ThenAction
  owner : AimOwner
  timer : Nat
  deriving DecidableEq, Repr

/-- A pair of angles in counts. -/
structure Angles where
  az : Int
  el : Int
  deriving DecidableEq, Repr

structure Follower where
  /-- The last presence decision: `true` is PRESENT (R61). -/
  present : Bool
  lastAngles : Option Angles
  state : FollowerState
  followPending : Bool
  grace : Option Nat
  aim : Option Aim
  arrivalRun : Nat
  acqRun : Nat
  iAz : Int
  iEl : Int
  kpAz : Int
  kpEl : Int
  kiAz : Int
  kiEl : Int
  tOn : Nat
  tOff : Nat
  graceParam : Nat
  autoSearch : Option (Fin 8)
  deriving DecidableEq, Repr

/-! ### Search unit (chapter 5) -/

structure Step where
  dAz : Int
  dEl : Int
  dwell : Nat
  deriving DecidableEq, Repr

inductive SearchMode where
  | block
  | stream
  deriving DecidableEq, Repr

structure Descriptor where
  ready : Bool
  mode : SearchMode
  start : Nat
  length : Nat
  repeats : Nat
  deriving DecidableEq, Repr

inductive SearchOwner where
  | follower
  | round
  deriving DecidableEq, Repr

/-- What a search plays: a block pass with its step position and the repeats remaining, or the stream ring (R98: both items
are absent in STREAM). -/
inductive SearchPlay where
  | block (position repeats : Nat)
  | stream
  deriving DecidableEq, Repr

/-- The active search record (R98). -/
structure ActiveSearch where
  descriptor : Fin 8
  play : SearchPlay
  centre : Angles
  target : Angles
  dwell : Nat
  owner : SearchOwner
  deriving DecidableEq, Repr

structure SearchUnit where
  store : Vector Step 512
  ringRead : Nat
  ringFill : Nat
  descriptors : Vector Descriptor 8
  active : Option ActiveSearch
  margin : Nat
  deriving DecidableEq, Repr

/-! ### Emitter (chapter 6) -/

/-- The frame a point is given in (R40). -/
inductive CoordFrame where
  | tracker
  | block (pose : Fin 8)
  deriving DecidableEq, Repr

/-- A frame with coordinates in it: an anchor (R110). -/
structure Anchor where
  frame : CoordFrame
  pos : Triple
  deriving DecidableEq, Repr

/-- The three flags of a point (R127). -/
structure PointFlags where
  uncompensated : Bool
  outOfRange : Bool
  refractionStale : Bool
  deriving DecidableEq, Repr

/-- The averaging items of a SINGLE (R118). -/
structure Averaging where
  count : Nat
  sum : Triple
  least : Triple
  greatest : Triple
  flags : PointFlags
  deriving DecidableEq, Repr

inductive SinglePhase where
  | settling
  | averaging (avg : Averaging)
  deriving DecidableEq, Repr

structure SingleMeasure where
  n : Nat
  tol : Nat
  settle : Nat
  phase : SinglePhase
  anchor : Option Anchor
  window : Nat
  settleTotal : Nat
  timer : Nat
  deriving DecidableEq, Repr

/-- A trigger capture (R125). -/
structure Capture where
  timeMs : Word
  timestamp : Word
  deriving DecidableEq, Repr

/-- The emission mode with the items present in it (R110). In TRIGGERED the pending mark is set exactly while a capture is
held. -/
inductive EmissionMode where
  | idle
  | single (m : SingleMeasure)
  | stream (m count : Nat)
  | spaced (s : Nat) (anchor : Option Anchor)
  | triggered (capture : Option Capture)
  deriving DecidableEq, Repr

/-- The content of the latest-point slot (R112). -/
structure LatestPoint where
  seq : Byte
  timestamp : Word
  at_ : Anchor
  flags : PointFlags
  source : DistanceSource
  deriving DecidableEq, Repr

structure Emitter where
  mode : EmissionMode
  latestTimestamp : Option Word
  latest : Option LatestPoint
  fresh : Bool
  sequence : Half
  polarity : Edge
  deriving DecidableEq, Repr

/-! ### Round unit (chapter 7) -/

inductive FiducialState where
  | unused
  | enabled
  | disabled
  deriving DecidableEq, Repr

inductive CheckMode where
  | position
  | presence
  deriving DecidableEq, Repr

/-- Measured position and deviation (R131). -/
structure Measured where
  pos : Triple
  dev : Triple
  deriving DecidableEq, Repr

/-- The last result of an entry; measured and deviation are held with IN_TOL and OUT_TOL only (R131). -/
inductive FiducialResult where
  | never
  | inTol (m : Measured)
  | outTol (m : Measured)
  | notFound
  deriving DecidableEq, Repr

structure FiducialEntry where
  state : FiducialState
  nominal : Triple
  aim : Angles
  tolerance : Nat
  checkMode : CheckMode
  descriptor : Option (Fin 8)
  result : FiducialResult
  resultRound : Option Nat
  deriving DecidableEq, Repr

inductive SlotPhase where
  | aim
  | acquire
  | search
  | centre
  | adm
  | average
  deriving DecidableEq, Repr

/-- A pending result (R149): the entry, its result, and the new aim angles of a found nest. -/
structure PendingResult where
  entry : Fin 16
  result : FiducialResult
  newAim : Option Angles
  deriving DecidableEq, Repr

/-- What is held while the round state is RUNNING (R136). -/
structure RunningRound where
  slots : List (Fin 16)
  current : Fin 16
  phase : SlotPhase
  slotTimer : Nat
  avgCount : Nat
  sums : Triple
  results : List PendingResult
  deriving DecidableEq, Repr

inductive RoundState where
  | idle
  | due
  | running (r : RunningRound)
  deriving DecidableEq, Repr

inductive AbortReason where
  | stopped
  | parked
  | drives
  | silent
  | restart
  | noPose
  | noAdm
  | state
  deriving DecidableEq, Repr

inductive RoundSummary where
  | none
  | completed (round outTol notFound : Nat)
  | aborted (reason : AbortReason)
  deriving DecidableEq, Repr

structure RoundUnit where
  table : Vector FiducialEntry 16
  roundNumber : Nat
  state : RoundState
  returnAngles : Option Angles
  /-- The round period in minutes; 0 is off (R137). -/
  period : Nat
  returnOn : Bool
  /-- Milliseconds left; 0 is stopped (R137). -/
  periodTimer : Nat
  summary : RoundSummary
  deriving DecidableEq, Repr

/-! ### Event unit (chapter 8) -/

/-- The 24 event sources in order of number (R154). -/
inductive Source where
  | headSilent
  | distanceLost
  | distanceFault
  | beamAbsent
  | drift
  | searchExhausted
  | searchStarved
  | patternLow
  | admTimeout
  | reacquired
  | aimTimeout
  | drivesDisabled
  | measureAborted
  | measureTimeout
  | roundAborted
  | queueCongested
  | headOverrun
  | stationOverrun
  | frameError
  | roundDone
  | refractionStale
  | uncompensated
  | triggerLost
  | roundDue
  deriving DecidableEq, Repr

/-- The items the event unit holds for one source (R154). Latch, count and latch time belong to edge sources, the genuine
condition and the change time to level sources; the others of a source stay at their reset value. -/
structure SourceState where
  latch : Bool
  count : Nat
  latchTime : Word
  genuine : Bool
  changeTime : Word
  testMark : Bool
  reported : Bool
  deriving DecidableEq, Repr

structure EventUnit where
  sources : Vector SourceState 24
  floor : Nat
  deriving DecidableEq, Repr

/-! ### Records and outgoing frames -/

/-- A STEER frame (R88, R183). -/
inductive Steer where
  | hold
  | follow (azDrive elDrive : Int)
  | position (az el : Int)
  deriving DecidableEq, Repr

/-- A frame on HTX. -/
inductive HeadFrame where
  | steer (f : Steer)
  | forward (f : ForwardFrame)
  deriving DecidableEq, Repr

/-- The kind of a point record with the optional part that belongs to it (R127). -/
inductive PointKind where
  | single (spread settleSamples : Nat)
  | stream
  | spaced
  | triggered (timeMs timestamp : Word)
  deriving DecidableEq, Repr

structure PointRecord where
  sequence : Half
  timestamp : Word
  kind : PointKind
  at_ : Anchor
  flags : PointFlags
  source : DistanceSource
  samples : Nat
  deriving DecidableEq, Repr

inductive Transition where
  | latched
  | asserted
  | deasserted
  deriving DecidableEq, Repr

/-- An event record's fields that are not fixed by its source (R159); the name code, level and sensitivity are. -/
structure EventRecord where
  source : Source
  transition : Transition
  count : Nat
  testMark : Bool
  time : Word
  deriving DecidableEq, Repr

/-- result (section 10.4), with the reason of a refusal. -/
inductive RefuseReason where
  | busy
  | range
  | authority
  | state
  | noPose
  | noAdm
  | poseActive
  | poseInvalid
  | incomplete
  | unknown
  deriving DecidableEq, Repr

inductive ReplyResult where
  | ok
  | okClamped
  | refused (reason : RefuseReason)
  deriving DecidableEq, Repr

/-- One value of a reply's data: its width in bytes and its value (R184). -/
structure Datum where
  width : Nat
  value : Int
  deriving DecidableEq, Repr

structure Reply where
  tag : Half
  code : Byte
  result : ReplyResult
  data : List Datum
  deriving DecidableEq, Repr

/-- A record of the output queue (R177). -/
inductive Record where
  | point (p : PointRecord)
  | event (e : EventRecord)
  | reply (r : Reply)
  | headStatus (h : HeadStatus)
  deriving DecidableEq, Repr

/-! ### Ports (chapter 9) -/

structure HeadPort where
  rx : List Sample
  slot : Option Steer
  forward : List ForwardFrame
  /-- The frame in transmission on HTX (R171). -/
  tx : Option HeadFrame
  /-- R168. The genuine HEAD_SILENT condition is true exactly while this is 0. -/
  silenceTimer : Nat
  hasAdm : Bool
  driveState : DriveState
  frameErrors : Nat
  overruns : Nat
  forwardDrops : Nat
  superseded : Nat
  deriving DecidableEq, Repr

/-- A frame of the station receive queue (R172). -/
inductive StationFrame where
  | request (r : RequestFrame)
  | forward (f : ForwardFrame)
  deriving DecidableEq, Repr

/-- What STX is sending: the front record of the output queue, or a record that a restart discarded while its frame was on
the line (R178, R180). -/
inductive Sending where
  | front
  | discarded (r : Record)
  deriving DecidableEq, Repr

structure StationPort where
  rx : List StationFrame
  slot : Option RequestFrame
  out : List Record
  tx : Option Sending
  /-- The break detector is armed; otherwise it waits for SRX to return high (R179, R181). -/
  breakArmed : Bool
  /-- SRX is held low by a break (R179). -/
  srxLow : Bool
  frameErrors : Nat
  overruns : Nat
  droppedPoints : Nat
  droppedStatus : Nat
  deriving DecidableEq, Repr

/-- The whole part. `freeCount` and `pending` are the model's own fields. -/
structure State where
  correction : CorrectionUnit
  poses : PoseTable
  distance : DistanceUnit
  follower : Follower
  search : SearchUnit
  emitter : Emitter
  round : RoundUnit
  events : EventUnit
  head : HeadPort
  station : StationPort
  /-- Milliseconds since the end of the last power-on reset, wrapping (R176). -/
  localTime : Word
  /-- The level of the SERVICE pin as last sampled (log 2). -/
  service : Bool
  /-- The model's own: how many free values have been consumed (log 18). -/
  freeCount : Nat
  /-- The model's own: the commands that are waiting, first in, first out. -/
  pending : List Instr
  deriving DecidableEq, Repr

/-- The part never stops with a fault: bad frames, refused requests and lost frames are all answered or counted (R165, R174,
R167). -/
inductive Fault where
  deriving DecidableEq, Repr

/-- The reasons a command has no meaning. -/
inductive Refusal where
  /-- Raised by an arm of `exec` whose row has no meaning yet; safe. No arm raises it. -/
  | notModelled (mnemonic : String)
  deriving DecidableEq, Repr

/-! ### Reset -/

/-- 2^30, which stands for 1.0. -/
def one30 : Int := 1073741824

def zero3 : Triple := ⟨0, 0, 0⟩

/-- R9: a table after power-on reset, and after a failed end. -/
def CompTable.blank : CompTable :=
  { load := .empty, entries := Vector.replicate 240 0, written := Vector.replicate 240 false }

/-- Section 1.7, power-on. -/
def CorrectionUnit.reset : CorrectionUnit :=
  { azc := .blank, elc := .blank, refraction := 270000, age := 4294967295, cosEl := one30, sinEl := 0, badSamples := 0 }

/-- R26, power-on. -/
def PoseEntry.blank : PoseEntry :=
  { state := .empty, rot := ⟨zero3, zero3, zero3⟩, trans := zero3, label := 0, writeCount := 0 }

/-- Section 2.6, power-on. -/
def PoseTable.reset : PoseTable := { entries := Vector.replicate 8 .blank, active := none }

/-- Section 3.8, power-on. -/
def DistanceUnit.reset : DistanceUnit :=
  { state := .none, lastLoss := .none, lastWaitKind := .adm, lastWaitOutcome := .none, homeDistance := 0,
    admQualityMin := 160, autoAdm := true }

/-- R61, R64, R65 and R84, power-on. -/
def Follower.reset : Follower :=
  { present := false, lastAngles := none, state := .parked, followPending := false, grace := none, aim := none,
    arrivalRun := 0, acqRun := 0, iAz := 0, iEl := 0, kpAz := 640, kpEl := 640, kiAz := 48, kiEl := 48, tOn := 600,
    tOff := 400, graceParam := 20, autoSearch := some 0 }

/-- Section 5.10, power-on. -/
def SearchUnit.reset : SearchUnit :=
  { store := Vector.replicate 512 ⟨0, 0, 1⟩, ringRead := 0, ringFill := 0,
    descriptors := Vector.replicate 8 { ready := false, mode := .block, start := 0, length := 1, repeats := 0 },
    active := none, margin := 16 }

/-- Section 6.9, power-on. -/
def Emitter.reset : Emitter :=
  { mode := .idle, latestTimestamp := none, latest := none, fresh := false, sequence := 0, polarity := .rising }

/-- R131, power-on. -/
def FiducialEntry.blank : FiducialEntry :=
  { state := .unused, nominal := zero3, aim := ⟨0, 0⟩, tolerance := 10, checkMode := .position, descriptor := none,
    result := .never, resultRound := none }

/-- Section 7.8, power-on. -/
def RoundUnit.reset : RoundUnit :=
  { table := Vector.replicate 16 .blank, roundNumber := 0, state := .idle, returnAngles := none, period := 0,
    returnOn := true, periodTimer := 0, summary := .none }

/-- A source with everything clear and its genuine condition at `g`, changed at time `t` (R162, R163). -/
def SourceState.cleared (g : Bool) (t : Word) : SourceState :=
  { latch := false, count := 0, latchTime := 0, genuine := g, changeTime := t, testMark := false, reported := false }

/-- R162, power-on: DRIVES_DISABLED (number 12), REFRACTION_STALE (21) and UNCOMPENSATED (22) are true. -/
def EventUnit.reset : EventUnit :=
  { sources := (((Vector.replicate 24 (.cleared false 0)).set 11 (.cleared true 0)).set 20 (.cleared true 0)).set 21
      (.cleared true 0),
    floor := 0 }

/-- R167 to R171 and R181, power-on. -/
def HeadPort.reset : HeadPort :=
  { rx := [], slot := none, forward := [], tx := none, silenceTimer := 20, hasAdm := false, driveState := .disabled,
    frameErrors := 0, overruns := 0, forwardDrops := 0, superseded := 0 }

/-- R172 to R181, power-on. -/
def StationPort.reset : StationPort :=
  { rx := [], slot := none, out := [], tx := none, breakArmed := false, srxLow := false, frameErrors := 0, overruns := 0,
    droppedPoints := 0, droppedStatus := 0 }

/-- The part right after power-on reset (R181). The SERVICE level and `freeCount` are the model's choices (log 2, log 18). -/
def State.reset : State :=
  { correction := .reset, poses := .reset, distance := .reset, follower := .reset, search := .reset, emitter := .reset,
    round := .reset, events := .reset, head := .reset, station := .reset, localTime := 0, service := false, freeCount := 0,
    pending := [] }

end Sys2Proof.Machine
end

