-- ==== Sys2Proof/Machine/Operands.lean ====
section
/-! DEFINITION. The operand forms: the integer arithmetic every block uses, the ranges of fields, and the reading of
enumerated and index fields (spec/00_scope.md "Units and number conventions", R182, section 10.4). -/

namespace Sys2Proof.Machine

/-! ### Integer arithmetic -/

/-- Clamping a value to a range. -/
def clamp (lo hi x : Int) : Int := if x < lo then lo else if hi < x then hi else x

/-- Round a quotient: half the divisor is added, then floor division. Exact halves go toward plus infinity. -/
def roundDiv (a b : Int) : Int := (a + b / 2) / b

/-- One more in a counter that holds at `cap`. -/
def countUp (cap n : Nat) : Nat := if n < cap then n + 1 else cap

/-- One more in a 16-bit saturating counter. -/
def count16 (n : Nat) : Nat := countUp 65535 n

/-- One revolution in counts. -/
def revolution : Int := 4320000

/-- The least and greatest raw elevation in counts. -/
def elMin : Int := -720000
def elMax : Int := 960000

/-- Whether an integer lies in a range, ends included. -/
def inRange (lo hi x : Int) : Bool := decide (lo ≤ x) && decide (x ≤ hi)

/-- The raw range of an azimuth. -/
def azInRange (az : Int) : Bool := inRange 0 4319999 az

/-- The raw range of an elevation. -/
def elInRange (el : Int) : Bool := inRange elMin elMax el

/-- Sum of three products. -/
def dot (a b : Triple) : Int := a.c1 * b.c1 + a.c2 * b.c2 + a.c3 * b.c3

def Triple.add (a b : Triple) : Triple := ⟨a.c1 + b.c1, a.c2 + b.c2, a.c3 + b.c3⟩

def Triple.sub (a b : Triple) : Triple := ⟨a.c1 - b.c1, a.c2 - b.c2, a.c3 - b.c3⟩

def Triple.lower (a b : Triple) : Triple := ⟨min a.c1 b.c1, min a.c2 b.c2, min a.c3 b.c3⟩

def Triple.upper (a b : Triple) : Triple := ⟨max a.c1 b.c1, max a.c2 b.c2, max a.c3 b.c3⟩

/-- Every component within ±k. -/
def Triple.within (k : Int) (a : Triple) : Bool := inRange (-k) k a.c1 && inRange (-k) k a.c2 && inRange (-k) k a.c3

/-! ### Index fields -/

/-- An index of eight (poses, descriptors). -/
def index8 (b : Byte) : Option (Fin 8) := if h : b.toNat < 8 then some ⟨b.toNat, h⟩ else none

/-- An index of sixteen (fiducials). -/
def index16 (b : Byte) : Option (Fin 16) := if h : b.toNat < 16 then some ⟨b.toNat, h⟩ else none

/-- An index of eight or NONE, which is coded 255 (R182). The outer `none` is a code outside the list. -/
def index8OrNone (b : Byte) : Option (Option (Fin 8)) :=
  if b.toNat = 255 then some none else (index8 b).map some

/-! ### Enumerated fields, in code order (section 10.4) -/

def axisOf (b : Byte) : Option Axis :=
  match b.toNat with
  | 0 => some .azc
  | 1 => some .elc
  | _ => none

def thenOf (b : Byte) : Option ThenAction :=
  match b.toNat with
  | 0 => some .follow
  | 1 => some .hold
  | _ => none

/-- Descriptor state: `true` is READY. -/
def readyOf (b : Byte) : Option Bool :=
  match b.toNat with
  | 0 => some false
  | 1 => some true
  | _ => none

def searchModeOf (b : Byte) : Option SearchMode :=
  match b.toNat with
  | 0 => some .block
  | 1 => some .stream
  | _ => none

/-- The states a WRITE_FIDUCIAL may give; UNUSED (0) is not one of them (R132). -/
def fiducialStateOf (b : Byte) : Option FiducialState :=
  match b.toNat with
  | 1 => some .enabled
  | 2 => some .disabled
  | _ => none

def checkModeOf (b : Byte) : Option CheckMode :=
  match b.toNat with
  | 0 => some .position
  | 1 => some .presence
  | _ => none

/-- ON/OFF as a parameter value: OFF 0, ON 1. -/
def onOffOf (v : Int) : Option Bool := if v = 0 then some false else if v = 1 then some true else none

def edgeOf (v : Int) : Option Edge := if v = 0 then some .rising else if v = 1 then some .falling else none

/-- The auto-search descriptor as a parameter value: 0 to 7, or 255 for NONE (section 10.4). -/
def descriptorParamOf (v : Int) : Option (Option (Fin 8)) :=
  if v = 255 then some none
  else if h : 0 ≤ v ∧ v < 8 then some (some ⟨v.toNat, by omega⟩)
  else none

/-! ### Steps -/

/-- The range check of one step (R90). -/
def stepInRange (f : StepField) : Bool :=
  inRange (-36000) 36000 f.dAz.toInt && inRange (-36000) 36000 f.dEl.toInt &&
    (decide (1 ≤ f.dwell.toNat) && decide (f.dwell.toNat ≤ 16))

def stepOf (f : StepField) : Step := ⟨f.dAz.toInt, f.dEl.toInt, f.dwell.toNat⟩

/-! ### Codes on output (section 10.4) -/

def codeBool (b : Bool) : Int := if b then 1 else 0

/-- An index that may be NONE (R182). -/
def codeIndex8 (o : Option (Fin 8)) : Int :=
  match o with
  | some i => i.val
  | none => 255

def LoadState.code : LoadState → Int
  | .empty => 0
  | .loading => 1
  | .loaded => 2

def PoseState.code : PoseState → Int
  | .empty => 0
  | .valid => 1

def DistanceSource.code : DistanceSource → Int
  | .adm => 0
  | .home => 1

def DistanceState.code : DistanceState → Int
  | .none => 0
  | .awaitAdm _ _ => 1
  | .awaitHome _ _ _ => 2
  | .established _ _ _ => 3

def LossCause.code : LossCause → Int
  | .none => 0
  | .sample => 1
  | .fault => 2
  | .silence => 3
  | .follower => 4

def WaitOwner.code : WaitOwner → Int
  | .station => 0
  | .follower => 1
  | .round => 2

def WaitOutcome.code : WaitOutcome → Int
  | .none => 0
  | .established => 1
  | .timedOut => 2
  | .cancelled => 3

def FollowerState.code : FollowerState → Int
  | .parked => 0
  | .aiming => 1
  | .following => 2
  | .holding => 3
  | .searching => 4
  | .lost => 5

def ThenAction.code : ThenAction → Int
  | .follow => 0
  | .hold => 1

def AimOwner.code : AimOwner → Int
  | .station => 0
  | .round => 1

def SearchOwner.code : SearchOwner → Int
  | .follower => 0
  | .round => 1

def SearchMode.code : SearchMode → Int
  | .block => 0
  | .stream => 1

def EmissionMode.code : EmissionMode → Int
  | .idle => 0
  | .single _ => 1
  | .stream _ _ => 2
  | .spaced _ _ => 3
  | .triggered _ => 4

def SinglePhase.code : SinglePhase → Int
  | .settling => 0
  | .averaging _ => 1

def RoundState.code : RoundState → Int
  | .idle => 0
  | .due => 1
  | .running _ => 2

def SlotPhase.code : SlotPhase → Int
  | .aim => 0
  | .acquire => 1
  | .search => 2
  | .centre => 3
  | .adm => 4
  | .average => 5

/-- round abort reason, of which code 0 is none. -/
def AbortReason.code : AbortReason → Int
  | .stopped => 1
  | .parked => 2
  | .drives => 3
  | .silent => 4
  | .restart => 5
  | .noPose => 6
  | .noAdm => 7
  | .state => 8

def FiducialState.code : FiducialState → Int
  | .unused => 0
  | .enabled => 1
  | .disabled => 2

def CheckMode.code : CheckMode → Int
  | .position => 0
  | .presence => 1

def FiducialResult.code : FiducialResult → Int
  | .never => 0
  | .inTol _ => 1
  | .outTol _ => 2
  | .notFound => 3

def driveCode : DriveState → Int
  | .disabled => 0
  | .enabled => 1

def edgeCode : Edge → Int
  | .rising => 0
  | .falling => 1

/-- The frame field of a point: 0 to 7 for BLOCK, 255 for TRACKER (R184). -/
def CoordFrame.code : CoordFrame → Int
  | .tracker => 255
  | .block i => i.val

/-- The flags of a point, summed (R184). -/
def PointFlags.code (f : PointFlags) : Int :=
  codeBool f.uncompensated + 2 * codeBool f.outOfRange + 4 * codeBool f.refractionStale

def RefuseReason.code : RefuseReason → Int
  | .busy => 1
  | .range => 2
  | .authority => 3
  | .state => 4
  | .noPose => 5
  | .noAdm => 6
  | .poseActive => 7
  | .poseInvalid => 8
  | .incomplete => 9
  | .unknown => 10

def ReplyResult.code : ReplyResult → Int
  | .ok => 0
  | .okClamped => 1
  | .refused _ => 2

/-- 0 when the result is not REFUSED (R184). -/
def ReplyResult.reasonCode : ReplyResult → Int
  | .refused r => r.code
  | .ok => 0
  | .okClamped => 0

def Transition.code : Transition → Int
  | .latched => 0
  | .asserted => 1
  | .deasserted => 2

end Sys2Proof.Machine
end

