-- ==== Sys2Proof/Machine/Setters.lean ====
section
/-! DEFINITION. One setter per block of the state; Laws/State.lean holds their lemmas. -/

namespace Sys2Proof.Machine

def State.setCorrection (s : State) (x : CorrectionUnit) : State := { s with correction := x }
def State.setPoses (s : State) (x : PoseTable) : State := { s with poses := x }
def State.setDistance (s : State) (x : DistanceUnit) : State := { s with distance := x }
def State.setFollower (s : State) (x : Follower) : State := { s with follower := x }
def State.setSearch (s : State) (x : SearchUnit) : State := { s with search := x }
def State.setEmitter (s : State) (x : Emitter) : State := { s with emitter := x }
def State.setRound (s : State) (x : RoundUnit) : State := { s with round := x }
def State.setEvents (s : State) (x : EventUnit) : State := { s with events := x }
def State.setHead (s : State) (x : HeadPort) : State := { s with head := x }
def State.setStation (s : State) (x : StationPort) : State := { s with station := x }
def State.setLocalTime (s : State) (x : Word) : State := { s with localTime := x }
def State.setService (s : State) (x : Bool) : State := { s with service := x }
def State.setFreeCount (s : State) (x : Nat) : State := { s with freeCount := x }
def State.setPending (s : State) (x : List Instr) : State := { s with pending := x }

end Sys2Proof.Machine
end

