-- ==== Sys2Proof/Machine/Flags.lean ====
section
/-! DEFINITION. The event unit's flags: the sources, the conditions their owners report, latches, marks and the report floor
(chapter 8). -/

namespace Sys2Proof.Machine

/-! ### The table of sources (R154) -/

/-- The sources in order of number; the position is the number less one. -/
def Source.all : List Source :=
  [.headSilent, .distanceLost, .distanceFault, .beamAbsent, .drift, .searchExhausted, .searchStarved, .patternLow,
   .admTimeout, .reacquired, .aimTimeout, .drivesDisabled, .measureAborted, .measureTimeout, .roundAborted,
   .queueCongested, .headOverrun, .stationOverrun, .frameError, .roundDone, .refractionStale, .uncompensated,
   .triggerLost, .roundDue]

/-- The source's number less one. -/
def Source.idx : Source → Fin 24
  | .headSilent => 0
  | .distanceLost => 1
  | .distanceFault => 2
  | .beamAbsent => 3
  | .drift => 4
  | .searchExhausted => 5
  | .searchStarved => 6
  | .patternLow => 7
  | .admTimeout => 8
  | .reacquired => 9
  | .aimTimeout => 10
  | .drivesDisabled => 11
  | .measureAborted => 12
  | .measureTimeout => 13
  | .roundAborted => 14
  | .queueCongested => 15
  | .headOverrun => 16
  | .stationOverrun => 17
  | .frameError => 18
  | .roundDone => 19
  | .refractionStale => 20
  | .uncompensated => 21
  | .triggerLost => 22
  | .roundDue => 23

/-- The source of a number 1 to 24. -/
def Source.ofNumber (n : Nat) : Option Source := if n = 0 then none else Source.all[n - 1]?

/-- The fixed level. -/
def Source.level : Source → Nat
  | .headSilent => 15
  | .distanceLost => 15
  | .distanceFault => 12
  | .beamAbsent => 12
  | .drift => 11
  | .searchExhausted => 10
  | .searchStarved => 10
  | .patternLow => 9
  | .admTimeout => 9
  | .reacquired => 8
  | .aimTimeout => 8
  | .drivesDisabled => 8
  | .measureAborted => 7
  | .measureTimeout => 7
  | .roundAborted => 7
  | .queueCongested => 6
  | .headOverrun => 6
  | .stationOverrun => 6
  | .frameError => 5
  | .roundDone => 5
  | .refractionStale => 4
  | .uncompensated => 4
  | .triggerLost => 4
  | .roundDue => 3

/-- The fixed sensitivity: `true` is LEVEL, `false` is EDGE. -/
def Source.isLevel : Source → Bool
  | .headSilent => true
  | .distanceLost => false
  | .distanceFault => false
  | .beamAbsent => true
  | .drift => true
  | .searchExhausted => false
  | .searchStarved => false
  | .patternLow => true
  | .admTimeout => false
  | .reacquired => false
  | .aimTimeout => false
  | .drivesDisabled => true
  | .measureAborted => false
  | .measureTimeout => false
  | .roundAborted => false
  | .queueCongested => true
  | .headOverrun => false
  | .stationOverrun => false
  | .frameError => false
  | .roundDone => false
  | .refractionStale => true
  | .uncompensated => true
  | .triggerLost => false
  | .roundDue => true

/-! ### The owners' conditions -/

/-- R83: BEAM_ABSENT is true in SEARCHING and LOST. -/
def FollowerState.beamAbsent : FollowerState → Bool
  | .searching => true
  | .lost => true
  | .parked => false
  | .aiming => false
  | .following => false
  | .holding => false

/-- R135: an ENABLED entry whose last result is OUT_TOL or NOT_FOUND. -/
def FiducialEntry.drifts (e : FiducialEntry) : Bool :=
  decide (e.state = .enabled) &&
    match e.result with
    | .outTol _ => true
    | .notFound => true
    | .never => false
    | .inTol _ => false

/-- R107: a STREAM search is active, the margin is not 0 and the fill is at most the margin. -/
def SearchUnit.patternLow (u : SearchUnit) : Bool :=
  match u.active with
  | some a => decide (a.play = .stream) && (decide (u.margin ≠ 0) && decide (u.ringFill ≤ u.margin))
  | none => false

/-- R21. -/
def CorrectionUnit.stale (c : CorrectionUnit) : Bool := decide (600000 < c.age)

/-- R8: either table is not LOADED. -/
def CorrectionUnit.uncompensated (c : CorrectionUnit) : Bool :=
  decide (c.azc.load ≠ .loaded) || decide (c.elc.load ≠ .loaded)

/-- The genuine condition of a level source as its owner holds it now (the owning rules of R154); edge sources have none. -/
def genuineOf (s : State) : Source → Bool
  | .headSilent => decide (s.head.silenceTimer = 0)
  | .beamAbsent => s.follower.state.beamAbsent
  | .drift => s.round.table.toList.any FiducialEntry.drifts
  | .patternLow => s.search.patternLow
  | .drivesDisabled => decide (s.head.driveState = .disabled)
  | .queueCongested => decide (56 ≤ s.station.out.length)
  | .refractionStale => s.correction.stale
  | .uncompensated => s.correction.uncompensated
  | .roundDue => decide (s.round.state = .due)
  | .distanceLost => false
  | .distanceFault => false
  | .searchExhausted => false
  | .searchStarved => false
  | .admTimeout => false
  | .reacquired => false
  | .aimTimeout => false
  | .measureAborted => false
  | .measureTimeout => false
  | .roundAborted => false
  | .headOverrun => false
  | .stationOverrun => false
  | .frameError => false
  | .roundDone => false
  | .triggerLost => false

/-! ### The state of one source -/

/-- What the event unit holds for a source. -/
def EventUnit.get (e : EventUnit) (src : Source) : SourceState := e.sources[src.idx]

def EventUnit.put (e : EventUnit) (src : Source) (x : SourceState) : EventUnit :=
  { e with sources := e.sources.set src.idx.val x src.idx.isLt }

/-- R156: the effective condition. -/
def SourceState.effective (x : SourceState) : Bool := x.genuine || x.testMark

/-- R155 and R156: whether a record is pending. -/
def EventUnit.pendingRecord (e : EventUnit) (src : Source) : Bool :=
  if src.isLevel then (e.get src).effective != (e.get src).reported
  else (e.get src).latch && !(e.get src).reported

/-- R160: a pending record is eligible when its level is above the floor. -/
def EventUnit.eligible (e : EventUnit) (src : Source) : Bool := e.pendingRecord src && decide (e.floor < src.level)

/-! ### Changes -/

/-- R155: one occurrence at time `t`, in the latch. -/
def SourceState.occurred (x : SourceState) (t : Word) : SourceState :=
  if x.latch then { x with count := countUp 255 x.count }
  else { x with latch := true, count := 1, latchTime := t, reported := false }

/-- R156: the marks of a level source become `genuine`, `testMark`; a change of the effective condition sets the change time. -/
def SourceState.level (x : SourceState) (genuine testMark : Bool) (t : Word) : SourceState :=
  { x with
    genuine := genuine, testMark := testMark
    changeTime := if (genuine || testMark) = x.effective then x.changeTime else t }

/-- R155: the owning block reports one occurrence of an edge source. -/
def occur (src : Source) (s : State) : State :=
  s.setEvents (s.events.put src ((s.events.get src).occurred s.localTime))

/-- R156: the owning block reports its genuine condition of a level source as it stands. -/
def reportLevel (src : Source) (s : State) : State :=
  s.setEvents (s.events.put src ((s.events.get src).level (genuineOf s src) (s.events.get src).testMark s.localTime))

/-- R163: what a source holds after a restart: a level source takes its owner's condition at the present local time. -/
def SourceState.afterRestart (s : State) (src : Source) : SourceState :=
  .cleared (genuineOf s src) (if src.isLevel then s.localTime else 0)

/-- R163: every latch, count, time and mark is cleared, the floor is 0, and the level sources are re-evaluated. -/
def reevaluate (s : State) : State :=
  s.setEvents
    { sources := Vector.ofFn fun i => .afterRestart s (Source.all[i.val]?.getD .headSilent)
      floor := 0 }

end Sys2Proof.Machine
end

