-- ==== Sys2Proof/Machine/Ops.lean ====
section
/-! DEFINITION. Shared operations: the output queue, the event arbiter, the two transmitters, the steering slot, the forward
queue, and the form of an owning block's answer to a request (chapters 4, 8, 9). -/

namespace Sys2Proof.Machine

/-! ### Answers to requests -/

/-- What the owning block answers to a request: the state it leaves and the reply's result and data (R173, R174). -/
structure Answer where
  state : State
  result : ReplyResult
  data : List Datum

/-- The reply is OK. -/
def accept (s : State) (data : List Datum) : Answer := ⟨s, .ok, data⟩

/-- The reply is OK, or OK_CLAMPED when a clamp was applied. -/
def acceptClamped (clamped : Bool) (s : State) (data : List Datum) : Answer :=
  ⟨s, if clamped then .okClamped else .ok, data⟩

/-- The reply is REFUSED and nothing changes. -/
def refuse (s : State) (r : RefuseReason) : Answer := ⟨s, .refused r, []⟩

/-- Values of one, two and four bytes (section 10.5). -/
def d1 (v : Int) : Datum := ⟨1, v⟩
def d2 (v : Int) : Datum := ⟨2, v⟩
def d4 (v : Int) : Datum := ⟨4, v⟩

/-- The three components of a position, four bytes each. -/
def Triple.data (t : Triple) : List Datum := [d4 t.c1, d4 t.c2, d4 t.c3]

/-- Takes the next free value (log 18). -/
def useFree (s : State) : State := s.setFreeCount (s.freeCount + 1)

/-! ### The output queue (R177, R178) -/

/-- A record joins the back of the output queue. When STX is idle its frame begins; QUEUE_CONGESTED is evaluated. -/
def admitRecord (r : Record) (s : State) : State :=
  reportLevel .queueCongested
    (s.setStation
      { s.station with
        out := s.station.out ++ [r]
        tx := some (s.station.tx.getD .front) })

/-- R178: STX finishes a frame, and idle line follows. The front record leaves the queue; the frame of a record discarded by a
restart leaves nothing (R180); an idle transmitter finishes nothing. -/
def depart (s : State) : State :=
  match s.station.tx with
  | none => s
  | some (.discarded _) => s.setStation { s.station with tx := none }
  | some .front =>
    reportLevel .queueCongested
      (s.setStation { s.station with out := s.station.out.tail, tx := none })

/-- R178: an idle transmitter begins the frame of the front record. -/
def beginRecord (s : State) : State :=
  if s.station.tx = none ∧ s.station.out ≠ [] then s.setStation { s.station with tx := some .front } else s

/-- R128 and R129: a point record, given without its sequence number, is admitted while fewer than 56 records wait, or is
dropped and counted. DESIGN CHOICE (log 32), unsafe: it is decided before any event record that the same sample makes pending. -/
def offerPoint (p : PointRecord) (s : State) : State :=
  if s.station.out.length < 56 then
    (admitRecord (.point { p with sequence := s.emitter.sequence }) s).setEmitter
      { s.emitter with sequence := s.emitter.sequence + 1 }
  else s.setStation { s.station with droppedPoints := count16 s.station.droppedPoints }

/-- R169: a forwarded HEAD_STATUS record is admitted while fewer than 56 records wait, or is dropped and counted. DESIGN CHOICE
(log 32), unsafe: it is decided before any event record that the same command makes pending. -/
def offerStatus (h : HeadStatus) (s : State) : State :=
  if s.station.out.length < 56 then admitRecord (.headStatus h) s
  else s.setStation { s.station with droppedStatus := count16 s.station.droppedStatus }

/-! ### The event arbiter (R159, R161) -/

/-- R159: the record of a source, from its state at admission. -/
def eventRecord (src : Source) (x : SourceState) : EventRecord :=
  { source := src
    transition := if src.isLevel then (if x.effective then .asserted else .deasserted) else .latched
    count := if src.isLevel then 0 else x.count
    testMark := x.testMark
    time := if src.isLevel then x.changeTime else x.latchTime }

/-- The source's state after its record is admitted (R155, R156): the reported mark is updated, and DISTANCE_LOST clears
itself. -/
def SourceState.admitted (src : Source) (x : SourceState) : SourceState :=
  if src.isLevel then { x with reported := x.effective }
  else if src = .distanceLost then
    { x with latch := false, count := 0, latchTime := 0, testMark := false, reported := false }
  else { x with reported := true }

/-- The better of the choice so far and the next source: an eligible source of higher level wins; of equal levels the earlier
number stays. -/
def betterSource (e : EventUnit) (best : Option Source) (src : Source) : Option Source :=
  if e.eligible src then
    match best with
    | none => some src
    | some b => if b.level < src.level then some src else best
  else best

/-- R161: the eligible pending source of highest level, and among equals of lowest number. -/
def chooseSource (e : EventUnit) : Option Source := Source.all.foldl (betterSource e) none

/-- Admits the record of one source. -/
def admitEvent (src : Source) (s : State) : State :=
  admitRecord (.event (eventRecord src (s.events.get src)))
    (s.setEvents (s.events.put src ((s.events.get src).admitted src)))

/-- R161: one admission, when the queue holds fewer than 64 records and an eligible record is pending. -/
def arbitrate (s : State) : State :=
  if s.station.out.length < 64 then
    match chooseSource s.events with
    | some src => admitEvent src s
    | none => s
  else s

/-! ### The head transmitter and the steering slot (R171, R89) -/

/-- R171: an idle head transmitter begins the frame in the steering slot, or else the oldest forward frame. -/
def headBegin (s : State) : State :=
  match s.head.tx with
  | some _ => s
  | none =>
    match s.head.slot with
    | some f => s.setHead { s.head with slot := none, tx := some (.steer f) }
    | none =>
      match s.head.forward with
      | f :: rest => s.setHead { s.head with forward := rest, tx := some (.forward f) }
      | [] => s

/-- R89: a frame is written into the steering slot; one still waiting there is replaced and counted. -/
def writeSteer (f : Steer) (s : State) : State :=
  headBegin
    (s.setHead
      { s.head with
        slot := some f
        superseded := if s.head.slot.isSome then count16 s.head.superseded else s.head.superseded })

/-- R171: the head transmitter finishes its frame and begins the next. -/
def headDone (s : State) : State :=
  match s.head.tx with
  | none => s
  | some _ => headBegin (s.setHead { s.head with tx := none })

/-- R170: a FORWARD frame is passed on to the forward queue, or is dropped and counted. -/
def passForward (f : ForwardFrame) (s : State) : State :=
  if s.head.forward.length < 4 then headBegin (s.setHead { s.head with forward := s.head.forward ++ [f] })
  else occur .stationOverrun (s.setHead { s.head with forwardDrops := count16 s.head.forwardDrops })

/-! ### Runs written into an addressed store -/

/-- Writes a run of values at consecutive indices from `start`; what lies beyond the store is not written. -/
def writeRun {α : Type} {n : Nat} (v : Vector α n) (start : Nat) : List α → Vector α n
  | [] => v
  | x :: xs => writeRun (v.setIfInBounds start x) (start + 1) xs

end Sys2Proof.Machine
end

