-- ==== Sys2Proof/Machine/Trig.lean ====
section
/-! DEFINITION. Sines and cosines scaled by 2^30 (R23). The exact value is located between two integers by fixed-point
arithmetic with 128 fractional bits; which of the integers within one unit of it the part delivers is a free value (log 8). -/

namespace Sys2Proof.Machine

/-- 1.0 and pi with 128 fractional bits. -/
def trigOne : Nat := 340282366920938463463374607431768211456
def trigPi : Nat := 1069028584064966747859680373161870783300

/-- The nested tail of the sine series, `1 - x^2/(2k(2k+1)) (1 - ...)`, to `fuel` terms. -/
def sinTail (x2 : Nat) : Nat → Nat → Nat
  | 0, _ => trigOne
  | fuel + 1, k => trigOne - x2 * sinTail x2 fuel (k + 1) / trigOne / (2 * k * (2 * k + 1))

/-- The sine of `r` counts, 0 to 1,080,000 (a quarter turn), with 128 fractional bits. -/
def sinQuarter (r : Nat) : Nat :=
  let x := trigPi * r / 2160000
  x * sinTail (x * x / trigOne) 24 1 / trigOne

/-- The sine of `a` counts, 0 to 4,319,999, with 128 fractional bits. -/
def sinFixed (a : Nat) : Int :=
  let r := a % 1080000
  match a / 1080000 % 4 with
  | 0 => sinQuarter r
  | 1 => sinQuarter (1080000 - r)
  | 2 => -(sinQuarter r : Int)
  | _ => -(sinQuarter (1080000 - r) : Int)

/-- The integer below the exact value of 2^30 sin, where that value is no integer. -/
def sinFloor (a : Nat) : Int := sinFixed a / 316912650057057350374175801344

/-- The angles at which 2^30 sin is an integer, with the integer. -/
def sinInteger (a : Nat) : Option Int :=
  match a with
  | 0 => some 0
  | 360000 => some 536870912
  | 1080000 => some 1073741824
  | 1800000 => some 536870912
  | 2160000 => some 0
  | 2520000 => some (-536870912)
  | 3240000 => some (-1073741824)
  | 3960000 => some (-536870912)
  | _ => none

/-- One of the integers within one unit of 2^30 sin of `a` counts, picked by `k`: the two neighbours of a value that is no
integer, or an integer value and its two neighbours; never beyond ±2^30. -/
def sinNear (a : Nat) (k : Fin 3) : Int :=
  clamp (-1073741824) 1073741824
    (match sinInteger a with
     | some e => e - 1 + k.val
     | none => if k.val = 0 then sinFloor a else sinFloor a + 1)

/-- An angle of any integer taken modulo one revolution (R23). -/
def wrapAngle (a : Int) : Nat := (a % revolution).toNat

/-- R23: the delivered sine. Exact at the multiples of 90 degrees and at 30 degrees. -/
def sinOf (a : Int) : Int :=
  match wrapAngle a with
  | 0 => 0
  | 360000 => 536870912
  | 1080000 => 1073741824
  | 2160000 => 0
  | 3240000 => -1073741824
  | n => sinNear n (Config.sinRound n)

/-- R23: the delivered cosine. Exact at the multiples of 90 degrees, and 929,887,697 at 30 degrees. -/
def cosOf (a : Int) : Int :=
  match wrapAngle a with
  | 0 => 1073741824
  | 360000 => 929887697
  | 1080000 => 0
  | 2160000 => -1073741824
  | 3240000 => 0
  | n => sinNear ((n + 1080000) % 4320000) (Config.cosRound n)

end Sys2Proof.Machine
end

