-- ==== Sys2Proof/Machine/Correction.lean ====
section
/-! DEFINITION. The correction unit: the compensation tables and their loading, the refraction value, and stages A to D from a
raw sample to coordinates (chapter 1, and section 2.5 for stage D). -/

namespace Sys2Proof.Machine

/-! ### The compensation tables (R9 to R14) -/

def CorrectionUnit.table (c : CorrectionUnit) : Axis → CompTable
  | .azc => c.azc
  | .elc => c.elc

def CorrectionUnit.setTable (c : CorrectionUnit) (a : Axis) (t : CompTable) : CorrectionUnit :=
  match a with
  | .azc => { c with azc := t }
  | .elc => { c with elc := t }

/-- The number of members of the written-index set. -/
def CompTable.writtenCount (t : CompTable) : Nat := t.written.toList.count true

/-- R11: what a begin leaves. -/
def CompTable.begun : CompTable := { CompTable.blank with load := .loading }

/-- R10: the load state and the size of the written-index set, as they stand after the request. -/
def CompTable.data (t : CompTable) : List Datum := [d1 t.load.code, d1 t.writtenCount]

/-- R8 and R14: the table's new content, with the UNCOMPENSATED condition reported. -/
def storeTable (a : Axis) (t : CompTable) (s : State) : State :=
  reportLevel .uncompensated (s.setCorrection (s.correction.setTable a t))

/-- R10: a refusal carries the named table's state and set size; one that names no table carries neither. -/
def refuseLoad (s : State) (a : Option Axis) (r : RefuseReason) : Answer :=
  ⟨s, .refused r, match a with
    | some a => (s.correction.table a).data
    | none => []⟩

/-- R10's checks of authority and table, then `act` on the named table. -/
def loadRequest (table : Byte) (s : State) (act : Axis → Answer) : Answer :=
  if s.service = false then refuseLoad s (axisOf table) .authority
  else
    match axisOf table with
    | none => refuseLoad s none .range
    | some a => act a

/-- R11. -/
def beginLoad (table : Byte) (s : State) : Answer :=
  loadRequest table s fun a => accept (storeTable a .begun s) CompTable.begun.data

/-- R12: the checks of a run of entries. -/
def loadRunValid (start : Byte) (entries : List Half) : Bool :=
  decide (1 ≤ entries.length) && decide (entries.length ≤ 30) && decide (start.toNat + entries.length ≤ 240) &&
    entries.all fun e => inRange (-4000) 4000 e.toInt

/-- R12: the entries are written at their indices and the indices join the set. -/
def CompTable.writeEntries (t : CompTable) (start : Nat) (entries : List Half) : CompTable :=
  { t with
    entries := writeRun t.entries start (entries.map (·.toInt))
    written := writeRun t.written start (entries.map fun _ => true) }

/-- R12. -/
def loadData (table start : Byte) (entries : List Half) (s : State) : Answer :=
  loadRequest table s fun a =>
    if (s.correction.table a).load ≠ .loading then refuseLoad s (some a) .state
    else if loadRunValid start entries = false then refuseLoad s (some a) .range
    else
      accept (s.setCorrection (s.correction.setTable a ((s.correction.table a).writeEntries start.toNat entries)))
        ((s.correction.table a).writeEntries start.toNat entries).data

/-- R13. -/
def endLoad (table count : Byte) (s : State) : Answer :=
  loadRequest table s fun a =>
    if (s.correction.table a).load ≠ .loading then refuseLoad s (some a) .state
    else if count.toNat = 240 ∧ (s.correction.table a).writtenCount = 240 then
      accept (storeTable a { s.correction.table a with load := .loaded } s)
        ({ s.correction.table a with load := .loaded } : CompTable).data
    else ⟨storeTable a .blank s, .refused .incomplete, CompTable.blank.data⟩

/-! ### The refraction value (R19 to R21) -/

/-- R20. -/
def setRefraction (n : Word) (s : State) : Answer :=
  acceptClamped (clamp 150000 400000 n.toInt != n.toInt)
    (reportLevel .refractionStale
      (s.setCorrection { s.correction with refraction := clamp 150000 400000 n.toInt, age := 0 }))
    [d4 (clamp 150000 400000 n.toInt)]

/-! ### The corrected sample (R2) -/

/-- The fields present when the sample is not bad. -/
structure CorrectedAngles where
  az : Int
  el : Int
  cosEl : Int
  sinEl : Int
  cosAz : Int
  sinAz : Int
  uncompensated : Bool
  deriving DecidableEq, Repr

/-- The fields present when the sample has a distance. `at_` holds the frame of R40 with the coordinates in it: the tracker
coordinates, or the block coordinates with the pose index. -/
structure CorrectedDistance where
  dOpt : Int
  dUm : Int
  outOfRange : Bool
  refractionStale : Bool
  source : DistanceSource
  tracker : Triple
  at_ : Anchor
  deriving DecidableEq, Repr

/-- The corrected sample (R2). `angles` is absent for a bad sample; `distance` is absent when the sample has none. The PSD
values are those after the follower's clamp (R63), and `present` is the follower's decision on the sample (R61). -/
structure Corrected where
  frame : Sample
  present : Bool
  psdX : Int
  psdY : Int
  angles : Option CorrectedAngles
  distance : Option CorrectedDistance
  deriving DecidableEq, Repr

/-- R3: the raw range check. -/
def badSample (f : Sample) : Bool := !(azInRange f.azRaw.toInt && elInRange f.elRaw.toInt)

/-- R3: ifm_ok is handed as clear for a bad sample. -/
def ifmGood (f : Sample) : Bool := f.ifmOk && !badSample f

/-- R61: the presence decision on a sample. -/
def decidePresence (u : Follower) (f : Sample) : Bool :=
  if badSample f then false
  else if u.tOn ≤ f.intensity.toNat then true
  else if f.intensity.toNat < u.tOff then false
  else u.present

/-- R63: the clamp of a PSD value. -/
def clampPsd (p : Half) : Int := clamp (-2000) 2000 p.toInt

/-! ### Stage A (R5 to R8) -/

/-- R6: the correction at a table angle, interpolated between two entries. -/
def CompTable.interpolate (t : CompTable) (angle : Int) : Int :=
  let i := (angle / 18000).toNat
  let ei := t.entries[i]?.getD 0
  let ej := t.entries[(i + 1) % 240]?.getD 0
  ei + roundDiv ((ej - ei) * (angle % 18000)) 18000

/-- R8: a table that is not LOADED supplies 0. -/
def CompTable.supply (t : CompTable) (angle : Int) : Int := if t.load = .loaded then t.interpolate angle else 0

/-- R7: the corrected angles. -/
def stageA (c : CorrectionUnit) (f : Sample) : Angles :=
  { az := (f.azRaw.toInt + c.azc.supply f.azRaw.toInt) % revolution
    el := f.elRaw.toInt + c.elc.supply (f.elRaw.toInt % revolution) }

/-- Stage A and stage C's trigonometry (R7, R23). -/
def correctAngles (c : CorrectionUnit) (f : Sample) : CorrectedAngles :=
  let a := stageA c f
  { az := a.az, el := a.el, cosEl := cosOf a.el, sinEl := sinOf a.el, cosAz := cosOf a.az, sinAz := sinOf a.az,
    uncompensated := c.uncompensated }

/-! ### Stage B (R15 to R18, R22) -/

/-- R16: the optical distance. -/
def opticalDistance (baseOpt : Nat) (baseCount ifmCount : Word) : Int := baseOpt + (ifmCount - baseCount).toInt

/-- R17: plausible. -/
def plausible (dOpt : Int) : Bool := inRange 0 900000000 dOpt

/-- R22: the geometric distance in micrometres. -/
def geometricUm (dOpt n : Int) : Int := roundDiv (dOpt - roundDiv (dOpt * n) 1000000000) 10

/-! ### Stages C and D (R24, R39) -/

/-- R24: the tracker coordinates. -/
def stageC (d : Int) (a : CorrectedAngles) : Triple :=
  let h := roundDiv (d * a.cosEl) one30
  ⟨roundDiv (h * a.cosAz) one30, roundDiv (h * a.sinAz) one30, roundDiv (d * a.sinEl) one30⟩

/-- R39: the block coordinates under a pose. -/
def stageD (p : PoseEntry) (t : Triple) : Triple :=
  ⟨roundDiv (dot p.rot.row1 t) one30 + p.trans.c1, roundDiv (dot p.rot.row2 t) one30 + p.trans.c2,
    roundDiv (dot p.rot.row3 t) one30 + p.trans.c3⟩

/-- R38 and R40: the frame and the coordinates in it. -/
def frameCoordinates (p : PoseTable) (t : Triple) : Anchor :=
  match p.active with
  | some i => ⟨.block i, stageD p.entries[i] t⟩
  | none => ⟨.tracker, t⟩

/-- Stages B to D on a plausible optical distance. -/
def correctDistance (s : State) (source : DistanceSource) (a : CorrectedAngles) (dOpt : Int) : CorrectedDistance :=
  let um := geometricUm dOpt s.correction.refraction
  { dOpt := dOpt
    dUm := um
    outOfRange := !inRange 1000000 800000000 dOpt
    refractionStale := s.correction.stale
    source := source
    tracker := stageC um a
    at_ := frameCoordinates s.poses (stageC um a) }

end Sys2Proof.Machine
end

