-- ==== Sys2Proof/Machine/Pose.lean ====
section
/-! DEFINITION. The pose table: validation, writing, clearing, reading and selecting a pose (chapter 2). -/

namespace Sys2Proof.Machine

/-! ### Validation (R29 to R31) -/

/-- The failed check a POSE_INVALID reply names (R31). -/
inductive PoseFault where
  | rowLength (row : Nat)
  | rowProduct (pair : Nat)
  | determinant
  | translation (component : Nat)
  deriving DecidableEq, Repr

/-- 2^60 and the tolerance 2^41 (R29). -/
def poseUnit : Int := 1152921504606846976
def poseTolerance : Int := 2199023255552

/-- R29: the length of a row. -/
def rowLengthOk (r : Triple) : Bool := inRange (poseUnit - poseTolerance) (poseUnit + poseTolerance) (dot r r)

/-- R29: the product of two rows. -/
def rowProductOk (a b : Triple) : Bool := inRange (-poseTolerance) poseTolerance (dot a b)

/-- R30. -/
def Rotation.det (m : Rotation) : Int :=
  m.row1.c1 * (m.row2.c2 * m.row3.c3 - m.row2.c3 * m.row3.c2) - m.row1.c2 * (m.row2.c1 * m.row3.c3 - m.row2.c3 * m.row3.c1) +
    m.row1.c3 * (m.row2.c1 * m.row3.c2 - m.row2.c2 * m.row3.c1)

/-- R31: one component of the translation. -/
def translationOk (t : Int) : Bool := inRange (-500000000) 500000000 t

/-- R31: the first failed check, in the order of the table, or none. -/
def poseFault (m : Rotation) (t : Triple) : Option PoseFault :=
  if rowLengthOk m.row1 = false then some (.rowLength 1)
  else if rowLengthOk m.row2 = false then some (.rowLength 2)
  else if rowLengthOk m.row3 = false then some (.rowLength 3)
  else if rowProductOk m.row1 m.row2 = false then some (.rowProduct 0)
  else if rowProductOk m.row1 m.row3 = false then some (.rowProduct 1)
  else if rowProductOk m.row2 m.row3 = false then some (.rowProduct 2)
  else if m.det ≤ 0 then some .determinant
  else if translationOk t.c1 = false then some (.translation 1)
  else if translationOk t.c2 = false then some (.translation 2)
  else if translationOk t.c3 = false then some (.translation 3)
  else none

/-- The check and its row, pair code or component (R31, section 10.4); DETERMINANT has none, sent as 0 (log 17). -/
def PoseFault.data : PoseFault → List Datum
  | .rowLength r => [d1 0, d1 r]
  | .rowProduct p => [d1 1, d1 p]
  | .determinant => [d1 2, d1 0]
  | .translation c => [d1 3, d1 c]

def poseRot (p : PoseField) : Rotation :=
  ⟨⟨p.r11.toInt, p.r12.toInt, p.r13.toInt⟩, ⟨p.r21.toInt, p.r22.toInt, p.r23.toInt⟩, ⟨p.r31.toInt, p.r32.toInt, p.r33.toInt⟩⟩

def poseTrans (p : PoseField) : Triple := ⟨p.t1.toInt, p.t2.toInt, p.t3.toInt⟩

/-! ### Requests (R28, R32 to R36) -/

def storePose (i : Fin 8) (e : PoseEntry) (s : State) : State :=
  s.setPoses { s.poses with entries := s.poses.entries.set i.val e i.isLt }

/-- R28: the entry that an accepted WRITE_POSE leaves. -/
def PoseEntry.written (e : PoseEntry) (p : PoseField) (label : Half) : PoseEntry :=
  { state := .valid, rot := poseRot p, trans := poseTrans p, label := label, writeCount := count16 e.writeCount }

/-- R28. -/
def writePose (index : Byte) (p : PoseField) (label : Half) (s : State) : Answer :=
  match index8 index with
  | none => refuse s .range
  | some i =>
    if s.poses.active = some i then refuse s .poseActive
    else
      match poseFault (poseRot p) (poseTrans p) with
      | some f => ⟨s, .refused .poseInvalid, f.data⟩
      | none =>
        accept (storePose i (s.poses.entries[i].written p label) s)
          [d1 i.val, d1 PoseState.valid.code, d2 (count16 s.poses.entries[i].writeCount)]

/-- R32: what a clear leaves of an entry. -/
def PoseEntry.cleared (e : PoseEntry) : PoseEntry :=
  { e with state := .empty, rot := ⟨zero3, zero3, zero3⟩, trans := zero3 }

/-- R32. -/
def clearPose (index : Byte) (s : State) : Answer :=
  match index8 index with
  | none => refuse s .range
  | some i =>
    if s.poses.active = some i then refuse s .poseActive
    else
      accept (storePose i s.poses.entries[i].cleared s)
        [d1 i.val, d1 PoseState.empty.code, d2 s.poses.entries[i].writeCount]

/-- R33. -/
def readPose (index : Byte) (s : State) : Answer :=
  match index8 index with
  | none => refuse s .range
  | some i =>
    let e := s.poses.entries[i]
    accept s
      ([d1 e.state.code] ++ e.rot.row1.data ++ e.rot.row2.data ++ e.rot.row3.data ++ e.trans.data ++
        [d2 e.label.toNat, d2 e.writeCount, d1 (codeBool (decide (s.poses.active = some i)))])

/-- The active pose index with the active entry's label and write count (R35, R176). For NONE the last two have a fixed place in
READ_STATUS and are 0 (R182, R184); that the reply to SELECT_POSE sends them as 0 too is log 29. -/
def PoseTable.activeData (p : PoseTable) : List Datum :=
  match p.active with
  | some i => [d1 i.val, d2 p.entries[i].label.toNat, d2 p.entries[i].writeCount]
  | none => [d1 255, d2 0, d2 0]

/-- R36: the emitter clears its spacing anchor. -/
def Emitter.clearAnchor (e : Emitter) : Emitter :=
  match e.mode with
  | .spaced d _ => { e with mode := .spaced d none }
  | .idle => e
  | .single _ => e
  | .stream _ _ => e
  | .triggered _ => e

/-- Whether the emission mode is SINGLE. -/
def EmissionMode.isSingle : EmissionMode → Bool
  | .single _ => true
  | .idle => false
  | .stream _ _ => false
  | .spaced _ _ => false
  | .triggered _ => false

/-- Whether the round state is RUNNING. -/
def RoundState.isRunning : RoundState → Bool
  | .running _ => true
  | .idle => false
  | .due => false

/-- R35 and R36: the selection and its effect on the emitter. -/
def applySelection (o : Option (Fin 8)) (s : State) : State :=
  (s.setPoses { s.poses with active := o }).setEmitter s.emitter.clearAnchor

/-- R34 to R36. -/
def selectPose (index : Byte) (s : State) : Answer :=
  match index8OrNone index with
  | none => refuse s .range
  | some o =>
    if s.emitter.mode.isSingle || s.round.state.isRunning then refuse s .busy
    else if (o.any fun i => decide (s.poses.entries[i].state = .empty)) then refuse s .state
    else accept (applySelection o s) { s.poses with active := o }.activeData

end Sys2Proof.Machine
end

