-- ==== Sys2Proof/Machine/Distance.lean ====
section
/-! DEFINITION. The distance unit: waits, the qualifying sample, the base and its loss (chapter 3). -/

namespace Sys2Proof.Machine

/-! ### Ends (R46, R52 to R58) -/

/-- R52: a running wait is cancelled, without an event. -/
def cancelWait (s : State) : State :=
  match s.distance.state with
  | .awaitAdm _ _ =>
    s.setDistance { s.distance with state := .none, lastWaitKind := .adm, lastWaitOutcome := .cancelled }
  | .awaitHome _ _ _ =>
    s.setDistance { s.distance with state := .none, lastWaitKind := .home, lastWaitOutcome := .cancelled }
  | .none => s
  | .established _ _ _ => s

/-- R53, R55, R56, R58: a held base is dropped with DISTANCE_LOST and its cause. -/
def dropBase (cause : LossCause) (s : State) : State :=
  match s.distance.state with
  | .established _ _ _ => occur .distanceLost (s.setDistance { s.distance with state := .none, lastLoss := cause })
  | .none => s
  | .awaitAdm _ _ => s
  | .awaitHome _ _ _ => s

/-- R55 and R56: a base is dropped for `cause`, or a wait cancelled. -/
def leaveDistance (cause : LossCause) (s : State) : State := dropBase cause (cancelWait s)

/-- R54: an implausible optical distance drops the base with DISTANCE_FAULT and DISTANCE_LOST. -/
def dropFault (s : State) : State :=
  occur .distanceLost (occur .distanceFault (s.setDistance { s.distance with state := .none, lastLoss := .fault }))

/-- R46 and R57: the round unit's release, and the station's drop: a base ends without an event, a wait is cancelled. -/
def releaseDistance (s : State) : State :=
  match s.distance.state with
  | .established _ _ _ => s.setDistance { s.distance with state := .none }
  | .none => s
  | .awaitAdm _ _ => cancelWait s
  | .awaitHome _ _ _ => cancelWait s

/-! ### Starts (R44, R45, R46, R49) -/

/-- An ADM wait begins with 2,000 ms. -/
def startAdmWait (owner : WaitOwner) (s : State) : State :=
  s.setDistance { s.distance with state := .awaitAdm owner 2000 }

/-- R45: the follower enters FOLLOWING. -/
def autoAdmWait (s : State) : State :=
  if s.distance.state = .none ∧ s.distance.autoAdm = true ∧ s.head.hasAdm = true ∧ s.round.state.isRunning = false then
    startAdmWait .follower s
  else s

/-- R46: the round unit asks for an ADM wait; `false` is "not started". -/
def askRoundWait (s : State) : State × Bool :=
  if s.distance.state = .none ∧ s.head.hasAdm = true then (startAdmWait .round s, true) else (s, false)

/-- R44. -/
def establishAdm (s : State) : Answer :=
  if s.round.state.isRunning then refuse s .busy
  else if s.distance.state ≠ .none then refuse s .state
  else if s.head.hasAdm = false then refuse s .noAdm
  else accept (startAdmWait .station s) []

/-- R49. -/
def establishHome (s : State) : Answer :=
  if s.round.state.isRunning then refuse s .busy
  else if s.distance.state ≠ .none then refuse s .state
  else if s.distance.homeDistance = 0 then refuse s .state
  else accept (s.setDistance { s.distance with state := .awaitHome .station s.distance.homeDistance 2000 }) []

/-! ### The decision on a sample (R4 step 2, R47, R48, R50, R53) -/

/-- R47: the sample qualifies in AWAIT_ADM; its ADM part is given. -/
def qualifiesAdm (u : DistanceUnit) (f : Sample) (present : Bool) (dist : Word) (quality : Byte) : Bool :=
  !badSample f && decide (dist.toNat ≤ 900000000) && decide (u.admQualityMin ≤ quality.toNat) && present && f.ifmOk &&
    inRange (-200) 200 (clampPsd f.psdX) && inRange (-200) 200 (clampPsd f.psdY)

/-- R50: the sample qualifies in AWAIT_HOME. -/
def qualifiesHome (f : Sample) (present : Bool) : Bool := !badSample f && f.atHome && present && f.ifmOk

/-- R48 and R50: the base is set on the sample. -/
def setBase (kind : DistanceSource) (base : Nat) (count : Word) (s : State) : State :=
  s.setDistance
    { s.distance with state := .established kind base count, lastWaitKind := kind, lastWaitOutcome := .established }

/-- R4 step 2: the distance unit's decision for a sample whose beam presence is `present`. -/
def decideDistance (f : Sample) (present : Bool) (s : State) : State :=
  match s.distance.state with
  | .none => s
  | .established _ _ _ => if ifmGood f && present then s else dropBase .sample s
  | .awaitAdm _ _ =>
    match f.adm with
    | some (d, q) => if qualifiesAdm s.distance f present d q then setBase .adm d.toNat f.ifmCount s else s
    | none => s
  | .awaitHome _ c _ => if qualifiesHome f present then setBase .home c f.ifmCount s else s

/-- Stages B to D (R15 to R18, R54): the sample's distance when the state is ESTABLISHED and the optical distance is
plausible; an implausible one drops the base. -/
def measure (f : Sample) (a : CorrectedAngles) (s : State) : State × Option CorrectedDistance :=
  match s.distance.state with
  | .established source base count =>
    if plausible (opticalDistance base count f.ifmCount) then
      (s, some (correctDistance s source a (opticalDistance base count f.ifmCount)))
    else (dropFault s, none)
  | .none => (s, none)
  | .awaitAdm _ _ => (s, none)
  | .awaitHome _ _ _ => (s, none)

/-! ### The establish timer (R51) -/

/-- The wait that runs, as kind, owner and milliseconds left. -/
def DistanceState.wait : DistanceState → Option (DistanceSource × WaitOwner × Nat)
  | .awaitAdm o t => some (.adm, o, t)
  | .awaitHome o _ t => some (.home, o, t)
  | .none => Option.none
  | .established _ _ _ => Option.none

/-- One tick of the establish timer. -/
def DistanceState.tick : DistanceState → DistanceState
  | .awaitAdm o t => .awaitAdm o (t - 1)
  | .awaitHome o c t => .awaitHome o c (t - 1)
  | .none => .none
  | .established d b c => .established d b c

/-- R51: the wait ends TIMED_OUT and ADM_TIMEOUT is latched. -/
def timeOutWait (kind : DistanceSource) (s : State) : State :=
  occur .admTimeout
    (s.setDistance { s.distance with state := .none, lastWaitKind := kind, lastWaitOutcome := .timedOut })

end Sys2Proof.Machine
end

