-- ==== Sys2Proof/Machine/Search.lean ====
section
/-! DEFINITION. The follower's entries into its states, which the other blocks are told of (R66), and the search unit: the
pattern store, the descriptors, the stream ring and the playing of a search (chapters 4 and 5). -/

namespace Sys2Proof.Machine

/-! ### The follower's entries (R66, R67, R83) -/

/-- The follower's items become `u`, and BEAM_ABSENT is reported as its state then gives it (R83). -/
def storeFollower (u : Follower) (s : State) : State := reportLevel .beamAbsent (s.setFollower u)

/-- Every entry to LOST: no grace, no aim, both runs at 0 (R80). -/
def enterLost (s : State) : State :=
  storeFollower { s.follower with state := .lost, grace := none, aim := none, arrivalRun := 0, acqRun := 0 } s

/-- Every entry to FOLLOWING (R66, R67): the integrators are kept only on a return from HOLDING, and the distance unit may
start an automatic ADM wait (R45). -/
def enterFollowing (keep : Bool) (s : State) : State :=
  autoAdmWait
    (storeFollower
      { s.follower with
        state := .following, grace := none, aim := none, arrivalRun := 0, acqRun := 0
        iAz := if keep then s.follower.iAz else 0
        iEl := if keep then s.follower.iEl else 0 } s)

/-- The entry to SEARCHING (R99). -/
def enterSearching (s : State) : State :=
  storeFollower
    { s.follower with state := .searching, followPending := false, grace := none, aim := none, arrivalRun := 0, acqRun := 0 } s

/-! ### The active search (R98 to R106) -/

/-- The search record is removed and PATTERN_LOW evaluated (R105, R106, R107). -/
def removeSearch (s : State) : State := reportLevel .patternLow (s.setSearch { s.search with active := none })

/-- The search record becomes `a` and PATTERN_LOW is evaluated (R107). -/
def storeSearch (u : SearchUnit) (s : State) : State := reportLevel .patternLow (s.setSearch u)

/-- R106: an abort of whatever search is active. -/
def abortSearch (s : State) : State := if s.search.active.isSome then removeSearch s else s

/-- R101: the target of a step around a centre. -/
def stepTarget (centre : Angles) (st : Step) : Angles :=
  ⟨(centre.az + st.dAz) % revolution, clamp elMin elMax (centre.el + st.dEl)⟩

/-- R101: taking a step. -/
def ActiveSearch.take (a : ActiveSearch) (st : Step) : ActiveSearch :=
  { a with target := stepTarget a.centre st, dwell := st.dwell }

/-- The step at an index of the store. -/
def SearchUnit.stepAt (u : SearchUnit) (i : Nat) : Step := u.store[i]?.getD ⟨0, 0, 1⟩

/-- R91: the step at the read position. -/
def SearchUnit.ringHead (u : SearchUnit) : Step := u.stepAt (384 + u.ringRead)

/-- R91 and R104: the ring after its front step is taken. -/
def SearchUnit.ringTaken (u : SearchUnit) : SearchUnit :=
  { u with ringRead := (u.ringRead + 1) % 128, ringFill := u.ringFill - 1 }

/-- R79, R103, R104: a search ends EXHAUSTED or STARVED: the record is removed, the event latched, and the follower enters
LOST. -/
def endSearch (src : Source) (s : State) : State := enterLost (occur src (removeSearch s))

/-- What a request for a search came to (R99). -/
inductive SearchStart where
  | unusable
  | starved
  | started (target : Angles)
  deriving DecidableEq, Repr

/-- R99: a READY descriptor's search starts and takes its first step. -/
def startSearch (i : Fin 8) (centre : Angles) (owner : SearchOwner) (s : State) : State × SearchStart :=
  let d := s.search.descriptors[i]
  let a : ActiveSearch :=
    { descriptor := i, play := .stream, centre := centre, target := centre, dwell := 0, owner := owner }
  match d.mode with
  | .block =>
    let b := { a with play := .block d.start d.repeats }.take (s.search.stepAt d.start)
    (enterSearching (storeSearch { s.search with active := some b } s), .started b.target)
  | .stream =>
    if s.search.ringFill = 0 then
      (endSearch .searchStarved (enterSearching (storeSearch { s.search with active := some a } s)), .starved)
    else
      (enterSearching (storeSearch { s.search.ringTaken with active := some (a.take s.search.ringHead) } s),
        .started (a.take s.search.ringHead).target)

/-- R99: a request for a search that names a descriptor or NONE. -/
def askSearch (o : Option (Fin 8)) (centre : Angles) (owner : SearchOwner) (s : State) : State × SearchStart :=
  match o with
  | none => (s, .unusable)
  | some i => if s.search.descriptors[i].ready then startSearch i centre owner s else (s, .unusable)

/-- R103 and R104: the search needs its next step. The target of the step taken, or `none` when the search has ended. -/
def nextStep (a : ActiveSearch) (s : State) : State × Option Angles :=
  match a.play with
  | .block pos rep =>
    let d := s.search.descriptors[a.descriptor]
    if pos + 1 < d.start + d.length then
      let b := { a with play := .block (pos + 1) rep }.take (s.search.stepAt (pos + 1))
      (storeSearch { s.search with active := some b } s, some b.target)
    else if 0 < rep then
      let b := { a with play := .block d.start (rep - 1) }.take (s.search.stepAt d.start)
      (storeSearch { s.search with active := some b } s, some b.target)
    else (endSearch .searchExhausted s, none)
  | .stream =>
    if s.search.ringFill = 0 then (endSearch .searchStarved s, none)
    else
      (storeSearch { s.search.ringTaken with active := some (a.take s.search.ringHead) } s,
        some (a.take s.search.ringHead).target)

/-- R102: the search unit handles a sample. The target of the frame to write, or `none` when the search has ended. -/
def searchSample (s : State) : State × Option Angles :=
  match s.search.active with
  | none => (s, none)
  | some a =>
    if 1 < a.dwell then
      (s.setSearch { s.search with active := some { a with dwell := a.dwell - 1 } }, some a.target)
    else nextStep a s

/-! ### Requests (R93 to R97, R95) -/

/-- R93: the search that plays any of the indices `start` to `start + n - 1`. -/
def SearchUnit.covers (u : SearchUnit) (start n : Nat) : Bool :=
  match u.active with
  | none => false
  | some a =>
    match a.play with
    | .stream => false
    | .block _ _ =>
      let d := u.descriptors[a.descriptor]
      decide (start < d.start + d.length) && decide (d.start < start + n)

/-- R93. -/
def writeSteps (start : Half) (steps : List StepField) (s : State) : Answer :=
  if steps.length = 0 ∨ 16 < steps.length ∨ 384 < start.toNat + steps.length then refuse s .range
  else if steps.all stepInRange = false then refuse s .range
  else if s.search.covers start.toNat steps.length then refuse s .busy
  else
    accept (s.setSearch { s.search with store := writeRun s.search.store start.toNat (steps.map stepOf) })
      [d2 start.toNat, d1 steps.length]

/-- The five fields of a descriptor. -/
def Descriptor.data (d : Descriptor) : List Datum :=
  [d1 (codeBool d.ready), d1 d.mode.code, d2 d.start, d2 d.length, d1 d.repeats]

/-- R94 check 3: the descriptor that the fields stand for, or none when a field is refused RANGE. -/
def descriptorOf (state mode : Byte) (start length : Half) (repeats : Byte) : Option Descriptor :=
  match readyOf state, searchModeOf mode with
  | some r, some .stream => some { ready := r, mode := .stream, start := 0, length := 1, repeats := 0 }
  | some r, some .block =>
    if start.toNat ≤ 383 ∧ 1 ≤ length.toNat ∧ length.toNat ≤ 384 ∧ repeats.toNat ≤ 7 ∧ start.toNat + length.toNat ≤ 384 then
      some { ready := r, mode := .block, start := start.toNat, length := length.toNat, repeats := repeats.toNat }
    else none
  | some _, none => none
  | none, _ => none

/-- Whether the active search plays descriptor `i`. -/
def SearchUnit.plays (u : SearchUnit) (i : Fin 8) : Bool :=
  match u.active with
  | some a => decide (a.descriptor = i)
  | none => false

/-- R94. -/
def writeSearch (index state mode : Byte) (start length : Half) (repeats : Byte) (s : State) : Answer :=
  match index8 index with
  | none => refuse s .range
  | some i =>
    if s.search.plays i then refuse s .busy
    else
      match descriptorOf state mode start length repeats with
      | none => refuse s .range
      | some d => accept (s.setSearch { s.search with descriptors := s.search.descriptors.set i.val d i.isLt }) d.data

/-- R95. -/
def readSearch (index : Byte) (s : State) : Answer :=
  match index8 index with
  | none => refuse s .range
  | some i =>
    accept s
      (s.search.descriptors[i].data ++
        [d1 (codeBool (s.search.plays i)), d1 (codeBool (decide (s.follower.autoSearch = some i)))])

/-- One step in a reply: nine bytes. -/
def Step.data (st : Step) : List Datum := [d4 st.dAz, d4 st.dEl, d1 st.dwell]

/-- The data of `count` steps from `start`. -/
def SearchUnit.stepsData (u : SearchUnit) (start : Nat) : Nat → List Datum
  | 0 => []
  | n + 1 => (u.stepAt start).data ++ u.stepsData (start + 1) n

/-- R95. -/
def readSteps (start : Half) (count : Byte) (s : State) : Answer :=
  if count.toNat = 0 ∨ 16 < count.toNat ∨ 512 < start.toNat + count.toNat then refuse s .range
  else accept s (s.search.stepsData start.toNat count.toNat)

/-- R96: one step is appended at the write position. -/
def SearchUnit.append (u : SearchUnit) (st : Step) : SearchUnit :=
  { u with
    store := u.store.setIfInBounds (384 + (u.ringRead + u.ringFill) % 128) st
    ringFill := u.ringFill + 1 }

/-- R96: as many of the steps as fit, in the order given. -/
def SearchUnit.appendAll (u : SearchUnit) : List Step → SearchUnit
  | [] => u
  | st :: rest => if u.ringFill < 128 then (u.append st).appendAll rest else u

/-- R96. -/
def appendSteps (steps : List StepField) (s : State) : Answer :=
  if steps.length = 0 ∨ 16 < steps.length ∨ steps.all stepInRange = false then refuse s .range
  else
    let u := s.search.appendAll (steps.map stepOf)
    let taken := u.ringFill - s.search.ringFill
    acceptClamped (decide (taken < steps.length)) (storeSearch u s) [d1 taken, d1 u.ringFill]

/-- Whether a STREAM search is active. -/
def SearchUnit.streaming (u : SearchUnit) : Bool :=
  match u.active with
  | some a => decide (a.play = .stream)
  | none => false

/-- R97. -/
def resetStream (s : State) : Answer :=
  if s.search.streaming then refuse s .busy
  else accept (s.setSearch { s.search with ringRead := 0, ringFill := 0 }) [d1 0]

end Sys2Proof.Machine
end

