-- ==== Sys2Proof/Machine/Follower.lean ====
section
/-! DEFINITION. The follower: entries to AIMING and PARKED, the handling of a sample, and the steering loop (chapter 4). -/

namespace Sys2Proof.Machine

/-! ### Entries to AIMING and PARKED (R70, R71) -/

/-- R71: an accepted GOTO, of the station or of the round unit, takes the follower to AIMING; a search is aborted and the
distance unit is told (R56). -/
def enterAiming (target : Angles) (thenAction : ThenAction) (owner : AimOwner) (s : State) : State :=
  let s1 := abortSearch s
  leaveDistance .follower
    (storeFollower
      { s1.follower with
        state := .aiming, followPending := false, grace := none, acqRun := 0, arrivalRun := 0
        aim := some { az := target.az, el := target.el, thenAction := thenAction, owner := owner, timer := 3000 } } s1)

/-- The follower's items after an entry to PARKED (R70). -/
def Follower.parkedAs (u : Follower) : Follower :=
  { u with
    state := .parked, followPending := false, grace := none, aim := none, arrivalRun := 0, acqRun := 0, iAz := 0, iEl := 0 }

/-- R70: the entry to PARKED: a search is aborted, the distance unit is told (R56) and one HOLD frame is written (R88). -/
def enterParked (s : State) : State :=
  let s1 := abortSearch s
  writeSteer .hold (leaveDistance .follower (storeFollower s1.follower.parkedAs s1))

/-! ### The steering loop (R85 to R87) -/

/-- R86: one axis: the drive value and the integrator after it. -/
def steerAxis (kp ki i e : Int) : Int × Int :=
  let p := roundDiv (kp * e) 256
  let di := roundDiv (ki * e) 256
  let raw := p + i + di
  let i' :=
    if (-32767 ≤ raw ∧ raw ≤ 32767) ∨ (0 < di ∧ raw < 0) ∨ (di < 0 ∧ 0 < raw) then clamp (-16384) 16384 (i + di) else i
  (clamp (-32767) 32767 (p + i'), i')

/-- R85: the azimuth error. -/
def azimuthError (psdX cosEl : Int) : Int := clamp (-8000) 8000 (psdX * one30 / max cosEl 268435456)

/-- R86 and R87: the loop on a sample; the FOLLOW frame to write. -/
def steer (c : Corrected) (s : State) : State × Steer :=
  let u := s.follower
  let az := steerAxis u.kpAz u.kiAz u.iAz (azimuthError c.psdX s.correction.cosEl)
  let el := steerAxis u.kpEl u.kiEl u.iEl c.psdY
  (s.setFollower { u with iAz := az.2, iEl := el.2 }, .follow az.1 el.1)

/-! ### The handling of a sample (R66 to R80) -/

/-- What the follower's handling of a sample tells the round unit (R66). -/
inductive FollowerReport where
  | none
  | arrived
  | acquired
  | beamLost
  | searchFailed
  deriving DecidableEq, Repr

/-- The outcome of the follower's and the search unit's handling of a sample: the state, the STEER frame of the sample (R88)
and the report. -/
structure Handled where
  state : State
  frame : Option Steer
  report : FollowerReport

/-- The follower enters FOLLOWING on a sample and closes its loop on it. -/
def closeLoop (keep : Bool) (report : FollowerReport) (c : Corrected) (s : State) : Handled :=
  let r := steer c (enterFollowing keep s)
  ⟨r.1, some r.2, report⟩

/-- The follower enters LOST on a sample and writes HOLD. -/
def loseBeam (report : FollowerReport) (s : State) : Handled := ⟨enterLost s, some .hold, report⟩

/-- The follower asks for its auto-search (R69, R77). -/
def autoSearch (centre : Angles) (s : State) : Handled :=
  match askSearch s.follower.autoSearch centre .follower s with
  | (t, .started target) => ⟨t, some (.position target.az target.el), .none⟩
  | (t, .starved) => ⟨t, some .hold, .none⟩
  | (t, .unusable) => loseBeam .none t

/-- The angles of a corrected sample, when it is not bad. -/
def Corrected.sampleAngles (c : Corrected) : Option Angles := c.angles.map fun a => ⟨a.az, a.el⟩

/-- R69: a follow-pending sample is decided. -/
def decidePending (c : Corrected) (s : State) : Handled :=
  let s1 := s.setFollower { s.follower with followPending := false, aim := none }
  if c.present then closeLoop false .none c s1
  else
    autoSearch (s1.follower.lastAngles.getD (c.sampleAngles.getD ⟨0, 0⟩)) s1

/-- R72: whether a sample counts toward arrival at a target. -/
def countsArrival (a : Aim) (o : Option Angles) : Bool :=
  match o with
  | none => false
  | some g =>
    inRange (-300) 300 ((g.az - a.az + 2160000) % revolution - 2160000) && inRange (-300) 300 (g.el - a.el)

/-- The report of an event to the round unit when the owner is ROUND. -/
def AimOwner.report (o : AimOwner) (r : FollowerReport) : FollowerReport :=
  match o with
  | .round => r
  | .station => .none

/-- R72 and R73: a sample in AIMING. -/
def aimSample (a : Aim) (c : Corrected) (s : State) : Handled :=
  if countsArrival a c.sampleAngles = false then
    ⟨s.setFollower { s.follower with arrivalRun := 0 }, some (.position a.az a.el), .none⟩
  else if s.follower.arrivalRun + 1 < 5 then
    ⟨s.setFollower { s.follower with arrivalRun := s.follower.arrivalRun + 1 }, some (.position a.az a.el), .none⟩
  else
    match a.thenAction, c.present with
    | .follow, true => closeLoop false (a.owner.report .arrived) c s
    | .follow, false => loseBeam (a.owner.report .arrived) s
    | .hold, _ => loseBeam (a.owner.report .arrived) s

/-- R77: the grace expires on a sample. -/
def expireGrace (s : State) : Handled :=
  if s.round.state.isRunning then loseBeam .beamLost s else autoSearch (s.follower.lastAngles.getD ⟨0, 0⟩) s

/-- R75: the entry to HOLDING on an ABSENT sample. -/
def enterHolding (s : State) : Handled :=
  let s1 := storeFollower { s.follower with state := .holding, grace := some s.follower.graceParam } s
  if s.follower.graceParam = 0 then expireGrace s1 else ⟨s1, some .hold, .none⟩

/-- R76: an ABSENT sample in HOLDING. -/
def countGrace (s : State) : Handled :=
  let g := s.follower.grace.getD 0 - 1
  let s1 := s.setFollower { s.follower with grace := some g }
  if g = 0 then expireGrace s1 else ⟨s1, some .hold, .none⟩

/-- R78 and R105: the acquisition sample of a search. -/
def acquire (owner : SearchOwner) (c : Corrected) (s : State) : Handled :=
  closeLoop false (match owner with
    | .round => .acquired
    | .follower => .none) c (occur .reacquired (removeSearch s))

/-- R79 and R102: the search unit handles a sample that did not end the search. -/
def playSample (owner : SearchOwner) (s : State) : Handled :=
  match searchSample s with
  | (t, some target) => ⟨t, some (.position target.az target.el), .none⟩
  | (t, none) => ⟨t, some .hold, match owner with
    | .round => .searchFailed
    | .follower => .none⟩

/-- R78: a sample in SEARCHING. -/
def searchingSample (c : Corrected) (s : State) : Handled :=
  let owner := (s.search.active.map (·.owner)).getD .follower
  if c.present then
    if s.follower.acqRun + 1 < 3 then
      playSample owner (s.setFollower { s.follower with acqRun := s.follower.acqRun + 1 })
    else acquire owner c s
  else playSample owner (s.setFollower { s.follower with acqRun := 0 })

/-- R80: a sample in LOST; while a round is RUNNING the follower counts round acquisition. -/
def lostSample (c : Corrected) (s : State) : Handled :=
  if s.round.state.isRunning then
    if c.present then
      if s.follower.acqRun + 1 < 3 then
        ⟨s.setFollower { s.follower with acqRun := s.follower.acqRun + 1 }, some .hold, .none⟩
      else closeLoop false .acquired c s
    else ⟨s.setFollower { s.follower with acqRun := 0 }, some .hold, .none⟩
  else ⟨s, some .hold, .none⟩

/-- R61 and R64: the decision is kept, and the angles of a PRESENT sample. -/
def notePresence (c : Corrected) (s : State) : State :=
  s.setFollower
    { s.follower with
      present := c.present
      lastAngles := if c.present then c.sampleAngles else s.follower.lastAngles }

/-- R66: the transition of the follower's state for a sample. -/
def followerTransition (c : Corrected) (s : State) : Handled :=
  if s.follower.followPending then decidePending c s
  else
    match s.follower.state with
    | .parked => ⟨s, none, .none⟩
    | .aiming =>
      match s.follower.aim with
      | some a => aimSample a c s
      | none => ⟨s, none, .none⟩
    | .following =>
      if c.present then
        let r := steer c s
        ⟨r.1, some r.2, .none⟩
      else enterHolding s
    | .holding => if c.present then closeLoop true .none c s else countGrace s
    | .searching => searchingSample c s
    | .lost => lostSample c s

/-- R66: the follower's handling of a sample, without the writing of its frame. -/
def followerSample (c : Corrected) (s : State) : Handled := followerTransition c (notePresence c s)

end Sys2Proof.Machine
end

