-- ==== Sys2Proof/Machine/Emitter.lean ====
section
/-! DEFINITION. The emitter: the latest-point slot, the four modes and their point records, and the trigger (chapter 6). -/

namespace Sys2Proof.Machine

/-! ### Mode changes -/

def setMode (m : EmissionMode) (s : State) : State := s.setEmitter { s.emitter with mode := m }

/-- R120: a SINGLE in progress is aborted and MEASURE_ABORTED latched once. -/
def abortSingle (s : State) : State :=
  if s.emitter.mode.isSingle then occur .measureAborted (setMode .idle s) else s

/-- Whether the distance state is ESTABLISHED. -/
def DistanceState.isEstablished : DistanceState → Bool
  | .established _ _ _ => true
  | .none => false
  | .awaitAdm _ _ => false
  | .awaitHome _ _ _ => false

/-- R120: between samples, the distance state has left ESTABLISHED or the follower has left FOLLOWING since `before`. -/
def abortIfBroken (before : State) (s : State) : State :=
  if (before.distance.state.isEstablished && !s.distance.state.isEstablished) ||
      (decide (before.follower.state = .following) && decide (s.follower.state ≠ .following)) then abortSingle s
  else s

/-! ### Points (R111, R112, R127) -/

/-- R111: the sample's distance when the sample is usable. -/
def usableDistance (c : Corrected) (s : State) : Option CorrectedDistance :=
  if s.follower.state = .following then c.distance else none

/-- The flags of a sample (R127). -/
def pointFlags (c : Corrected) (d : CorrectedDistance) : PointFlags :=
  { uncompensated := c.angles.any (·.uncompensated), outOfRange := d.outOfRange, refractionStale := d.refractionStale }

def PointFlags.union (a b : PointFlags) : PointFlags :=
  { uncompensated := a.uncompensated || b.uncompensated, outOfRange := a.outOfRange || b.outOfRange,
    refractionStale := a.refractionStale || b.refractionStale }

/-- The record of one emitted sample; the sequence number is given at admission (R129). -/
def samplePoint (kind : PointKind) (c : Corrected) (d : CorrectedDistance) : PointRecord :=
  { sequence := 0, timestamp := c.frame.timestamp, kind := kind, at_ := d.at_, flags := pointFlags c d, source := d.source,
    samples := 1 }

/-- The content of the latest-point slot made from a usable sample (R112). -/
def latestPoint (c : Corrected) (d : CorrectedDistance) : LatestPoint :=
  { seq := c.frame.seq, timestamp := c.frame.timestamp, at_ := d.at_, flags := pointFlags c d, source := d.source }

/-- R112: a usable sample replaces the latest-point slot. -/
def writeLatest (c : Corrected) (d : CorrectedDistance) (s : State) : State :=
  s.setEmitter { s.emitter with latest := some (latestPoint c d), fresh := true }

/-! ### SINGLE (R117 to R119) -/

/-- R117: within tolerance of an anchor on every axis. -/
def nearAnchor (tol : Nat) (a p : Triple) : Bool := (p.sub a).within tol

/-- The averaging items at the start of AVERAGING (R117). -/
def Averaging.fresh : Averaging :=
  { count := 0, sum := zero3, least := zero3, greatest := zero3, flags := ⟨false, false, false⟩ }

/-- R118: one sample is added. -/
def Averaging.add (a : Averaging) (p : Triple) (f : PointFlags) : Averaging :=
  { count := a.count + 1
    sum := a.sum.add p
    least := if a.count = 0 then p else a.least.lower p
    greatest := if a.count = 0 then p else a.greatest.upper p
    flags := a.flags.union f }

/-- R119: the mean of an axis over `n` samples, exact halves going toward plus infinity. -/
def meanOf (sum : Int) (n : Nat) : Int := (2 * sum + n) / (2 * n)

def Triple.mean (t : Triple) (n : Nat) : Triple := ⟨meanOf t.c1 n, meanOf t.c2 n, meanOf t.c3 n⟩

/-- R119: the spread, the largest distance of an extreme from the mean. -/
def Averaging.spread (a : Averaging) (m : Triple) : Int :=
  max (max (max (a.greatest.c1 - m.c1) (m.c1 - a.least.c1)) (max (a.greatest.c2 - m.c2) (m.c2 - a.least.c2)))
    (max (a.greatest.c3 - m.c3) (m.c3 - a.least.c3))

/-- R119: the record of a completed SINGLE. -/
def singlePoint (m : SingleMeasure) (a : Averaging) (frame : CoordFrame) (c : Corrected) (d : CorrectedDistance) : PointRecord :=
  let mean := a.sum.mean m.n
  { sequence := 0, timestamp := c.frame.timestamp, kind := .single (a.spread mean).toNat m.settleTotal,
    at_ := ⟨frame, mean⟩, flags := a.flags, source := d.source, samples := m.n }

/-- R117: the window after a usable sample in SETTLING. No rule clears the window count when the phase becomes AVERAGING; it is
kept (log 30). -/
def SingleMeasure.settleOn (m : SingleMeasure) (p : Anchor) : SingleMeasure :=
  let near := m.anchor.any fun a => nearAnchor m.tol a.pos p.pos
  let m' :=
    { m with
      anchor := if near then m.anchor else some p
      window := if near then m.window + 1 else 1
      settleTotal := count16 m.settleTotal }
  if m.settle ≤ m'.window then { m' with phase := .averaging .fresh } else m'

/-- R118: a sample outside tolerance in AVERAGING. -/
def SingleMeasure.resettle (m : SingleMeasure) (p : Anchor) : SingleMeasure :=
  { m with phase := .settling, anchor := some p, window := 1, settleTotal := count16 m.settleTotal }

/-- R117 to R119: a usable sample in SINGLE. -/
def singleSample (m : SingleMeasure) (c : Corrected) (d : CorrectedDistance) (s : State) : State :=
  match m.phase with
  | .settling => setMode (.single (m.settleOn d.at_)) s
  | .averaging a =>
    if (m.anchor.any fun g => nearAnchor m.tol g.pos d.at_.pos) then
      let a' := a.add d.at_.pos (pointFlags c d)
      if m.n ≤ a'.count then
        offerPoint (singlePoint m a' ((m.anchor.map (·.frame)).getD d.at_.frame) c d) (setMode .idle s)
      else setMode (.single { m with phase := .averaging a' }) s
    else setMode (.single (m.resettle d.at_)) s

/-! ### STREAM, SPACED and TRIGGERED (R122, R123, R126) -/

/-- R122. -/
def streamSample (m count : Nat) (c : Corrected) (d : CorrectedDistance) (s : State) : State :=
  if m ≤ count + 1 then offerPoint (samplePoint .stream c d) (setMode (.stream m 0) s)
  else setMode (.stream m (count + 1)) s

/-- R123: whether a sample is far enough from the anchor, or in another frame, or the anchor is cleared. -/
def spacedEmits (gap : Nat) (anchor : Option Anchor) (p : Anchor) : Bool :=
  match anchor with
  | none => true
  | some a => decide (a.frame ≠ p.frame) || decide ((gap : Int) * gap ≤ dot (p.pos.sub a.pos) (p.pos.sub a.pos))

/-- R123. -/
def spacedSample (gap : Nat) (anchor : Option Anchor) (c : Corrected) (d : CorrectedDistance) (s : State) : State :=
  if spacedEmits gap anchor d.at_ then offerPoint (samplePoint .spaced c d) (setMode (.spaced gap (some d.at_)) s)
  else s

/-- R126. -/
def triggeredSample (capture : Option Capture) (c : Corrected) (d : CorrectedDistance) (s : State) : State :=
  match capture with
  | none => s
  | some k => offerPoint (samplePoint (.triggered k.timeMs k.timestamp) c d) (setMode (.triggered none) s)

/-- The action of the mode on a usable sample. -/
def modeSample (c : Corrected) (d : CorrectedDistance) (s : State) : State :=
  match s.emitter.mode with
  | .idle => s
  | .single m => singleSample m c d s
  | .stream m count => streamSample m count c d s
  | .spaced gap anchor => spacedSample gap anchor c d s
  | .triggered capture => triggeredSample capture c d s

/-- R111: the emitter's handling of a corrected sample: the latest timestamp, the slot, then the mode; an unusable sample
aborts a SINGLE (R120). -/
def emitterSample (c : Corrected) (s : State) : State :=
  let s1 := s.setEmitter { s.emitter with latestTimestamp := some c.frame.timestamp }
  match usableDistance c s1 with
  | none => abortSingle s1
  | some d => modeSample c d (writeLatest c d s1)

/-! ### Requests (R113, R114) -/

/-- A parameter slot of START_MEASURE: its value, and whether it was clamped. A slot not marked present takes the default. -/
def slotParam (mask : Byte) (bit : Nat) (v : Word) (lo hi dflt : Int) : Int × Bool :=
  if mask.getLsbD bit then (clamp lo hi v.toInt, clamp lo hi v.toInt != v.toInt) else (dflt, false)

/-- The parameters in force, after the mode (R114, R130). -/
def EmissionMode.data : EmissionMode → List Datum
  | .idle => [d1 0]
  | .single m => [d1 1, d4 m.n, d4 m.tol, d4 m.settle]
  | .stream m _ => [d1 2, d4 m]
  | .spaced g _ => [d1 3, d4 g]
  | .triggered _ => [d1 4]

/-- R117: a SINGLE as it starts. -/
def singleStart (n tol settle : Nat) : SingleMeasure :=
  { n := n, tol := tol, settle := settle, phase := .settling, anchor := none, window := 0, settleTotal := 0, timer := 5000 }

/-- R114: the mode a START_MEASURE asks for, with whether a parameter was clamped. -/
def requestedMode (mode mask : Byte) (p1 p2 p3 : Word) : Option (EmissionMode × Bool) :=
  match mode.toNat with
  | 1 =>
    let n := slotParam mask 0 p1 1 64 16
    let tol := slotParam mask 1 p2 5 2000 25
    let settle := slotParam mask 2 p3 5 100 20
    some (.single (singleStart n.1.toNat tol.1.toNat settle.1.toNat), n.2 || tol.2 || settle.2)
  | 2 =>
    let m := slotParam mask 0 p1 1 1000 10
    some (.stream m.1.toNat 0, m.2)
  | 3 =>
    let g := slotParam mask 0 p1 100 1000000 5000
    some (.spaced g.1.toNat none, g.2)
  | 4 => some (.triggered none, false)
  | _ => none

/-- R114. -/
def startMeasure (mode mask : Byte) (p1 p2 p3 : Word) (s : State) : Answer :=
  match requestedMode mode mask p1 p2 p3 with
  | none => refuse s .range
  | some (m, clamped) =>
    if s.round.state.isRunning then refuse s .busy
    else if s.emitter.mode.isSingle then refuse s .busy
    else acceptClamped clamped (setMode m s) m.data

/-- The fields of the latest-point slot, 0 when it is empty (R113, R182). The first value says whether a point is held
(log 15). -/
def latestData (o : Option LatestPoint) : List Datum :=
  match o with
  | some p => [d1 1, d1 p.seq.toNat, d4 p.timestamp.toNat, d1 p.at_.frame.code] ++ p.at_.pos.data ++ [d1 p.flags.code, d1 p.source.code]
  | none => [d1 0, d1 0, d4 0, d1 0] ++ zero3.data ++ [d1 0, d1 0]

/-- R113. When the slot is empty the fresh mark is sent clear. -/
def readLatest (s : State) : Answer :=
  accept (s.setEmitter { s.emitter with fresh := false })
    (latestData s.emitter.latest ++ [d1 (codeBool (s.emitter.latest.isSome && s.emitter.fresh))])

/-! ### The trigger (R124, R125) -/

/-- R125: an edge of TRIG. -/
def triggerEdge (e : Edge) (s : State) : State :=
  if e ≠ s.emitter.polarity then s
  else
    match s.emitter.mode with
    | .triggered none =>
      setMode (.triggered (some { timeMs := s.localTime, timestamp := s.emitter.latestTimestamp.getD 0 })) s
    | .triggered (some _) => occur .triggerLost s
    | .idle => s
    | .single _ => s
    | .stream _ _ => s
    | .spaced _ _ => s

end Sys2Proof.Machine
end

