-- ==== Sys2Proof/Machine/Round.lean ====
section
/-! DEFINITION. The round unit: the fiducial table, starting, measuring, completing and aborting a round (chapter 7). -/

namespace Sys2Proof.Machine

/-! ### Small pieces -/

def setRoundState (st : RoundState) (s : State) : State := s.setRound { s.round with state := st }

/-- The round state becomes `st` and ROUND_DUE is reported (R139). -/
def storeRoundState (st : RoundState) (s : State) : State := reportLevel .roundDue (setRoundState st s)

/-- The elevation of stored angles is clamped, so that they are a valid GOTO target (R141, R148). -/
def clampAngles (a : Angles) : Angles := ⟨a.az, clamp elMin elMax a.el⟩

/-- The indices of the ENABLED entries, ascending (R141). -/
def RoundUnit.enabledSlots (u : RoundUnit) : List (Fin 16) :=
  (List.finRange 16).filter fun i => decide (u.table[i].state = .enabled)

/-- R138 check 6: a busy condition. -/
def roundBusy (s : State) : Bool :=
  decide (s.emitter.mode ≠ .idle) || s.search.active.isSome || decide (s.follower.state = .aiming)

/-- Checks 2 to 5 of R138, in order: the first failing one, as a refusal. -/
def roundCondition (s : State) : Option RefuseReason :=
  if s.poses.active = none then some .noPose
  else if s.head.hasAdm = false then some .noAdm
  else if s.round.enabledSlots = [] then some .state
  else if s.head.driveState = .disabled then some .state
  else none

/-- The reason in the summary of a start abandoned by `roundCondition` (R139). -/
def RefuseReason.abortReason : RefuseReason → AbortReason
  | .noPose => .noPose
  | .noAdm => .noAdm
  | .busy => .state
  | .range => .state
  | .authority => .state
  | .state => .state
  | .poseActive => .state
  | .poseInvalid => .state
  | .incomplete => .state
  | .unknown => .state

/-- The period timer is loaded with the period (R137). -/
def loadPeriod (u : RoundUnit) : RoundUnit := { u with periodTimer := u.period * 60000 }

/-! ### Slots (R142, R149) -/

/-- R142: a slot begins with a round GOTO to the entry's aim angles. -/
def beginSlot (r : RunningRound) (entry : Fin 16) (s : State) : State :=
  let s1 :=
    setRoundState
      (.running { r with current := entry, phase := .aim, slotTimer := 10000, avgCount := 0, sums := zero3 }) s
  enterAiming s1.round.table[entry].aim .hold .round s1

/-! ### Completion (R150, R151) -/

/-- R150 step 1 and 2: an entry receives its pending result under the new round number. -/
def FiducialEntry.commit (e : FiducialEntry) (p : PendingResult) (number : Nat) : FiducialEntry :=
  { e with result := p.result, aim := p.newAim.getD e.aim, resultRound := some number }

/-- R150: the pending results are written into the table, in order. -/
def commitResults (number : Nat) (table : Vector FiducialEntry 16) : List PendingResult → Vector FiducialEntry 16
  | [] => table
  | p :: rest => commitResults number (table.set p.entry.val (table[p.entry].commit p number) p.entry.isLt) rest

def PendingResult.isOutTol (p : PendingResult) : Bool :=
  match p.result with
  | .outTol _ => true
  | .inTol _ => false
  | .never => false
  | .notFound => false

/-- R150 step 2: the round number after a completed round. -/
def nextRoundNumber (n : Nat) : Nat := countUp 4294967295 n

/-- R150 steps 1 to 4: the round unit after the commit. -/
def RoundUnit.committed (u : RoundUnit) (results : List PendingResult) : RoundUnit :=
  let number := nextRoundNumber u.roundNumber
  { u with
    table := commitResults number u.table results
    roundNumber := number
    state := .idle
    summary :=
      .completed number (results.countP PendingResult.isOutTol) (results.countP fun p => decide (p.result = .notFound)) }

/-- R151: the return to the roaming reflector, or the park. -/
def returnRound (s : State) : State :=
  match s.round.returnOn, s.round.returnAngles with
  | true, some a => enterAiming a .follow .round s
  | true, none => enterParked s
  | false, _ => enterParked s

/-- R150: the commit of all pending results in one handling, and the return. -/
def completeRound (results : List PendingResult) (s : State) : State :=
  returnRound (reportLevel .drift (occur .roundDone (s.setRound (s.round.committed results))))

/-- R149: the current slot ends with a result: the distance is released, and the next slot begins or the round completes. -/
def endSlot (result : FiducialResult) (newAim : Option Angles) (s : State) : State :=
  match s.round.state with
  | .running r =>
    let results := r.results ++ [⟨r.current, result, newAim⟩]
    let s1 := releaseDistance s
    match r.slots[results.length]? with
    | some e => beginSlot { r with results := results } e s1
    | none => completeRound results s1
  | .idle => s
  | .due => s

/-! ### Starting (R138 to R141) -/

/-- R141 step 1. -/
def returnAnglesOf (u : Follower) : Option Angles :=
  if u.state = .following ∨ u.state = .holding then u.lastAngles.map clampAngles else none

/-- R141: a round starts with its first slot. -/
def startRoundNow (s : State) : State :=
  match s.round.enabledSlots with
  | [] => s
  | first :: rest =>
    let r : RunningRound :=
      { slots := first :: rest, current := first, phase := .aim, slotTimer := 0, avgCount := 0, sums := zero3, results := [] }
    let u := loadPeriod { s.round with state := .running r, returnAngles := returnAnglesOf s.follower }
    beginSlot r first (releaseDistance (reportLevel .roundDue (s.setRound u)))

/-- R139, R140 and R152: the round is over or abandoned: IDLE, ROUND_ABORTED latched, and the reason in the summary. -/
def abandonRound (reason : AbortReason) (s : State) : State :=
  occur .roundAborted
    (reportLevel .roundDue (s.setRound { s.round with state := .idle, summary := .aborted reason }))

/-- Starts the round, or abandons it for the first failing condition (R139, R140). -/
def tryRound (s : State) : State :=
  match roundCondition s with
  | none => startRoundNow s
  | some r => abandonRound r.abortReason s

/-- R140: a DUE round is examined: it goes on waiting while a busy condition holds. -/
def examineDue (s : State) : State :=
  if s.round.state = .due ∧ roundBusy s = false then tryRound s else s

/-- R138. -/
def startRound (s : State) : Answer :=
  if s.round.state.isRunning then refuse s .busy
  else
    match roundCondition s with
    | some r => refuse s r
    | none =>
      if roundBusy s then refuse s .busy
      else
        accept (startRoundNow s) [d1 s.round.enabledSlots.length, d4 (nextRoundNumber s.round.roundNumber)]

/-- R139: the period timer expires, and is reloaded. -/
def expirePeriod (s : State) : State :=
  let s1 := s.setRound (loadPeriod s.round)
  match s1.round.state with
  | .running _ => s1
  | .due => s1
  | .idle => if roundBusy s1 then storeRoundState .due s1 else tryRound s1

/-! ### Aborting (R152) -/

/-- R152: a RUNNING round is abandoned: its items are discarded, the return angles too; the distance is not touched here. -/
def discardRound (reason : AbortReason) (s : State) : State :=
  abandonRound reason (s.setRound { s.round with returnAngles := none })

/-- R152 and R140: PARK, a DISABLED read or STOP_ROUND ends a RUNNING or DUE round; a RUNNING one releases the distance
first. -/
def stopRoundFor (reason : AbortReason) (s : State) : State :=
  match s.round.state with
  | .running _ => discardRound reason (releaseDistance s)
  | .due => abandonRound reason s
  | .idle => s

/-- R140: a DUE round only is ended. -/
def endDue (reason : AbortReason) (s : State) : State :=
  if s.round.state = .due then abandonRound reason s else s

/-- R152. -/
def stopRound (s : State) : Answer :=
  match s.round.state with
  | .running _ => accept (enterParked (stopRoundFor .stopped s)) []
  | .due => accept (stopRoundFor .stopped s) []
  | .idle => refuse s .state

/-! ### The handling of a sample (R143 to R148) -/

/-- The entry being measured. -/
def RoundUnit.entry (u : RoundUnit) (r : RunningRound) : FiducialEntry := u.table[r.current]

/-- R145: the round unit asks for a search on a sample; the step's frame takes the place of the follower's HOLD. -/
def askRoundSearch (r : RunningRound) (s : State) : Handled :=
  match askSearch (s.round.entry r).descriptor (s.round.entry r).aim .round s with
  | (t, .started target) =>
    ⟨setRoundState (.running { r with phase := .search }) t, some (.position target.az target.el), .none⟩
  | (t, .starved) => ⟨t, some .hold, .searchFailed⟩
  | (t, .unusable) => ⟨t, some .hold, .searchFailed⟩

/-- R144, R146: the follower's handling of a sample may make the round unit ask for a search on that sample: an ABSENT sample in
ACQUIRE, or the loss of the beam in CENTRE or ADM (where the round unit first releases the distance). -/
def roundSearch (c : Corrected) (h : Handled) : Handled :=
  match h.state.round.state with
  | .running r =>
    match r.phase, h.report with
    | .acquire, .none => if c.present then h else askRoundSearch r h.state
    | .centre, .beamLost => askRoundSearch r h.state
    | .adm, .beamLost => askRoundSearch r (releaseDistance h.state)
    | _, _ => h
  | .idle => h
  | .due => h

/-- R146: a sample in CENTRE, tested while the follower is in FOLLOWING. -/
def centreSample (r : RunningRound) (c : Corrected) (s : State) : State :=
  if s.follower.state = .following ∧ inRange (-200) 200 c.psdX = true ∧ inRange (-200) 200 c.psdY = true then
    match askRoundWait s with
    | (t, true) => setRoundState (.running { r with phase := .adm }) t
    | (t, false) => endSlot .notFound none t
  else setRoundState (.running { r with phase := .centre }) s

/-- R148: the result of eight averaged samples. -/
def judge (e : FiducialEntry) (sums : Triple) : FiducialResult :=
  let pos := sums.mean 8
  let dev := pos.sub e.nominal
  match e.checkMode with
  | .presence => .inTol ⟨pos, dev⟩
  | .position => if dev.within e.tolerance then .inTol ⟨pos, dev⟩ else .outTol ⟨pos, dev⟩

/-- R148: a sample in AVERAGE. -/
def averageSample (r : RunningRound) (c : Corrected) (s : State) : State :=
  match usableDistance c s with
  | none => endSlot .notFound none s
  | some d =>
    let sums := r.sums.add d.at_.pos
    if r.avgCount + 1 < 8 then setRoundState (.running { r with avgCount := r.avgCount + 1, sums := sums }) s
    else endSlot (judge (s.round.entry r) sums) (c.sampleAngles.map clampAngles) s

/-- The round unit's handling of a corrected sample while RUNNING, with the follower's report (section 7.4). -/
def roundSample (report : FollowerReport) (c : Corrected) (s : State) : State :=
  match s.round.state with
  | .running r =>
    match report, r.phase with
    | .searchFailed, _ => endSlot .notFound none s
    | .arrived, .aim => setRoundState (.running { r with phase := .acquire }) s
    | .acquired, .acquire => centreSample r c s
    | .acquired, .search => centreSample r c s
    | _, .centre => centreSample r c s
    | _, .average => averageSample r c s
    | _, _ => s
  | .idle => s
  | .due => s

/-- R147: the distance unit reports the end of the round's wait as ESTABLISHED. -/
def roundEstablished (s : State) : State :=
  match s.round.state with
  | .running r => if r.phase = .adm then setRoundState (.running { r with phase := .average }) s else s
  | .idle => s
  | .due => s

/-- R147: the end of the round's wait is TIMED_OUT, or CANCELLED by something other than the round unit: the slot ends
NOT_FOUND. -/
def roundWaitFailed (s : State) : State :=
  match s.round.state with
  | .running r => if r.phase = .adm then endSlot .notFound none s else s
  | .idle => s
  | .due => s

/-! ### Requests (R132 to R134) -/

/-- The entry's new content and the DRIFT condition (R135). -/
def storeFiducial (i : Fin 16) (e : FiducialEntry) (s : State) : State :=
  reportLevel .drift (s.setRound { s.round with table := s.round.table.set i.val e i.isLt })

/-- R132 check 3: the entry that the fields stand for, or none when a field is refused RANGE. -/
def fiducialOf (f : FiducialField) : Option FiducialEntry :=
  match fiducialStateOf f.state, checkModeOf f.checkMode, index8OrNone f.descriptor with
  | some st, some m, some d =>
    if Triple.within 1000000000 ⟨f.nomX.toInt, f.nomY.toInt, f.nomZ.toInt⟩ = true ∧ azInRange f.aimAz.toInt = true ∧
        elInRange f.aimEl.toInt = true ∧ 10 ≤ f.tolerance.toNat ∧ f.tolerance.toNat ≤ 10000 then
      some
        { state := st, nominal := ⟨f.nomX.toInt, f.nomY.toInt, f.nomZ.toInt⟩, aim := ⟨f.aimAz.toInt, f.aimEl.toInt⟩,
          tolerance := f.tolerance.toNat, checkMode := m, descriptor := d, result := .never, resultRound := none }
    else none
  | _, _, _ => none

def Measured.data (m : Measured) : List Datum := m.pos.data ++ m.dev.data

/-- The last result with measured and deviation. DESIGN CHOICE (log 31), unsafe: where they are absent they keep their place as
0, which R182 allows beside leaving them out. -/
def FiducialResult.data (r : FiducialResult) : List Datum :=
  d1 r.code :: match r with
    | .inTol m => m.data
    | .outTol m => m.data
    | .never => zero3.data ++ zero3.data
    | .notFound => zero3.data ++ zero3.data

/-- All fields of an entry, in the order of R131, for the replies of R132 and R134. DESIGN CHOICE (log 31), unsafe: an absent
result round is sent as 0 in its place. -/
def FiducialEntry.data (e : FiducialEntry) : List Datum :=
  [d1 e.state.code] ++ e.nominal.data ++
    [d4 e.aim.az, d4 e.aim.el, d2 e.tolerance, d1 e.checkMode.code, d1 (codeIndex8 e.descriptor)] ++ e.result.data ++
    [d4 (e.resultRound.getD 0)]

/-- R132. -/
def writeFiducial (index : Byte) (f : FiducialField) (s : State) : Answer :=
  match index16 index with
  | none => refuse s .range
  | some i =>
    if s.round.state.isRunning then refuse s .busy
    else
      match fiducialOf f with
      | none => refuse s .range
      | some e => accept (storeFiducial i e s) e.data

/-- R133: both requests. -/
def changeFiducial (st : FiducialState) (index : Byte) (s : State) : Answer :=
  match index16 index with
  | none => refuse s .range
  | some i =>
    if s.round.state.isRunning then refuse s .busy
    else if s.round.table[i].state = .unused then refuse s .state
    else accept (storeFiducial i { s.round.table[i] with state := st } s) [d1 st.code]

/-- Whether an entry is in the slot list of a RUNNING round (R134). -/
def RoundState.lists (st : RoundState) (i : Fin 16) : Bool :=
  match st with
  | .running r => r.slots.contains i
  | .idle => false
  | .due => false

/-- R134. -/
def readFiducial (index : Byte) (s : State) : Answer :=
  match index16 index with
  | none => refuse s .range
  | some i =>
    accept s
      (s.round.table[i].data ++ [d4 s.round.roundNumber, d1 (codeBool (s.round.state.lists i))])

end Sys2Proof.Machine
end

