-- ==== Sys2Proof/Machine/Sampling.lean ====
section
/-! DEFINITION. The taking of a sample: the correction in the order of R4, the hand-over to the follower, the search unit, the
emitter and the round unit (R1 to R4, R66, R88). -/

namespace Sys2Proof.Machine

/-- R46, R147: a wait of the round unit that has just been decided is reported to it. -/
def noteEstablished (before : DistanceState) (s : State) : State :=
  match before, s.distance.state with
  | .awaitAdm .round _, .established _ _ _ => roundEstablished s
  | _, _ => s

/-- Step 2 of R4, with the report to the round unit. -/
def decideStep (f : Sample) (present : Bool) (s : State) : State :=
  noteEstablished s.distance.state (decideDistance f present s)

/-- R3: a bad sample is counted; the distance unit reads it as beam absent with ifm_ok clear. -/
def correctBad (f : Sample) (s : State) : State × Corrected :=
  (decideStep f false (s.setCorrection { s.correction with badSamples := count16 s.correction.badSamples }),
    { frame := f, present := false, psdX := clampPsd f.psdX, psdY := clampPsd f.psdY, angles := none, distance := none })

/-- R4: a sample that is not bad passes stages A to D; the latest elevation pair is replaced (R25). -/
def correctGood (f : Sample) (s : State) : State × Corrected :=
  let present := decidePresence s.follower f
  let a := correctAngles s.correction f
  let m := measure f a (decideStep f present s)
  (m.1.setCorrection { m.1.correction with cosEl := a.cosEl, sinEl := a.sinEl },
    { frame := f, present := present, psdX := clampPsd f.psdX, psdY := clampPsd f.psdY, angles := some a, distance := m.2 })

/-- R1 to R4: the correction of a taken sample. -/
def correctSample (f : Sample) (s : State) : State × Corrected := if badSample f then correctBad f s else correctGood f s

/-- R88: the sample's frame is written. -/
def writeFrame (o : Option Steer) (s : State) : State :=
  match o with
  | some f => writeSteer f s
  | none => s

/-- R2, R66, R88: the corrected sample is handed to the follower (with the search unit), the emitter and, while a round is
RUNNING, the round unit; a DUE round is examined last (R140). -/
def handOver (c : Corrected) (s : State) : State :=
  let h := roundSearch c (followerSample c s)
  examineDue (roundSample h.report c (emitterSample c (writeFrame h.frame h.state)))

/-- A taken sample, whole. -/
def processSample (f : Sample) (s : State) : State :=
  let r := correctSample f s
  handOver r.2 r.1

/-- R1: the oldest queued sample is taken; an empty queue holds nothing to take. -/
def takeOldest (s : State) : State :=
  match s.head.rx with
  | [] => s
  | f :: rest => processSample f (s.setHead { s.head with rx := rest })

/-- R75 to R77: the oldest queued sample is the one on which the grace expires. -/
def graceDue (s : State) : Bool :=
  match s.head.rx with
  | [] => false
  | f :: _ =>
    !decidePresence s.follower f && !s.follower.followPending &&
      match s.follower.state with
      | .holding => decide (s.follower.grace.getD 0 ≤ 1)
      | .following => decide (s.follower.graceParam = 0)
      | .parked => false
      | .aiming => false
      | .searching => false
      | .lost => false

/-- R102: the oldest queued sample is one on which the search needs its next step. -/
def dwellDue (s : State) : Bool :=
  match s.head.rx, s.search.active with
  | f :: _, some a =>
    decide (s.follower.state = .searching) && !s.follower.followPending && decide (a.dwell ≤ 1) &&
      !(decidePresence s.follower f && decide (2 ≤ s.follower.acqRun))
  | _, _ => false

end Sys2Proof.Machine
end

