-- ==== Sys2Proof/Machine/Ticks.lean ====
section
/-! DEFINITION. The 1 ms tick: the counting of every timer and the handling of those that reach 0 (R21, R51, R74, R121, R139,
R142, R168). -/

namespace Sys2Proof.Machine

/-! ### HEAD_SILENT (R168, R55, R82, R120, R152) -/

/-- R82: the follower's action on the assertion. In LOST the acquisition run counter returns to 0, since the assertion ends a
RUNNING round and outside one the counter stays at 0 (R80). -/
def silenceFollower (s : State) : State :=
  match s.follower.state with
  | .parked => s.setFollower { s.follower with followPending := false }
  | .lost => s.setFollower { s.follower with followPending := false, acqRun := 0 }
  | .aiming => silenced s
  | .following => silenced s
  | .holding => silenced s
  | .searching => silenced s
where
  /-- A search is aborted and the follower enters LOST. -/
  silenced (s : State) : State :=
    let s1 := abortSearch s
    enterLost (s1.setFollower { s1.follower with followPending := false })

/-- R152: while a round is RUNNING its release and the distance unit's action come in either order; which comes first is a
free value (log 9). -/
def silenceRelease (s : State) : State :=
  if s.round.state.isRunning then
    if Config.releaseFirst s.freeCount then releaseDistance (useFree s) else useFree s
  else s

/-- R152: a RUNNING round is aborted with reason SILENT. -/
def silenceRound (s : State) : State := if s.round.state.isRunning then discardRound .silent s else s

/-- R168: the assertion, made known to the distance unit, the follower, the emitter and the round unit. -/
def assertSilence (s : State) : State :=
  examineDue
    (silenceRound
      (abortSingle (silenceFollower (leaveDistance .silence (silenceRelease (reportLevel .headSilent s))))))

/-! ### The other expiries -/

/-- R51, with the report to the round unit (R147). -/
def expireWait (s : State) : State :=
  match s.distance.state.wait with
  | some (kind, owner, 0) =>
    if owner = .round then roundWaitFailed (timeOutWait kind s) else timeOutWait kind s
  | _ => s

/-- R143: an aim timeout of the round's aim ends the slot in phase AIM. -/
def roundAimTimeout (s : State) : State :=
  match s.round.state with
  | .running r => if r.phase = .aim then endSlot .notFound none s else s
  | .idle => s
  | .due => s

/-- R74. -/
def expireAim (s : State) : State :=
  match s.follower.aim with
  | some a =>
    if a.timer = 0 then
      let t := occur .aimTimeout (enterLost s)
      examineDue (if a.owner = .round then roundAimTimeout t else t)
    else s
  | none => s

/-- R121. -/
def expireMeasure (s : State) : State :=
  match s.emitter.mode with
  | .single m => if m.timer = 0 then examineDue (occur .measureTimeout (setMode .idle s)) else s
  | .idle => s
  | .stream _ _ => s
  | .spaced _ _ => s
  | .triggered _ => s

/-- R142. -/
def expireSlot (s : State) : State :=
  match s.round.state with
  | .running r => if r.slotTimer = 0 then endSlot .notFound none s else s
  | .idle => s
  | .due => s

/-- R137 and R139. -/
def expireRoundPeriod (s : State) : State :=
  if s.round.period ≠ 0 ∧ s.round.periodTimer = 0 then expirePeriod s else s

/-! ### Counting -/

/-- R121. -/
def EmissionMode.tick (m : EmissionMode) : EmissionMode :=
  match m with
  | .single x => .single { x with timer := x.timer - 1 }
  | .idle => .idle
  | .stream a b => .stream a b
  | .spaced a b => .spaced a b
  | .triggered a => .triggered a

/-- R142. -/
def RoundState.tick (r : RoundState) : RoundState :=
  match r with
  | .running x => .running { x with slotTimer := x.slotTimer - 1 }
  | .idle => .idle
  | .due => .due

/-- R137: the period timer counts while the period is not 0. -/
def RoundUnit.tick (u : RoundUnit) : RoundUnit :=
  { u with state := u.state.tick, periodTimer := if u.period = 0 then u.periodTimer else u.periodTimer - 1 }

/-- The local time, the age of N and every running timer count one tick; a stale N is reported (R21). -/
def countTick (s : State) : State :=
  reportLevel .refractionStale
    { s with
      localTime := s.localTime + 1
      correction := { s.correction with age := countUp 4294967295 s.correction.age }
      distance := { s.distance with state := s.distance.state.tick }
      follower := { s.follower with aim := s.follower.aim.map fun a => { a with timer := a.timer - 1 } }
      emitter := { s.emitter with mode := s.emitter.mode.tick }
      round := s.round.tick
      head := { s.head with silenceTimer := s.head.silenceTimer - 1 } }

/-! ### The tick -/

/-- The timers whose reaching 0 is handled. -/
inductive Expiry where
  | silence
  | establish
  | aim
  | measure
  | slot
  | period
  deriving DecidableEq, Repr

/-- Every timer, in the order of the table of operations. -/
def Expiry.all : List Expiry := [.silence, .establish, .aim, .measure, .slot, .period]

/-- The timer's number: its place in the table of operations. -/
def Expiry.number : Expiry → Nat
  | .silence => 0
  | .establish => 1
  | .aim => 2
  | .measure => 3
  | .slot => 4
  | .period => 5

/-- Handles one timer, if it stands at 0. `silent` says that the silence timer reached 0 on this tick. -/
def expire (silent : Bool) (s : State) : Expiry → State
  | .silence => if silent then assertSilence s else s
  | .establish => expireWait s
  | .aim => expireAim s
  | .measure => expireMeasure s
  | .slot => expireSlot s
  | .period => expireRoundPeriod s

/-- One tick, with the expiries in a given order. -/
def tickIn (order : List Expiry) (s : State) : State :=
  order.foldl (expire (decide (s.head.silenceTimer = 1))) (countTick s)

/-- Whether the next tick brings a timer to 0. -/
def expiryDue (s : State) : Expiry → Bool
  | .silence => decide (s.head.silenceTimer = 1)
  | .establish => s.distance.state.wait.any fun w => decide (w.2.2 ≤ 1)
  | .aim => s.follower.aim.any fun a => decide (a.timer ≤ 1)
  | .measure =>
    match s.emitter.mode with
    | .single m => decide (m.timer ≤ 1)
    | .idle => false
    | .stream _ _ => false
    | .spaced _ _ => false
    | .triggered _ => false
  | .slot =>
    match s.round.state with
    | .running r => decide (r.slotTimer ≤ 1)
    | .idle => false
    | .due => false
  | .period => decide (s.round.period ≠ 0) && decide (s.round.periodTimer ≤ 1)

/-- Whether the next tick brings more than one timer to 0. -/
def severalDue (s : State) : Bool := decide (2 ≤ (Expiry.all.filter (expiryDue s)).length)

/-- Places a timer by its rank among timers already placed. -/
def Expiry.place (free : Nat) (e : Expiry) : List Expiry → List Expiry
  | [] => [e]
  | x :: xs =>
    if Config.expiryRank free e.number < Config.expiryRank free x.number then e :: x :: xs
    else x :: Expiry.place free e xs

/-- A free order of all the timers (log 4). -/
def Expiry.freeOrder (free : Nat) : List Expiry := Expiry.all.foldl (fun order e => Expiry.place free e order) []

/-- TIME_BASE_TICK: one tick. When it brings several timers to 0 they are handled in a free order (log 4). -/
def baseTick (s : State) : State :=
  if severalDue s then tickIn (Expiry.freeOrder s.freeCount) (useFree s) else tickIn Expiry.all s

/-- A tick named by the timer it brings to 0: that timer is handled first, and others that reach 0 on the same tick follow in a
free order. Where the next tick does not bring it to 0, the named tick does not take place (log 4). -/
def namedTick (e : Expiry) (s : State) : State :=
  if expiryDue s e then
    if severalDue s then
      tickIn (e :: (Expiry.freeOrder s.freeCount).filter fun x => decide (x ≠ e)) (useFree s)
    else tickIn Expiry.all s
  else s

end Sys2Proof.Machine
end

