-- ==== Sys2Proof/Machine/Commands.lean ====
section
/-! DEFINITION. What the owning blocks do on the requests that reach several blocks: steering, distance, searching, measuring
and events; and the restart and the power-on reset (chapters 3 to 9). -/

namespace Sys2Proof.Machine

/-! ### Steering (R68, R70, R71, R81) -/

/-- R68. -/
def follow (s : State) : Answer :=
  if s.round.state.isRunning then refuse s .busy
  else if s.head.driveState = .disabled then refuse s .state
  else
    match s.follower.state with
    | .parked => accept (s.setFollower { s.follower with followPending := true }) []
    | .lost => accept (s.setFollower { s.follower with followPending := true }) []
    | .aiming => accept (s.setFollower { s.follower with followPending := true, aim := none, arrivalRun := 0 }) []
    | .following => accept s []
    | .holding => accept s []
    | .searching => accept s []

/-- R70 and R81: PARK and a DISABLED read. -/
def parkFor (reason : AbortReason) (s : State) : State :=
  if s.follower.state = .parked then endDue reason (s.setFollower { s.follower with followPending := false })
  else abortIfBroken s (enterParked (stopRoundFor reason s))

/-- R70. -/
def park (s : State) : Answer := accept (parkFor .parked s) []

/-- R71. -/
def goTo (az el : Word) (thenAction : Byte) (s : State) : Answer :=
  if s.round.state.isRunning then refuse s .busy
  else if s.head.driveState = .disabled then refuse s .state
  else
    match thenOf thenAction with
    | none => refuse s .range
    | some t =>
      if azInRange az.toInt = false ∨ elInRange el.toInt = false then refuse s .range
      else accept (abortIfBroken s (enterAiming ⟨az.toInt, el.toInt⟩ t .station s)) []

/-! ### Distance (R57) -/

/-- R57 and R147: the effect of DROP_DISTANCE; a cancelled wait of the round unit ends its slot. -/
def dropFor (s : State) : State :=
  let t := abortIfBroken s (releaseDistance s)
  match s.distance.state with
  | .awaitAdm .round _ => roundWaitFailed t
  | .awaitAdm .station _ => t
  | .awaitAdm .follower _ => t
  | .awaitHome _ _ _ => t
  | .none => t
  | .established _ _ _ => examineDue t

/-- R57. -/
def dropDistance (s : State) : Answer := accept (dropFor s) [d1 s.distance.state.code]

/-! ### Searching (R100) -/

/-- R99: the frame of a start made between samples is written at once. -/
def writeStart (r : State × SearchStart) : State :=
  match r.2 with
  | .started target => writeSteer (.position target.az target.el) r.1
  | .starved => examineDue (writeSteer .hold r.1)
  | .unusable => r.1

/-- R100: the centre of a station search. -/
def searchCentre (u : Follower) : Angles := u.lastAngles.getD ⟨0, 0⟩

/-- R100: the follower's states in which a station search may start. -/
def FollowerState.maySearch : FollowerState → Bool
  | .parked => true
  | .lost => true
  | .aiming => false
  | .following => false
  | .holding => false
  | .searching => false

/-- R100. -/
def stationSearch (index : Byte) (s : State) : Answer :=
  match index8 index with
  | none => refuse s .range
  | some i =>
    if s.round.state.isRunning then refuse s .busy
    else if s.head.driveState = .disabled then refuse s .state
    else if s.follower.state.maySearch = false then refuse s .state
    else if s.search.descriptors[i].ready = false then refuse s .state
    else
      let r :=
        startSearch i (searchCentre s.follower) .follower (s.setFollower { s.follower with followPending := false })
      accept (writeStart r)
        [d1 i.val, d4 (searchCentre s.follower).az, d4 (searchCentre s.follower).el, d1 (codeBool r.1.search.active.isSome)]

/-! ### Measuring (R116) -/

/-- R116: the mode returns to IDLE; a DUE round is examined (R140). -/
def stopMeasure (s : State) : Answer := accept (examineDue (setMode .idle s)) [d1 s.emitter.mode.code]

/-! ### Events (R157, R158, R160) -/

/-- R157: an edge source's latch is cleared. -/
def SourceState.acknowledged (x : SourceState) : SourceState :=
  { x with latch := false, count := 0, latchTime := 0, testMark := false, reported := false }

/-- R157. -/
def ackEvent (n : Byte) (s : State) : Answer :=
  match Source.ofNumber n.toNat with
  | none => refuse s .range
  | some src =>
    let x := s.events.get src
    if src.isLevel then
      let y := x.level x.genuine false s.localTime
      accept (s.setEvents (s.events.put src y))
        [d1 (codeBool y.genuine), d1 (codeBool y.effective), d1 (codeBool y.reported)]
    else
      accept (s.setEvents (s.events.put src x.acknowledged)) [d1 x.count, d1 (codeBool x.reported)]

/-- R158. -/
def raiseTest (n : Byte) (s : State) : Answer :=
  match Source.ofNumber n.toNat with
  | none => refuse s .range
  | some src =>
    let x := s.events.get src
    if src.isLevel then
      if s.service = false then refuse s .authority
      else
        let y := x.level x.genuine true s.localTime
        accept (s.setEvents (s.events.put src y))
          [d1 (codeBool y.genuine), d1 (codeBool y.effective), d1 (codeBool y.testMark)]
    else
      let y := { x.occurred s.localTime with testMark := true }
      accept (s.setEvents (s.events.put src y)) [d1 (codeBool y.latch), d1 y.count, d1 (codeBool y.testMark)]

/-- R160. -/
def setFloor (f : Word) (s : State) : Answer :=
  acceptClamped (clamp 0 14 f.toInt != f.toInt) (s.setEvents { s.events with floor := (clamp 0 14 f.toInt).toNat })
    [d4 (clamp 0 14 f.toInt)]

/-! ### Restart and power-on reset (R180, R181) -/

/-- Section 1.7, after restart. -/
def CorrectionUnit.restarted (c : CorrectionUnit) : CorrectionUnit := { c with cosEl := one30, sinEl := 0, badSamples := 0 }

/-- Section 3.8, after restart. -/
def DistanceUnit.restarted (u : DistanceUnit) : DistanceUnit :=
  { u with state := .none, lastLoss := .none, lastWaitKind := .adm, lastWaitOutcome := .none }

/-- R65, after restart: the parameters are kept. -/
def Follower.restarted (u : Follower) : Follower := { u.parkedAs with present := false, lastAngles := none }

/-- Section 5.10, after restart. -/
def SearchUnit.restarted (u : SearchUnit) : SearchUnit := { u with ringRead := 0, ringFill := 0, active := none }

/-- Section 6.9, after restart. -/
def Emitter.restarted (e : Emitter) : Emitter := { Emitter.reset with polarity := e.polarity }

/-- Section 7.8, after restart. -/
def RoundUnit.restarted (u : RoundUnit) : RoundUnit :=
  loadPeriod
    { u with
      state := .idle
      returnAngles := none
      summary := if u.state = .idle then u.summary else .aborted .restart }

/-- R180, the head port: the facts, the silence timer and a frame on the line are kept. -/
def HeadPort.restarted (p : HeadPort) : HeadPort :=
  { p with rx := [], slot := none, forward := [], frameErrors := 0, overruns := 0, forwardDrops := 0, superseded := 0 }

/-- R180: what STX goes on sending after the output queue is emptied. -/
def Sending.orphaned (out : List Record) : Sending → Option Sending
  | .front => out.head?.map .discarded
  | .discarded r => some (.discarded r)

/-- R180, the station port: the queues, the slot and the counters are emptied; a frame on STX is completed. -/
def StationPort.restarted (p : StationPort) : StationPort :=
  { p with
    rx := [], slot := none, out := [], tx := p.tx.bind (Sending.orphaned p.out), frameErrors := 0, overruns := 0,
    droppedPoints := 0, droppedStatus := 0 }

/-- R180: the values of every block, before the HOLD frame and the re-evaluation. -/
def restartBlocks (s : State) : State :=
  { s with
    correction := s.correction.restarted
    distance := s.distance.restarted
    follower := s.follower.restarted
    search := s.search.restarted
    emitter := s.emitter.restarted
    round := s.round.restarted
    head := s.head.restarted
    station := s.station.restarted }

/-- R180: a restart acts on every block, writes one HOLD frame (R88) and re-evaluates the level sources (R163). -/
def restartPart (s : State) : State := reevaluate (writeSteer .hold (restartBlocks s))

/-- R181: every block holds its power-on values. The waiting commands, the SERVICE pin and the count of free values are not
the part's to reset. -/
def powerOn (s : State) : State :=
  { State.reset with service := s.service, freeCount := s.freeCount, pending := s.pending }

end Sys2Proof.Machine
end

