-- ==== Sys2Proof/Machine/Params.lean ====
section
/-! DEFINITION. SET_PARAM: the parameters and their setting (R175 with R59, R62, R84, R107, R124, R137). -/

namespace Sys2Proof.Machine

/-- The parameters, in the order of their ids (section 10.4). -/
inductive Param where
  | admQualityMin
  | homeDistance
  | autoAdm
  | kpAz
  | kpEl
  | kiAz
  | kiEl
  | tOn
  | tOff
  | grace
  | autoSearch
  | margin
  | polarity
  | period
  | returnSetting
  deriving DecidableEq, Repr

/-- The parameters, in the order of their ids (section 10.4). -/
def Param.all : List Param :=
  [.admQualityMin, .homeDistance, .autoAdm, .kpAz, .kpEl, .kiAz, .kiEl, .tOn, .tOff, .grace, .autoSearch, .margin,
   .polarity, .period, .returnSetting]

/-- The parameter an id names. -/
def Param.ofId (id : Byte) : Option Param := Param.all[id.toNat]?

/-- A numeric parameter: the value is clamped to its range and stored by `store`; the reply carries the id and the value
stored (R175). -/
def setNumeric (id : Byte) (lo hi : Int) (v : Word) (store : Nat → State) : Answer :=
  acceptClamped (clamp lo hi v.toInt != v.toInt) (store (clamp lo hi v.toInt).toNat)
    [d1 id.toNat, d4 (clamp lo hi v.toInt)]

/-- An enumerated parameter: a value outside its set is refused RANGE (R175). -/
def setEnumerated {α : Type} (id : Byte) (v : Word) (value : Option α) (s : State) (store : α → State) : Answer :=
  match value with
  | none => refuse s .range
  | some x => accept (store x) [d1 id.toNat, d4 v.toInt]

/-- R62: a threshold is set; `on` and `off` are the pair after the clamp to the ranges, and `clamped` says that this clamp
changed the requested value. T_off is lowered when it exceeds T_on - 20; the reply carries both as stored. -/
def setThresholds (id : Byte) (on off : Nat) (clamped : Bool) (s : State) : Answer :=
  acceptClamped (clamped || decide (on < off + 20))
    (s.setFollower { s.follower with tOn := on, tOff := min off (on - 20) })
    [d1 id.toNat, d4 on, d4 (min off (on - 20) : Nat)]

/-- R62: SET_PARAM of T_on. -/
def setOnThreshold (id : Byte) (v : Word) (s : State) : Answer :=
  setThresholds id (clamp 50 4095 v.toInt).toNat s.follower.tOff (clamp 50 4095 v.toInt != v.toInt) s

/-- R62: SET_PARAM of T_off. -/
def setOffThreshold (id : Byte) (v : Word) (s : State) : Answer :=
  setThresholds id s.follower.tOn (clamp 20 4095 v.toInt).toNat (clamp 20 4095 v.toInt != v.toInt) s

/-- R107: the margin changes and PATTERN_LOW is evaluated. -/
def storeMargin (n : Nat) (s : State) : State := storeSearch { s.search with margin := n } s

/-- R137: the period changes and the timer is loaded with it. -/
def storePeriod (n : Nat) (s : State) : State := s.setRound (loadPeriod { s.round with period := n })

/-- R175: the setting of one parameter, after the checks of identifier and authority. -/
def storeParam (p : Param) (id : Byte) (v : Word) (s : State) : Answer :=
  match p with
  | .admQualityMin => setNumeric id 0 255 v fun n => s.setDistance { s.distance with admQualityMin := n }
  | .homeDistance => setNumeric id 0 10000000 v fun n => s.setDistance { s.distance with homeDistance := n }
  | .autoAdm => setEnumerated id v (onOffOf v.toInt) s fun b => s.setDistance { s.distance with autoAdm := b }
  | .kpAz => setNumeric id 0 4095 v fun n => s.setFollower { s.follower with kpAz := n }
  | .kpEl => setNumeric id 0 4095 v fun n => s.setFollower { s.follower with kpEl := n }
  | .kiAz => setNumeric id 0 1023 v fun n => s.setFollower { s.follower with kiAz := n }
  | .kiEl => setNumeric id 0 1023 v fun n => s.setFollower { s.follower with kiEl := n }
  | .tOn => setOnThreshold id v s
  | .tOff => setOffThreshold id v s
  | .grace => setNumeric id 0 255 v fun n => s.setFollower { s.follower with graceParam := n }
  | .autoSearch => setEnumerated id v (descriptorParamOf v.toInt) s fun o => s.setFollower { s.follower with autoSearch := o }
  | .margin => setNumeric id 0 64 v fun n => storeMargin n s
  | .polarity => setEnumerated id v (edgeOf v.toInt) s fun e => s.setEmitter { s.emitter with polarity := e }
  | .period => setNumeric id 0 240 v fun n => storePeriod n s
  | .returnSetting => setEnumerated id v (onOffOf v.toInt) s fun b => s.setRound { s.round with returnOn := b }

/-- R175: SET_PARAM. -/
def setParam (id : Byte) (v : Word) (s : State) : Answer :=
  match Param.ofId id with
  | none => refuse s .range
  | some p => if p = .homeDistance ∧ s.service = false then refuse s .authority else storeParam p id v s

end Sys2Proof.Machine
end

