-- ==== Sys2Proof/Machine/Status.lean ====
section
/-! DEFINITION. READ_STATUS: the sections of the part's state (R176), in the order in which their rules name the items and with
the widths of section 10.5. The choices of layout that the rules leave open are log 16. -/

namespace Sys2Proof.Machine

/-! ### Shared parts -/

/-- A yes/no value. -/
def dBool (b : Bool) : Datum := d1 (codeBool b)

/-- The distance source, absent outside ESTABLISHED (sent as 0, R182). -/
def DistanceState.sourceCode : DistanceState → Int
  | .established src _ _ => src.code
  | .none => 0
  | .awaitAdm _ _ => 0
  | .awaitHome _ _ _ => 0

/-- R176: the counters, in the order of its table. -/
def countersData (s : State) : List Datum :=
  [d2 s.head.frameErrors, d2 s.station.frameErrors, d2 s.head.overruns, d2 s.station.overruns, d2 s.head.forwardDrops,
   d2 s.station.droppedPoints, d2 s.station.droppedStatus, d2 s.head.superseded, d2 s.correction.badSamples]

/-- The head facts (R169). -/
def factsData (s : State) : List Datum := [dBool s.head.hasAdm, d1 (driveCode s.head.driveState)]

/-- N and its age (R19, R21). -/
def refractionData (c : CorrectionUnit) : List Datum := [d4 c.refraction, d4 c.age]

/-- Two angles, or their absence: the leading value says whether they are held (log 16). -/
def anglesData (o : Option Angles) : List Datum :=
  match o with
  | some a => [dBool true, d4 a.az, d4 a.el]
  | none => [dBool false, d4 0, d4 0]

/-! ### SUMMARY, PORTS and CORRECTION (R176) -/

def summaryData (s : State) : List Datum :=
  [d1 s.follower.state.code, d1 s.distance.state.code, d1 s.distance.state.sourceCode, d1 s.emitter.mode.code,
    d1 s.round.state.code, d1 (codeIndex8 s.poses.active)] ++ refractionData s.correction ++
    [d1 s.station.out.length] ++ countersData s ++ [d4 s.events.floor] ++ factsData s

def portsData (s : State) : List Datum :=
  [d1 s.head.rx.length, d1 s.head.forward.length, d1 s.station.rx.length, d1 s.station.out.length,
    dBool s.head.slot.isSome] ++ countersData s ++ factsData s ++
    [dBool (decide (s.head.silenceTimer = 0)), d4 s.head.silenceTimer, dBool s.service, d4 s.localTime.toNat]

def correctionData (s : State) : List Datum :=
  s.correction.azc.data ++ s.correction.elc.data ++ refractionData s.correction ++
    [dBool s.correction.stale, d4 s.correction.cosEl, d4 s.correction.sinEl] ++ s.poses.activeData

/-! ### DISTANCE (R60) -/

/-- base_opt, absent outside ESTABLISHED. -/
def DistanceState.baseCode : DistanceState → Int
  | .established _ b _ => b
  | .none => 0
  | .awaitAdm _ _ => 0
  | .awaitHome _ _ _ => 0

/-- The wait owner and the remaining milliseconds, absent outside a wait. -/
def waitData (st : DistanceState) : List Datum :=
  match st.wait with
  | some w => [d1 w.2.1.code, d4 w.2.2]
  | none => [d1 0, d4 0]

def distanceData (u : DistanceUnit) : List Datum :=
  [d1 u.state.code, d1 u.state.sourceCode, d4 u.state.baseCode] ++ waitData u.state ++
    [d1 u.lastLoss.code, d1 u.lastWaitKind.code, d1 u.lastWaitOutcome.code, d4 u.admQualityMin, d4 u.homeDistance,
     dBool u.autoAdm]

/-! ### FOLLOWER (section 4.11) -/

/-- The aim target, then-action, owner, arrival run counter and remaining time, absent outside AIMING. -/
def aimData (u : Follower) : List Datum :=
  match u.aim with
  | some a => [d4 a.az, d4 a.el, d1 a.thenAction.code, d1 a.owner.code, d2 u.arrivalRun, d4 a.timer]
  | none => [d4 0, d4 0, d1 0, d1 0, d2 0, d4 0]

def followerData (s : State) : List Datum :=
  let u := s.follower
  [d1 u.state.code, dBool u.followPending, dBool u.present] ++ anglesData u.lastAngles ++
    [d2 ((u.grace.getD 0 : Nat) : Int)] ++ aimData u ++
    [d2 u.acqRun, d2 u.iAz, d2 u.iEl, d2 s.head.superseded, d4 u.kpAz, d4 u.kpEl, d4 u.kiAz, d4 u.kiEl, d4 u.tOn, d4 u.tOff,
     d4 u.graceParam, d1 (codeIndex8 u.autoSearch)]

/-! ### SEARCH (R109) -/

/-- The step position and the repeats remaining, absent in STREAM. -/
def SearchPlay.data : SearchPlay → List Datum
  | .block p r => [d2 p, d1 r]
  | .stream => [d2 0, d1 0]

/-- The mode of a search being played. -/
def SearchPlay.mode : SearchPlay → SearchMode
  | .block _ _ => .block
  | .stream => .stream

/-- Whether a search is active, and its record. -/
def activeSearchData (o : Option ActiveSearch) : List Datum :=
  match o with
  | some a =>
    [dBool true, d1 a.descriptor.val, d1 a.play.mode.code, d4 a.centre.az, d4 a.centre.el, d1 a.owner.code, d4 a.target.az,
      d4 a.target.el, d1 a.dwell] ++ a.play.data
  | none => [dBool false, d1 0, d1 0, d4 0, d4 0, d1 0, d4 0, d4 0, d1 0, d2 0, d1 0]

def searchData (u : SearchUnit) : List Datum :=
  activeSearchData u.active ++ [d1 u.ringRead, d1 u.ringFill, d4 u.margin]

/-! ### EMISSION (R130) -/

/-- The parameters in force, each mode's at its own place: n, tol, settle, m, s. -/
def modeParams (m : EmissionMode) : List Datum :=
  match m with
  | .single x => [d4 x.n, d4 x.tol, d4 x.settle, d4 0, d4 0]
  | .stream k _ => [d4 0, d4 0, d4 0, d4 k, d4 0]
  | .spaced g _ => [d4 0, d4 0, d4 0, d4 0, d4 g]
  | .idle => [d4 0, d4 0, d4 0, d4 0, d4 0]
  | .triggered _ => [d4 0, d4 0, d4 0, d4 0, d4 0]

/-- The averaging count, 0 while SETTLING. -/
def SinglePhase.count : SinglePhase → Nat
  | .averaging a => a.count
  | .settling => 0

/-- In SINGLE: phase, window count, settle total, averaging count and remaining milliseconds. In AVERAGING the window count is
sent as it stood when SETTLING ended (log 30). -/
def singleData (m : EmissionMode) : List Datum :=
  match m with
  | .single x => [d1 x.phase.code, d1 x.window, d2 x.settleTotal, d1 x.phase.count, d4 x.timer]
  | .idle => [d1 0, d1 0, d2 0, d1 0, d4 0]
  | .stream _ _ => [d1 0, d1 0, d2 0, d1 0, d4 0]
  | .spaced _ _ => [d1 0, d1 0, d2 0, d1 0, d4 0]
  | .triggered _ => [d1 0, d1 0, d2 0, d1 0, d4 0]

/-- In STREAM the count, in SPACED whether an anchor is held, in TRIGGERED the pending mark. -/
def modeProgress (m : EmissionMode) : List Datum :=
  match m with
  | .stream _ c => [d2 c, dBool false, dBool false]
  | .spaced _ a => [d2 0, dBool a.isSome, dBool false]
  | .triggered k => [d2 0, dBool false, dBool k.isSome]
  | .idle => [d2 0, dBool false, dBool false]
  | .single _ => [d2 0, dBool false, dBool false]

def emissionData (e : Emitter) : List Datum :=
  [d1 e.mode.code] ++ modeParams e.mode ++ singleData e.mode ++ modeProgress e.mode ++
    [dBool e.fresh, d2 e.sequence.toNat, d1 (edgeCode e.polarity)]

/-! ### ROUND (R153) -/

/-- The last-round summary: outcome, reason, round number, OUT_TOL count and NOT_FOUND count. -/
def RoundSummary.data : RoundSummary → List Datum
  | .none => [d1 0, d1 0, d4 0, d1 0, d1 0]
  | .completed n o f => [d1 1, d1 0, d4 n, d1 o, d1 f]
  | .aborted r => [d1 2, d1 r.code, d4 0, d1 0, d1 0]

/-- When RUNNING: the number of slots, the number ended, the current entry and phase, the slot timer, the averaging count, and
whether return angles are held. -/
def runningData (u : RoundUnit) : List Datum :=
  match u.state with
  | .running r =>
    [d1 r.slots.length, d1 r.results.length, d1 r.current.val, d1 r.phase.code, d4 r.slotTimer, d1 r.avgCount,
     dBool u.returnAngles.isSome]
  | .idle => [d1 0, d1 0, d1 0, d1 0, d4 0, d1 0, d1 0]
  | .due => [d1 0, d1 0, d1 0, d1 0, d4 0, d1 0, d1 0]

def roundData (u : RoundUnit) : List Datum :=
  [d1 u.state.code, d4 u.periodTimer, d4 u.period, dBool u.returnOn, d4 u.roundNumber] ++ u.summary.data ++
    runningData u

/-! ### EVENTS (R164) -/

/-- The six items of one source: for an edge source the latch, the occurrence count, the test mark and whether its record has
been admitted; for a level source the genuine condition, the test mark, the effective condition and the reported mark; then
whether a record is pending and whether it is eligible. -/
def sourceData (e : EventUnit) (src : Source) : List Datum :=
  (if src.isLevel then
    [dBool (e.get src).genuine, dBool (e.get src).testMark, dBool (e.get src).effective, dBool (e.get src).reported]
  else [dBool (e.get src).latch, d1 (e.get src).count, dBool (e.get src).testMark, dBool (e.get src).reported]) ++
    [dBool (e.pendingRecord src), dBool (e.eligible src)]

def eventsData (e : EventUnit) : List Datum := d4 e.floor :: Source.all.flatMap (sourceData e)

/-! ### The request -/

/-- The data of the section a code names, in the order of section 10.4. -/
def sectionData (code : Byte) (s : State) : Option (List Datum) :=
  match code.toNat with
  | 0 => some (summaryData s)
  | 1 => some (portsData s)
  | 2 => some (correctionData s)
  | 3 => some (distanceData s.distance)
  | 4 => some (followerData s)
  | 5 => some (searchData s.search)
  | 6 => some (emissionData s.emitter)
  | 7 => some (roundData s.round)
  | 8 => some (eventsData s.events)
  | _ => none

/-- R176: READ_STATUS. -/
def readStatus (code : Byte) (s : State) : Answer :=
  match sectionData code s with
  | some d => accept s d
  | none => refuse s .range

end Sys2Proof.Machine
end

