-- ==== Sys2Proof/Machine/Serving.lean ====
section
/-! DEFINITION. The station port's serving of requests: the owning block's answer, the taking of a request,
and the movement of the receive queue (R172 to R174). -/

namespace Sys2Proof.Machine

/-! ### The owning blocks' answers -/

/-- R173 step 1: the owning block applies its checks and effects. -/
def perform (r : Request) (s : State) : Answer :=
  match r with
  | .loadCompBegin table => beginLoad table s
  | .loadCompData table start entries => loadData table start entries s
  | .loadCompEnd table count => endLoad table count s
  | .setRefraction n => setRefraction n s
  | .writePose index pose label => writePose index pose label s
  | .clearPose index => clearPose index s
  | .readPose index => readPose index s
  | .selectPose index => selectPose index s
  | .establishAdm => establishAdm s
  | .establishHome => establishHome s
  | .dropDistance => dropDistance s
  | .follow => follow s
  | .park => park s
  | .goto az el thenAction => goTo az el thenAction s
  | .writeSteps start steps => writeSteps start steps s
  | .writeSearch index state mode start length repeats => writeSearch index state mode start length repeats s
  | .appendSteps steps => appendSteps steps s
  | .resetStream => resetStream s
  | .readSearch index => readSearch index s
  | .readSteps start count => readSteps start count s
  | .startSearch index => stationSearch index s
  | .startMeasure mode mask p1 p2 p3 => startMeasure mode mask p1 p2 p3 s
  | .stopMeasure => stopMeasure s
  | .readLatest => readLatest s
  | .writeFiducial index fields => writeFiducial index fields s
  | .enableFiducial index => changeFiducial .enabled index s
  | .disableFiducial index => changeFiducial .disabled index s
  | .readFiducial index => readFiducial index s
  | .startRound => startRound s
  | .stopRound => stopRound s
  | .ackEvent source => ackEvent source s
  | .raiseTest source => raiseTest source s
  | .setFloor f => setFloor f s
  | .setParam id value => setParam id value s
  | .readStatus sect => readStatus sect s
  | .restart => accept (restartPart s) []

/-- R174: the port's two checks, which a request of the table has passed, and the owning block's answer. -/
def answerFrame (f : RequestFrame) (s : State) : Answer :=
  match f with
  | .named _ r => perform r s
  | .unnamed _ code => refuse s (if codeNamed code then .range else .unknown)

/-! ### Taking a request (R173) -/

/-- R174: the reply to a REQUEST frame. -/
def replyTo (f : RequestFrame) (a : Answer) : Reply :=
  { tag := frameTag f, code := frameCode f, result := a.result, data := a.data }

/-- R173: the request slot's content. -/
def setSlot (o : Option RequestFrame) (s : State) : State := s.setStation { s.station with slot := o }

/-- R173: a request is taken: the owning block acts, the reply is admitted, and the slot becomes empty. DESIGN CHOICE (log 32),
unsafe: the reply enters the queue in this handling, so before any event record that the request itself makes eligible. -/
def serve (f : RequestFrame) (s : State) : State :=
  setSlot none (admitRecord (.reply (replyTo f (answerFrame f s))) (answerFrame f s).state)

/-! ### The movement of the receive queue (R172, R173) -/

/-- One move of the station port: the request in the slot is taken when the output queue has a place; else the frame at the front
of the receive queue moves on when its destination can accept it. -/
def portMove (s : State) : Option State :=
  match s.station.slot with
  | some f => if s.station.out.length < 64 then some (serve f s) else passFront s
  | none =>
    match s.station.rx with
    | .request f :: rest => some (s.setStation { s.station with rx := rest, slot := some f })
    | .forward _ :: _ => passFront s
    | [] => none
where
  /-- A FORWARD frame at the front is passed on (R170). -/
  passFront (s : State) : Option State :=
    match s.station.rx with
    | .forward f :: rest => some (passForward f (s.setStation { s.station with rx := rest }))
    | .request _ :: _ => none
    | [] => none

/-- Moves of the station port until none is possible, at most `fuel`. -/
def portMoves : Nat → State → State
  | 0, s => s
  | fuel + 1, s =>
    match portMove s with
    | some t => portMoves fuel t
    | none => s

/-- The station port moves everything that can move. A frame of the receive queue takes at most two moves and the slot one. -/
def portAdvance (s : State) : State := portMoves (2 * s.station.rx.length + 1) s

/-! ### Arrival (R172, R179, R181) -/

/-- A frame that has been received shows that SRX has been high: the break detector is armed (log 14). -/
def armBreak (s : State) : State := s.setStation { s.station with breakArmed := true }

/-- R172: a frame that passed its checks joins the receive queue, or is lost and counted. -/
def joinQueue (f : StationFrame) (s : State) : State :=
  if s.station.rx.length < 8 then portAdvance (s.setStation { s.station with rx := s.station.rx ++ [f] })
  else occur .stationOverrun (s.setStation { s.station with overruns := count16 s.station.overruns })

/-- A frame arrives at the station port; nothing is received while SRX is low (R179). -/
def stationArrive (f : StationFrame) (s : State) : State :=
  if s.station.srxLow then s else joinQueue f (armBreak s)

/-- A request of the table arrives while SERVICE has the given level, and is taken as R172 and R173 allow (log 1, log 2). -/
def requestArrive (q : Taking) (r : Request) (s : State) : State :=
  stationArrive (.request (.named q.tag r)) (s.setService q.service)

end Sys2Proof.Machine
end

