-- ==== Sys2Proof/Machine/Links.lean ====
section
/-! DEFINITION. What reaches the two ports: samples, head status, discarded frames, departures of records, and the break of the
station link (R165 to R169, R178, R179). -/

namespace Sys2Proof.Machine

/-! ### The head port (R165 to R169) -/

/-- R168: a SAMPLE arrival sets the silence timer to 20, and the condition is false. -/
def restartSilence (s : State) : State := reportLevel .headSilent (s.setHead { s.head with silenceTimer := 20 })

/-- R167: the frame joins the head receive queue, or is lost and counted. -/
def queueSample (f : Sample) (s : State) : State :=
  if s.head.rx.length < 8 then s.setHead { s.head with rx := s.head.rx ++ [f] }
  else occur .headOverrun (s.setHead { s.head with overruns := count16 s.head.overruns })

/-- R167 and R168. -/
def sampleArrive (f : Sample) (s : State) : State := queueSample f (restartSilence s)

/-- R165 and R166: a frame received by a port is discarded and counted; the station port receives nothing while SRX is low. -/
def discardFrame (port : Port) (s : State) : State :=
  match port with
  | .head => occur .frameError (s.setHead { s.head with frameErrors := count16 s.head.frameErrors })
  | .station =>
    if s.station.srxLow then s
    else occur .frameError (s.setStation { s.station with breakArmed := true, frameErrors := count16 s.station.frameErrors })

/-- R169: the head facts, and the DRIVES_DISABLED condition. -/
def storeFacts (h : HeadStatus) (s : State) : State :=
  reportLevel .drivesDisabled (s.setHead { s.head with hasAdm := h.hasAdm, driveState := h.driveState })

/-- R81: the follower's action on a drive_state. -/
def actOnDrives (d : DriveState) (s : State) : State :=
  match d with
  | .disabled => parkFor .drives s
  | .enabled => s

/-- R169. A remainder that no frame can carry makes the frame a format error (log 22). -/
def readHeadStatus (h : HeadStatus) (s : State) : State :=
  if h.remainder.length ≤ 238 then offerStatus h (actOnDrives h.driveState (storeFacts h s)) else discardFrame .head s

/-! ### The station port (R170, R173, R178, R179) -/

/-- R172: a FORWARD frame arrives. A payload that no frame can carry makes the frame a format error (log 22). -/
def forwardArrive (f : ForwardFrame) (s : State) : State :=
  if f.payload.length ≤ 240 then stationArrive (.forward f) s else discardFrame .station s

/-- R161, R173: a freed place is wanted by the held request and by the arbiter when a request is held and an eligible record is
pending. -/
def placeContended (s : State) : Bool :=
  s.station.slot.isSome && (chooseSource s.events).isSome && decide (s.station.out.length < 64)

/-- R173: a freed place of the output queue goes to the held request or to the arbiter, in either order (log 10). -/
def givePlace (s : State) : State :=
  if placeContended s then
    if Config.requestFirst s.freeCount then portAdvance (useFree s) else portAdvance (arbitrate (useFree s))
  else portAdvance s

/-- R178: the station transmitter finishes a frame. The place that the departure frees is given before the next record's frame
begins, which is after idle line (log 12). -/
def recordSent (s : State) : State := beginRecord (givePlace (depart s))

/-- R179: the tick at which SRX has been low for 1 ms: a restart when the detector is armed (log 14). -/
def linkBreak (s : State) : State :=
  if s.station.breakArmed then
    let t := restartPart s
    t.setStation { t.station with breakArmed := false, srxLow := true }
  else s.setStation { s.station with srxLow := true }

/-- R179: SRX returns high and the detector is armed again. -/
def srxHigh (s : State) : State := s.setStation { s.station with breakArmed := true, srxLow := false }

end Sys2Proof.Machine
end

