-- ==== Sys2Proof/Machine/LinkCommands.lean ====
section
/-! DEFINITION. The meanings of the commands that come from the links and the pins. -/

namespace Sys2Proof.Machine

/-- SAMPLE (R167, R168). -/
def execSample (f : Sample) (s : State) : Host.Outcome State Fault Refusal :=
  .next (sampleArrive f s)

/-- HEAD_STATUS (R169, R81). -/
def execHeadStatus (h : HeadStatus) (s : State) : Host.Outcome State Fault Refusal :=
  .next (readHeadStatus h s)

/-- REQUEST_FRAME (R172); a request that can be taken is taken in the same step (R173, log 1). -/
def execRequestFrame (service : Bool) (r : RequestFrame) (s : State) : Host.Outcome State Fault Refusal :=
  .next (stationArrive (.request r) (s.setService service))

/-- FORWARD_FRAME (R172, R170). -/
def execForwardFrame (f : ForwardFrame) (s : State) : Host.Outcome State Fault Refusal :=
  .next (forwardArrive f s)

/-- DISCARDED_FRAME (R165, R166). -/
def execDiscardedFrame (port : Port) (s : State) : Host.Outcome State Fault Refusal :=
  .next (discardFrame port s)

/-- TAKE_SAMPLE (R1 to R4). -/
def execTakeSample (s : State) : Host.Outcome State Fault Refusal :=
  .next (takeOldest s)

/-- HEAD_FRAME_SENT (R171). -/
def execHeadFrameSent (s : State) : Host.Outcome State Fault Refusal :=
  .next (headDone s)

/-- STATION_RECORD_SENT (R178); a held request may be taken in the freed place (R173). -/
def execStationRecordSent (service : Bool) (s : State) : Host.Outcome State Fault Refusal :=
  .next (recordSent (s.setService service))

/-- EVENT_ADMISSION (R161). -/
def execEventAdmission (s : State) : Host.Outcome State Fault Refusal :=
  .next (arbitrate s)

/-- TRIG_EDGE (R124, R125). -/
def execTrigEdge (edge : Edge) (s : State) : Host.Outcome State Fault Refusal :=
  .next (triggerEdge edge s)

/-- LINK_BREAK (R179, R180). -/
def execLinkBreak (s : State) : Host.Outcome State Fault Refusal :=
  .next (linkBreak s)

/-- SRX_RETURNS_HIGH (R179). -/
def execSrxReturnsHigh (s : State) : Host.Outcome State Fault Refusal :=
  .next (srxHigh s)

/-- POWER_ON_RESET (R181). -/
def execPowerOnReset (s : State) : Host.Outcome State Fault Refusal :=
  .next (powerOn s)

end Sys2Proof.Machine
end

