-- ==== Sys2Proof/Machine/RequestCommands.lean ====
section
/-! DEFINITION. The meanings of the requests: each arrives at the station port and is taken as R172 and R173 allow (log 1); the rule named is the owning block's. -/

namespace Sys2Proof.Machine

/-- LOAD_COMP_BEGIN (R10, R11). -/
def execLoadCompBegin (q : Taking) (table : Byte) (s : State) : Host.Outcome State Fault Refusal :=
  .next (requestArrive q (.loadCompBegin table) s)

/-- LOAD_COMP_DATA (R10, R12). -/
def execLoadCompData (q : Taking) (table start : Byte) (entries : List Half) (s : State) : Host.Outcome State Fault Refusal :=
  .next (requestArrive q (.loadCompData table start entries) s)

/-- LOAD_COMP_END (R10, R13). -/
def execLoadCompEnd (q : Taking) (table count : Byte) (s : State) : Host.Outcome State Fault Refusal :=
  .next (requestArrive q (.loadCompEnd table count) s)

/-- SET_REFRACTION (R20). -/
def execSetRefraction (q : Taking) (n : Word) (s : State) : Host.Outcome State Fault Refusal :=
  .next (requestArrive q (.setRefraction n) s)

/-- WRITE_POSE (R28 to R31). -/
def execWritePose (q : Taking) (index : Byte) (pose : PoseField) (label : Half) (s : State) : Host.Outcome State Fault Refusal :=
  .next (requestArrive q (.writePose index pose label) s)

/-- CLEAR_POSE (R32). -/
def execClearPose (q : Taking) (index : Byte) (s : State) : Host.Outcome State Fault Refusal :=
  .next (requestArrive q (.clearPose index) s)

/-- READ_POSE (R33). -/
def execReadPose (q : Taking) (index : Byte) (s : State) : Host.Outcome State Fault Refusal :=
  .next (requestArrive q (.readPose index) s)

/-- SELECT_POSE (R34 to R36). -/
def execSelectPose (q : Taking) (index : Byte) (s : State) : Host.Outcome State Fault Refusal :=
  .next (requestArrive q (.selectPose index) s)

/-- ESTABLISH_ADM (R44). -/
def execEstablishAdm (q : Taking) (s : State) : Host.Outcome State Fault Refusal :=
  .next (requestArrive q .establishAdm s)

/-- ESTABLISH_HOME (R49). -/
def execEstablishHome (q : Taking) (s : State) : Host.Outcome State Fault Refusal :=
  .next (requestArrive q .establishHome s)

/-- DROP_DISTANCE (R57). -/
def execDropDistance (q : Taking) (s : State) : Host.Outcome State Fault Refusal :=
  .next (requestArrive q .dropDistance s)

/-- FOLLOW (R68). -/
def execFollow (q : Taking) (s : State) : Host.Outcome State Fault Refusal :=
  .next (requestArrive q .follow s)

/-- PARK (R70). -/
def execPark (q : Taking) (s : State) : Host.Outcome State Fault Refusal :=
  .next (requestArrive q .park s)

/-- GOTO (R71). -/
def execGoto (q : Taking) (az el : Word) (thenAction : Byte) (s : State) : Host.Outcome State Fault Refusal :=
  .next (requestArrive q (.goto az el thenAction) s)

/-- WRITE_STEPS (R93). -/
def execWriteSteps (q : Taking) (start : Half) (steps : List StepField) (s : State) : Host.Outcome State Fault Refusal :=
  .next (requestArrive q (.writeSteps start steps) s)

/-- WRITE_SEARCH (R94). -/
def execWriteSearch (q : Taking) (index state mode : Byte) (start length : Half) (repeats : Byte) (s : State) : Host.Outcome State Fault Refusal :=
  .next (requestArrive q (.writeSearch index state mode start length repeats) s)

/-- APPEND_STEPS (R96). -/
def execAppendSteps (q : Taking) (steps : List StepField) (s : State) : Host.Outcome State Fault Refusal :=
  .next (requestArrive q (.appendSteps steps) s)

/-- RESET_STREAM (R97). -/
def execResetStream (q : Taking) (s : State) : Host.Outcome State Fault Refusal :=
  .next (requestArrive q .resetStream s)

/-- READ_SEARCH (R95). -/
def execReadSearch (q : Taking) (index : Byte) (s : State) : Host.Outcome State Fault Refusal :=
  .next (requestArrive q (.readSearch index) s)

/-- READ_STEPS (R95). -/
def execReadSteps (q : Taking) (start : Half) (count : Byte) (s : State) : Host.Outcome State Fault Refusal :=
  .next (requestArrive q (.readSteps start count) s)

/-- START_SEARCH (R100). -/
def execStartSearch (q : Taking) (index : Byte) (s : State) : Host.Outcome State Fault Refusal :=
  .next (requestArrive q (.startSearch index) s)

/-- START_MEASURE (R114). -/
def execStartMeasure (q : Taking) (mode mask : Byte) (p1 p2 p3 : Word) (s : State) : Host.Outcome State Fault Refusal :=
  .next (requestArrive q (.startMeasure mode mask p1 p2 p3) s)

/-- STOP_MEASURE (R116). -/
def execStopMeasure (q : Taking) (s : State) : Host.Outcome State Fault Refusal :=
  .next (requestArrive q .stopMeasure s)

/-- READ_LATEST (R113). -/
def execReadLatest (q : Taking) (s : State) : Host.Outcome State Fault Refusal :=
  .next (requestArrive q .readLatest s)

/-- WRITE_FIDUCIAL (R132). -/
def execWriteFiducial (q : Taking) (index : Byte) (fields : FiducialField) (s : State) : Host.Outcome State Fault Refusal :=
  .next (requestArrive q (.writeFiducial index fields) s)

/-- ENABLE_FIDUCIAL (R133). -/
def execEnableFiducial (q : Taking) (index : Byte) (s : State) : Host.Outcome State Fault Refusal :=
  .next (requestArrive q (.enableFiducial index) s)

/-- DISABLE_FIDUCIAL (R133). -/
def execDisableFiducial (q : Taking) (index : Byte) (s : State) : Host.Outcome State Fault Refusal :=
  .next (requestArrive q (.disableFiducial index) s)

/-- READ_FIDUCIAL (R134). -/
def execReadFiducial (q : Taking) (index : Byte) (s : State) : Host.Outcome State Fault Refusal :=
  .next (requestArrive q (.readFiducial index) s)

/-- START_ROUND (R138). -/
def execStartRound (q : Taking) (s : State) : Host.Outcome State Fault Refusal :=
  .next (requestArrive q .startRound s)

/-- STOP_ROUND (R152). -/
def execStopRound (q : Taking) (s : State) : Host.Outcome State Fault Refusal :=
  .next (requestArrive q .stopRound s)

/-- ACK_EVENT (R157). -/
def execAckEvent (q : Taking) (source : Byte) (s : State) : Host.Outcome State Fault Refusal :=
  .next (requestArrive q (.ackEvent source) s)

/-- RAISE_TEST (R158). -/
def execRaiseTest (q : Taking) (source : Byte) (s : State) : Host.Outcome State Fault Refusal :=
  .next (requestArrive q (.raiseTest source) s)

/-- SET_FLOOR (R160). -/
def execSetFloor (q : Taking) (f : Word) (s : State) : Host.Outcome State Fault Refusal :=
  .next (requestArrive q (.setFloor f) s)

/-- SET_PARAM (R175). -/
def execSetParam (q : Taking) (id : Byte) (value : Word) (s : State) : Host.Outcome State Fault Refusal :=
  .next (requestArrive q (.setParam id value) s)

/-- READ_STATUS (R176). -/
def execReadStatus (q : Taking) (sect : Byte) (s : State) : Host.Outcome State Fault Refusal :=
  .next (requestArrive q (.readStatus sect) s)

/-- RESTART (R179, R180). -/
def execRestart (q : Taking) (s : State) : Host.Outcome State Fault Refusal :=
  .next (requestArrive q .restart s)

/-- UNKNOWN_REQUEST (R174). -/
def execUnknownRequest (q : Taking) (code : Byte) (s : State) : Host.Outcome State Fault Refusal :=
  .next (stationArrive (.request (.unnamed q.tag code)) (s.setService q.service))

end Sys2Proof.Machine
end

