-- ==== Sys2Proof/Machine/TimeCommands.lean ====
section
/-! DEFINITION. The meanings of the commands of the time base and of the sample counts. -/

namespace Sys2Proof.Machine

/-- TIME_BASE_TICK (R21, R137, R168). A tick that brings timers to 0 handles them (log 4). -/
def execTimeBaseTick (s : State) : Host.Outcome State Fault Refusal :=
  .next (baseTick s)

/-- HEAD_SILENT (R168). -/
def execHeadSilent (s : State) : Host.Outcome State Fault Refusal :=
  .next (namedTick .silence s)

/-- ESTABLISH_TIMER_EXPIRY (R51). -/
def execEstablishTimerExpiry (s : State) : Host.Outcome State Fault Refusal :=
  .next (namedTick .establish s)

/-- AIM_TIMER_EXPIRY (R74). -/
def execAimTimerExpiry (s : State) : Host.Outcome State Fault Refusal :=
  .next (namedTick .aim s)

/-- MEASURE_TIMER_EXPIRY (R121). -/
def execMeasureTimerExpiry (s : State) : Host.Outcome State Fault Refusal :=
  .next (namedTick .measure s)

/-- SLOT_TIMER_EXPIRY (R142). -/
def execSlotTimerExpiry (s : State) : Host.Outcome State Fault Refusal :=
  .next (namedTick .slot s)

/-- ROUND_PERIOD_EXPIRY (R139). -/
def execRoundPeriodExpiry (s : State) : Host.Outcome State Fault Refusal :=
  .next (namedTick .period s)

/-- REFRACTION_STALE (R21): the tick that takes the age of N past 600,000 ms. -/
def execRefractionStale (s : State) : Host.Outcome State Fault Refusal :=
  .next (if s.correction.age = 600000 then baseTick s else s)

/-- GRACE_EXPIRY (R77): the taking of the sample on which the grace expires (log 5). -/
def execGraceExpiry (s : State) : Host.Outcome State Fault Refusal :=
  .next (if graceDue s then takeOldest s else s)

/-- DWELL_EXPIRY (R102): the taking of the sample on which the dwell reaches 0 (log 5). -/
def execDwellExpiry (s : State) : Host.Outcome State Fault Refusal :=
  .next (if dwellDue s then takeOldest s else s)

/-- DUE_ROUND_START (R140). -/
def execDueRoundStart (s : State) : Host.Outcome State Fault Refusal :=
  .next (examineDue s)

end Sys2Proof.Machine
end

