-- ==== Sys2Proof/Machine/Dispatch.lean ====
section
/-! DEFINITION. One arm per command, in the order of spec/opcode_table.json. -/

namespace Sys2Proof.Machine

def exec (i : Instr) (s : State) : Host.Outcome State Fault Refusal :=
  match i with
  | .sample f => Sys2Proof.Machine.execSample f s
  | .headStatus h => Sys2Proof.Machine.execHeadStatus h s
  | .requestFrame service r => Sys2Proof.Machine.execRequestFrame service r s
  | .forwardFrame f => Sys2Proof.Machine.execForwardFrame f s
  | .discardedFrame port => Sys2Proof.Machine.execDiscardedFrame port s
  | .takeSample => Sys2Proof.Machine.execTakeSample s
  | .headFrameSent => Sys2Proof.Machine.execHeadFrameSent s
  | .stationRecordSent service => Sys2Proof.Machine.execStationRecordSent service s
  | .eventAdmission => Sys2Proof.Machine.execEventAdmission s
  | .headSilent => Sys2Proof.Machine.execHeadSilent s
  | .establishTimerExpiry => Sys2Proof.Machine.execEstablishTimerExpiry s
  | .aimTimerExpiry => Sys2Proof.Machine.execAimTimerExpiry s
  | .measureTimerExpiry => Sys2Proof.Machine.execMeasureTimerExpiry s
  | .slotTimerExpiry => Sys2Proof.Machine.execSlotTimerExpiry s
  | .roundPeriodExpiry => Sys2Proof.Machine.execRoundPeriodExpiry s
  | .refractionStale => Sys2Proof.Machine.execRefractionStale s
  | .graceExpiry => Sys2Proof.Machine.execGraceExpiry s
  | .dwellExpiry => Sys2Proof.Machine.execDwellExpiry s
  | .dueRoundStart => Sys2Proof.Machine.execDueRoundStart s
  | .trigEdge edge => Sys2Proof.Machine.execTrigEdge edge s
  | .linkBreak => Sys2Proof.Machine.execLinkBreak s
  | .powerOnReset => Sys2Proof.Machine.execPowerOnReset s
  | .loadCompBegin q table => Sys2Proof.Machine.execLoadCompBegin q table s
  | .loadCompData q table start entries => Sys2Proof.Machine.execLoadCompData q table start entries s
  | .loadCompEnd q table count => Sys2Proof.Machine.execLoadCompEnd q table count s
  | .setRefraction q n => Sys2Proof.Machine.execSetRefraction q n s
  | .writePose q index pose label => Sys2Proof.Machine.execWritePose q index pose label s
  | .clearPose q index => Sys2Proof.Machine.execClearPose q index s
  | .readPose q index => Sys2Proof.Machine.execReadPose q index s
  | .selectPose q index => Sys2Proof.Machine.execSelectPose q index s
  | .establishAdm q => Sys2Proof.Machine.execEstablishAdm q s
  | .establishHome q => Sys2Proof.Machine.execEstablishHome q s
  | .dropDistance q => Sys2Proof.Machine.execDropDistance q s
  | .follow q => Sys2Proof.Machine.execFollow q s
  | .park q => Sys2Proof.Machine.execPark q s
  | .goto q az el thenAction => Sys2Proof.Machine.execGoto q az el thenAction s
  | .writeSteps q start steps => Sys2Proof.Machine.execWriteSteps q start steps s
  | .writeSearch q index state mode start length repeats => Sys2Proof.Machine.execWriteSearch q index state mode start length repeats s
  | .appendSteps q steps => Sys2Proof.Machine.execAppendSteps q steps s
  | .resetStream q => Sys2Proof.Machine.execResetStream q s
  | .readSearch q index => Sys2Proof.Machine.execReadSearch q index s
  | .readSteps q start count => Sys2Proof.Machine.execReadSteps q start count s
  | .startSearch q index => Sys2Proof.Machine.execStartSearch q index s
  | .startMeasure q mode mask p1 p2 p3 => Sys2Proof.Machine.execStartMeasure q mode mask p1 p2 p3 s
  | .stopMeasure q => Sys2Proof.Machine.execStopMeasure q s
  | .readLatest q => Sys2Proof.Machine.execReadLatest q s
  | .writeFiducial q index fields => Sys2Proof.Machine.execWriteFiducial q index fields s
  | .enableFiducial q index => Sys2Proof.Machine.execEnableFiducial q index s
  | .disableFiducial q index => Sys2Proof.Machine.execDisableFiducial q index s
  | .readFiducial q index => Sys2Proof.Machine.execReadFiducial q index s
  | .startRound q => Sys2Proof.Machine.execStartRound q s
  | .stopRound q => Sys2Proof.Machine.execStopRound q s
  | .ackEvent q source => Sys2Proof.Machine.execAckEvent q source s
  | .raiseTest q source => Sys2Proof.Machine.execRaiseTest q source s
  | .setFloor q f => Sys2Proof.Machine.execSetFloor q f s
  | .setParam q id value => Sys2Proof.Machine.execSetParam q id value s
  | .readStatus q sect => Sys2Proof.Machine.execReadStatus q sect s
  | .restart q => Sys2Proof.Machine.execRestart q s
  | .unknownRequest q code => Sys2Proof.Machine.execUnknownRequest q code s
  | .timeBaseTick => Sys2Proof.Machine.execTimeBaseTick s
  | .srxReturnsHigh => Sys2Proof.Machine.execSrxReturnsHigh s

end Sys2Proof.Machine
end

