-- ==== Sys2Proof/Machine/Layout.lean ====
section
/-! DEFINITION. The bytes of the frames that the part sends on HTX and STX (R165, R178, R182 to R184). -/

namespace Sys2Proof.Machine

/-! ### Payloads -/

/-- A number of `n` bytes, most significant byte first, in two's complement (R182). -/
def numberBytes (v : Int) : Nat → List Byte
  | 0 => []
  | n + 1 => BitVec.ofInt 8 (v / 256 ^ n) :: numberBytes v n

def Datum.bytes (d : Datum) : List Byte := numberBytes d.value d.width

/-- The bytes of a run of values. -/
def dataBytes (l : List Datum) : List Byte := l.flatMap Datum.bytes

/-- R183: a STEER payload; mode FOLLOW 0, POSITION 1, HOLD 2. -/
def steerData : Steer → List Datum
  | .follow az el => [d1 0, d2 az, d2 el]
  | .position az el => [d1 1, d4 az, d4 el]
  | .hold => [d1 2]

/-- The code of a point kind. -/
def PointKind.code : PointKind → Int
  | .single _ _ => 0
  | .stream => 1
  | .spaced => 2
  | .triggered _ _ => 3

/-- The optional part of a POINT. -/
def PointKind.optional : PointKind → List Datum
  | .single spread settle => [d4 spread, d2 settle]
  | .triggered timeMs timestamp => [d4 timeMs.toNat, d4 timestamp.toNat]
  | .stream => []
  | .spaced => []

/-- R184: a POINT payload. -/
def pointData (p : PointRecord) : List Datum :=
  [d2 p.sequence.toNat, d4 p.timestamp.toNat, d1 p.kind.code, d1 p.at_.frame.code] ++ p.at_.pos.data ++
    [d1 p.flags.code, d1 p.source.code, d1 p.samples] ++ p.kind.optional

/-- The source's number. -/
def Source.number (src : Source) : Nat := src.idx.val + 1

/-- R159 and R184: an EVENT payload; the name code is the number plus 128, sensitivity EDGE 0, LEVEL 1. -/
def eventData (e : EventRecord) : List Datum :=
  [d1 e.source.number, d1 (e.source.number + 128), d1 e.source.level, d1 (codeBool e.source.isLevel), d1 e.transition.code,
   d1 e.count, d1 (codeBool e.testMark), d4 e.time.toNat]

/-- R184: a REPLY payload. -/
def replyData (r : Reply) : List Datum :=
  [d2 r.tag.toNat, d1 r.code.toNat, d1 r.result.code, d1 r.result.reasonCode] ++ r.data

/-! ### Frames -/

/-- R178 and R183: the frame of a record, with destination STATION; a forwarded HEAD_STATUS keeps the head's frame. -/
def recordFrame : Record → Frame
  | .point p => ⟨0x42, 0x03, dataBytes (pointData p)⟩
  | .event e => ⟨0x41, 0x03, dataBytes (eventData e)⟩
  | .reply r => ⟨0x40, 0x03, dataBytes (replyData r)⟩
  | .headStatus h => headStatusFrame h

/-- R170 and R183: a frame for the head; a forward frame keeps its kind, its destination HEAD and its payload. -/
def headLinkFrame : HeadFrame → Frame
  | .steer f => ⟨0x20, 0x02, dataBytes (steerData f)⟩
  | .forward f => ⟨f.kind, 0x02, f.payload⟩

/-- The record that STX is sending. -/
def StationPort.sending (p : StationPort) : Option Record :=
  match p.tx with
  | some .front => p.out.head?
  | some (.discarded r) => some r
  | none => none

/-- The bytes of the frame on HTX. -/
def State.htxFrame (s : State) : Option (List Byte) := s.head.tx.map fun f => (headLinkFrame f).bytes

/-- The bytes of the frame on STX. -/
def State.stxFrame (s : State) : Option (List Byte) := s.station.sending.map fun r => (recordFrame r).bytes

end Sys2Proof.Machine
end

