-- ==== Sys2Proof/Safety.lean ====
section
/-! DEFINITION. What counts as a safe state: the bounds and the agreements between blocks that the rules state. Every one is kept
by every command. -/

namespace Sys2Proof.Machine

/-- R167, R170, R172, R177: the queues hold no more than their places. -/
def State.queuesBounded (s : State) : Bool :=
  decide (s.head.rx.length ≤ 8) && decide (s.head.forward.length ≤ 4) && decide (s.station.rx.length ≤ 8) &&
    decide (s.station.out.length ≤ 64)

/-- R156 and the owning rules of R154: the event unit's genuine condition of every level source is the one its owner holds. -/
def State.conditionsTrue (s : State) : Bool :=
  Source.all.all fun src => !src.isLevel || ((s.events.get src).genuine == genuineOf s src)

/-- R98 and R65: a search is active exactly while the follower is in SEARCHING. -/
def State.searchAgrees (s : State) : Bool := decide (s.follower.state = .searching) == s.search.active.isSome

/-- R68: the states in which a FOLLOW leaves the follow-pending mark set. -/
def FollowerState.mayPend : FollowerState → Bool
  | .parked => true
  | .aiming => true
  | .lost => true
  | .following => false
  | .holding => false
  | .searching => false

/-- R65 and R68: the grace counter is held in HOLDING only, the aim record in AIMING only, and the follow-pending mark in PARKED,
AIMING and LOST only; in AIMING either the aim record or the mark is held. R80: outside a RUNNING round the acquisition run
counter is 0 in LOST. -/
def State.followerItems (s : State) : Bool :=
  (decide (s.follower.state = .holding) == s.follower.grace.isSome) &&
    (!s.follower.aim.isSome || decide (s.follower.state = .aiming)) &&
    (!s.follower.followPending || s.follower.state.mayPend) &&
    (!decide (s.follower.state = .aiming) || s.follower.aim.isSome || s.follower.followPending) &&
    (!decide (s.follower.state = .lost) || s.round.state.isRunning || decide (s.follower.acqRun = 0))

/-- R27 and R32: the active pose index is NONE or names a VALID entry. -/
def State.poseActiveValid (s : State) : Bool := s.poses.active.all fun i => decide (s.poses.entries[i].state = .valid)

/-- R9 and R13: a LOADED table has every index written. -/
def CompTable.complete (t : CompTable) : Bool := decide (t.load ≠ .loaded) || decide (t.writtenCount = 240)

def State.tablesComplete (s : State) : Bool := s.correction.azc.complete && s.correction.elc.complete

/-- R86: the integrators stay within ±16,384. -/
def State.integratorsBounded (s : State) : Bool :=
  inRange (-16384) 16384 s.follower.iAz && inRange (-16384) 16384 s.follower.iEl

/-- R19, R59, R62, R84, R107, R137, R160: N and the numeric parameters lie in their ranges. -/
def State.parametersInRange (s : State) : Bool :=
  inRange 150000 400000 s.correction.refraction && decide (s.distance.admQualityMin ≤ 255) &&
    decide (s.distance.homeDistance ≤ 10000000) && inRange 0 4095 s.follower.kpAz && inRange 0 4095 s.follower.kpEl &&
    inRange 0 1023 s.follower.kiAz && inRange 0 1023 s.follower.kiEl && decide (50 ≤ s.follower.tOn) &&
    decide (s.follower.tOn ≤ 4095) && decide (20 ≤ s.follower.tOff) && decide (s.follower.tOff + 20 ≤ s.follower.tOn) &&
    decide (s.follower.graceParam ≤ 255) && decide (s.search.margin ≤ 64) && decide (s.round.period ≤ 240) &&
    decide (s.events.floor ≤ 14)

/-- R91 and R96: the ring's read position and fill. -/
def State.ringBounded (s : State) : Bool := decide (s.search.ringRead < 128) && decide (s.search.ringFill ≤ 128)

/-- R92 and R94: a descriptor's block lies in the block region. -/
def Descriptor.inRegion (d : Descriptor) : Bool :=
  decide (1 ≤ d.length) && decide (d.start + d.length ≤ 384) && decide (d.repeats ≤ 7)

def State.descriptorsInRegion (s : State) : Bool := s.search.descriptors.toList.all Descriptor.inRegion

/-- R136 and R141: while RUNNING the current slot is the first one of the slot list without a result. -/
def State.roundAgrees (s : State) : Bool :=
  match s.round.state with
  | .running r => decide (r.slots[r.results.length]? = some r.current)
  | .idle => true
  | .due => true

/-- R138 to R140: a round is DUE only while a busy condition holds: whatever ends the last one starts or abandons it. -/
def State.dueIsBusy (s : State) : Bool := !decide (s.round.state = .due) || roundBusy s

/-- R168: the silence timer stays within 0 to 20. -/
def State.silenceBounded (s : State) : Bool := decide (s.head.silenceTimer ≤ 20)

/-- The whole invariant. -/
def State.safe (s : State) : Bool :=
  s.queuesBounded && s.conditionsTrue && s.searchAgrees && s.followerItems && s.poseActiveValid && s.tablesComplete &&
    s.integratorsBounded && s.parametersInRange && s.ringBounded && s.descriptorsInRegion && s.roundAgrees &&
    s.dueIsBusy && s.silenceBounded

/-! ### The terms of the frame statements -/

/-- The fields of the state. -/
inductive Part where
  | correction
  | poses
  | distance
  | follower
  | search
  | emitter
  | round
  | events
  | head
  | station
  | localTime
  | service
  | freeCount
  | pending
  deriving DecidableEq, Repr

/-- Two states agree on a field. -/
def samePart (p : Part) (s t : State) : Prop :=
  match p with
  | .correction => t.correction = s.correction
  | .poses => t.poses = s.poses
  | .distance => t.distance = s.distance
  | .follower => t.follower = s.follower
  | .search => t.search = s.search
  | .emitter => t.emitter = s.emitter
  | .round => t.round = s.round
  | .events => t.events = s.events
  | .head => t.head = s.head
  | .station => t.station = s.station
  | .localTime => t.localTime = s.localTime
  | .service => t.service = s.service
  | .freeCount => t.freeCount = s.freeCount
  | .pending => t.pending = s.pending

/-- From `s` to `t`, nothing outside the fields of `changed` has changed. -/
def keepsOthers (changed : List Part) (s t : State) : Prop := ∀ p, p ∉ changed → samePart p s t

/-- From `s` to `t`, the report floor and every event source outside `changed` are unchanged. -/
def keepsSources (changed : List Source) (s t : State) : Prop :=
  t.events.floor = s.events.floor ∧ ∀ src, src ∉ changed → t.events.get src = s.events.get src

/-- R172 and R173: a request that arrives is taken at once: SRX is not held low, nothing waits before it, and the output queue
has a place. -/
def portReady (s : State) : Prop :=
  s.station.srxLow = false ∧ s.station.slot = none ∧ s.station.rx = [] ∧ s.station.out.length < 64

/-- From `s` to `t` the station port has taken one request and admitted its reply (R173, R174); the SERVICE level is the one
sampled, and QUEUE_CONGESTED is evaluated at the admission (R177). Four points are the model's choice in every statement that
uses this: that the request is taken in the step of its arrival (log 1), that the level of SERVICE is kept (log 2), that the
arrival arms the break detector (log 14), and that the reply enters the queue before any event record that the request itself
makes eligible (log 32). -/
def answers (q : Taking) (code : Byte) (result : ReplyResult) (data : List Datum) (s t : State) : Prop :=
  t.station =
      { s.station with
        breakArmed := true, slot := none
        out := s.station.out ++ [.reply { tag := q.tag, code := code, result := result, data := data }]
        tx := some (s.station.tx.getD .front) } ∧
    t.service = q.service ∧ (t.events.get .queueCongested).genuine = decide (56 ≤ s.station.out.length + 1)

/-- From `s` to `t` a request was taken and refused, and nothing else has changed. -/
def refuses (q : Taking) (code : Byte) (reason : RefuseReason) (s t : State) : Prop :=
  answers q code (.refused reason) [] s t ∧ keepsOthers [.station, .service, .events] s t ∧ keepsSources [.queueCongested] s t

/-- From `s` to `t` a request was taken and accepted, and nothing has changed outside the blocks `parts` and the event sources
`sources`, the station port and its QUEUE_CONGESTED apart. -/
def acceptsWithin (q : Taking) (code : Byte) (result : ReplyResult) (data : List Datum) (parts : List Part)
    (sources : List Source) (s t : State) : Prop :=
  answers q code result data s t ∧ keepsOthers (.station :: .service :: .events :: parts) s t ∧
    keepsSources (.queueCongested :: sources) s t

/-- R89 and R171: a STEER frame was written from `s` to `t`: it waits in the steering slot while a frame is in transmission, and
has begun otherwise. -/
def steerWritten (f : Steer) (s t : State) : Prop :=
  if s.head.tx.isSome then t.head.slot = some f ∧ t.head.tx = s.head.tx
  else t.head.slot = none ∧ t.head.tx = some (.steer f)

/-- The next tick brings one timer to 0, and no other. -/
def onlyDue (e : Expiry) (s : State) : Prop := expiryDue s e = true ∧ ∀ x, x ≠ e → expiryDue s x = false

/-- The command of the row of a request. -/
def requestInstr (q : Taking) : Request → Instr
  | .loadCompBegin table => .loadCompBegin q table
  | .loadCompData table start entries => .loadCompData q table start entries
  | .loadCompEnd table count => .loadCompEnd q table count
  | .setRefraction n => .setRefraction q n
  | .writePose index pose label => .writePose q index pose label
  | .clearPose index => .clearPose q index
  | .readPose index => .readPose q index
  | .selectPose index => .selectPose q index
  | .establishAdm => .establishAdm q
  | .establishHome => .establishHome q
  | .dropDistance => .dropDistance q
  | .follow => .follow q
  | .park => .park q
  | .goto az el thenAction => .goto q az el thenAction
  | .writeSteps start steps => .writeSteps q start steps
  | .writeSearch index state mode start length repeats => .writeSearch q index state mode start length repeats
  | .appendSteps steps => .appendSteps q steps
  | .resetStream => .resetStream q
  | .readSearch index => .readSearch q index
  | .readSteps start count => .readSteps q start count
  | .startSearch index => .startSearch q index
  | .startMeasure mode mask p1 p2 p3 => .startMeasure q mode mask p1 p2 p3
  | .stopMeasure => .stopMeasure q
  | .readLatest => .readLatest q
  | .writeFiducial index fields => .writeFiducial q index fields
  | .enableFiducial index => .enableFiducial q index
  | .disableFiducial index => .disableFiducial q index
  | .readFiducial index => .readFiducial q index
  | .startRound => .startRound q
  | .stopRound => .stopRound q
  | .ackEvent source => .ackEvent q source
  | .raiseTest source => .raiseTest q source
  | .setFloor f => .setFloor q f
  | .setParam id value => .setParam q id value
  | .readStatus sect => .readStatus q sect
  | .restart => .restart q

/-- R180 and the reset tables of the chapters: the blocks other than the station port and the event unit after a restart of `s`;
the HOLD frame of R88 is the first that the head receives. -/
def restartedBlocks (s t : State) : Prop :=
  t.correction = { s.correction with cosEl := 1073741824, sinEl := 0, badSamples := 0 } ∧
  t.poses = s.poses ∧
  t.distance = { s.distance with state := .none, lastLoss := .none, lastWaitKind := .adm, lastWaitOutcome := .none } ∧
  t.follower =
    { s.follower with
      state := .parked, followPending := false, grace := none, aim := none, arrivalRun := 0, acqRun := 0, iAz := 0, iEl := 0
      present := false, lastAngles := none } ∧
  t.search = { s.search with ringRead := 0, ringFill := 0, active := none } ∧
  t.emitter =
    { mode := .idle, latestTimestamp := none, latest := none, fresh := false, sequence := 0, polarity := s.emitter.polarity } ∧
  t.round =
    { s.round with
      state := .idle, returnAngles := none, periodTimer := s.round.period * 60000
      summary := if s.round.state = .idle then s.round.summary else .aborted .restart } ∧
  t.head =
    { s.head with
      rx := [], forward := [], frameErrors := 0, overruns := 0, forwardDrops := 0, superseded := 0
      slot := if s.head.tx.isSome then some .hold else none
      tx := if s.head.tx.isSome then s.head.tx else some (.steer .hold) } ∧
  t.localTime = s.localTime ∧ t.freeCount = s.freeCount ∧ t.pending = s.pending

/-- R163: the event unit after a restart: everything is cleared, and each level source takes its owner's condition. -/
def reevaluated (s t : State) : Prop :=
  t.events.floor = 0 ∧
    ∀ src,
      t.events.get src =
        { latch := false, count := 0, latchTime := 0, genuine := genuineOf t src, changeTime := if src.isLevel then s.localTime else 0
          testMark := false, reported := false }

/-- R29 to R31: the checks of a pose in the order of the table, each with whether it passes. -/
def poseChecks (m : Rotation) (t : Triple) : List (PoseFault × Bool) :=
  [(.rowLength 1, rowLength m.row1), (.rowLength 2, rowLength m.row2), (.rowLength 3, rowLength m.row3),
    (.rowProduct 0, rowProduct m.row1 m.row2), (.rowProduct 1, rowProduct m.row1 m.row3),
    (.rowProduct 2, rowProduct m.row2 m.row3),
    (.determinant,
      decide
        (0 <
          m.row1.c1 * (m.row2.c2 * m.row3.c3 - m.row2.c3 * m.row3.c2) -
              m.row1.c2 * (m.row2.c1 * m.row3.c3 - m.row2.c3 * m.row3.c1) +
            m.row1.c3 * (m.row2.c1 * m.row3.c2 - m.row2.c2 * m.row3.c1))),
    (.translation 1, component t.c1), (.translation 2, component t.c2), (.translation 3, component t.c3)]
where
  rowLength (r : Triple) : Bool :=
    decide (2 ^ 60 - 2 ^ 41 ≤ r.c1 ^ 2 + r.c2 ^ 2 + r.c3 ^ 2 ∧ r.c1 ^ 2 + r.c2 ^ 2 + r.c3 ^ 2 ≤ 2 ^ 60 + 2 ^ 41)
  rowProduct (a b : Triple) : Bool :=
    decide (-2 ^ 41 ≤ a.c1 * b.c1 + a.c2 * b.c2 + a.c3 * b.c3 ∧ a.c1 * b.c1 + a.c2 * b.c2 + a.c3 * b.c3 ≤ 2 ^ 41)
  component (x : Int) : Bool := decide (-500000000 ≤ x ∧ x ≤ 500000000)

/-! ### The terms of the statements about samples -/

/-- R72: a sample counts toward arrival at a target, the azimuth taken the short way round. -/
def atTarget (a : Aim) (s : State) (f : Sample) : Prop :=
  badSample f = false ∧
    -300 ≤ ((stageA s.correction f).az - a.az + 2160000) % 4320000 - 2160000 ∧
    ((stageA s.correction f).az - a.az + 2160000) % 4320000 - 2160000 ≤ 300 ∧
    -300 ≤ (stageA s.correction f).el - a.el ∧ (stageA s.correction f).el - a.el ≤ 300

/-- R85 to R87: the loop of both axes has run on sample `f` from the integrators `iAz` and `iEl`, and its FOLLOW frame was
written. -/
def loopWritten (iAz iEl : Int) (f : Sample) (s t : State) : Prop :=
  ∃ az el : Int × Int,
    az = steerAxis s.follower.kpAz s.follower.kiAz iAz
      (azimuthError (clampPsd f.psdX) (cosOf (stageA s.correction f).el)) ∧
    el = steerAxis s.follower.kpEl s.follower.kiEl iEl (clampPsd f.psdY) ∧
    t.follower.iAz = az.2 ∧ t.follower.iEl = el.2 ∧ steerWritten (.follow az.1 el.1) s t

/-- R66, R67 and R45: on sample `f`, with no round RUNNING, the follower is in FOLLOWING after an entry to it, and an automatic ADM
wait has started where nothing stands against it. -/
def entersFollowing (iAz iEl : Int) (f : Sample) (s t : State) : Prop :=
  t.follower.state = .following ∧ t.follower.followPending = false ∧ t.follower.grace = none ∧ t.follower.aim = none ∧
    t.follower.arrivalRun = 0 ∧ t.follower.acqRun = 0 ∧ loopWritten iAz iEl f s t ∧
    (s.distance.state = .none → s.distance.autoAdm = true → s.head.hasAdm = true →
      t.distance = { s.distance with state := .awaitAdm .follower 2000 }) ∧
    (s.distance.state = .none → s.distance.autoAdm = false ∨ s.head.hasAdm = false → t.distance = s.distance)

/-- R99, R101 and R104: a search with descriptor `o` and centre `centre` was asked for on a sample. `unusable`, `started` and
`starved` say what each of the three answers means to the asking block. -/
def searchAsked (o : Option (Fin 8)) (centre : Angles) (owner : SearchOwner) (unusable started starved : Prop)
    (s t : State) : Prop :=
  ((o = none ∨ ∃ i, o = some i ∧ s.search.descriptors[i].ready = false) → unusable) ∧
  (∀ i st, o = some i → s.search.descriptors[i].ready = true → s.search.descriptors[i].mode = .block →
    s.search.store[s.search.descriptors[i].start]? = some st →
    started ∧ t.follower.state = .searching ∧ t.follower.acqRun = 0 ∧
    t.search.active =
      some
        { descriptor := i, play := .block s.search.descriptors[i].start s.search.descriptors[i].repeats
          centre := centre, target := ⟨(centre.az + st.dAz) % 4320000, clamp (-720000) 960000 (centre.el + st.dEl)⟩
          dwell := st.dwell, owner := owner } ∧
    steerWritten (.position ((centre.az + st.dAz) % 4320000) (clamp (-720000) 960000 (centre.el + st.dEl))) s t) ∧
  (∀ i st, o = some i → s.search.descriptors[i].ready = true → s.search.descriptors[i].mode = .stream →
    0 < s.search.ringFill → s.search.store[384 + s.search.ringRead]? = some st →
    started ∧ t.follower.state = .searching ∧ t.follower.acqRun = 0 ∧
    t.search.ringRead = (s.search.ringRead + 1) % 128 ∧ t.search.ringFill = s.search.ringFill - 1 ∧
    t.search.active =
      some
        { descriptor := i, play := .stream
          centre := centre, target := ⟨(centre.az + st.dAz) % 4320000, clamp (-720000) 960000 (centre.el + st.dEl)⟩
          dwell := st.dwell, owner := owner } ∧
    steerWritten (.position ((centre.az + st.dAz) % 4320000) (clamp (-720000) 960000 (centre.el + st.dEl))) s t) ∧
  (∀ i, o = some i → s.search.descriptors[i].ready = true → s.search.descriptors[i].mode = .stream →
    s.search.ringFill = 0 →
    t.events.get .searchStarved = (s.events.get .searchStarved).occurred s.localTime ∧ starved)

/-- R69, R77, R79: the follower's own search: it starts, or the follower is in LOST and has written HOLD. -/
def autoSearched (centre : Angles) (s t : State) : Prop :=
  searchAsked s.follower.autoSearch centre .follower
    (t.follower.state = .lost ∧ t.search = s.search ∧ steerWritten .hold s t) True
    (t.follower.state = .lost ∧ t.search.active = none ∧ steerWritten .hold s t) s t

/-- R47 and R146: both PSD values of a sample lie within ±200 µm, which the clamp of R63 leaves as they are. -/
def centred (f : Sample) : Prop :=
  (-200 ≤ f.psdX.toInt ∧ f.psdX.toInt ≤ 200) ∧ (-200 ≤ f.psdY.toInt ∧ f.psdY.toInt ≤ 200)

/-- R47: sample `f` qualifies in AWAIT_ADM with the ADM reading `dist` of quality `quality`. -/
def admQualifies (s : State) (f : Sample) (dist : Word) (quality : Byte) : Prop :=
  badSample f = false ∧ f.adm = some (dist, quality) ∧ dist.toNat ≤ 900000000 ∧ s.distance.admQualityMin ≤ quality.toNat ∧
    decidePresence s.follower f = true ∧ f.ifmOk = true ∧ centred f

/-- R50: sample `f` qualifies in AWAIT_HOME. -/
def homeQualifies (s : State) (f : Sample) : Prop :=
  badSample f = false ∧ f.atHome = true ∧ decidePresence s.follower f = true ∧ f.ifmOk = true

/-- R53, R54 and R45, with no round: the base that was held before a sample was dropped on it for `cause`, and an entry to
FOLLOWING on the same sample, which finds the distance NONE, has started an automatic ADM wait where R45 lets it. -/
def droppedOn (cause : LossCause) (s t : State) : Prop :=
  (s.follower.state = .following ∧ s.follower.followPending = false ∨ t.follower.state ≠ .following →
    t.distance = { s.distance with state := .none, lastLoss := cause }) ∧
  (s.follower.state ≠ .following ∨ s.follower.followPending = true → t.follower.state = .following →
    t.distance =
      { s.distance with
        state := if s.distance.autoAdm = true ∧ s.head.hasAdm = true then .awaitAdm .follower 2000 else .none
        lastLoss := cause })

/-- R4 step 2, R15, R17, R48, R50 and R53: sample `f` is handed on with the distance `d` from a base of `src`: one that was held and
stays, or one that is set on this sample. -/
def handedDistance (s : State) (f : Sample) (src : DistanceSource) (d : CorrectedDistance) : Prop :=
  ∃ base count,
    (s.distance.state = .established src base count ∧ decidePresence s.follower f = true ∧ f.ifmOk = true ∨
      (∃ o m dist q, s.distance.state = .awaitAdm o m ∧ admQualifies s f dist q ∧ src = .adm ∧ base = dist.toNat ∧
        count = f.ifmCount) ∨
      (∃ o m, s.distance.state = .awaitHome o base m ∧ homeQualifies s f ∧ src = .home ∧ count = f.ifmCount)) ∧
    plausible (opticalDistance base count f.ifmCount) = true ∧
    d = correctDistance s src (correctAngles s.correction f) (opticalDistance base count f.ifmCount)

/-! ### The terms of the statements about points -/

/-- R2 and R127: the oldest queued sample `f` is handed on with a distance `d` from a base of `src`, and with `flags`. -/
def measuredFront (s : State) (f : Sample) (rest : List Sample) (src : DistanceSource) (d : CorrectedDistance)
    (flags : PointFlags) : Prop :=
  s.head.rx = f :: rest ∧ handedDistance s f src d ∧
    flags =
      { uncompensated := s.correction.uncompensated, outOfRange := d.outOfRange, refractionStale := s.correction.stale }

/-- R111: the oldest queued sample `f` is usable for a follower that is in FOLLOWING before it: it is PRESENT and has a distance
`d` from a held base of `src`. -/
def usableFront (s : State) (f : Sample) (rest : List Sample) (src : DistanceSource) (d : CorrectedDistance)
    (flags : PointFlags) : Prop :=
  s.head.rx = f :: rest ∧ s.follower.state = .following ∧ s.follower.followPending = false ∧
    decidePresence s.follower f = true ∧ f.ifmOk = true ∧
    (∃ b c, s.distance.state = .established src b c ∧ plausible (opticalDistance b c f.ifmCount) = true ∧
      d = correctDistance s src (correctAngles s.correction f) (opticalDistance b c f.ifmCount)) ∧
    flags =
      { uncompensated := s.correction.uncompensated, outOfRange := d.outOfRange, refractionStale := s.correction.stale }

/-- R128 and R129: a point record was offered: it takes the next sequence number while fewer than 56 records wait, and is dropped
and counted otherwise. In every statement that uses this, the occupancy is that before the command: the point comes before the
event records that the same command makes pending, which is the model's choice (log 32). -/
def pointOffered (p : PointRecord) (s t : State) : Prop :=
  (s.station.out.length < 56 →
    t.station =
      { s.station with
        out := s.station.out ++ [.point { p with sequence := s.emitter.sequence }]
        tx := some (s.station.tx.getD .front) } ∧
    t.emitter.sequence = s.emitter.sequence + 1 ∧
    (t.events.get .queueCongested).genuine = decide (56 ≤ s.station.out.length + 1)) ∧
  (56 ≤ s.station.out.length →
    t.station = { s.station with droppedPoints := min 65535 (s.station.droppedPoints + 1) } ∧
    t.emitter.sequence = s.emitter.sequence)

/-- No point record was made. -/
def noPoint (s t : State) : Prop := t.station = s.station ∧ t.emitter.sequence = s.emitter.sequence

/-- R117: a point lies within tolerance of an anchor on every axis. -/
def nearPoint (tol : Nat) (a p : Triple) : Prop :=
  (-tol ≤ p.c1 - a.c1 ∧ p.c1 - a.c1 ≤ tol) ∧ (-tol ≤ p.c2 - a.c2 ∧ p.c2 - a.c2 ≤ tol) ∧
    (-tol ≤ p.c3 - a.c3 ∧ p.c3 - a.c3 ≤ tol)

/-- R118: what AVERAGING holds after one more sample. -/
def averagingWith (a : Averaging) (p : Triple) (flags : PointFlags) : Averaging :=
  { count := a.count + 1
    sum := ⟨a.sum.c1 + p.c1, a.sum.c2 + p.c2, a.sum.c3 + p.c3⟩
    least := if a.count = 0 then p else ⟨min a.least.c1 p.c1, min a.least.c2 p.c2, min a.least.c3 p.c3⟩
    greatest := if a.count = 0 then p else ⟨max a.greatest.c1 p.c1, max a.greatest.c2 p.c2, max a.greatest.c3 p.c3⟩
    flags :=
      { uncompensated := a.flags.uncompensated || flags.uncompensated
        outOfRange := a.flags.outOfRange || flags.outOfRange
        refractionStale := a.flags.refractionStale || flags.refractionStale } }

/-! ### The terms of the statements about slots -/

/-- R150 and R151: the results of a round were committed together at local time `time` under the number `n`, and the return was
made. -/
def committedAs (n : Nat) (results : List PendingResult) (time : Word) (s t : State) : Prop :=
  t.round.state = .idle ∧ t.round.roundNumber = n ∧
    t.round.summary =
      .completed n (results.countP PendingResult.isOutTol) (results.countP fun p => decide (p.result = .notFound)) ∧
    (∀ i : Fin 16, (∀ p ∈ results, p.entry ≠ i) → t.round.table[i] = s.round.table[i]) ∧
    ((results.map (·.entry)).Nodup → ∀ p ∈ results,
      t.round.table[p.entry] =
        { s.round.table[p.entry] with
          result := p.result, aim := p.newAim.getD s.round.table[p.entry].aim, resultRound := some n }) ∧
    t.events.get .roundDone = (s.events.get .roundDone).occurred time ∧
    (t.events.get .drift).genuine = genuineOf t .drift ∧
    (∀ a, s.round.returnOn = true → s.round.returnAngles = some a →
      t.follower.state = .aiming ∧
      t.follower.aim = some { az := a.az, el := a.el, thenAction := .follow, owner := .round, timer := 3000 }) ∧
    (s.round.returnOn = false ∨ s.round.returnAngles = none → t.follower.state = .parked)

/-- R150: the commit under the next round number. -/
def committed (results : List PendingResult) (time : Word) (s t : State) : Prop :=
  committedAs (min 4294967295 (s.round.roundNumber + 1)) results time s t

/-- R149 and R142: the current slot of `r` ended with a result at local time `time`: the distance is released, and the next slot
begins with a GOTO to its entry's aim angles, or the round is committed. -/
def slotEnds (r : RunningRound) (result : FiducialResult) (newAim : Option Angles) (time : Word) (s t : State) : Prop :=
  t.distance.state = .none ∧
  (∀ e, r.slots[r.results.length + 1]? = some e →
    t.round.state =
      .running
        { r with
          results := r.results ++ [{ entry := r.current, result := result, newAim := newAim }]
          current := e, phase := .aim, slotTimer := 10000, avgCount := 0, sums := ⟨0, 0, 0⟩ } ∧
    t.round.table = s.round.table ∧ t.round.roundNumber = s.round.roundNumber ∧ t.follower.state = .aiming ∧
    t.follower.aim =
      some
        { az := s.round.table[e].aim.az, el := s.round.table[e].aim.el, thenAction := .hold, owner := .round
          timer := 3000 } ∧
    t.search.active = none) ∧
  (r.slots[r.results.length + 1]? = none →
    committed (r.results ++ [{ entry := r.current, result := result, newAim := newAim }]) time s t)

/-- R146: a sample handled in FOLLOWING in phase CENTRE, with no distance: a centred one starts the ADM wait, or ends the slot when
the instrument is gone. -/
def centreTested (r : RunningRound) (iAz iEl : Int) (f : Sample) (s t : State) : Prop :=
  (¬ centred f →
    t.round.state = .running { r with phase := .centre } ∧ t.distance = s.distance ∧ t.follower.state = .following ∧
    loopWritten iAz iEl f s t) ∧
  (centred f → s.head.hasAdm = true →
    t.round.state = .running { r with phase := .adm } ∧
    t.distance = { s.distance with state := .awaitAdm .round 2000 } ∧ t.follower.state = .following ∧
    loopWritten iAz iEl f s t) ∧
  (centred f → s.head.hasAdm = false → slotEnds r .notFound none s.localTime s t)

/-- R145: the round unit asked for a search around the aim angles of the current entry. -/
def slotSearched (r : RunningRound) (s t : State) : Prop :=
  searchAsked s.round.table[r.current].descriptor s.round.table[r.current].aim .round
    (slotEnds r .notFound none s.localTime s t) (t.round.state = .running { r with phase := .search })
    (slotEnds r .notFound none s.localTime s t) s t

end Sys2Proof.Machine
end

