-- ==== Sys2Proof/WellFormed.lean ====
section
/-! DEFINITION. Which commands the links can bring: the bounds that the types of Syntax.lean do not hold (R165, R183, R184). -/

namespace Sys2Proof

/-- A request whose payload fits in a frame: a run's count fits in 240 bytes (R165, section 10.5). -/
def requestFits : Request → Bool
  | .loadCompData _ _ entries => decide (entries.length ≤ 117)
  | .writeSteps _ steps => decide (steps.length ≤ 26)
  | .appendSteps steps => decide (steps.length ≤ 26)
  | .loadCompBegin _ => true
  | .loadCompEnd _ _ => true
  | .setRefraction _ => true
  | .writePose _ _ _ => true
  | .clearPose _ => true
  | .readPose _ => true
  | .selectPose _ => true
  | .establishAdm => true
  | .establishHome => true
  | .dropDistance => true
  | .follow => true
  | .park => true
  | .goto _ _ _ => true
  | .writeSearch _ _ _ _ _ _ => true
  | .resetStream => true
  | .readSearch _ => true
  | .readSteps _ _ => true
  | .startSearch _ => true
  | .startMeasure _ _ _ _ _ => true
  | .stopMeasure => true
  | .readLatest => true
  | .writeFiducial _ _ => true
  | .enableFiducial _ => true
  | .disableFiducial _ => true
  | .readFiducial _ => true
  | .startRound => true
  | .stopRound => true
  | .ackEvent _ => true
  | .raiseTest _ => true
  | .setFloor _ => true
  | .setParam _ _ => true
  | .readStatus _ => true
  | .restart => true

/-- A REQUEST frame that the station link can bring. -/
def requestFrameFits : RequestFrame → Bool
  | .named _ r => requestFits r
  | .unnamed _ _ => true

/-- A command that can occur: its frame fits its link, and a code of UNKNOWN_REQUEST names no request. -/
def wellFormed : Instr → Bool
  | .headStatus h => decide (h.remainder.length ≤ 238)
  | .forwardFrame f => decide (f.payload.length ≤ 240)
  | .requestFrame _ r => requestFrameFits r
  | .loadCompData _ _ _ entries => decide (entries.length ≤ 117)
  | .writeSteps _ _ steps => decide (steps.length ≤ 26)
  | .appendSteps _ steps => decide (steps.length ≤ 26)
  | .unknownRequest _ code => !codeNamed code
  | .sample _ => true
  | .discardedFrame _ => true
  | .takeSample => true
  | .headFrameSent => true
  | .stationRecordSent _ => true
  | .eventAdmission => true
  | .headSilent => true
  | .establishTimerExpiry => true
  | .aimTimerExpiry => true
  | .measureTimerExpiry => true
  | .slotTimerExpiry => true
  | .roundPeriodExpiry => true
  | .refractionStale => true
  | .graceExpiry => true
  | .dwellExpiry => true
  | .dueRoundStart => true
  | .trigEdge _ => true
  | .linkBreak => true
  | .powerOnReset => true
  | .loadCompBegin _ _ => true
  | .loadCompEnd _ _ _ => true
  | .setRefraction _ _ => true
  | .writePose _ _ _ _ => true
  | .clearPose _ _ => true
  | .readPose _ _ => true
  | .selectPose _ _ => true
  | .establishAdm _ => true
  | .establishHome _ => true
  | .dropDistance _ => true
  | .follow _ => true
  | .park _ => true
  | .goto _ _ _ _ => true
  | .writeSearch _ _ _ _ _ _ _ => true
  | .resetStream _ => true
  | .readSearch _ _ => true
  | .readSteps _ _ _ => true
  | .startSearch _ _ => true
  | .startMeasure _ _ _ _ _ _ => true
  | .stopMeasure _ => true
  | .readLatest _ => true
  | .writeFiducial _ _ _ => true
  | .enableFiducial _ _ => true
  | .disableFiducial _ _ => true
  | .readFiducial _ _ => true
  | .startRound _ => true
  | .stopRound _ => true
  | .ackEvent _ _ => true
  | .raiseTest _ _ => true
  | .setFloor _ _ => true
  | .setParam _ _ _ => true
  | .readStatus _ _ => true
  | .restart _ => true
  | .timeBaseTick => true
  | .srxReturnsHigh => true

end Sys2Proof
end

