-- ==== Sys2Proof/Certificates/Slice0/Obligations.lean ====
section
/-! DEFINITION. The statements for the provers. Where a statement says "there is t", the command completes: it answers that next
state whenever the hypotheses on the state and the operands hold. -/

open Sys2Proof Sys2Proof.Machine

/-! ### The machine -/

/-- A step executes the command at the front of the queue on the state with the rest of the queue, and idles on an empty queue.
The queue of commands is the model's own field (log 3; log 28 for what POWER_ON_RESET leaves of it), and so are both clauses: the
spec names no such queue. -/
def Obligations.StepRunsFrontCommand : Prop :=
  (∀ (c : Instr) (rest : List Instr) (s : State), s.pending = c :: rest → step s = exec c (s.setPending rest)) ∧
    ∀ s : State, s.pending = [] → step s = .next s

/-- Every command completes in every state and answers a next state, and none of them touches the queue of commands. That queue
is the model's own field (log 3; log 28 for POWER_ON_RESET): the spec names no such queue, and what a command leaves of it is the
model's choice. -/
def Obligations.EveryCommandCompletes : Prop :=
  ∀ (c : Instr) (s : State), ∃ t, exec c s = .next t ∧ t.pending = s.pending

/-- R181 and the power-on columns of the reset tables. That the SERVICE level, the count of free values and the queue are kept is
the model's choice (log 28), and so is that SRX is not held low (log 14). -/
def Obligations.PowerOnReset : Prop :=
  ∀ s : State, ∃ t, exec .powerOnReset s = .next t ∧
    t.correction.refraction = 270000 ∧ t.correction.age = 4294967295 ∧ t.correction.cosEl = 1073741824 ∧
    t.correction.sinEl = 0 ∧ t.correction.badSamples = 0 ∧ t.correction.azc = t.correction.elc ∧
    t.correction.azc = { load := .empty, entries := Vector.replicate 240 0, written := Vector.replicate 240 false } ∧
    t.poses.active = none ∧
    (∀ i : Fin 8,
      t.poses.entries[i] =
        { state := .empty, rot := ⟨⟨0, 0, 0⟩, ⟨0, 0, 0⟩, ⟨0, 0, 0⟩⟩, trans := ⟨0, 0, 0⟩, label := 0, writeCount := 0 }) ∧
    t.distance =
      { state := .none, lastLoss := .none, lastWaitKind := .adm, lastWaitOutcome := .none, homeDistance := 0,
        admQualityMin := 160, autoAdm := true } ∧
    t.follower =
      { present := false, lastAngles := none, state := .parked, followPending := false, grace := none, aim := none,
        arrivalRun := 0, acqRun := 0, iAz := 0, iEl := 0, kpAz := 640, kpEl := 640, kiAz := 48, kiEl := 48, tOn := 600,
        tOff := 400, graceParam := 20, autoSearch := some 0 } ∧
    t.search =
      { store := Vector.replicate 512 ⟨0, 0, 1⟩, ringRead := 0, ringFill := 0,
        descriptors := Vector.replicate 8 { ready := false, mode := .block, start := 0, length := 1, repeats := 0 },
        active := none, margin := 16 } ∧
    t.emitter =
      { mode := .idle, latestTimestamp := none, latest := none, fresh := false, sequence := 0, polarity := .rising } ∧
    t.round =
      { table :=
          Vector.replicate 16
            { state := .unused, nominal := ⟨0, 0, 0⟩, aim := ⟨0, 0⟩, tolerance := 10, checkMode := .position,
              descriptor := none, result := .never, resultRound := none }
        roundNumber := 0, state := .idle, returnAngles := none, period := 0, returnOn := true, periodTimer := 0,
        summary := .none } ∧
    t.head =
      { rx := [], slot := none, forward := [], tx := none, silenceTimer := 20, hasAdm := false, driveState := .disabled,
        frameErrors := 0, overruns := 0, forwardDrops := 0, superseded := 0 } ∧
    t.station =
      { rx := [], slot := none, out := [], tx := none, breakArmed := false, srxLow := false, frameErrors := 0, overruns := 0,
        droppedPoints := 0, droppedStatus := 0 } ∧
    t.events.floor = 0 ∧ t.localTime = 0 ∧
    (∀ src, t.events.get src =
      { latch := false, count := 0, latchTime := 0
        genuine := decide (src = .drivesDisabled) || decide (src = .refractionStale) || decide (src = .uncompensated)
        changeTime := 0, testMark := false, reported := false }) ∧
    t.service = s.service ∧ t.freeCount = s.freeCount ∧ t.pending = s.pending

/-- The state after reset meets every part of the invariant. -/
def Obligations.ResetIsSafe : Prop := State.reset.safe = true

/-! ### What every step keeps -/

/-- R167, R170, R172 and R177: no step takes a queue beyond its places. -/
def Obligations.StepKeepsQueueBounds : Prop :=
  ∀ s t : State, s.queuesBounded = true → step s = .next t → t.queuesBounded = true

/-- R156 with the owners' rules (R8, R21, R83, R107, R135, R139, R168, R169, R177): after every step the event unit's genuine
condition of each level source is the one that the owning block then holds, and each owner's condition is spelled out. -/
def Obligations.StepKeepsConditionsTrue : Prop :=
  ∀ s t : State, s.conditionsTrue = true → step s = .next t →
    t.conditionsTrue = true ∧
      ((t.events.get .headSilent).genuine = true ↔ t.head.silenceTimer = 0) ∧
      ((t.events.get .beamAbsent).genuine = true ↔ t.follower.state = .searching ∨ t.follower.state = .lost) ∧
      ((t.events.get .drift).genuine = true ↔
        ∃ i : Fin 16, t.round.table[i].state = .enabled ∧
          ((∃ m, t.round.table[i].result = .outTol m) ∨ t.round.table[i].result = .notFound)) ∧
      ((t.events.get .patternLow).genuine = true ↔
        (∃ a, t.search.active = some a ∧ a.play = .stream) ∧ t.search.margin ≠ 0 ∧ t.search.ringFill ≤ t.search.margin) ∧
      ((t.events.get .drivesDisabled).genuine = true ↔ t.head.driveState = .disabled) ∧
      ((t.events.get .queueCongested).genuine = true ↔ 56 ≤ t.station.out.length) ∧
      ((t.events.get .refractionStale).genuine = true ↔ 600000 < t.correction.age) ∧
      ((t.events.get .uncompensated).genuine = true ↔
        t.correction.azc.load ≠ .loaded ∨ t.correction.elc.load ≠ .loaded) ∧
      ((t.events.get .roundDue).genuine = true ↔ t.round.state = .due)

/-- R98, R65 and R68: a search is active exactly while the follower is in SEARCHING, and the grace counter, the aim record and
the follow-pending mark are held in their states only. -/
def Obligations.StepKeepsFollowerAndSearch : Prop :=
  ∀ s t : State, s.searchAgrees = true ∧ s.followerItems = true → step s = .next t →
    t.searchAgrees = true ∧ t.followerItems = true

/-- R136, R138 to R140 and R168: the current slot of a RUNNING round is the first of the slot list without a result, a round is
DUE only while a busy condition holds, so that whatever ends the last one starts or abandons it, and the silence timer stays
within 0 to 20. -/
def Obligations.StepKeepsRoundAndSilence : Prop :=
  ∀ s t : State, s.roundAgrees = true ∧ s.dueIsBusy = true ∧ s.silenceBounded = true → step s = .next t →
    t.roundAgrees = true ∧ t.dueIsBusy = true ∧ t.silenceBounded = true

/-- R13, R27, R32 and R34: the active pose is VALID, and a LOADED table has all its indices written. -/
def Obligations.StepKeepsTablesAndPose : Prop :=
  ∀ s t : State, s.poseActiveValid = true ∧ s.tablesComplete = true → step s = .next t →
    t.poseActiveValid = true ∧ t.tablesComplete = true

/-- R19, R86, R91, R92, R96 and R175: N, the parameters, the integrators, the ring and the descriptors stay in their ranges. -/
def Obligations.StepKeepsRanges : Prop :=
  ∀ s t : State,
    s.parametersInRange = true ∧ s.integratorsBounded = true ∧ s.ringBounded = true ∧ s.descriptorsInRegion = true →
    step s = .next t →
    t.parametersInRange = true ∧ t.integratorsBounded = true ∧ t.ringBounded = true ∧ t.descriptorsInRegion = true

/-! ### Events -/

/-- R155: an occurrence sets a clear latch with count 1 and the local time, and raises the count of a set one, which holds at
255; nothing else changes. -/
def Obligations.OccurrenceLatches : Prop :=
  ∀ (src : Source) (s : State),
    keepsOthers [.events] s (occur src s) ∧ keepsSources [src] s (occur src s) ∧
    ((s.events.get src).latch = false →
      (occur src s).events.get src =
        { s.events.get src with latch := true, count := 1, latchTime := s.localTime, reported := false }) ∧
    ((s.events.get src).latch = true →
      (occur src s).events.get src = { s.events.get src with count := min 255 ((s.events.get src).count + 1) })

/-- R161, R160, R155 and R156: a source is eligible exactly when its record is pending and its level is above the report floor:
the record of an edge source is pending while its latch is set and its reported mark clear, that of a level source while its
effective condition, which the genuine condition or the test mark makes true, differs from its reported mark. The arbiter's
choice is the eligible source of highest level, and among equals of lowest number; it chooses none exactly when none is
eligible. -/
def Obligations.ArbiterChoosesHighest : Prop :=
  ∀ e : EventUnit,
    (∀ src, src.isLevel = false →
      (e.eligible src = true ↔ (e.get src).latch = true ∧ (e.get src).reported = false ∧ e.floor < src.level)) ∧
    (∀ src, src.isLevel = true →
      (e.eligible src = true ↔
        (((e.get src).genuine = true ∨ (e.get src).testMark = true) ↔ (e.get src).reported = false) ∧
          e.floor < src.level)) ∧
    (∀ src, chooseSource e = some src ↔
      e.eligible src = true ∧
        ∀ o, e.eligible o = true → o.level < src.level ∨ (o.level = src.level ∧ src.number ≤ o.number)) ∧
    (chooseSource e = none ↔ ∀ src, e.eligible src = false)

/-- R161, R159, R155 and R156: an admission places the chosen source's record at the back of the output queue, formed from the
source's state, and marks it as reported; DISTANCE_LOST clears itself. Nothing is admitted into a full queue or for no source. -/
def Obligations.EventAdmission : Prop :=
  ∀ s : State, ∃ t, exec .eventAdmission s = .next t ∧
    (s.station.out.length < 64 → ∀ src, chooseSource s.events = some src →
      t.station =
        { s.station with
          out := s.station.out ++
            [.event
              { source := src
                transition :=
                  if src.isLevel then (if (s.events.get src).effective then .asserted else .deasserted) else .latched
                count := if src.isLevel then 0 else (s.events.get src).count
                testMark := (s.events.get src).testMark
                time := if src.isLevel then (s.events.get src).changeTime else (s.events.get src).latchTime }]
          tx := some (s.station.tx.getD .front) } ∧
      (t.events.get src).reported =
        (if src.isLevel then (s.events.get src).effective else decide (src ≠ .distanceLost)) ∧
      (src = .distanceLost → t.events.get src =
        { s.events.get src with latch := false, count := 0, latchTime := 0, testMark := false, reported := false }) ∧
      keepsOthers [.station, .events] s t ∧ keepsSources [src, .queueCongested] s t) ∧
    (64 ≤ s.station.out.length ∨ chooseSource s.events = none → t = s)

/-! ### The links -/

/-- R167 and R168: a SAMPLE joins the head receive queue while it holds fewer than 8, and is lost and counted otherwise; it sets
the silence timer to 20 and makes the condition false either way. -/
def Obligations.SampleArrives : Prop :=
  ∀ (f : Sample) (s : State), ∃ t, exec (.sample f) s = .next t ∧
    (t.events.get .headSilent).genuine = false ∧ keepsOthers [.head, .events] s t ∧
    (s.head.rx.length < 8 →
      t.head = { s.head with rx := s.head.rx ++ [f], silenceTimer := 20 } ∧ keepsSources [.headSilent] s t) ∧
    (8 ≤ s.head.rx.length →
      t.head = { s.head with silenceTimer := 20, overruns := min 65535 (s.head.overruns + 1) } ∧
      t.events.get .headOverrun = (s.events.get .headOverrun).occurred s.localTime ∧
      keepsSources [.headSilent, .headOverrun] s t)

/-- R169 and R81: a HEAD_STATUS replaces the head facts and reports DRIVES_DISABLED; its record is admitted while fewer than 56
wait, and dropped and counted otherwise. ENABLED does nothing more. DISABLED in PARKED clears the follow-pending mark and ends a
DUE round with reason DRIVES and ROUND_ABORTED (R140). DISABLED in any other state parks the follower and writes one HOLD frame,
aborts a search, ends a RUNNING or DUE round in the same way, cancels a wait, drops a base with cause FOLLOWER while no round is
RUNNING, and aborts a SINGLE that loses the beam or the distance by it, with MEASURE_ABORTED latched once (R56, R106, R120,
R152). That the forwarded record is decided on the occupancy before the command, and enters the queue before the event records
that the same command makes pending, is the model's choice (log 32). -/
def Obligations.HeadStatusRead : Prop :=
  ∀ (h : HeadStatus) (s : State), h.remainder.length ≤ 238 → ∃ t, exec (.headStatus h) s = .next t ∧
    t.head.hasAdm = h.hasAdm ∧ t.head.driveState = h.driveState ∧
    (t.events.get .drivesDisabled).genuine = decide (h.driveState = .disabled) ∧
    (s.station.out.length < 56 →
      t.station =
        { s.station with out := s.station.out ++ [.headStatus h], tx := some (s.station.tx.getD .front) }) ∧
    (56 ≤ s.station.out.length →
      t.station = { s.station with droppedStatus := min 65535 (s.station.droppedStatus + 1) }) ∧
    (h.driveState = .enabled →
      t.head = { s.head with hasAdm := h.hasAdm, driveState := .enabled } ∧
      keepsOthers [.head, .events, .station] s t ∧ keepsSources [.drivesDisabled, .queueCongested] s t) ∧
    (h.driveState = .disabled → s.follower.state = .parked → s.round.state = .idle →
      t.follower = { s.follower with followPending := false } ∧
      t.head = { s.head with hasAdm := h.hasAdm, driveState := .disabled } ∧
      keepsOthers [.head, .events, .station, .follower] s t) ∧
    (h.driveState = .disabled → s.follower.state = .parked → s.round.state = .due →
      t.follower = { s.follower with followPending := false } ∧
      t.round = { s.round with state := .idle, summary := .aborted .drives } ∧
      t.events.get .roundAborted = (s.events.get .roundAborted).occurred s.localTime ∧
      (t.events.get .roundDue).genuine = false ∧
      t.head = { s.head with hasAdm := h.hasAdm, driveState := .disabled } ∧
      keepsOthers [.head, .events, .station, .follower, .round] s t ∧
      keepsSources [.drivesDisabled, .queueCongested, .roundDue, .roundAborted] s t) ∧
    (h.driveState = .disabled → s.follower.state ≠ .parked →
      t.follower =
        { s.follower with
          state := .parked, followPending := false, grace := none, aim := none, arrivalRun := 0, acqRun := 0, iAz := 0
          iEl := 0 } ∧
      t.search.active = none ∧ t.distance.state = .none ∧ steerWritten .hold s t ∧
      (s.round.state.isRunning = true →
        t.round = { s.round with state := .idle, returnAngles := none, summary := .aborted .drives }) ∧
      (s.round.state = .due → t.round = { s.round with state := .idle, summary := .aborted .drives }) ∧
      (s.round.state ≠ .idle →
        t.events.get .roundAborted = (s.events.get .roundAborted).occurred s.localTime) ∧
      (s.round.state = .idle → t.round = s.round) ∧
      ((∃ d b c, s.distance.state = .established d b c) → s.round.state.isRunning = false →
        t.distance = { s.distance with state := .none, lastLoss := .follower } ∧
        t.events.get .distanceLost = (s.events.get .distanceLost).occurred s.localTime) ∧
      (∀ k o m, s.distance.state.wait = some (k, o, m) →
        t.distance = { s.distance with state := .none, lastWaitKind := k, lastWaitOutcome := .cancelled }) ∧
      (s.follower.state = .following ∨ (∃ d b c, s.distance.state = .established d b c) → s.emitter.mode.isSingle = true →
        t.emitter = { s.emitter with mode := .idle } ∧
        t.events.get .measureAborted = (s.events.get .measureAborted).occurred s.localTime) ∧
      (s.emitter.mode.isSingle = false ∨
          s.follower.state ≠ .following ∧ (∀ d b c, s.distance.state ≠ .established d b c) →
        t.emitter = s.emitter ∧ t.events.get .measureAborted = s.events.get .measureAborted))

/-- R165 and R166: a discarded frame raises the receiving port's counter and FRAME_ERROR, and has no other effect; that a frame
at SRX arms the break detector is the model's reading of R179 (log 14). Nothing is received while SRX is held low (R179). -/
def Obligations.DiscardedFrameCounted : Prop :=
  (∀ s : State, ∃ t, exec (.discardedFrame .head) s = .next t ∧
    t.head = { s.head with frameErrors := min 65535 (s.head.frameErrors + 1) } ∧
    t.events.get .frameError = (s.events.get .frameError).occurred s.localTime ∧
    keepsOthers [.head, .events] s t ∧ keepsSources [.frameError] s t) ∧
  (∀ s : State, s.station.srxLow = false → ∃ t, exec (.discardedFrame .station) s = .next t ∧
    t.station = { s.station with breakArmed := true, frameErrors := min 65535 (s.station.frameErrors + 1) } ∧
    t.events.get .frameError = (s.events.get .frameError).occurred s.localTime ∧
    keepsOthers [.station, .events] s t ∧ keepsSources [.frameError] s t) ∧
  ∀ s : State, s.station.srxLow = true → exec (.discardedFrame .station) s = .next s

/-- R172, R170 and R171: a FORWARD frame with nothing before it in the receive queue is passed on at once, whether or not a
request is held in the slot: it joins a forward queue of fewer than 4, beginning at once on an idle transmitter, and is dropped
and counted otherwise. R172 and R173: while the output queue is full, a request that arrives moves into an empty slot and is held
there untaken; behind a held request it waits in the receive queue; in a receive queue of 8 it is lost and counted. A FORWARD
frame behind a request that waits in the receive queue joins the queue too, or is lost and counted. R179: while SRX is held low
nothing is received. That the arrival arms the break detector, and how the model holds the low line, are its reading (log 14),
and that a request's arrival leaves the level of SERVICE that came with it is its choice (log 2). -/
def Obligations.StationFrameArrives : Prop :=
  (∀ (f : ForwardFrame) (s : State), f.payload.length ≤ 240 → s.station.srxLow = false → s.station.rx = [] →
    (s.station.slot = none ∨ 64 ≤ s.station.out.length) →
    ∃ t, exec (.forwardFrame f) s = .next t ∧
      t.station = { s.station with breakArmed := true } ∧ keepsOthers [.station, .head, .events] s t ∧
      (s.head.forward.length < 4 → keepsSources [] s t ∧
        (s.head.tx ≠ none → t.head = { s.head with forward := s.head.forward ++ [f] }) ∧
        (s.head.tx = none → s.head.slot = none → s.head.forward = [] →
          t.head = { s.head with tx := some (.forward f) })) ∧
      (4 ≤ s.head.forward.length →
        t.head = { s.head with forwardDrops := min 65535 (s.head.forwardDrops + 1) } ∧
        t.events.get .stationOverrun = (s.events.get .stationOverrun).occurred s.localTime ∧
        keepsSources [.stationOverrun] s t)) ∧
  (∀ (f : ForwardFrame) (s : State) (g r : RequestFrame) (rest : List StationFrame), f.payload.length ≤ 240 →
    s.station.srxLow = false → 64 ≤ s.station.out.length → s.station.slot = some g → s.station.rx = .request r :: rest →
    ∃ t, exec (.forwardFrame f) s = .next t ∧ keepsOthers [.station, .events] s t ∧
      (s.station.rx.length < 8 →
        t.station = { s.station with breakArmed := true, rx := s.station.rx ++ [.forward f] } ∧ keepsSources [] s t) ∧
      (8 ≤ s.station.rx.length →
        t.station = { s.station with breakArmed := true, overruns := min 65535 (s.station.overruns + 1) } ∧
        t.events.get .stationOverrun = (s.events.get .stationOverrun).occurred s.localTime ∧
        keepsSources [.stationOverrun] s t)) ∧
  (∀ s : State, s.station.srxLow = true →
    (∀ f : ForwardFrame, exec (.forwardFrame f) s = .next s) ∧
      ∀ (service : Bool) (f : RequestFrame), exec (.requestFrame service f) s = .next (s.setService service)) ∧
  ∀ (service : Bool) (f : RequestFrame) (s : State), s.station.srxLow = false → 64 ≤ s.station.out.length →
    (s.station.slot = none → s.station.rx = [] →
      ∃ t, exec (.requestFrame service f) s = .next t ∧
        t.station = { s.station with breakArmed := true, slot := some f } ∧ t.service = service ∧
        keepsOthers [.station, .service] s t) ∧
    (∀ g, s.station.slot = some g → (s.station.rx = [] ∨ ∃ r rest, s.station.rx = .request r :: rest) →
      ∃ t, exec (.requestFrame service f) s = .next t ∧ t.service = service ∧
        keepsOthers [.station, .service, .events] s t ∧
        (s.station.rx.length < 8 →
          t.station = { s.station with breakArmed := true, rx := s.station.rx ++ [.request f] } ∧ keepsSources [] s t) ∧
        (8 ≤ s.station.rx.length →
          t.station = { s.station with breakArmed := true, overruns := min 65535 (s.station.overruns + 1) } ∧
          t.events.get .stationOverrun = (s.events.get .stationOverrun).occurred s.localTime ∧
          keepsSources [.stationOverrun] s t))

/-- R69, R72, R73, R75 to R78 and R80, with no round: what the follower does with the sample that TAKE_SAMPLE takes, in each of
its states: the decision on a follow-pending mark, arrival at an aim, the grace, the count of acquisition in SEARCHING, and HOLD
in LOST. Not repeated here: a PRESENT sample in FOLLOWING, the end of a grace, and the end of a dwell have statements of their
own, and the examination of a DUE round on a sample is in TakenSampleIsDecided. The order inside the handling is the model's
reading (log 26), and the centre (0, 0) of a search without last-present angles in FOLLOWING is its choice (log 24). -/
def Obligations.FollowerTakesSample : Prop :=
  ∀ (s : State) (f : Sample) (rest : List Sample), s.head.rx = f :: rest → s.round.state = .idle →
    ∃ t, exec .takeSample s = .next t ∧ t.head.rx = rest ∧
      keepsOthers [.correction, .distance, .follower, .search, .emitter, .events, .head, .station] s t ∧
      (s.follower.followPending = true → decidePresence s.follower f = true → entersFollowing 0 0 f s t) ∧
      (s.follower.followPending = true → decidePresence s.follower f = false →
        t.follower.followPending = false ∧ t.follower.aim = none ∧
        autoSearched (s.follower.lastAngles.getD (if badSample f then ⟨0, 0⟩ else stageA s.correction f)) s t) ∧
      (s.follower.followPending = false → s.follower.state = .parked →
        t.head = { s.head with rx := rest } ∧ t.search = s.search ∧
        t.follower = { s.follower with present := t.follower.present, lastAngles := t.follower.lastAngles }) ∧
      (∀ a, s.follower.followPending = false → s.follower.state = .aiming → s.follower.aim = some a →
        (¬ atTarget a s f →
          t.follower.state = .aiming ∧ t.follower.aim = some a ∧ t.follower.arrivalRun = 0 ∧
          steerWritten (.position a.az a.el) s t) ∧
        (atTarget a s f → s.follower.arrivalRun + 1 < 5 →
          t.follower.state = .aiming ∧ t.follower.aim = some a ∧ t.follower.arrivalRun = s.follower.arrivalRun + 1 ∧
          steerWritten (.position a.az a.el) s t) ∧
        (atTarget a s f → 4 ≤ s.follower.arrivalRun → a.thenAction = .follow → decidePresence s.follower f = true →
          entersFollowing 0 0 f s t) ∧
        (atTarget a s f → 4 ≤ s.follower.arrivalRun → a.thenAction = .hold ∨ decidePresence s.follower f = false →
          t.follower.state = .lost ∧ t.follower.aim = none ∧ t.follower.arrivalRun = 0 ∧ t.follower.acqRun = 0 ∧
          (t.events.get .beamAbsent).genuine = true ∧ steerWritten .hold s t)) ∧
      (s.follower.followPending = false → s.follower.state = .following → decidePresence s.follower f = false →
        (0 < s.follower.graceParam →
          t.follower.state = .holding ∧ t.follower.grace = some s.follower.graceParam ∧ t.follower.iAz = s.follower.iAz ∧
          t.follower.iEl = s.follower.iEl ∧ steerWritten .hold s t) ∧
        (s.follower.graceParam = 0 →
          t.follower.grace = none ∧ autoSearched (s.follower.lastAngles.getD ⟨0, 0⟩) s t)) ∧
      (s.follower.followPending = false → s.follower.state = .holding → decidePresence s.follower f = true →
        entersFollowing s.follower.iAz s.follower.iEl f s t) ∧
      (∀ g, s.follower.followPending = false → s.follower.state = .holding → s.follower.grace = some g → 1 < g →
        decidePresence s.follower f = false →
        t.follower.state = .holding ∧ t.follower.grace = some (g - 1) ∧ t.follower.iAz = s.follower.iAz ∧
        t.follower.iEl = s.follower.iEl ∧ steerWritten .hold s t) ∧
      (∀ a, s.follower.followPending = false → s.follower.state = .searching → s.search.active = some a →
        (decidePresence s.follower f = true → 2 ≤ s.follower.acqRun →
          t.search.active = none ∧ t.events.get .reacquired = (s.events.get .reacquired).occurred s.localTime ∧
          entersFollowing 0 0 f s t) ∧
        (1 < a.dwell → decidePresence s.follower f = false ∨ s.follower.acqRun < 2 →
          t.follower.state = .searching ∧
          t.follower.acqRun = (if decidePresence s.follower f then s.follower.acqRun + 1 else 0) ∧
          t.search = { s.search with active := some { a with dwell := a.dwell - 1 } } ∧
          steerWritten (.position a.target.az a.target.el) s t)) ∧
      (s.follower.followPending = false → s.follower.state = .lost →
        t.follower.state = .lost ∧ t.follower.acqRun = s.follower.acqRun ∧ t.search = s.search ∧ steerWritten .hold s t)

/-- R174 and R182: a request's own command is the arrival of its frame, which is the model's reading (log 1). A code that names no
request is refused UNKNOWN, and a code whose payload has the wrong length RANGE, with no data. -/
def Obligations.RequestFrameActsAsRequest : Prop :=
  (∀ (q : Taking) (r : Request) (s : State),
    exec (.requestFrame q.service (.named q.tag r)) s = exec (requestInstr q r) s) ∧
  (∀ (q : Taking) (code : Byte) (s : State), portReady s → codeNamed code = false →
    ∃ t, exec (.unknownRequest q code) s = .next t ∧ refuses q code .unknown s t) ∧
  ∀ (q : Taking) (code : Byte) (s : State), portReady s → codeNamed code = true →
    ∃ t, exec (.requestFrame q.service (.unnamed q.tag code)) s = .next t ∧ refuses q code .range s t

/-- R171: when a frame has been sent on HTX, the frame in the steering slot is sent next, or else the oldest forward frame. R178
and R177: the front record leaves the output queue when its frame has been sent on STX, and the next record's frame begins;
QUEUE_CONGESTED is evaluated. That the next frame begins in the same step is the model's reading (log 12), and that the level of
SERVICE is kept its choice (log 2). -/
def Obligations.TransmitterFrameSent : Prop :=
  (∀ s : State, ∃ t, exec .headFrameSent s = .next t ∧ keepsOthers [.head] s t ∧
    (s.head.tx = none → t = s) ∧
    (s.head.tx ≠ none →
      (∀ f, s.head.slot = some f → t.head = { s.head with slot := none, tx := some (.steer f) }) ∧
      (∀ f rest, s.head.slot = none → s.head.forward = f :: rest →
        t.head = { s.head with forward := rest, tx := some (.forward f) }) ∧
      (s.head.slot = none → s.head.forward = [] → t.head = { s.head with tx := none }))) ∧
  ∀ (service : Bool) (s : State) (r : Record) (rest : List Record), s.station.tx = some .front → s.station.out = r :: rest →
    s.station.slot = none → s.station.rx = [] →
    ∃ t, exec (.stationRecordSent service) s = .next t ∧
      t.station = { s.station with out := rest, tx := if rest = [] then none else some .front } ∧
      t.service = service ∧ (t.events.get .queueCongested).genuine = decide (56 ≤ rest.length) ∧
      keepsOthers [.station, .service, .events] s t ∧ keepsSources [.queueCongested] s t

/-- R80 and R143 to R147, while a round is RUNNING: how a slot goes from phase to phase on the sample that TAKE_SAMPLE takes:
the arrival in AIM; the acquisition or the search in ACQUIRE; in SEARCH the dwell, the next step or repeat with its POSITION
frame, the acquisition, or the end of the search (R78, R102 to R104); the test for a
centred beam, and the search after the grace, in CENTRE; the qualifying sample, a sample that fails any one condition of R47,
and the release and search after the grace, in ADM. Phase AVERAGE and the ends of a slot outside samples are the statement
SlotEnds. The order inside the handling is the model's reading (log 26). -/
def Obligations.SlotFindsBeam : Prop :=
  ∀ (s : State) (r : RunningRound) (f : Sample) (rest : List Sample), s.head.rx = f :: rest → s.round.state = .running r →
    s.follower.followPending = false →
    ∃ t, exec .takeSample s = .next t ∧ t.head.rx = rest ∧
      (∀ a, r.phase = .aim → s.follower.state = .aiming → s.follower.aim = some a → a.owner = .round → a.thenAction = .hold →
        (¬ atTarget a s f ∨ s.follower.arrivalRun + 1 < 5 →
          t.round.state = .running r ∧ t.follower.aim = some a ∧ steerWritten (.position a.az a.el) s t) ∧
        (atTarget a s f → 4 ≤ s.follower.arrivalRun →
          t.round.state = .running { r with phase := .acquire } ∧ t.follower.state = .lost ∧ t.follower.acqRun = 0 ∧
          steerWritten .hold s t)) ∧
      (r.phase = .acquire → s.follower.state = .lost →
        (decidePresence s.follower f = true → s.follower.acqRun < 2 →
          t.round.state = .running r ∧ t.follower.state = .lost ∧ t.follower.acqRun = s.follower.acqRun + 1 ∧
          steerWritten .hold s t) ∧
        (decidePresence s.follower f = true → 2 ≤ s.follower.acqRun → s.distance.state = .none →
          centreTested r 0 0 f s t ∧ t.events.get .reacquired = s.events.get .reacquired) ∧
        (decidePresence s.follower f = false → slotSearched r s t)) ∧
      (∀ a, r.phase = .search → s.follower.state = .searching → s.search.active = some a → a.owner = .round →
        (decidePresence s.follower f = true → 2 ≤ s.follower.acqRun → s.distance.state = .none →
          centreTested r 0 0 f s t ∧ t.search.active = none ∧
          t.events.get .reacquired = (s.events.get .reacquired).occurred s.localTime) ∧
        (decidePresence s.follower f = false ∨ s.follower.acqRun < 2 → t.follower.state = .searching →
          t.follower.acqRun = (if decidePresence s.follower f then s.follower.acqRun + 1 else 0)) ∧
        (decidePresence s.follower f = false ∨ s.follower.acqRun < 2 → 1 < a.dwell →
          t.round.state = .running r ∧ t.follower.state = .searching ∧
          t.search = { s.search with active := some { a with dwell := a.dwell - 1 } } ∧
          steerWritten (.position a.target.az a.target.el) s t) ∧
        (∀ pos rep next st, decidePresence s.follower f = false ∨ s.follower.acqRun < 2 → a.dwell ≤ 1 →
          a.play = .block pos rep →
          (pos + 1 < s.search.descriptors[a.descriptor].start + s.search.descriptors[a.descriptor].length ∧ next = pos + 1 ∨
            s.search.descriptors[a.descriptor].start + s.search.descriptors[a.descriptor].length ≤ pos + 1 ∧ 0 < rep ∧
              next = s.search.descriptors[a.descriptor].start) →
          s.search.store[next]? = some st →
          t.round.state = .running r ∧ t.follower.state = .searching ∧
          t.search =
            { s.search with
              active :=
                some
                  { a with
                    play := .block next
                      (if pos + 1 < s.search.descriptors[a.descriptor].start + s.search.descriptors[a.descriptor].length
                       then rep else rep - 1)
                    target := stepTarget a.centre st, dwell := st.dwell } } ∧
          steerWritten (.position (stepTarget a.centre st).az (stepTarget a.centre st).el) s t) ∧
        (∀ st, decidePresence s.follower f = false ∨ s.follower.acqRun < 2 → a.dwell ≤ 1 → a.play = .stream →
          0 < s.search.ringFill → s.search.store[384 + s.search.ringRead]? = some st →
          t.round.state = .running r ∧ t.follower.state = .searching ∧
          t.search =
            { s.search with
              ringRead := (s.search.ringRead + 1) % 128, ringFill := s.search.ringFill - 1
              active := some { a with target := stepTarget a.centre st, dwell := st.dwell } } ∧
          steerWritten (.position (stepTarget a.centre st).az (stepTarget a.centre st).el) s t) ∧
        (∀ pos, decidePresence s.follower f = false ∨ s.follower.acqRun < 2 → a.dwell ≤ 1 → a.play = .block pos 0 →
          s.search.descriptors[a.descriptor].start + s.search.descriptors[a.descriptor].length ≤ pos + 1 →
          t.events.get .searchExhausted = (s.events.get .searchExhausted).occurred s.localTime ∧
          slotEnds r .notFound none s.localTime s t) ∧
        (decidePresence s.follower f = false ∨ s.follower.acqRun < 2 → a.dwell ≤ 1 → a.play = .stream →
          s.search.ringFill = 0 →
          t.events.get .searchStarved = (s.events.get .searchStarved).occurred s.localTime ∧
          slotEnds r .notFound none s.localTime s t)) ∧
      (r.phase = .centre →
        (s.follower.state = .following ∨ s.follower.state = .holding → decidePresence s.follower f = true →
          s.distance.state = .none → centreTested r s.follower.iAz s.follower.iEl f s t) ∧
        (s.follower.state = .following → decidePresence s.follower f = false → 0 < s.follower.graceParam →
          t.round.state = .running r ∧ t.follower.state = .holding ∧ t.follower.grace = some s.follower.graceParam ∧
          steerWritten .hold s t) ∧
        (∀ g, s.follower.state = .holding → s.follower.grace = some g → decidePresence s.follower f = false → 1 < g →
          t.round.state = .running r ∧ t.follower.state = .holding ∧ t.follower.grace = some (g - 1)) ∧
        (decidePresence s.follower f = false →
          (∃ g, s.follower.state = .holding ∧ s.follower.grace = some g ∧ g ≤ 1) ∨
            s.follower.state = .following ∧ s.follower.graceParam = 0 →
          slotSearched r s t)) ∧
      (∀ m, r.phase = .adm → s.distance.state = .awaitAdm .round m →
        (∀ d q, s.follower.state = .following ∨ s.follower.state = .holding → admQualifies s f d q → r.avgCount + 1 < 8 →
          t.distance =
            { s.distance with
              state := .established .adm d.toNat f.ifmCount, lastWaitKind := .adm, lastWaitOutcome := .established } ∧
          ∀ p, p = (correctDistance s .adm (correctAngles s.correction f) d.toNat).at_.pos →
            t.round.state =
              .running
                { r with
                  phase := .average, avgCount := r.avgCount + 1
                  sums := ⟨r.sums.c1 + p.c1, r.sums.c2 + p.c2, r.sums.c3 + p.c3⟩ }) ∧
        ((∀ d q, ¬ admQualifies s f d q) →
          (s.follower.state = .following ∨ s.follower.state = .holding) ∧ decidePresence s.follower f = true ∨
            s.follower.state = .following ∧ 0 < s.follower.graceParam ∨
            (∃ g, s.follower.state = .holding ∧ s.follower.grace = some g ∧ 1 < g) →
          t.round.state = .running r ∧ t.distance = s.distance) ∧
        (decidePresence s.follower f = false →
          (∃ g, s.follower.state = .holding ∧ s.follower.grace = some g ∧ g ≤ 1) ∨
            s.follower.state = .following ∧ s.follower.graceParam = 0 →
          t.distance = { s.distance with state := .none, lastWaitKind := .adm, lastWaitOutcome := .cancelled } ∧
          slotSearched r s t))

/-- R173, R161, R178 and R180: when a record leaves a full queue, a held request is taken in the freed place if no event record is
eligible; if one is, the place goes to the request or to the record of the source that the arbiter chooses, in either order. A
held RESTART that is taken empties the queue, and its reply is then the one record in it and the next to be sent. This holds for
every free value (log 10). That the place is given before STX begins its next frame, and that STX has begun the front record at
the end of the step, are the model's reading (log 12). -/
def Obligations.FreedPlaceIsGiven : Prop :=
  ∀ (service : Bool) (s : State) (tag : Half) (req : Request) (r : Record) (rest : List Record),
    s.conditionsTrue = true → s.station.tx = some .front → s.station.out = r :: rest → rest.length = 63 →
    s.station.slot = some (.named tag req) → s.station.rx = [] →
    ∃ t, exec (.stationRecordSent service) s = .next t ∧ t.station.tx = some .front ∧
      (req ≠ .restart → t.station.out.length = 64) ∧
      ((∀ src, s.events.eligible src = false) →
        ∃ res data, (req = .restart → res = .ok ∧ data = []) ∧ t.station.slot = none ∧
          t.station.out =
            (if req = .restart then [] else rest) ++
              [.reply { tag := tag, code := requestCode req, result := res, data := data }]) ∧
      ∀ src, chooseSource s.events = some src →
        (∃ res data, (req = .restart → res = .ok ∧ data = []) ∧ t.station.slot = none ∧
          t.station.out =
            (if req = .restart then [] else rest) ++
              [.reply { tag := tag, code := requestCode req, result := res, data := data }]) ∨
        (t.station.slot = s.station.slot ∧
          t.station.out =
            rest ++
              [.event
                { source := src
                  transition :=
                    if src.isLevel then (if (s.events.get src).effective then .asserted else .deasserted) else .latched
                  count := if src.isLevel then 0 else (s.events.get src).count
                  testMark := (s.events.get src).testMark
                  time := if src.isLevel then (s.events.get src).changeTime else (s.events.get src).latchTime }])

/-- R124 and R125: in TRIGGERED an edge of the selected polarity captures the local time and the latest timestamp, or 0, while
none is pending, and latches TRIGGER_LOST while one is; any other edge is ignored. -/
def Obligations.TriggerEdge : Prop :=
  ∀ (e : Edge) (s : State), ∃ t, exec (.trigEdge e) s = .next t ∧
    (e ≠ s.emitter.polarity → t = s) ∧
    ((∀ k, s.emitter.mode ≠ .triggered k) → t = s) ∧
    (e = s.emitter.polarity → s.emitter.mode = .triggered none →
      t.emitter =
        { s.emitter with
          mode := .triggered (some { timeMs := s.localTime, timestamp := s.emitter.latestTimestamp.getD 0 }) } ∧
      keepsOthers [.emitter] s t) ∧
    (∀ k, e = s.emitter.polarity → s.emitter.mode = .triggered (some k) →
      t.events.get .triggerLost = (s.events.get .triggerLost).occurred s.localTime ∧
      keepsOthers [.events] s t ∧ keepsSources [.triggerLost] s t)

/-- R179 and R180: a break restarts the part when the detector is armed, without a reply, and not again until SRX has returned
high. How the model holds the detector and the line is log 14. -/
def Obligations.LinkBreakRestarts : Prop :=
  (∀ s : State, s.station.breakArmed = true → ∃ t, exec .linkBreak s = .next t ∧
    restartedBlocks s t ∧ reevaluated s t ∧ t.service = s.service ∧
    t.station =
      { rx := [], slot := none, out := [], breakArmed := false, srxLow := true, frameErrors := 0, overruns := 0
        droppedPoints := 0, droppedStatus := 0
        tx :=
          match s.station.tx with
          | some .front => s.station.out.head?.map .discarded
          | some (.discarded r) => some (.discarded r)
          | none => none }) ∧
  (∀ s : State, s.station.breakArmed = false → ∃ t, exec .linkBreak s = .next t ∧
    t.station = { s.station with srxLow := true } ∧ keepsOthers [.station] s t) ∧
  ∀ s : State, ∃ t, exec .srxReturnsHigh s = .next t ∧
    t.station = { s.station with srxLow := false, breakArmed := true } ∧ keepsOthers [.station] s t

/-- R179 and R180: a RESTART taken at a ready port restarts the part, and its reply OK is the first record in the emptied queue; a
frame on STX is completed. That the request is taken in the step of its arrival, that the level of SERVICE is kept, and that the
arrival arms the break detector are the model's (logs 1, 2 and 14). -/
def Obligations.RestartRequest : Prop :=
  ∀ (q : Taking) (s : State), portReady s → ∃ t, exec (.restart q) s = .next t ∧
    restartedBlocks s t ∧ reevaluated s t ∧ t.service = q.service ∧
    t.station =
      { rx := [], slot := none, breakArmed := true, srxLow := false, frameErrors := 0, overruns := 0, droppedPoints := 0
        droppedStatus := 0
        out := [.reply { tag := q.tag, code := 0x24, result := .ok, data := [] }]
        tx :=
          match s.station.tx with
          | some .front => some ((s.station.out.head?.map .discarded).getD .front)
          | some (.discarded r) => some (.discarded r)
          | none => some .front }

/-! ### The time base -/

/-- R21, R51, R74, R121, R137, R142, R168 and R176: a tick that brings no timer to 0 advances the local time and the age of N and
lowers every running timer by one, and does nothing else but report REFRACTION_STALE; the row REFRACTION_STALE is the tick that
takes the age past 600,000 ms. That a row named after an expiry is the whole tick is the model's choice (log 4). -/
def Obligations.QuietTick : Prop :=
  (∀ s : State, (∀ e, expiryDue s e = false) → ∃ t, exec .timeBaseTick s = .next t ∧
    t.localTime = s.localTime + 1 ∧
    t.correction = { s.correction with age := min 4294967295 (s.correction.age + 1) } ∧
    t.head = { s.head with silenceTimer := s.head.silenceTimer - 1 } ∧
    (∀ o m, s.distance.state = .awaitAdm o m → t.distance = { s.distance with state := .awaitAdm o (m - 1) }) ∧
    (∀ o c m, s.distance.state = .awaitHome o c m → t.distance = { s.distance with state := .awaitHome o c (m - 1) }) ∧
    (s.distance.state.wait = none → t.distance = s.distance) ∧
    (∀ a, s.follower.aim = some a → t.follower = { s.follower with aim := some { a with timer := a.timer - 1 } }) ∧
    (s.follower.aim = none → t.follower = s.follower) ∧
    (∀ m, s.emitter.mode = .single m → t.emitter = { s.emitter with mode := .single { m with timer := m.timer - 1 } }) ∧
    (s.emitter.mode.isSingle = false → t.emitter = s.emitter) ∧
    (∀ r, s.round.state = .running r → t.round.state = .running { r with slotTimer := r.slotTimer - 1 }) ∧
    (s.round.state.isRunning = false → t.round.state = s.round.state) ∧
    t.round.periodTimer = (if s.round.period = 0 then s.round.periodTimer else s.round.periodTimer - 1) ∧
    t.round = { s.round with state := t.round.state, periodTimer := t.round.periodTimer } ∧
    (t.events.get .refractionStale).genuine = decide (600000 < t.correction.age) ∧
    keepsOthers [.localTime, .correction, .head, .distance, .follower, .emitter, .round, .events] s t ∧
    keepsSources [.refractionStale] s t) ∧
  ∀ s : State, s.correction.age = 600000 → (∀ e, expiryDue s e = false) → ∃ t, exec .refractionStale s = .next t ∧
    exec .timeBaseTick s = .next t ∧ t.correction = { s.correction with age := 600001 } ∧
    (t.events.get .refractionStale).genuine = true

/-- R168, R55, R80, R82, R106, R120 and R152: the tick that brings the silence timer to 0, and no other timer, asserts
HEAD_SILENT: a held distance is dropped with cause SILENCE, the follower goes to LOST from the four moving states, with its
acquisition count at 0 in LOST, a SINGLE is aborted, and a RUNNING round is aborted. In a RUNNING round the distance ends in
either order (log 9). A DUE round goes on waiting while the mode is not IDLE, and is otherwise started or abandoned in the same
handling (R140). That the row is the whole tick, and that what it does is dated at the local time after it, are the model's
choice (log 4). -/
def Obligations.HeadSilentTick : Prop :=
  ∀ s : State, onlyDue .silence s → ∃ t, exec .headSilent s = .next t ∧
    t.head.silenceTimer = 0 ∧ (t.events.get .headSilent).genuine = true ∧ t.localTime = s.localTime + 1 ∧
    (s.round.state = .idle →
      t.follower.followPending = false ∧
      t.follower.state = (if s.follower.state = .parked then .parked else .lost) ∧
      (s.follower.state ≠ .parked → t.follower.acqRun = 0) ∧
      (s.follower.state ≠ .parked → s.follower.state ≠ .lost → t.search.active = none ∧ t.follower.aim = none) ∧
      t.distance.state = .none ∧
      ((∃ d b c, s.distance.state = .established d b c) →
        t.distance = { s.distance with state := .none, lastLoss := .silence } ∧
        t.events.get .distanceLost = (s.events.get .distanceLost).occurred (s.localTime + 1)) ∧
      (s.emitter.mode.isSingle = true →
        t.emitter = { s.emitter with mode := .idle } ∧
        t.events.get .measureAborted = (s.events.get .measureAborted).occurred (s.localTime + 1))) ∧
    (s.round.state = .due → s.searchAgrees = true → t.search.active = none ∧ t.distance.state = .none ∧
      ((∃ d b c, s.distance.state = .established d b c) →
        t.distance = { s.distance with state := .none, lastLoss := .silence } ∧
        t.events.get .distanceLost = (s.events.get .distanceLost).occurred (s.localTime + 1)) ∧
      (s.emitter.mode.isSingle = true →
        t.emitter = { s.emitter with mode := .idle } ∧
        t.events.get .measureAborted = (s.events.get .measureAborted).occurred (s.localTime + 1)) ∧
      (s.emitter.mode ≠ .idle → s.emitter.mode.isSingle = false →
        t.round.state = .due ∧ t.follower.state = (if s.follower.state = .parked then .parked else .lost)) ∧
      (∀ x, s.emitter.mode = .idle ∨ s.emitter.mode.isSingle = true → roundCondition s = some x →
        t.round.state = .idle ∧ t.round.summary = .aborted x.abortReason ∧
        t.events.get .roundAborted = (s.events.get .roundAborted).occurred (s.localTime + 1) ∧
        t.follower.state = (if s.follower.state = .parked then .parked else .lost)) ∧
      (s.emitter.mode = .idle ∨ s.emitter.mode.isSingle = true → roundCondition s = none →
        t.round.state.isRunning = true ∧ t.follower.state = .aiming)) ∧
    (s.round.state.isRunning = true →
      t.follower.state = (if s.follower.state = .parked then .parked else .lost) ∧
      (s.follower.state ≠ .parked → t.follower.acqRun = 0) ∧ t.round.state = .idle ∧
      t.round.summary = .aborted .silent ∧ t.round.returnAngles = none ∧
      t.round.table = s.round.table ∧ t.round.roundNumber = s.round.roundNumber ∧ t.distance.state = .none ∧
      t.events.get .roundAborted = (s.events.get .roundAborted).occurred (s.localTime + 1))

/-- R51, R74 and R121: the expiries of the establish, aim and measure timers, each as the only timer that the tick brings to 0:
the establish timer with no RUNNING round, the aim timer with no round, and the measure timer with no DUE round; with a DUE round
the end of the aim or of the SINGLE lets it start, wait or be abandoned (R140). The expiries of a RUNNING round's wait and aim are
in the statement SlotEnds. That each row is the whole tick, and that what it does is dated at the local time after it, are the
model's choice (log 4). -/
def Obligations.TimerExpiries : Prop :=
  ∀ s : State,
    (s.round.state.isRunning = false → onlyDue .establish s →
      ∃ t, exec .establishTimerExpiry s = .next t ∧ t.localTime = s.localTime + 1 ∧
      t.distance.state = .none ∧ t.distance.lastWaitOutcome = .timedOut ∧
      t.distance.lastWaitKind = (s.distance.state.wait.map (·.1)).getD .adm ∧ t.distance.lastLoss = s.distance.lastLoss ∧
      t.events.get .admTimeout = (s.events.get .admTimeout).occurred (s.localTime + 1) ∧ t.round.state = s.round.state ∧
      keepsOthers [.localTime, .correction, .head, .distance, .follower, .emitter, .round, .events] s t ∧
      keepsSources [.refractionStale, .admTimeout] s t) ∧
    (s.round.state = .idle → onlyDue .aim s →
      ∃ t, exec .aimTimerExpiry s = .next t ∧ t.localTime = s.localTime + 1 ∧
      t.follower =
        { s.follower with state := .lost, grace := none, aim := none, arrivalRun := 0, acqRun := 0 } ∧
      (t.events.get .beamAbsent).genuine = true ∧
      t.events.get .aimTimeout = (s.events.get .aimTimeout).occurred (s.localTime + 1) ∧
      keepsOthers [.localTime, .correction, .head, .distance, .follower, .emitter, .round, .events] s t ∧
      keepsSources [.refractionStale, .aimTimeout, .beamAbsent] s t) ∧
    (s.round.state ≠ .due → onlyDue .measure s →
      ∃ t, exec .measureTimerExpiry s = .next t ∧ t.localTime = s.localTime + 1 ∧
      t.emitter = { s.emitter with mode := .idle } ∧
      t.events.get .measureTimeout = (s.events.get .measureTimeout).occurred (s.localTime + 1) ∧
      keepsOthers [.localTime, .correction, .head, .distance, .follower, .emitter, .round, .events] s t ∧
      keepsSources [.refractionStale, .measureTimeout] s t) ∧
    (s.round.state = .due → onlyDue .aim s →
      ∃ t, exec .aimTimerExpiry s = .next t ∧
      t.events.get .aimTimeout = (s.events.get .aimTimeout).occurred (s.localTime + 1) ∧
      (s.emitter.mode ≠ .idle ∨ s.search.active ≠ none → t.round.state = .due ∧ t.follower.state = .lost) ∧
      (∀ x, s.emitter.mode = .idle → s.search.active = none → roundCondition s = some x →
        t.round.state = .idle ∧ t.round.summary = .aborted x.abortReason ∧ t.follower.state = .lost) ∧
      (s.emitter.mode = .idle → s.search.active = none → roundCondition s = none →
        t.round.state.isRunning = true ∧ t.follower.state = .aiming)) ∧
    (s.round.state = .due → onlyDue .measure s →
      ∃ t, exec .measureTimerExpiry s = .next t ∧ t.emitter = { s.emitter with mode := .idle } ∧
      t.events.get .measureTimeout = (s.events.get .measureTimeout).occurred (s.localTime + 1) ∧
      (s.follower.state = .aiming ∨ s.search.active ≠ none → t.round.state = .due) ∧
      (∀ x, s.follower.state ≠ .aiming → s.search.active = none → roundCondition s = some x →
        t.round.state = .idle ∧ t.round.summary = .aborted x.abortReason) ∧
      (s.follower.state ≠ .aiming → s.search.active = none → roundCondition s = none →
        t.round.state.isRunning = true ∧ t.follower.state = .aiming))

/-- R142, R143 and R147 to R151: every way a slot of a RUNNING round ends with a result, and what follows: the distance is
released, and the next slot begins with a GOTO to its entry's aim angles, or all pending results are committed together with the
summary's counts and the return is made. The slot timer ends the slot in any phase, the aim timer in AIM, the establish timer
and DROP_DISTANCE in ADM; in AVERAGE each usable sample is added, the eighth gives the result with the mean, the deviation and
the new aim angles, and one without a distance, be it for its beam, for ifm_ok or for an implausible D_opt, ends the slot
NOT_FOUND. That each row named after a timer is the whole tick, and that what it does is dated at the local time after it, are
the model's choice (log 4). -/
def Obligations.SlotEnds : Prop :=
  (∀ (s : State) (r : RunningRound), s.round.state = .running r → onlyDue .slot s →
    ∃ t, exec .slotTimerExpiry s = .next t ∧ t.localTime = s.localTime + 1 ∧ t.distance.state = .none ∧
      slotEnds r .notFound none (s.localTime + 1) s t ∧
      (∀ e, r.slots[r.results.length + 1]? = some e →
        t.round.state =
          .running
            { r with
              results := r.results ++ [{ entry := r.current, result := .notFound, newAim := none }]
              current := e, phase := .aim, slotTimer := 10000, avgCount := 0, sums := ⟨0, 0, 0⟩ } ∧
        t.round.table = s.round.table ∧ t.follower.state = .aiming ∧
        t.follower.aim =
          some
            { az := s.round.table[e].aim.az, el := s.round.table[e].aim.el, thenAction := .hold, owner := .round
              timer := 3000 } ∧
        t.search.active = none ∧ t.head.tx = s.head.tx) ∧
      (r.slots[r.results.length + 1]? = none →
        t.round.state = .idle ∧ t.round.roundNumber = min 4294967295 (s.round.roundNumber + 1) ∧
        t.round.table[r.current].result = .notFound ∧
        t.round.table[r.current].resultRound = some (min 4294967295 (s.round.roundNumber + 1)) ∧
        t.round.table[r.current].aim = (commitResults 0 s.round.table r.results)[r.current].aim ∧
        t.events.get .roundDone = (s.events.get .roundDone).occurred (s.localTime + 1) ∧
        t.follower.state =
          (if s.round.returnOn = true ∧ s.round.returnAngles ≠ none then .aiming else .parked))) ∧
  (∀ (s : State) (r : RunningRound) (m : Nat), s.round.state = .running r → r.phase = .adm →
    s.distance.state = .awaitAdm .round m → onlyDue .establish s →
    ∃ t, exec .establishTimerExpiry s = .next t ∧ t.localTime = s.localTime + 1 ∧
      t.distance = { s.distance with state := .none, lastWaitKind := .adm, lastWaitOutcome := .timedOut } ∧
      t.events.get .admTimeout = (s.events.get .admTimeout).occurred (s.localTime + 1) ∧
      slotEnds r .notFound none (s.localTime + 1) s t) ∧
  (∀ (s : State) (r : RunningRound) (a : Aim), s.round.state = .running r → r.phase = .aim → s.follower.aim = some a →
    a.owner = .round → onlyDue .aim s →
    ∃ t, exec .aimTimerExpiry s = .next t ∧ t.localTime = s.localTime + 1 ∧
      t.events.get .aimTimeout = (s.events.get .aimTimeout).occurred (s.localTime + 1) ∧
      slotEnds r .notFound none (s.localTime + 1) s t) ∧
  (∀ (q : Taking) (s : State) (r : RunningRound) (m : Nat), portReady s → s.round.state = .running r → r.phase = .adm →
    s.distance.state = .awaitAdm .round m →
    ∃ t, exec (.dropDistance q) s = .next t ∧ answers q 0x0B .ok [⟨1, 1⟩] s t ∧
      t.distance = { s.distance with state := .none, lastWaitKind := .adm, lastWaitOutcome := .cancelled } ∧
      slotEnds r .notFound none s.localTime s t) ∧
  (∀ (s : State) (r : RunningRound) (f : Sample) (rest : List Sample) (src : DistanceSource) (d : CorrectedDistance)
      (flags : PointFlags) (sums : Triple),
    usableFront s f rest src d flags → s.round.state = .running r → r.phase = .average →
    sums = ⟨r.sums.c1 + d.at_.pos.c1, r.sums.c2 + d.at_.pos.c2, r.sums.c3 + d.at_.pos.c3⟩ →
    ∃ t, exec .takeSample s = .next t ∧
      (r.avgCount + 1 < 8 →
        t.round.state = .running { r with avgCount := r.avgCount + 1, sums := sums } ∧ t.distance = s.distance) ∧
      ∀ pos dev : Triple, 8 ≤ r.avgCount + 1 →
        pos = ⟨(2 * sums.c1 + 8) / 16, (2 * sums.c2 + 8) / 16, (2 * sums.c3 + 8) / 16⟩ →
        dev =
          ⟨pos.c1 - s.round.table[r.current].nominal.c1, pos.c2 - s.round.table[r.current].nominal.c2,
            pos.c3 - s.round.table[r.current].nominal.c3⟩ →
        (s.round.table[r.current].checkMode = .presence ∨
            nearPoint s.round.table[r.current].tolerance s.round.table[r.current].nominal pos →
          slotEnds r (.inTol ⟨pos, dev⟩)
            (some ⟨(stageA s.correction f).az, clamp (-720000) 960000 (stageA s.correction f).el⟩) s.localTime s t) ∧
        (s.round.table[r.current].checkMode = .position →
          ¬ nearPoint s.round.table[r.current].tolerance s.round.table[r.current].nominal pos →
          slotEnds r (.outTol ⟨pos, dev⟩)
            (some ⟨(stageA s.correction f).az, clamp (-720000) 960000 (stageA s.correction f).el⟩) s.localTime s t) ∧
        t.events.get .distanceLost = s.events.get .distanceLost) ∧
  ∀ (s : State) (r : RunningRound) (f : Sample) (rest : List Sample), s.head.rx = f :: rest → s.round.state = .running r →
    r.phase = .average → (∀ src d, ¬ handedDistance s f src d) →
    ∃ t, exec .takeSample s = .next t ∧ slotEnds r .notFound none s.localTime s t

/-- R139, R140 and R41: an expiry of the round period makes an IDLE round DUE while a busy condition holds, and starts or abandons
it otherwise; a DUE round starts or is abandoned in the same way as soon as none holds. The timer is reloaded. That the row
ROUND_PERIOD_EXPIRY is the whole tick, dated at the local time after it, is the model's choice (log 4), and that DUE_ROUND_START
is that examination alone is its reading (log 6). -/
def Obligations.RoundDueAndStart : Prop :=
  (∀ s : State, onlyDue .period s → ∃ t, exec .roundPeriodExpiry s = .next t ∧
    t.localTime = s.localTime + 1 ∧ t.round.periodTimer = s.round.period * 60000 ∧
    (s.round.state = .due → t.round.state = .due) ∧
    (s.round.state = .idle → roundBusy s = true →
      t.round.state = .due ∧ (t.events.get .roundDue).genuine = true) ∧
    (∀ x, s.round.state = .idle → roundBusy s = false → roundCondition s = some x →
      t.round.state = .idle ∧ t.round.summary = .aborted x.abortReason ∧
      t.events.get .roundAborted = (s.events.get .roundAborted).occurred (s.localTime + 1)) ∧
    (s.round.state = .idle → roundBusy s = false → roundCondition s = none →
      t.round.state.isRunning = true ∧ t.follower.state = .aiming ∧ t.distance.state = .none)) ∧
  ∀ s : State, ∃ t, exec .dueRoundStart s = .next t ∧
    (s.round.state ≠ .due ∨ roundBusy s = true → t = s) ∧
    (∀ x, s.round.state = .due → roundBusy s = false → roundCondition s = some x →
      t.round = { s.round with state := .idle, summary := .aborted x.abortReason } ∧
      (t.events.get .roundDue).genuine = false ∧
      t.events.get .roundAborted = (s.events.get .roundAborted).occurred s.localTime ∧
      keepsOthers [.round, .events] s t) ∧
    (s.round.state = .due → roundBusy s = false → roundCondition s = none →
      t.round.state.isRunning = true ∧ (t.events.get .roundDue).genuine = false ∧
      t.round.periodTimer = s.round.period * 60000 ∧ t.follower.state = .aiming ∧ t.distance.state = .none)

/-! ### The taking of a sample -/

/-- R61, R64, R3, R25, R125 and R140: every taken sample leaves the receive queue, gets a presence decision and sets the latest
timestamp; a PRESENT one gives the last-present angles; a bad one is counted and drops a held distance; one that is not bad
replaces the latest elevation pair. A DUE round is examined at the end of the handling (log 26), and goes on waiting while a busy
condition holds, is abandoned, or starts. -/
def Obligations.TakenSampleIsDecided : Prop :=
  ∀ (s : State) (f : Sample) (rest : List Sample), s.head.rx = f :: rest →
    ∃ t, exec .takeSample s = .next t ∧ t.head.rx = rest ∧ t.emitter.latestTimestamp = some f.timestamp ∧
      t.follower.present =
        (if badSample f then false
         else if s.follower.tOn ≤ f.intensity.toNat then true
         else if f.intensity.toNat < s.follower.tOff then false
         else s.follower.present) ∧
      (t.follower.present = true →
        t.follower.lastAngles = some { az := (stageA s.correction f).az, el := (stageA s.correction f).el }) ∧
      (t.follower.present = false → t.follower.lastAngles = s.follower.lastAngles) ∧
      (badSample f = true →
        t.correction = { s.correction with badSamples := min 65535 (s.correction.badSamples + 1) } ∧
        ((∃ d b c, s.distance.state = .established d b c) →
          t.distance.state = .none ∧ t.distance.lastLoss = .sample ∧ (t.events.get .distanceLost).latch = true)) ∧
      (badSample f = false →
        t.correction =
          { s.correction with cosEl := cosOf (stageA s.correction f).el, sinEl := sinOf (stageA s.correction f).el }) ∧
      (s.round.state = .due →
        (roundBusy t = true ∧ t.round = s.round) ∨
        (∃ x, roundCondition s = some x ∧ roundBusy t = false ∧
          t.round = { s.round with state := .idle, summary := .aborted x.abortReason } ∧
          t.events.get .roundAborted = (s.events.get .roundAborted).occurred s.localTime) ∨
        (roundCondition s = none ∧ t.emitter.mode = .idle ∧ t.search.active = none ∧ t.round.state.isRunning = true ∧
          t.follower.state = .aiming ∧ t.distance.state = .none))

/-- R6: the interpolated correction lies between its two entries and is an entry when the fraction is 0. -/
def Obligations.InterpolationLiesBetween : Prop :=
  ∀ (t : CompTable) (angle : Int), 0 ≤ angle → angle < 4320000 →
    ∃ i j : Fin 240, i.val = (angle / 18000).toNat ∧ j.val = (i.val + 1) % 240 ∧
      t.interpolate angle =
        t.entries[i] + ((t.entries[j] - t.entries[i]) * (angle % 18000) + 9000) / 18000 ∧
      min t.entries[i] t.entries[j] ≤ t.interpolate angle ∧ t.interpolate angle ≤ max t.entries[i] t.entries[j] ∧
      ((∀ k : Fin 240, -4000 ≤ t.entries[k] ∧ t.entries[k] ≤ 4000) →
        -4000 ≤ t.interpolate angle ∧ t.interpolate angle ≤ 4000 ∧
          -(8000 * 17999) ≤ (t.entries[j] - t.entries[i]) * (angle % 18000) ∧
          (t.entries[j] - t.entries[i]) * (angle % 18000) ≤ 8000 * 17999) ∧
      (angle % 18000 = 0 → t.interpolate angle = t.entries[i])

/-- R22, R24, R38 and R39: the three steps of refraction, the bounds that R22 gives for a plausible distance, and what stages C
and D form from the distance: the tracker coordinates, and with an active pose the block coordinates. -/
def Obligations.RefractionRemoved : Prop :=
  ∀ dOpt n : Int, 0 ≤ dOpt → dOpt ≤ 900000000 → 150000 ≤ n → n ≤ 400000 →
    ∃ corr dGeom d : Int, corr = (dOpt * n + 500000000) / 1000000000 ∧ dGeom = dOpt - corr ∧ d = (dGeom + 5) / 10 ∧
      geometricUm dOpt n = d ∧ dOpt * n ≤ 360000000000000 ∧ 0 ≤ dGeom ∧ 0 ≤ d ∧ d ≤ 90000000 ∧
      ∀ (s : State) (src : DistanceSource) (a : CorrectedAngles), s.correction.refraction = n →
        (correctDistance s src a dOpt).dOpt = dOpt ∧ (correctDistance s src a dOpt).dUm = d ∧
        ∀ x y z h : Int, h = (d * a.cosEl + 536870912) / 1073741824 → x = (h * a.cosAz + 536870912) / 1073741824 →
          y = (h * a.sinAz + 536870912) / 1073741824 → z = (d * a.sinEl + 536870912) / 1073741824 →
          (correctDistance s src a dOpt).tracker = ⟨x, y, z⟩ ∧
          (s.poses.active = none → (correctDistance s src a dOpt).at_ = ⟨.tracker, ⟨x, y, z⟩⟩) ∧
          ∀ (i : Fin 8) (p : PoseEntry), s.poses.active = some i → p = s.poses.entries[i] →
            (correctDistance s src a dOpt).at_ =
              ⟨.block i,
                ⟨(p.rot.row1.c1 * x + p.rot.row1.c2 * y + p.rot.row1.c3 * z + 536870912) / 1073741824 + p.trans.c1,
                  (p.rot.row2.c1 * x + p.rot.row2.c2 * y + p.rot.row2.c3 * z + 536870912) / 1073741824 + p.trans.c2,
                  (p.rot.row3.c1 * x + p.rot.row3.c2 * y + p.rot.row3.c3 * z + 536870912) / 1073741824 + p.trans.c3⟩⟩

/-- R85 to R88: a sample decided PRESENT in FOLLOWING, with no round, runs the loop on both axes from the latest elevation pair
of that sample, updates each integrator by its own rule, and writes its FOLLOW frame. -/
def Obligations.SteeringLoop : Prop :=
  ∀ (s : State) (f : Sample) (rest : List Sample), s.head.rx = f :: rest → s.follower.state = .following →
    s.follower.followPending = false → s.round.state = .idle → decidePresence s.follower f = true →
    ∀ eAz eEl pAz pEl dAz dEl rawAz rawEl : Int,
      eAz = clamp (-8000) 8000
        (clamp (-2000) 2000 f.psdX.toInt * 1073741824 / max (cosOf (stageA s.correction f).el) 268435456) →
      eEl = clamp (-2000) 2000 f.psdY.toInt →
      pAz = (s.follower.kpAz * eAz + 128) / 256 → dAz = (s.follower.kiAz * eAz + 128) / 256 →
      pEl = (s.follower.kpEl * eEl + 128) / 256 → dEl = (s.follower.kiEl * eEl + 128) / 256 →
      rawAz = pAz + s.follower.iAz + dAz → rawEl = pEl + s.follower.iEl + dEl →
      ∃ t, exec .takeSample s = .next t ∧ t.follower.state = .following ∧
        t.follower.iAz =
          (if (-32767 ≤ rawAz ∧ rawAz ≤ 32767) ∨ dAz * rawAz < 0 then clamp (-16384) 16384 (s.follower.iAz + dAz)
           else s.follower.iAz) ∧
        t.follower.iEl =
          (if (-32767 ≤ rawEl ∧ rawEl ≤ 32767) ∨ dEl * rawEl < 0 then clamp (-16384) 16384 (s.follower.iEl + dEl)
           else s.follower.iEl) ∧
        steerWritten
          (.follow (clamp (-32767) 32767 (pAz + t.follower.iAz)) (clamp (-32767) 32767 (pEl + t.follower.iEl))) s t

/-- R47, R48, R50, R53 and R54, with no round and in every state of the follower: a sample that meets every condition of its
wait sets the base, and one that fails any of them changes nothing in the distance unit; a held base is dropped on a sample with
ifm_ok clear or the beam absent, and on an implausible optical distance, and stays on any other. The one change that the
follower adds is the automatic wait of R45, where it enters FOLLOWING on a sample that leaves the distance NONE. -/
def Obligations.DistanceOnSample : Prop :=
  ∀ (s : State) (f : Sample) (rest : List Sample), s.head.rx = f :: rest → s.round.state = .idle →
    ∃ t, exec .takeSample s = .next t ∧
      (∀ o m d q, s.distance.state = .awaitAdm o m → admQualifies s f d q →
        t.distance =
          { s.distance with
            state := .established .adm d.toNat f.ifmCount, lastWaitKind := .adm, lastWaitOutcome := .established }) ∧
      (∀ o m, s.distance.state = .awaitAdm o m → (∀ d q, ¬ admQualifies s f d q) → t.distance = s.distance) ∧
      (∀ o c m, s.distance.state = .awaitHome o c m → homeQualifies s f → c ≤ 900000000 →
        t.distance =
          { s.distance with
            state := .established .home c f.ifmCount, lastWaitKind := .home, lastWaitOutcome := .established }) ∧
      (∀ o c m, s.distance.state = .awaitHome o c m → ¬ homeQualifies s f → t.distance = s.distance) ∧
      (∀ d b c, s.distance.state = .established d b c → f.ifmOk = false ∨ decidePresence s.follower f = false →
        droppedOn .sample s t ∧ t.events.get .distanceLost = (s.events.get .distanceLost).occurred s.localTime ∧
        t.events.get .distanceFault = s.events.get .distanceFault) ∧
      (∀ d b c, s.distance.state = .established d b c → f.ifmOk = true → decidePresence s.follower f = true →
        ((b : Int) + (f.ifmCount - c).toInt < 0 ∨ 900000000 < (b : Int) + (f.ifmCount - c).toInt) →
        droppedOn .fault s t ∧ t.events.get .distanceFault = (s.events.get .distanceFault).occurred s.localTime ∧
        t.events.get .distanceLost = (s.events.get .distanceLost).occurred s.localTime) ∧
      (∀ d b c, s.distance.state = .established d b c → f.ifmOk = true → decidePresence s.follower f = true →
        0 ≤ (b : Int) + (f.ifmCount - c).toInt → (b : Int) + (f.ifmCount - c).toInt ≤ 900000000 →
        t.distance = s.distance ∧ t.events.get .distanceLost = s.events.get .distanceLost)

/-- R111, R112, R122, R123, R126 to R129, R35, R36 and R177, with no round: what a sample does in each mode but SINGLE. A sample
with a distance that leaves the follower in FOLLOWING is usable, and the latest-point slot takes it in every mode. In IDLE no
point is made; in STREAM the sample that brings the count to m is emitted; in SPACED the sample is emitted when no anchor is
held, or the anchor is in another frame, or at least the gap away; in TRIGGERED the pending capture is emitted with it. The
point has the coordinates of stages A to D in the active frame and takes the next sequence number while fewer than 56 records
wait, and is dropped and counted otherwise. A sample that is not usable, having no distance or leaving the follower outside
FOLLOWING, makes no point and leaves the slot, the fresh mark and the mode's count, anchor and capture. In a RUNNING or DUE
round too a usable sample is written into the slot. The order inside the handling is the model's reading (log 26). That the
point is decided on the occupancy before the sample, and enters the queue before the event records that the same sample makes
pending, is the model's choice (log 32). -/
def Obligations.PointsEmitted : Prop :=
  (∀ (s : State) (f : Sample) (rest : List Sample) (src : DistanceSource) (d : CorrectedDistance) (flags : PointFlags),
    measuredFront s f rest src d flags → s.round.state = .idle → s.emitter.mode.isSingle = false →
    ∃ t, exec .takeSample s = .next t ∧
      (usableFront s f rest src d flags → t.follower.state = .following ∧ t.distance = s.distance) ∧
      (t.follower.state ≠ .following →
        t.emitter = { s.emitter with latestTimestamp := some f.timestamp } ∧ noPoint s t) ∧
      (t.follower.state = .following →
        t.emitter.fresh = true ∧
        t.emitter.latest = some { seq := f.seq, timestamp := f.timestamp, at_ := d.at_, flags := flags, source := src } ∧
        t.emitter.latestTimestamp = some f.timestamp ∧
        d.at_ =
          (match s.poses.active with
            | some i => ⟨.block i, stageD s.poses.entries[i] d.tracker⟩
            | none => ⟨.tracker, d.tracker⟩) ∧
        (s.emitter.mode = .idle → t.emitter.mode = .idle ∧ noPoint s t) ∧
        (∀ m count, s.emitter.mode = .stream m count →
          (m ≤ count + 1 → t.emitter.mode = .stream m 0 ∧
            pointOffered
              { sequence := 0, timestamp := f.timestamp, kind := .stream, at_ := d.at_, flags := flags, source := src
                samples := 1 }
              s t) ∧
          (count + 1 < m → t.emitter.mode = .stream m (count + 1) ∧ noPoint s t)) ∧
        (∀ (gap : Nat) anchor (far : Prop), s.emitter.mode = .spaced gap anchor →
          (far ↔ ∀ a, anchor = some a → a.frame = d.at_.frame →
            (gap : Int) * gap ≤
              (d.at_.pos.c1 - a.pos.c1) * (d.at_.pos.c1 - a.pos.c1) + (d.at_.pos.c2 - a.pos.c2) * (d.at_.pos.c2 - a.pos.c2) +
                (d.at_.pos.c3 - a.pos.c3) * (d.at_.pos.c3 - a.pos.c3)) →
          (far → t.emitter.mode = .spaced gap (some d.at_) ∧
            pointOffered
              { sequence := 0, timestamp := f.timestamp, kind := .spaced, at_ := d.at_, flags := flags, source := src
                samples := 1 }
              s t) ∧
          (¬ far → t.emitter.mode = .spaced gap anchor ∧ noPoint s t)) ∧
        (s.emitter.mode = .triggered none → t.emitter.mode = .triggered none ∧ noPoint s t) ∧
        ∀ k, s.emitter.mode = .triggered (some k) → t.emitter.mode = .triggered none ∧
          pointOffered
            { sequence := 0, timestamp := f.timestamp, kind := .triggered k.timeMs k.timestamp, at_ := d.at_, flags := flags
              source := src, samples := 1 }
            s t)) ∧
  (∀ (s : State) (f : Sample) (rest : List Sample), s.head.rx = f :: rest → s.round.state = .idle →
    s.emitter.mode.isSingle = false → (∀ src d, ¬ handedDistance s f src d) →
    ∃ t, exec .takeSample s = .next t ∧ t.emitter = { s.emitter with latestTimestamp := some f.timestamp } ∧ noPoint s t) ∧
  ∀ (s : State) (f : Sample) (rest : List Sample) (src : DistanceSource) (d : CorrectedDistance) (flags : PointFlags),
    usableFront s f rest src d flags →
    ∃ t, exec .takeSample s = .next t ∧ t.emitter.fresh = true ∧ t.emitter.latestTimestamp = some f.timestamp ∧
      t.emitter.latest = some { seq := f.seq, timestamp := f.timestamp, at_ := d.at_, flags := flags, source := src }

/-- R75 to R77, R99, R101 and R104, with no round: the sample on which the grace expires sends the follower to LOST with HOLD when
its auto-search descriptor is NONE or DISABLED, and starts the search of a READY one with its first step's frame; a STREAM search
takes the front step of the ring, or ends STARVED on an empty one. That GRACE_EXPIRY is the taking of that sample is the model's
reading (log 5), and the centre (0, 0) with no last-present angles is its choice (log 24). -/
def Obligations.GraceExpires : Prop :=
  ∀ (s : State) (f : Sample) (rest : List Sample) (g : Nat), s.head.rx = f :: rest → s.round.state = .idle →
    s.follower.state = .holding → s.follower.followPending = false → s.follower.grace = some g → g ≤ 1 →
    decidePresence s.follower f = false →
    ∃ t, exec .graceExpiry s = .next t ∧ exec .takeSample s = .next t ∧ t.head.rx = rest ∧
      (t.events.get .beamAbsent).genuine = true ∧ t.follower.grace = none ∧ t.follower.lastAngles = s.follower.lastAngles ∧
      autoSearched (s.follower.lastAngles.getD ⟨0, 0⟩) s t ∧
      ((s.follower.autoSearch = none ∨ ∃ i, s.follower.autoSearch = some i ∧ s.search.descriptors[i].ready = false) →
        t.follower.state = .lost ∧ t.search = s.search ∧ steerWritten .hold s t) ∧
      (∀ i st, s.follower.autoSearch = some i → s.search.descriptors[i].ready = true →
        s.search.descriptors[i].mode = .block → s.search.store[s.search.descriptors[i].start]? = some st →
        t.follower.state = .searching ∧ t.follower.acqRun = 0 ∧
        ∃ target : Angles,
          target.az = ((s.follower.lastAngles.getD ⟨0, 0⟩).az + st.dAz) % 4320000 ∧
          target.el = clamp (-720000) 960000 ((s.follower.lastAngles.getD ⟨0, 0⟩).el + st.dEl) ∧
          t.search.active =
            some
              { descriptor := i
                play := .block s.search.descriptors[i].start s.search.descriptors[i].repeats
                centre := s.follower.lastAngles.getD ⟨0, 0⟩, target := target, dwell := st.dwell, owner := .follower } ∧
          steerWritten (.position target.az target.el) s t) ∧
      (∀ i, s.follower.autoSearch = some i → s.search.descriptors[i].ready = true →
        s.search.descriptors[i].mode = .stream → s.search.ringFill = 0 →
        t.follower.state = .lost ∧ t.search.active = none ∧ steerWritten .hold s t ∧
        t.events.get .searchStarved = (s.events.get .searchStarved).occurred s.localTime)

/-- R102 to R104, R78 and R79, with no round: the sample that brings the dwell to 0 without acquiring the beam counts acquisition
and takes the next step of the pass, the first step of the next pass, or the front step of the ring, and writes its frame; with
nothing left the search ends and the follower is LOST. That DWELL_EXPIRY is the taking of that sample is the model's reading (log
5). -/
def Obligations.DwellExpires : Prop :=
  ∀ (s : State) (f : Sample) (rest : List Sample) (a : ActiveSearch), s.head.rx = f :: rest → s.round.state = .idle →
    s.follower.state = .searching → s.follower.followPending = false → s.search.active = some a → a.dwell ≤ 1 →
    decidePresence s.follower f = false ∨ s.follower.acqRun < 2 →
    ∃ t, exec .dwellExpiry s = .next t ∧ exec .takeSample s = .next t ∧ t.head.rx = rest ∧
      (t.follower.state = .searching →
        t.follower.acqRun = (if decidePresence s.follower f then s.follower.acqRun + 1 else 0)) ∧
      (∀ pos rep next st, a.play = .block pos rep →
        (pos + 1 < s.search.descriptors[a.descriptor].start + s.search.descriptors[a.descriptor].length ∧ next = pos + 1 ∨
          s.search.descriptors[a.descriptor].start + s.search.descriptors[a.descriptor].length ≤ pos + 1 ∧ 0 < rep ∧
            next = s.search.descriptors[a.descriptor].start) →
        s.search.store[next]? = some st →
        t.follower.state = .searching ∧
        t.search.active =
          some
            { a with
              play := .block next
                (if pos + 1 < s.search.descriptors[a.descriptor].start + s.search.descriptors[a.descriptor].length then rep
                 else rep - 1)
              target := stepTarget a.centre st, dwell := st.dwell } ∧
        steerWritten (.position (stepTarget a.centre st).az (stepTarget a.centre st).el) s t) ∧
      (∀ pos, a.play = .block pos 0 →
        s.search.descriptors[a.descriptor].start + s.search.descriptors[a.descriptor].length ≤ pos + 1 →
        t.follower.state = .lost ∧ t.search.active = none ∧ steerWritten .hold s t ∧
        t.events.get .searchExhausted = (s.events.get .searchExhausted).occurred s.localTime) ∧
      (∀ st, a.play = .stream → 0 < s.search.ringFill → s.search.store[384 + s.search.ringRead]? = some st →
        t.follower.state = .searching ∧ t.search.ringRead = (s.search.ringRead + 1) % 128 ∧
        t.search.ringFill = s.search.ringFill - 1 ∧
        t.search.active = some { a with target := stepTarget a.centre st, dwell := st.dwell } ∧
        steerWritten (.position (stepTarget a.centre st).az (stepTarget a.centre st).el) s t) ∧
      (a.play = .stream → s.search.ringFill = 0 →
        t.follower.state = .lost ∧ t.search.active = none ∧ steerWritten .hold s t ∧
        t.events.get .searchStarved = (s.events.get .searchStarved).occurred s.localTime)

/-! ### Requests: correction unit and parameters -/

/-- R11 and R10: a begin with service authority makes the table LOADING with every entry 0 and an empty set, whatever its state,
and leaves the other table alone; the UNCOMPENSATED condition is true. -/
def Obligations.LoadCompBegin : Prop :=
  ∀ (q : Taking) (table : Byte) (s : State), portReady s → ∃ t, exec (.loadCompBegin q table) s = .next t ∧
    (q.service = false → ∃ data, answers q 0x01 (.refused .authority) data s t ∧ t.correction = s.correction) ∧
    (q.service = true → axisOf table = none → refuses q 0x01 .range s t) ∧
    (∀ a, q.service = true → axisOf table = some a →
      acceptsWithin q 0x01 .ok [⟨1, 1⟩, ⟨1, 0⟩] [.correction] [.uncompensated] s t ∧
      t.correction =
        s.correction.setTable a
          { load := .loading, entries := Vector.replicate 240 0, written := Vector.replicate 240 false } ∧
      (t.events.get .uncompensated).genuine = true ∧ ∀ angle, (t.correction.table a).supply angle = 0)

/-- R12 and R10: a valid run is written whole into a LOADING table and its indices join the set; a run that fails a check writes
nothing. -/
def Obligations.LoadCompData : Prop :=
  ∀ (q : Taking) (table start : Byte) (entries : List Half) (s : State) (a : Axis), portReady s → axisOf table = some a →
    ∃ t, exec (.loadCompData q table start entries) s = .next t ∧
      keepsOthers [.station, .service, .events, .correction] s t ∧ keepsSources [.queueCongested] s t ∧
      (q.service = false →
        answers q 0x02 (.refused .authority) (s.correction.table a).data s t ∧ t.correction = s.correction) ∧
      (q.service = true → (s.correction.table a).load ≠ .loading →
        answers q 0x02 (.refused .state) (s.correction.table a).data s t ∧ t.correction = s.correction) ∧
      (q.service = true → (s.correction.table a).load = .loading →
        (entries = [] ∨ 30 < entries.length ∨ 240 < start.toNat + entries.length ∨
          ∃ e ∈ entries, e.toInt < -4000 ∨ 4000 < e.toInt) →
        answers q 0x02 (.refused .range) (s.correction.table a).data s t ∧ t.correction = s.correction) ∧
      (q.service = true → (s.correction.table a).load = .loading → entries ≠ [] → entries.length ≤ 30 →
        start.toNat + entries.length ≤ 240 → (∀ e ∈ entries, -4000 ≤ e.toInt ∧ e.toInt ≤ 4000) →
        answers q 0x02 .ok (t.correction.table a).data s t ∧ (t.correction.table a).load = .loading ∧
        (∀ angle, (t.correction.table a).supply angle = 0) ∧
        (∀ b, b ≠ a → t.correction.table b = s.correction.table b) ∧
        ∀ i : Fin 240,
          (t.correction.table a).entries[i] =
            (if start.toNat ≤ i.val then ((entries[i.val - start.toNat]?).map (·.toInt)).getD (s.correction.table a).entries[i]
             else (s.correction.table a).entries[i]) ∧
          (t.correction.table a).written[i] =
            ((decide (start.toNat ≤ i.val) && decide (i.val < start.toNat + entries.length)) ||
              (s.correction.table a).written[i]))

/-- R13: an end with count 240 and a complete set makes the table LOADED with its entries; any other end makes it EMPTY and is
refused INCOMPLETE. -/
def Obligations.LoadCompEnd : Prop :=
  ∀ (q : Taking) (table count : Byte) (s : State) (a : Axis), portReady s → axisOf table = some a →
    ∃ t, exec (.loadCompEnd q table count) s = .next t ∧
      keepsOthers [.station, .service, .events, .correction] s t ∧ keepsSources [.queueCongested, .uncompensated] s t ∧
      (q.service = false →
        answers q 0x03 (.refused .authority) (s.correction.table a).data s t ∧ t.correction = s.correction) ∧
      (q.service = true → (s.correction.table a).load ≠ .loading →
        answers q 0x03 (.refused .state) (s.correction.table a).data s t ∧ t.correction = s.correction) ∧
      (q.service = true → (s.correction.table a).load = .loading → count = 240 → (s.correction.table a).writtenCount = 240 →
        answers q 0x03 .ok [⟨1, 2⟩, ⟨1, 240⟩] s t ∧
        t.correction = s.correction.setTable a { s.correction.table a with load := .loaded }) ∧
      (q.service = true → (s.correction.table a).load = .loading →
        (count ≠ 240 ∨ (s.correction.table a).writtenCount ≠ 240) →
        answers q 0x03 (.refused .incomplete) [⟨1, 0⟩, ⟨1, 0⟩] s t ∧
        t.correction =
          s.correction.setTable a
            { load := .empty, entries := Vector.replicate 240 0, written := Vector.replicate 240 false })

/-- R20 and R160: SET_REFRACTION and SET_FLOOR clamp and store any value, with either level of SERVICE; the reply carries the
value stored and is OK_CLAMPED exactly when it differs; the age of N restarts at 0. That the reply enters the queue before the
event records that the lowered floor uncovers is the model's choice (log 32). -/
def Obligations.ClampedSettings : Prop :=
  (∀ (q : Taking) (n : Word) (s : State), portReady s → ∃ t, exec (.setRefraction q n) s = .next t ∧
    acceptsWithin q 0x04 (if 150000 ≤ n.toInt ∧ n.toInt ≤ 400000 then .ok else .okClamped)
      [⟨4, max 150000 (min 400000 n.toInt)⟩] [.correction] [.refractionStale] s t ∧
    t.correction = { s.correction with refraction := max 150000 (min 400000 n.toInt), age := 0 } ∧
    (t.events.get .refractionStale).genuine = false) ∧
  ∀ (q : Taking) (f : Word) (s : State), portReady s → ∃ t, exec (.setFloor q f) s = .next t ∧
    answers q 0x21 (if 0 ≤ f.toInt ∧ f.toInt ≤ 14 then .ok else .okClamped) [⟨4, max 0 (min 14 f.toInt)⟩] s t ∧
    (t.events.floor : Int) = max 0 (min 14 f.toInt) ∧ keepsOthers [.station, .service, .events] s t ∧
    ∀ src, src ≠ .queueCongested → t.events.get src = s.events.get src

/-- R175, R59, R62, R84, R107, R124 and R137: each parameter stores its value: a numeric one clamped to its range, an enumerated
one only inside its set; T_off is kept at least 20 below T_on; the period loads its timer; the home distance needs authority; an
id that names no parameter is refused RANGE. -/
def Obligations.SetParam : Prop :=
  ∀ (q : Taking) (id : Byte) (v : Word) (s : State), portReady s → ∃ t, exec (.setParam q id v) s = .next t ∧
    (15 ≤ id.toNat → refuses q 0x22 .range s t) ∧
    (id = 0 → acceptsWithin q 0x22 (if 0 ≤ v.toInt ∧ v.toInt ≤ 255 then .ok else .okClamped)
      [⟨1, 0⟩, ⟨4, max 0 (min 255 v.toInt)⟩] [.distance] [] s t ∧
      t.distance = { s.distance with admQualityMin := (max 0 (min 255 v.toInt)).toNat }) ∧
    (id = 1 → q.service = false → refuses q 0x22 .authority s t) ∧
    (id = 1 → q.service = true →
      acceptsWithin q 0x22 (if 0 ≤ v.toInt ∧ v.toInt ≤ 10000000 then .ok else .okClamped)
        [⟨1, 1⟩, ⟨4, max 0 (min 10000000 v.toInt)⟩] [.distance] [] s t ∧
      t.distance = { s.distance with homeDistance := (max 0 (min 10000000 v.toInt)).toNat }) ∧
    (id = 2 → v.toInt ≠ 0 → v.toInt ≠ 1 → refuses q 0x22 .range s t) ∧
    (id = 2 → (v = 0 ∨ v = 1) → acceptsWithin q 0x22 .ok [⟨1, 2⟩, ⟨4, v.toInt⟩] [.distance] [] s t ∧
      t.distance = { s.distance with autoAdm := decide (v = 1) }) ∧
    (id = 3 → acceptsWithin q 0x22 (if 0 ≤ v.toInt ∧ v.toInt ≤ 4095 then .ok else .okClamped)
      [⟨1, 3⟩, ⟨4, max 0 (min 4095 v.toInt)⟩] [.follower] [] s t ∧
      t.follower = { s.follower with kpAz := max 0 (min 4095 v.toInt) }) ∧
    (id = 4 → acceptsWithin q 0x22 (if 0 ≤ v.toInt ∧ v.toInt ≤ 4095 then .ok else .okClamped)
      [⟨1, 4⟩, ⟨4, max 0 (min 4095 v.toInt)⟩] [.follower] [] s t ∧
      t.follower = { s.follower with kpEl := max 0 (min 4095 v.toInt) }) ∧
    (id = 5 → acceptsWithin q 0x22 (if 0 ≤ v.toInt ∧ v.toInt ≤ 1023 then .ok else .okClamped)
      [⟨1, 5⟩, ⟨4, max 0 (min 1023 v.toInt)⟩] [.follower] [] s t ∧
      t.follower = { s.follower with kiAz := max 0 (min 1023 v.toInt) }) ∧
    (id = 6 → acceptsWithin q 0x22 (if 0 ≤ v.toInt ∧ v.toInt ≤ 1023 then .ok else .okClamped)
      [⟨1, 6⟩, ⟨4, max 0 (min 1023 v.toInt)⟩] [.follower] [] s t ∧
      t.follower = { s.follower with kiEl := max 0 (min 1023 v.toInt) }) ∧
    (∀ on off : Nat, id = 7 → on = (max 50 (min 4095 v.toInt)).toNat → off = min s.follower.tOff (on - 20) →
      acceptsWithin q 0x22
        (if 50 ≤ v.toInt ∧ v.toInt ≤ 4095 ∧ s.follower.tOff + 20 ≤ on then .ok else .okClamped)
        [⟨1, 7⟩, ⟨4, on⟩, ⟨4, off⟩] [.follower] [] s t ∧
      t.follower = { s.follower with tOn := on, tOff := off }) ∧
    (∀ off : Nat, id = 8 → off = min (max 20 (min 4095 v.toInt)).toNat (s.follower.tOn - 20) → 50 ≤ s.follower.tOn →
      acceptsWithin q 0x22 (if v.toInt = off then .ok else .okClamped) [⟨1, 8⟩, ⟨4, s.follower.tOn⟩, ⟨4, off⟩] [.follower] []
        s t ∧
      t.follower = { s.follower with tOff := off }) ∧
    (id = 9 → acceptsWithin q 0x22 (if 0 ≤ v.toInt ∧ v.toInt ≤ 255 then .ok else .okClamped)
      [⟨1, 9⟩, ⟨4, max 0 (min 255 v.toInt)⟩] [.follower] [] s t ∧
      t.follower = { s.follower with graceParam := (max 0 (min 255 v.toInt)).toNat }) ∧
    (id = 10 → v.toInt < 0 ∨ (8 ≤ v.toInt ∧ v.toInt ≠ 255) → refuses q 0x22 .range s t) ∧
    (∀ o, id = 10 → (v.toInt = 255 ∧ o = none ∨ ∃ i : Fin 8, v.toInt = i.val ∧ o = some i) →
      acceptsWithin q 0x22 .ok [⟨1, 10⟩, ⟨4, v.toInt⟩] [.follower] [] s t ∧
      t.follower = { s.follower with autoSearch := o }) ∧
    (id = 11 → acceptsWithin q 0x22 (if 0 ≤ v.toInt ∧ v.toInt ≤ 64 then .ok else .okClamped)
      [⟨1, 11⟩, ⟨4, max 0 (min 64 v.toInt)⟩] [.search] [.patternLow] s t ∧
      t.search = { s.search with margin := (max 0 (min 64 v.toInt)).toNat } ∧
      (t.events.get .patternLow).genuine = genuineOf t .patternLow) ∧
    (id = 12 ∨ id = 14 → v.toInt ≠ 0 → v.toInt ≠ 1 → refuses q 0x22 .range s t) ∧
    (id = 12 → v = 0 ∨ v = 1 → acceptsWithin q 0x22 .ok [⟨1, 12⟩, ⟨4, v.toInt⟩] [.emitter] [] s t ∧
      t.emitter = { s.emitter with polarity := if v = 0 then .rising else .falling }) ∧
    (id = 13 → acceptsWithin q 0x22 (if 0 ≤ v.toInt ∧ v.toInt ≤ 240 then .ok else .okClamped)
      [⟨1, 13⟩, ⟨4, max 0 (min 240 v.toInt)⟩] [.round] [] s t ∧
      t.round =
        { s.round with
          period := (max 0 (min 240 v.toInt)).toNat, periodTimer := (max 0 (min 240 v.toInt)).toNat * 60000 }) ∧
    (id = 14 → v = 0 ∨ v = 1 → acceptsWithin q 0x22 .ok [⟨1, 14⟩, ⟨4, v.toInt⟩] [.round] [] s t ∧
      t.round = { s.round with returnOn := decide (v = 1) })

/-! ### Requests: poses and reads -/

/-- R28 to R31: a WRITE_POSE is checked in order, and a pose that passes becomes VALID with all its values and one more in its
write count; a pose that fails is refused with the first failed check of R31. The data of that refusal, the check and its row,
pair or component, with 0 in that place for DETERMINANT, are the model's reading (log 17). -/
def Obligations.WritePose : Prop :=
  (∀ (m : Rotation) (t : Triple), poseFault m t = ((poseChecks m t).find? fun c => !c.2).map (·.1)) ∧
  ∀ (q : Taking) (index : Byte) (p : PoseField) (label : Half) (s : State), portReady s →
    ∃ t, exec (.writePose q index p label) s = .next t ∧
      (8 ≤ index.toNat → refuses q 0x05 .range s t) ∧
      (∀ i : Fin 8, index.toNat = i.val → s.poses.active = some i → refuses q 0x05 .poseActive s t) ∧
      (∀ (i : Fin 8) (x : PoseFault), index.toNat = i.val → s.poses.active ≠ some i →
        poseFault (poseRot p) (poseTrans p) = some x →
        answers q 0x05 (.refused .poseInvalid) x.data s t ∧ keepsOthers [.station, .service, .events] s t) ∧
      (∀ i : Fin 8, index.toNat = i.val → s.poses.active ≠ some i → poseFault (poseRot p) (poseTrans p) = none →
        acceptsWithin q 0x05 .ok [⟨1, i.val⟩, ⟨1, 1⟩, ⟨2, min 65535 (s.poses.entries[i].writeCount + 1) ⟩] [.poses] [] s t ∧
        t.poses.active = s.poses.active ∧
        t.poses.entries[i] =
          { state := .valid, rot := poseRot p, trans := poseTrans p, label := label
            writeCount := min 65535 (s.poses.entries[i].writeCount + 1) } ∧
        ∀ j : Fin 8, j ≠ i → t.poses.entries[j] = s.poses.entries[j])

/-- R32 and R34 to R36: CLEAR_POSE empties an entry that is not active and keeps its label and write count; SELECT_POSE sets the
active index to a VALID entry or NONE, replies with it and its label and write count, and clears the emitter's spacing anchor; the
refusals come in their order. From then on distances are given in the frame of the active pose, and a usable sample that finds no
anchor, or one in another frame, is emitted and becomes the anchor. That the reply to NONE sends label and write count as 0, in
the layout that R184 leaves it, is the model's choice (log 29), and so is that a point is decided on the occupancy before its
sample and enters the queue before the event records that the same sample makes pending (log 32). -/
def Obligations.ClearAndSelectPose : Prop :=
  (∀ (q : Taking) (index : Byte) (s : State), portReady s → ∃ t, exec (.clearPose q index) s = .next t ∧
    (8 ≤ index.toNat → refuses q 0x06 .range s t) ∧
    (∀ i : Fin 8, index.toNat = i.val → s.poses.active = some i → refuses q 0x06 .poseActive s t) ∧
    (∀ i : Fin 8, index.toNat = i.val → s.poses.active ≠ some i →
      acceptsWithin q 0x06 .ok [⟨1, i.val⟩, ⟨1, 0⟩, ⟨2, s.poses.entries[i].writeCount⟩] [.poses] [] s t ∧
      t.poses.active = s.poses.active ∧
      t.poses.entries[i] =
        { s.poses.entries[i] with
          state := .empty, rot := ⟨⟨0, 0, 0⟩, ⟨0, 0, 0⟩, ⟨0, 0, 0⟩⟩, trans := ⟨0, 0, 0⟩ } ∧
      ∀ j : Fin 8, j ≠ i → t.poses.entries[j] = s.poses.entries[j])) ∧
  (∀ (q : Taking) (index : Byte) (s : State), portReady s → ∃ t, exec (.selectPose q index) s = .next t ∧
    (8 ≤ index.toNat → index.toNat ≠ 255 → refuses q 0x08 .range s t) ∧
    (∀ o : Option (Fin 8), index8OrNone index = some o → s.emitter.mode.isSingle = true ∨ s.round.state.isRunning = true →
      refuses q 0x08 .busy s t) ∧
    (∀ i : Fin 8, index.toNat = i.val → s.emitter.mode.isSingle = false → s.round.state.isRunning = false →
      s.poses.entries[i].state = .empty → refuses q 0x08 .state s t) ∧
    (∀ i : Fin 8, index.toNat = i.val → s.emitter.mode.isSingle = false → s.round.state.isRunning = false →
      s.poses.entries[i].state = .valid →
      acceptsWithin q 0x08 .ok
        [⟨1, i.val⟩, ⟨2, s.poses.entries[i].label.toNat⟩, ⟨2, s.poses.entries[i].writeCount⟩] [.poses, .emitter] [] s t ∧
      t.poses = { s.poses with active := some i } ∧
      (∀ src a dOpt, (correctDistance t src a dOpt).at_ =
        ⟨.block i, stageD s.poses.entries[i] (correctDistance s src a dOpt).tracker⟩) ∧
      (∀ g x, s.emitter.mode = .spaced g x → t.emitter = { s.emitter with mode := .spaced g none }) ∧
      ((∀ g x, s.emitter.mode ≠ .spaced g x) → t.emitter = s.emitter)) ∧
    (index.toNat = 255 → s.emitter.mode.isSingle = false → s.round.state.isRunning = false →
      acceptsWithin q 0x08 .ok [⟨1, 255⟩, ⟨2, 0⟩, ⟨2, 0⟩] [.poses, .emitter] [] s t ∧
      t.poses = { s.poses with active := none } ∧
      (∀ src a dOpt, (correctDistance t src a dOpt).at_ = ⟨.tracker, (correctDistance s src a dOpt).tracker⟩) ∧
      (∀ g x, s.emitter.mode = .spaced g x → t.emitter = { s.emitter with mode := .spaced g none }) ∧
      ((∀ g x, s.emitter.mode ≠ .spaced g x) → t.emitter = s.emitter))) ∧
  ∀ (s : State) (f : Sample) (rest : List Sample) (src : DistanceSource) (d : CorrectedDistance) (flags : PointFlags) (gap : Nat),
    usableFront s f rest src d flags → s.round.state.isRunning = false →
    s.emitter.mode = .spaced gap none ∨ (∃ a, s.emitter.mode = .spaced gap (some a) ∧ a.frame ≠ d.at_.frame) →
    ∃ t, exec .takeSample s = .next t ∧ t.emitter.mode = .spaced gap (some d.at_) ∧
      pointOffered
        { sequence := 0, timestamp := f.timestamp, kind := .spaced, at_ := d.at_, flags := flags, source := src, samples := 1 }
        s t

/-- R33, R95, R134 and R176: the reading requests reply OK with what is held, refuse an index, run or section outside its list
RANGE, and change nothing in any block. READ_STATUS replies with the data of its section as they stand, SERVICE at the level of
the taking, in a payload that a frame can carry; the layout of the sections is the model's choice where the rules leave it (log
16), and so is that READ_FIDUCIAL sends an absent measured, deviation or result round as 0 in its place (log 31). -/
def Obligations.ReadsChangeNothing : Prop :=
  ∀ (q : Taking) (s : State), portReady s →
    (∀ index : Byte, ∃ t, exec (.readPose q index) s = .next t ∧
      (8 ≤ index.toNat → refuses q 0x07 .range s t) ∧
      ∀ i : Fin 8, index.toNat = i.val →
        acceptsWithin q 0x07 .ok
          ([⟨1, s.poses.entries[i].state.code⟩] ++ s.poses.entries[i].rot.row1.data ++ s.poses.entries[i].rot.row2.data ++
            s.poses.entries[i].rot.row3.data ++ s.poses.entries[i].trans.data ++
            [⟨2, s.poses.entries[i].label.toNat⟩, ⟨2, s.poses.entries[i].writeCount⟩,
              ⟨1, if s.poses.active = some i then 1 else 0⟩])
          [] [] s t) ∧
    (∀ index : Byte, ∃ t, exec (.readSearch q index) s = .next t ∧
      (8 ≤ index.toNat → refuses q 0x13 .range s t) ∧
      ∀ i : Fin 8, index.toNat = i.val →
        acceptsWithin q 0x13 .ok
          (s.search.descriptors[i].data ++
            [⟨1, if s.search.plays i then 1 else 0⟩, ⟨1, if s.follower.autoSearch = some i then 1 else 0⟩])
          [] [] s t) ∧
    (∀ (start : Half) (count : Byte), ∃ t, exec (.readSteps q start count) s = .next t ∧
      (count.toNat = 0 ∨ 16 < count.toNat ∨ 512 < start.toNat + count.toNat → refuses q 0x14 .range s t) ∧
      (1 ≤ count.toNat → count.toNat ≤ 16 → start.toNat + count.toNat ≤ 512 →
        acceptsWithin q 0x14 .ok (s.search.stepsData start.toNat count.toNat) [] [] s t)) ∧
    (∀ index : Byte, ∃ t, exec (.readFiducial q index) s = .next t ∧
      (16 ≤ index.toNat → refuses q 0x1C .range s t) ∧
      ∀ i : Fin 16, index.toNat = i.val →
        acceptsWithin q 0x1C .ok
          (s.round.table[i].data ++ [⟨4, s.round.roundNumber⟩, ⟨1, if s.round.state.lists i then 1 else 0⟩]) [] [] s t) ∧
    ∀ sect : Byte, ∃ t, exec (.readStatus q sect) s = .next t ∧
      (9 ≤ sect.toNat → refuses q 0x23 .range s t) ∧
      (sect.toNat < 9 → ∃ data, sectionData sect (s.setService q.service) = some data) ∧
      (∀ data, sectionData sect (s.setService q.service) = some data →
        acceptsWithin q 0x23 .ok data [] [] s t ∧ (data.map (·.width)).sum ≤ 235) ∧
      (sect = 1 → ∃ data,
        acceptsWithin q 0x23 .ok
          ([⟨1, s.head.rx.length⟩, ⟨1, s.head.forward.length⟩, ⟨1, 0⟩, ⟨1, s.station.out.length⟩] ++ data) [] [] s t)

/-! ### Requests: distance and follower -/

/-- R44, R49 and R57: the two establish requests start a wait of 2,000 ms from NONE, or are refused in their order; DROP_DISTANCE
ends a base without an event or cancels a wait, aborts the SINGLE that the base served, and replies with the state as it was. The
end of that SINGLE lets a DUE round start, wait or be abandoned (R120, R140). A RUNNING round's wait is in SlotEnds. -/
def Obligations.DistanceRequests : Prop :=
  (∀ (q : Taking) (s : State), portReady s → ∃ t, exec (.establishAdm q) s = .next t ∧
    (s.round.state.isRunning = true → refuses q 0x09 .busy s t) ∧
    (s.round.state.isRunning = false → s.distance.state ≠ .none → refuses q 0x09 .state s t) ∧
    (s.round.state.isRunning = false → s.distance.state = .none → s.head.hasAdm = false → refuses q 0x09 .noAdm s t) ∧
    (s.round.state.isRunning = false → s.distance.state = .none → s.head.hasAdm = true →
      acceptsWithin q 0x09 .ok [] [.distance] [] s t ∧
      t.distance = { s.distance with state := .awaitAdm .station 2000 })) ∧
  (∀ (q : Taking) (s : State), portReady s → ∃ t, exec (.establishHome q) s = .next t ∧
    (s.round.state.isRunning = true → refuses q 0x0A .busy s t) ∧
    (s.round.state.isRunning = false → s.distance.state ≠ .none ∨ s.distance.homeDistance = 0 → refuses q 0x0A .state s t) ∧
    (s.round.state.isRunning = false → s.distance.state = .none → 0 < s.distance.homeDistance →
      acceptsWithin q 0x0A .ok [] [.distance] [] s t ∧
      t.distance = { s.distance with state := .awaitHome .station s.distance.homeDistance 2000 })) ∧
  ∀ (q : Taking) (s : State), portReady s → ∃ t, exec (.dropDistance q) s = .next t ∧
    answers q 0x0B .ok [⟨1, s.distance.state.code⟩] s t ∧
    (s.round.state = .idle → s.emitter.mode.isSingle = false →
      keepsOthers [.station, .service, .events, .distance] s t ∧ keepsSources [.queueCongested] s t) ∧
    (s.round.state.isRunning = false →
      t.distance.state = .none ∧ t.distance.lastLoss = s.distance.lastLoss ∧
      t.events.get .distanceLost = s.events.get .distanceLost ∧
      ((∃ d b c, s.distance.state = .established d b c) → t.distance = { s.distance with state := .none } ∧
        (s.emitter.mode.isSingle = true →
          t.emitter = { s.emitter with mode := .idle } ∧
          t.events.get .measureAborted = (s.events.get .measureAborted).occurred s.localTime)) ∧
      (∀ k o m, s.distance.state.wait = some (k, o, m) →
        t.distance = { s.distance with state := .none, lastWaitKind := k, lastWaitOutcome := .cancelled }) ∧
      (s.distance.state = .none → t.distance = s.distance)) ∧
    (s.round.state = .due → (∀ d b c, s.distance.state ≠ .established d b c) → t.round = s.round) ∧
    (∀ d b c, s.round.state = .due → s.distance.state = .established d b c →
      (s.emitter.mode ≠ .idle ∧ s.emitter.mode.isSingle = false ∨ s.follower.state = .aiming ∨ s.search.active ≠ none →
        t.round = s.round) ∧
      (s.emitter.mode = .idle ∨ s.emitter.mode.isSingle = true → s.follower.state ≠ .aiming → s.search.active = none →
        (∀ x, roundCondition s = some x →
          t.round = { s.round with state := .idle, summary := .aborted x.abortReason } ∧
          t.events.get .roundAborted = (s.events.get .roundAborted).occurred s.localTime) ∧
        (roundCondition s = none → t.round.state.isRunning = true ∧ t.follower.state = .aiming))) ∧
    (s.round.state.isRunning = true → (∀ m, s.distance.state ≠ .awaitAdm .round m) →
      t.distance.state = .none ∧ t.round = s.round)

/-- R68: FOLLOW sets the follow-pending mark in PARKED, LOST and AIMING, cancelling the aim there, and changes nothing in the
other states; it is refused BUSY in a round and STATE while the drives are DISABLED. -/
def Obligations.FollowRequest : Prop :=
  ∀ (q : Taking) (s : State), portReady s → ∃ t, exec (.follow q) s = .next t ∧
    (s.round.state.isRunning = true → refuses q 0x0C .busy s t) ∧
    (s.round.state.isRunning = false → s.head.driveState = .disabled → refuses q 0x0C .state s t) ∧
    (s.round.state.isRunning = false → s.head.driveState = .enabled →
      acceptsWithin q 0x0C .ok [] [.follower] [] s t ∧
      (s.follower.state = .parked ∨ s.follower.state = .lost → t.follower = { s.follower with followPending := true }) ∧
      (s.follower.state = .aiming →
        t.follower = { s.follower with followPending := true, aim := none, arrivalRun := 0 }) ∧
      (s.follower.state = .following ∨ s.follower.state = .holding ∨ s.follower.state = .searching →
        t.follower = s.follower))

/-- R70, R56, R106, R120 and R152: PARK is never refused. In PARKED it clears the follow-pending mark and ends a DUE round; in any
other state it parks the follower, aborts a search, a SINGLE and a round with ROUND_ABORTED, ends the distance and writes one HOLD
frame: outside a RUNNING round a base is dropped with cause FOLLOWER and DISTANCE_LOST, and a wait is cancelled. -/
def Obligations.ParkRequest : Prop :=
  ∀ (q : Taking) (s : State), portReady s → ∃ t, exec (.park q) s = .next t ∧ answers q 0x0D .ok [] s t ∧
    (s.round.state ≠ .idle → t.round.state = .idle ∨ (s.follower.state = .parked ∧ s.round.state.isRunning = true)) ∧
    (s.follower.state = .parked → s.round.state = .idle →
      t.follower = { s.follower with followPending := false } ∧
      keepsOthers [.station, .service, .events, .follower] s t ∧ keepsSources [.queueCongested] s t) ∧
    (s.follower.state = .parked → s.round.state = .due →
      t.round = { s.round with state := .idle, summary := .aborted .parked } ∧
      t.events.get .roundAborted = (s.events.get .roundAborted).occurred s.localTime) ∧
    (s.follower.state ≠ .parked →
      t.follower =
        { s.follower with
          state := .parked, followPending := false, grace := none, aim := none, arrivalRun := 0, acqRun := 0, iAz := 0
          iEl := 0 } ∧
      t.search.active = none ∧ t.distance.state = .none ∧ (t.events.get .beamAbsent).genuine = false ∧
      steerWritten .hold s t ∧
      (s.round.state.isRunning = true →
        t.round = { s.round with state := .idle, returnAngles := none, summary := .aborted .parked } ∧
        t.events.get .roundAborted = (s.events.get .roundAborted).occurred s.localTime ∧
        t.distance.lastLoss = s.distance.lastLoss ∧ t.events.get .distanceLost = s.events.get .distanceLost) ∧
      (s.round.state = .due →
        t.round = { s.round with state := .idle, summary := .aborted .parked } ∧
        t.events.get .roundAborted = (s.events.get .roundAborted).occurred s.localTime) ∧
      (s.round.state = .idle → t.round = s.round) ∧
      (∀ d b c, s.distance.state = .established d b c → s.round.state.isRunning = false →
        t.distance = { s.distance with state := .none, lastLoss := .follower } ∧
        t.events.get .distanceLost = (s.events.get .distanceLost).occurred s.localTime) ∧
      (∀ k o m, s.distance.state.wait = some (k, o, m) →
        t.distance = { s.distance with state := .none, lastWaitKind := k, lastWaitOutcome := .cancelled }) ∧
      (s.follower.state = .following ∨ (∃ d b c, s.distance.state = .established d b c) → s.emitter.mode.isSingle = true →
        t.emitter = { s.emitter with mode := .idle } ∧
        t.events.get .measureAborted = (s.events.get .measureAborted).occurred s.localTime))

/-- R71, R52, R56, R106 and R120: an accepted GOTO takes the follower to AIMING with a fresh aim of 3,000 ms, aborts a search,
drops a base with cause FOLLOWER or cancels a wait, and aborts a SINGLE that loses the beam or the distance by it; a refused one
changes nothing. -/
def Obligations.GotoRequest : Prop :=
  ∀ (q : Taking) (az el : Word) (thenAction : Byte) (s : State), portReady s →
    ∃ t, exec (.goto q az el thenAction) s = .next t ∧
      (s.round.state.isRunning = true → refuses q 0x0E .busy s t) ∧
      (s.round.state.isRunning = false → s.head.driveState = .disabled → refuses q 0x0E .state s t) ∧
      (s.round.state.isRunning = false → s.head.driveState = .enabled →
        (thenOf thenAction = none ∨ az.toInt < 0 ∨ 4319999 < az.toInt ∨ el.toInt < -720000 ∨ 960000 < el.toInt) →
        refuses q 0x0E .range s t) ∧
      (∀ a, s.round.state.isRunning = false → s.head.driveState = .enabled → thenOf thenAction = some a →
        0 ≤ az.toInt → az.toInt ≤ 4319999 → -720000 ≤ el.toInt → el.toInt ≤ 960000 →
        answers q 0x0E .ok [] s t ∧
        t.follower =
          { s.follower with
            state := .aiming, followPending := false, grace := none, acqRun := 0, arrivalRun := 0
            aim := some { az := az.toInt, el := el.toInt, thenAction := a, owner := .station, timer := 3000 } } ∧
        t.search = { s.search with active := none } ∧ t.distance.state = .none ∧
        (∀ d b c, s.distance.state = .established d b c →
          t.distance = { s.distance with state := .none, lastLoss := .follower } ∧
          t.events.get .distanceLost = (s.events.get .distanceLost).occurred s.localTime) ∧
        (∀ k o m, s.distance.state.wait = some (k, o, m) →
          t.distance = { s.distance with state := .none, lastWaitKind := k, lastWaitOutcome := .cancelled }) ∧
        (s.distance.state = .none → t.distance = s.distance) ∧
        keepsOthers [.station, .service, .events, .follower, .search, .distance, .emitter] s t ∧
        (s.follower.state = .following ∨ (∃ d b c, s.distance.state = .established d b c) → s.emitter.mode.isSingle = true →
          t.emitter = { s.emitter with mode := .idle } ∧
          t.events.get .measureAborted = (s.events.get .measureAborted).occurred s.localTime) ∧
        (s.follower.state ≠ .following → (∀ d b c, s.distance.state ≠ .established d b c) → t.emitter = s.emitter) ∧
        (s.emitter.mode.isSingle = false → t.emitter = s.emitter))

/-! ### Requests: search unit -/

/-- R90, R93, R94 and R96: writes of steps and descriptors are checked whole and then stored as given; an append stores the first
steps that fit at the write position. -/
def Obligations.StoreRequests : Prop :=
  (∀ (q : Taking) (start : Half) (steps : List StepField) (s : State), portReady s →
    ∃ t, exec (.writeSteps q start steps) s = .next t ∧
      (steps = [] ∨ 16 < steps.length ∨ 384 < start.toNat + steps.length ∨ steps.all stepInRange = false →
        refuses q 0x0F .range s t) ∧
      (1 ≤ steps.length → steps.length ≤ 16 → start.toNat + steps.length ≤ 384 → steps.all stepInRange = true →
        s.search.covers start.toNat steps.length = true → refuses q 0x0F .busy s t) ∧
      (1 ≤ steps.length → steps.length ≤ 16 → start.toNat + steps.length ≤ 384 → steps.all stepInRange = true →
        s.search.covers start.toNat steps.length = false →
        acceptsWithin q 0x0F .ok [⟨2, start.toNat⟩, ⟨1, steps.length⟩] [.search] [] s t ∧
        t.search = { s.search with store := t.search.store } ∧
        ∀ i : Fin 512,
          t.search.store[i] =
            (if start.toNat ≤ i.val then ((steps[i.val - start.toNat]?).map stepOf).getD s.search.store[i]
             else s.search.store[i]))) ∧
  (∀ (q : Taking) (index state mode : Byte) (start length : Half) (repeats : Byte) (s : State), portReady s →
    ∃ t, exec (.writeSearch q index state mode start length repeats) s = .next t ∧
      (8 ≤ index.toNat → refuses q 0x10 .range s t) ∧
      ∀ i : Fin 8, index.toNat = i.val →
        (s.search.plays i = true → refuses q 0x10 .busy s t) ∧
        (s.search.plays i = false →
          2 ≤ state.toNat ∨ 2 ≤ mode.toNat ∨
            (mode = 0 ∧ (length.toNat = 0 ∨ 7 < repeats.toNat ∨ 384 < start.toNat + length.toNat)) →
          refuses q 0x10 .range s t) ∧
        (s.search.plays i = false → state.toNat < 2 → mode = 0 → 1 ≤ length.toNat → repeats.toNat ≤ 7 →
          start.toNat + length.toNat ≤ 384 →
          acceptsWithin q 0x10 .ok
            [⟨1, state.toNat⟩, ⟨1, 0⟩, ⟨2, start.toNat⟩, ⟨2, length.toNat⟩, ⟨1, repeats.toNat⟩] [.search] [] s t ∧
          t.search =
            { s.search with
              descriptors := s.search.descriptors.set i.val
                { ready := decide (state = 1), mode := .block, start := start.toNat, length := length.toNat
                  repeats := repeats.toNat } i.isLt }) ∧
        (s.search.plays i = false → state.toNat < 2 → mode = 1 →
          acceptsWithin q 0x10 .ok [⟨1, state.toNat⟩, ⟨1, 1⟩, ⟨2, 0⟩, ⟨2, 1⟩, ⟨1, 0⟩] [.search] [] s t ∧
          t.search =
            { s.search with
              descriptors := s.search.descriptors.set i.val
                { ready := decide (state = 1), mode := .stream, start := 0, length := 1, repeats := 0 } i.isLt })) ∧
  ∀ (q : Taking) (steps : List StepField) (s : State), portReady s →
    ∃ t, exec (.appendSteps q steps) s = .next t ∧
      (steps = [] ∨ 16 < steps.length ∨ steps.all stepInRange = false → refuses q 0x11 .range s t) ∧
      (∀ n : Nat, 1 ≤ steps.length → steps.length ≤ 16 → steps.all stepInRange = true → s.search.ringFill ≤ 128 →
        n = min steps.length (128 - s.search.ringFill) →
        acceptsWithin q 0x11 (if n = steps.length then .ok else .okClamped)
          [⟨1, n⟩, ⟨1, s.search.ringFill + n⟩] [.search] [.patternLow] s t ∧
        t.search = { s.search with store := t.search.store, ringFill := s.search.ringFill + n } ∧
        (t.events.get .patternLow).genuine = genuineOf t .patternLow ∧
        (∀ i : Fin 384, t.search.store[i.val] = s.search.store[i.val]) ∧
        ∀ k : Nat, k < n →
          t.search.store[384 + (s.search.ringRead + s.search.ringFill + k) % 128]? = (steps[k]?).map stepOf)

/-- R97: RESET_STREAM is refused BUSY while a STREAM search is active, with the ring unchanged; otherwise, a BLOCK search
included, it sets the fill and the read position to 0 and replies OK with fill 0, and every step keeps its value. -/
def Obligations.ResetStream : Prop :=
  ∀ (q : Taking) (s : State), portReady s → ∃ t, exec (.resetStream q) s = .next t ∧
    ((∃ a, s.search.active = some a ∧ a.play = .stream) → refuses q 0x12 .busy s t ∧ t.search = s.search) ∧
    ((∀ a, s.search.active = some a → a.play ≠ .stream) →
      acceptsWithin q 0x12 .ok [⟨1, 0⟩] [.search] [] s t ∧
      t.search = { s.search with ringRead := 0, ringFill := 0 } ∧ t.search.store = s.search.store)

/-- R100, R99, R101 and R104: START_SEARCH is refused in the order of its checks; with a READY descriptor it starts the search
around the last-present angles, or (0, 0), and writes the first step's frame at once; a STREAM search with an empty ring ends
STARVED at once, and a DUE round is then examined: it goes on waiting while the mode is not IDLE, and is otherwise abandoned or
started (R140). -/
def Obligations.StartSearchRequest : Prop :=
  ∀ (q : Taking) (index : Byte) (s : State), portReady s → ∃ t, exec (.startSearch q index) s = .next t ∧
    (8 ≤ index.toNat → refuses q 0x15 .range s t) ∧
    ∀ i : Fin 8, index.toNat = i.val →
      (s.round.state.isRunning = true → refuses q 0x15 .busy s t) ∧
      (s.round.state.isRunning = false →
        s.head.driveState = .disabled ∨ (s.follower.state ≠ .parked ∧ s.follower.state ≠ .lost) ∨
          s.search.descriptors[i].ready = false → refuses q 0x15 .state s t) ∧
      (∀ (centre : Angles) (st : Step), s.round.state.isRunning = false → s.head.driveState = .enabled →
        s.follower.state = .parked ∨ s.follower.state = .lost → s.search.descriptors[i].ready = true →
        s.search.descriptors[i].mode = .block → centre = s.follower.lastAngles.getD ⟨0, 0⟩ →
        s.search.store[s.search.descriptors[i].start]? = some st →
        acceptsWithin q 0x15 .ok [⟨1, i.val⟩, ⟨4, centre.az⟩, ⟨4, centre.el⟩, ⟨1, 1⟩] [.search, .follower, .head]
          [.patternLow, .beamAbsent] s t ∧
        t.follower =
          { s.follower with
            state := .searching, followPending := false, grace := none, aim := none, arrivalRun := 0, acqRun := 0 } ∧
        t.search.active =
          some
            { descriptor := i, play := .block s.search.descriptors[i].start s.search.descriptors[i].repeats
              centre := centre, target := stepTarget centre st, dwell := st.dwell, owner := .follower } ∧
        (t.events.get .beamAbsent).genuine = true ∧
        steerWritten (.position (stepTarget centre st).az (stepTarget centre st).el) s t) ∧
      (∀ centre : Angles, s.round.state = .idle → s.head.driveState = .enabled →
        s.follower.state = .parked ∨ s.follower.state = .lost → s.search.descriptors[i].ready = true →
        s.search.descriptors[i].mode = .stream → centre = s.follower.lastAngles.getD ⟨0, 0⟩ → s.search.ringFill = 0 →
        acceptsWithin q 0x15 .ok [⟨1, i.val⟩, ⟨4, centre.az⟩, ⟨4, centre.el⟩, ⟨1, 0⟩] [.search, .follower, .head]
          [.patternLow, .beamAbsent, .searchStarved] s t ∧
        t.follower =
          { s.follower with
            state := .lost, followPending := false, grace := none, aim := none, arrivalRun := 0, acqRun := 0 } ∧
        t.search = { s.search with active := none } ∧
        t.events.get .searchStarved = (s.events.get .searchStarved).occurred s.localTime ∧ steerWritten .hold s t) ∧
      (∀ centre : Angles, s.round.state = .due → s.head.driveState = .enabled →
        s.follower.state = .parked ∨ s.follower.state = .lost → s.search.descriptors[i].ready = true →
        s.search.descriptors[i].mode = .stream → centre = s.follower.lastAngles.getD ⟨0, 0⟩ → s.search.ringFill = 0 →
        answers q 0x15 .ok [⟨1, i.val⟩, ⟨4, centre.az⟩, ⟨4, centre.el⟩, ⟨1, 0⟩] s t ∧
        t.search = { s.search with active := none } ∧
        t.events.get .searchStarved = (s.events.get .searchStarved).occurred s.localTime ∧ steerWritten .hold s t ∧
        (s.emitter.mode ≠ .idle → t.follower.state = .lost ∧ t.round = s.round) ∧
        (∀ x, s.emitter.mode = .idle → roundCondition s = some x →
          t.follower.state = .lost ∧ t.round = { s.round with state := .idle, summary := .aborted x.abortReason } ∧
          t.events.get .roundAborted = (s.events.get .roundAborted).occurred s.localTime) ∧
        (s.emitter.mode = .idle → roundCondition s = none →
          t.round.state.isRunning = true ∧ t.follower.state = .aiming ∧ t.distance.state = .none)) ∧
      (∀ (centre : Angles) (st : Step), s.round.state.isRunning = false → s.head.driveState = .enabled →
        s.follower.state = .parked ∨ s.follower.state = .lost → s.search.descriptors[i].ready = true →
        s.search.descriptors[i].mode = .stream → centre = s.follower.lastAngles.getD ⟨0, 0⟩ → 0 < s.search.ringFill →
        s.search.store[384 + s.search.ringRead]? = some st →
        acceptsWithin q 0x15 .ok [⟨1, i.val⟩, ⟨4, centre.az⟩, ⟨4, centre.el⟩, ⟨1, 1⟩] [.search, .follower, .head]
          [.patternLow, .beamAbsent] s t ∧
        t.follower.state = .searching ∧
        t.search =
          { s.search with
            ringRead := (s.search.ringRead + 1) % 128, ringFill := s.search.ringFill - 1
            active :=
              some
                { descriptor := i, play := .stream, centre := centre, target := stepTarget centre st, dwell := st.dwell
                  owner := .follower } } ∧
        steerWritten (.position (stepTarget centre st).az (stepTarget centre st).el) s t)

/-! ### Requests: emitter, round unit and event unit -/

/-- R114, R116, R140 and R113: START_MEASURE enters the mode asked for with each parameter clamped or at its default;
STOP_MEASURE returns to IDLE, replies with the mode that was in force, and lets a DUE round start, wait or be abandoned;
READ_LATEST clears the fresh mark. That its reply leads with a held byte, and what it sends for an empty slot, are the model's
choice (log 15). -/
def Obligations.MeasureRequests : Prop :=
  (∀ (q : Taking) (mode mask : Byte) (p1 p2 p3 : Word) (s : State), portReady s →
    ∃ t, exec (.startMeasure q mode mask p1 p2 p3) s = .next t ∧
      (mode = 0 ∨ 5 ≤ mode.toNat → refuses q 0x16 .range s t) ∧
      (1 ≤ mode.toNat → mode.toNat ≤ 4 → s.round.state.isRunning = true ∨ s.emitter.mode.isSingle = true →
        refuses q 0x16 .busy s t) ∧
      (s.round.state.isRunning = false → s.emitter.mode.isSingle = false →
        (∀ n tol settle : Int, mode = 1 →
          n = (if mask.getLsbD 0 then max 1 (min 64 p1.toInt) else 16) →
          tol = (if mask.getLsbD 1 then max 5 (min 2000 p2.toInt) else 25) →
          settle = (if mask.getLsbD 2 then max 5 (min 100 p3.toInt) else 20) →
          (∃ res, (res = .ok ∨ res = .okClamped) ∧
            acceptsWithin q 0x16 res [⟨1, 1⟩, ⟨4, n⟩, ⟨4, tol⟩, ⟨4, settle⟩] [.emitter] [] s t ∧
            (res = .ok ↔ (mask.getLsbD 0 = true → n = p1.toInt) ∧ (mask.getLsbD 1 = true → tol = p2.toInt) ∧
              (mask.getLsbD 2 = true → settle = p3.toInt))) ∧
          t.emitter =
            { s.emitter with
              mode := .single
                { n := n.toNat, tol := tol.toNat, settle := settle.toNat, phase := .settling, anchor := none, window := 0
                  settleTotal := 0, timer := 5000 } }) ∧
        (∀ m : Int, mode = 2 → m = (if mask.getLsbD 0 then max 1 (min 1000 p1.toInt) else 10) →
          t.emitter = { s.emitter with mode := .stream m.toNat 0 } ∧
          ∃ res, (res = .ok ∨ res = .okClamped) ∧ acceptsWithin q 0x16 res [⟨1, 2⟩, ⟨4, m⟩] [.emitter] [] s t ∧
            (res = .ok ↔ (mask.getLsbD 0 = true → m = p1.toInt))) ∧
        (∀ g : Int, mode = 3 → g = (if mask.getLsbD 0 then max 100 (min 1000000 p1.toInt) else 5000) →
          t.emitter = { s.emitter with mode := .spaced g.toNat none } ∧
          ∃ res, (res = .ok ∨ res = .okClamped) ∧ acceptsWithin q 0x16 res [⟨1, 3⟩, ⟨4, g⟩] [.emitter] [] s t ∧
            (res = .ok ↔ (mask.getLsbD 0 = true → g = p1.toInt))) ∧
        (mode = 4 → t.emitter = { s.emitter with mode := .triggered none } ∧
          acceptsWithin q 0x16 .ok [⟨1, 4⟩] [.emitter] [] s t))) ∧
  (∀ (q : Taking) (s : State), portReady s → ∃ t, exec (.stopMeasure q) s = .next t ∧
    answers q 0x17 .ok [⟨1, s.emitter.mode.code⟩] s t ∧ t.emitter = { s.emitter with mode := .idle } ∧
    (s.round.state ≠ .due ∨ s.follower.state = .aiming ∨ s.search.active ≠ none →
      acceptsWithin q 0x17 .ok [⟨1, s.emitter.mode.code⟩] [.emitter] [] s t) ∧
    (s.round.state = .due → s.follower.state ≠ .aiming → s.search.active = none →
      (∀ x, roundCondition s = some x →
        t.round = { s.round with state := .idle, summary := .aborted x.abortReason } ∧
        t.events.get .roundAborted = (s.events.get .roundAborted).occurred s.localTime) ∧
      (roundCondition s = none →
        t.round.state.isRunning = true ∧ t.follower.state = .aiming ∧ t.distance.state = .none))) ∧
  ∀ (q : Taking) (s : State), portReady s → ∃ t, exec (.readLatest q) s = .next t ∧
    t.emitter = { s.emitter with fresh := false } ∧
    (∀ p, s.emitter.latest = some p →
      acceptsWithin q 0x18 .ok
        [⟨1, 1⟩, ⟨1, p.seq.toNat⟩, ⟨4, p.timestamp.toNat⟩, ⟨1, p.at_.frame.code⟩, ⟨4, p.at_.pos.c1⟩, ⟨4, p.at_.pos.c2⟩,
          ⟨4, p.at_.pos.c3⟩, ⟨1, p.flags.code⟩, ⟨1, p.source.code⟩, ⟨1, if s.emitter.fresh then 1 else 0⟩]
        [.emitter] [] s t) ∧
    (s.emitter.latest = none →
      acceptsWithin q 0x18 .ok
        [⟨1, 0⟩, ⟨1, 0⟩, ⟨4, 0⟩, ⟨1, 0⟩, ⟨4, 0⟩, ⟨4, 0⟩, ⟨4, 0⟩, ⟨1, 0⟩, ⟨1, 0⟩, ⟨1, 0⟩] [.emitter] [] s t)

/-- R132, R133 and R135: WRITE_FIDUCIAL stores the seven fields with result NEVER; ENABLE_FIDUCIAL and DISABLE_FIDUCIAL change the
state only; all are refused in their order, and DRIFT is evaluated. That the reply of WRITE_FIDUCIAL sends the absent measured,
deviation and result round as 0 in their places is the model's choice (log 31). -/
def Obligations.FiducialRequests : Prop :=
  (∀ (q : Taking) (index : Byte) (f : FiducialField) (s : State), portReady s →
    ∃ t, exec (.writeFiducial q index f) s = .next t ∧
      (16 ≤ index.toNat → refuses q 0x19 .range s t) ∧
      ∀ i : Fin 16, index.toNat = i.val →
        (s.round.state.isRunning = true → refuses q 0x19 .busy s t) ∧
        (s.round.state.isRunning = false →
          f.state = 0 ∨ 3 ≤ f.state.toNat ∨ 2 ≤ f.checkMode.toNat ∨ (8 ≤ f.descriptor.toNat ∧ f.descriptor ≠ 255) ∨
            f.tolerance.toNat < 10 ∨ 10000 < f.tolerance.toNat ∨ f.aimAz.toInt < 0 ∨ 4319999 < f.aimAz.toInt ∨
            f.aimEl.toInt < -720000 ∨ 960000 < f.aimEl.toInt ∨ f.nomX.toInt < -1000000000 ∨ 1000000000 < f.nomX.toInt ∨
            f.nomY.toInt < -1000000000 ∨ 1000000000 < f.nomY.toInt ∨ f.nomZ.toInt < -1000000000 ∨
            1000000000 < f.nomZ.toInt →
          refuses q 0x19 .range s t) ∧
        (∀ (st : FiducialState) (m : CheckMode) (d : Option (Fin 8)), s.round.state.isRunning = false →
          fiducialStateOf f.state = some st → checkModeOf f.checkMode = some m → index8OrNone f.descriptor = some d →
          -1000000000 ≤ f.nomX.toInt → f.nomX.toInt ≤ 1000000000 → -1000000000 ≤ f.nomY.toInt → f.nomY.toInt ≤ 1000000000 →
          -1000000000 ≤ f.nomZ.toInt → f.nomZ.toInt ≤ 1000000000 → 0 ≤ f.aimAz.toInt → f.aimAz.toInt ≤ 4319999 →
          -720000 ≤ f.aimEl.toInt → f.aimEl.toInt ≤ 960000 → 10 ≤ f.tolerance.toNat → f.tolerance.toNat ≤ 10000 →
          acceptsWithin q 0x19 .ok (t.round.table[i]).data [.round] [.drift] s t ∧
          t.round.table[i] =
            { state := st, nominal := ⟨f.nomX.toInt, f.nomY.toInt, f.nomZ.toInt⟩, aim := ⟨f.aimAz.toInt, f.aimEl.toInt⟩
              tolerance := f.tolerance.toNat, checkMode := m, descriptor := d, result := .never, resultRound := none } ∧
          (∀ j : Fin 16, j ≠ i → t.round.table[j] = s.round.table[j]) ∧ t.round = { s.round with table := t.round.table } ∧
          (t.events.get .drift).genuine = genuineOf t .drift)) ∧
  ∀ (q : Taking) (index : Byte) (enable : Bool) (s : State), portReady s →
    ∃ t, exec (if enable then .enableFiducial q index else .disableFiducial q index) s = .next t ∧
      (16 ≤ index.toNat → refuses q (if enable then 0x1A else 0x1B) .range s t) ∧
      ∀ i : Fin 16, index.toNat = i.val →
        (s.round.state.isRunning = true → refuses q (if enable then 0x1A else 0x1B) .busy s t) ∧
        (s.round.state.isRunning = false → s.round.table[i].state = .unused →
          refuses q (if enable then 0x1A else 0x1B) .state s t) ∧
        (s.round.state.isRunning = false → s.round.table[i].state ≠ .unused →
          acceptsWithin q (if enable then 0x1A else 0x1B) .ok [⟨1, if enable then 1 else 2⟩] [.round] [.drift] s t ∧
          t.round =
            { s.round with
              table := s.round.table.set i.val
                { s.round.table[i] with state := if enable then .enabled else .disabled } i.isLt } ∧
          (t.events.get .drift).genuine = genuineOf t .drift)

/-- R138, R141, R142 and R152: START_ROUND is refused in the order of its checks and otherwise starts the round with its first
slot; STOP_ROUND aborts a RUNNING round and parks the follower, ends a DUE one, and is refused STATE in IDLE. -/
def Obligations.RoundRequests : Prop :=
  (∀ (q : Taking) (s : State), portReady s → ∃ t, exec (.startRound q) s = .next t ∧
    (s.round.state.isRunning = true → refuses q 0x1D .busy s t) ∧
    (s.round.state.isRunning = false → s.poses.active = none → refuses q 0x1D .noPose s t) ∧
    (s.round.state.isRunning = false → s.poses.active ≠ none → s.head.hasAdm = false → refuses q 0x1D .noAdm s t) ∧
    (s.round.state.isRunning = false → s.poses.active ≠ none → s.head.hasAdm = true →
      s.round.enabledSlots = [] ∨ s.head.driveState = .disabled → refuses q 0x1D .state s t) ∧
    (s.round.state.isRunning = false → s.poses.active ≠ none → s.head.hasAdm = true → s.round.enabledSlots ≠ [] →
      s.head.driveState = .enabled → s.emitter.mode ≠ .idle ∨ s.search.active ≠ none ∨ s.follower.state = .aiming →
      refuses q 0x1D .busy s t) ∧
    (∀ first more, s.round.state.isRunning = false → s.poses.active ≠ none → s.head.hasAdm = true →
      s.head.driveState = .enabled → s.emitter.mode = .idle → s.search.active = none → s.follower.state ≠ .aiming →
      s.round.enabledSlots = first :: more →
      answers q 0x1D .ok [⟨1, more.length + 1⟩, ⟨4, min 4294967295 (s.round.roundNumber + 1)⟩] s t ∧
      t.round =
        { s.round with
          state :=
            .running
              { slots := first :: more, current := first, phase := .aim, slotTimer := 10000, avgCount := 0, sums := ⟨0, 0, 0⟩
                results := [] }
          periodTimer := s.round.period * 60000
          returnAngles :=
            if s.follower.state = .following ∨ s.follower.state = .holding then
              s.follower.lastAngles.map fun a => ⟨a.az, clamp (-720000) 960000 a.el⟩
            else none } ∧
      t.follower.state = .aiming ∧
      t.follower.aim =
        some
          { az := s.round.table[first].aim.az, el := s.round.table[first].aim.el, thenAction := .hold, owner := .round
            timer := 3000 } ∧
      t.distance.state = .none ∧ t.events.get .distanceLost = s.events.get .distanceLost ∧
      (t.events.get .roundDue).genuine = false ∧
      keepsOthers [.station, .service, .events, .round, .follower, .distance, .search] s t)) ∧
  ∀ (q : Taking) (s : State), portReady s → ∃ t, exec (.stopRound q) s = .next t ∧
    (s.round.state = .idle → refuses q 0x1E .state s t) ∧
    (s.round.state = .due →
      acceptsWithin q 0x1E .ok [] [.round] [.roundDue, .roundAborted] s t ∧
      t.round = { s.round with state := .idle, summary := .aborted .stopped } ∧
      t.events.get .roundAborted = (s.events.get .roundAborted).occurred s.localTime) ∧
    (s.round.state.isRunning = true →
      answers q 0x1E .ok [] s t ∧
      t.round = { s.round with state := .idle, returnAngles := none, summary := .aborted .stopped } ∧
      t.follower.state = .parked ∧ t.search.active = none ∧ t.distance.state = .none ∧
      t.events.get .distanceLost = s.events.get .distanceLost ∧
      t.events.get .roundAborted = (s.events.get .roundAborted).occurred s.localTime ∧ steerWritten .hold s t)

/-- R157 and R158: an acknowledgement clears an edge source's latch, count and mark and replies with what it held, and clears a
level source's test mark; a test raises an edge source as an occurrence does and marks a level source, which needs authority.
That the reply enters the queue before the event record that a test makes pending is the model's choice (log 32). -/
def Obligations.AckAndTest : Prop :=
  ∀ (q : Taking) (n : Byte) (s : State), portReady s →
    (∃ t, exec (.ackEvent q n) s = .next t ∧
      (n = 0 ∨ 25 ≤ n.toNat → refuses q 0x1F .range s t) ∧
      ∀ src : Source, n.toNat = src.number →
        keepsOthers [.station, .service, .events] s t ∧ keepsSources [src, .queueCongested] s t ∧
        (src.isLevel = false →
          answers q 0x1F .ok
            [⟨1, (s.events.get src).count⟩, ⟨1, if (s.events.get src).reported then 1 else 0⟩] s t ∧
          t.events.get src =
            { s.events.get src with latch := false, count := 0, latchTime := 0, testMark := false, reported := false }) ∧
        (src.isLevel = true →
          answers q 0x1F .ok
            [⟨1, if (s.events.get src).genuine then 1 else 0⟩, ⟨1, if (s.events.get src).genuine then 1 else 0⟩,
              ⟨1, if (s.events.get src).reported then 1 else 0⟩] s t) ∧
        (src.isLevel = true → src ≠ .queueCongested →
          t.events.get src =
            { s.events.get src with
              testMark := false
              changeTime :=
                if (s.events.get src).genuine = false ∧ (s.events.get src).testMark = true then s.localTime
                else (s.events.get src).changeTime }) ∧
        (src.isLevel = true → (t.events.get src).testMark = false)) ∧
    ∃ t, exec (.raiseTest q n) s = .next t ∧
      (n = 0 ∨ 25 ≤ n.toNat → refuses q 0x20 .range s t) ∧
      ∀ src : Source, n.toNat = src.number →
        (src.isLevel = true → q.service = false → refuses q 0x20 .authority s t) ∧
        (src.isLevel = false →
          keepsOthers [.station, .service, .events] s t ∧ keepsSources [src, .queueCongested] s t ∧
          t.events.get src = { (s.events.get src).occurred s.localTime with testMark := true } ∧
          answers q 0x20 .ok [⟨1, 1⟩, ⟨1, (t.events.get src).count⟩, ⟨1, 1⟩] s t) ∧
        (src.isLevel = true → q.service = true →
          keepsOthers [.station, .service, .events] s t ∧ keepsSources [src, .queueCongested] s t ∧
          (t.events.get src).testMark = true ∧ (t.events.get src).effective = true ∧
          (src ≠ .queueCongested → (t.events.get src).genuine = (s.events.get src).genuine) ∧
          answers q 0x20 .ok [⟨1, if (s.events.get src).genuine then 1 else 0⟩, ⟨1, 1⟩, ⟨1, 1⟩] s t)

/-! ### Frames -/

/-- R165, R166, R182 to R184 and section 10.5: the frame of every request whose runs fit in a frame is received as that request,
with every field at its value. -/
def Obligations.RequestFrameRoundTrip : Prop :=
  ∀ (service : Bool) (tag : Half) (r : Request), requestFits r = true →
    receiveStation service (Frame.bytes { kind := 0x30, destination := 0x01, payload := requestPayload tag r }) =
      some (.requestFrame service (.named tag r))

/-- R165, R166 and R183: the frames of SAMPLE, of HEAD_STATUS and of FORWARD are received as themselves; the head port does not
read the destination. A frame whose check differs, whose length field exceeds 240 or differs from the bytes received, or whose
kind or destination the port does not accept, is discarded. -/
def Obligations.FramesReceived : Prop :=
  (∀ (f : Sample) (destination : Byte),
    receiveHead (Frame.bytes { kind := 0x10, destination := destination, payload := samplePayload f }) = some (.sample f)) ∧
  (∀ h : HeadStatus, h.remainder.length ≤ 238 →
    receiveHead (headStatusFrame h).bytes = some (.headStatus h)) ∧
  (∀ (service : Bool) (f : ForwardFrame), f.payload.length ≤ 240 →
    receiveStation service (headLinkFrame (.forward f)).bytes = some (.forwardFrame f)) ∧
  (∀ (service : Bool) (kind destination length : Byte) (payload : List Byte) (check : Half),
    check ≠ crc16 ([kind, destination, length] ++ payload) ∨ 240 < length.toNat ∨ length.toNat ≠ payload.length →
    receiveStation service ([0x5A, kind, destination, length] ++ payload ++ halfBytes check) =
      some (.discardedFrame .station) ∧
    receiveHead ([0x5A, kind, destination, length] ++ payload ++ halfBytes check) = some (.discardedFrame .head)) ∧
  (∀ (service : Bool) (f : Frame), f.payload.length ≤ 240 →
    (f.destination ≠ 0x01 ∧ f.destination ≠ 0x02) ∨
      (f.destination = 0x01 ∧ (f.kind ≠ 0x30 ∨ f.payload.length < 3)) →
    receiveStation service f.bytes = some (.discardedFrame .station)) ∧
  ∀ f : Frame, f.payload.length ≤ 240 →
    (f.kind ≠ 0x10 ∧ f.kind ≠ 0x11) ∨ (f.kind = 0x10 ∧ f.payload.length ≠ 25 ∧ f.payload.length ≠ 30) ∨
      (f.kind = 0x11 ∧ f.payload.length < 2) →
    receiveHead f.bytes = some (.discardedFrame .head)

/-- R117 to R120, with no round: a usable sample in SINGLE: in SETTLING the window grows while the point lies near the anchor
and starts again at it otherwise, and AVERAGING begins when the window is full; in AVERAGING a near point is added and the one
that makes n completes with the mean, the spread and the flags of all, and a far one returns the phase to SETTLING. A sample
that is not usable, having no distance or leaving the follower outside FOLLOWING, aborts the SINGLE. That the window count is
kept while AVERAGING is the model's choice (log 30), and so is that the completed point is decided on the occupancy before the
sample and enters the queue before the event records that the same sample makes pending (log 32). -/
def Obligations.SingleMeasured : Prop :=
  (∀ (s : State) (f : Sample) (rest : List Sample) (src : DistanceSource) (d : CorrectedDistance) (flags : PointFlags)
      (m : SingleMeasure),
    measuredFront s f rest src d flags → s.round.state = .idle → s.emitter.mode = .single m →
    ∃ t, exec .takeSample s = .next t ∧
      (usableFront s f rest src d flags → t.follower.state = .following ∧ t.distance = s.distance) ∧
      (t.follower.state = .following →
        t.emitter.fresh = true ∧
        t.emitter.latest = some { seq := f.seq, timestamp := f.timestamp, at_ := d.at_, flags := flags, source := src } ∧
        (∀ (anchor : Option Anchor) (w : Nat), m.phase = .settling →
          ((∃ a, m.anchor = some a ∧ nearPoint m.tol a.pos d.at_.pos) ∧ anchor = m.anchor ∧ w = m.window + 1 ∨
            ¬ (∃ a, m.anchor = some a ∧ nearPoint m.tol a.pos d.at_.pos) ∧ anchor = some d.at_ ∧ w = 1) →
          noPoint s t ∧
          (w < m.settle →
            t.emitter.mode =
              .single { m with anchor := anchor, window := w, settleTotal := min 65535 (m.settleTotal + 1) }) ∧
          (m.settle ≤ w →
            t.emitter.mode =
              .single
                { m with
                  phase :=
                    .averaging
                      { count := 0, sum := ⟨0, 0, 0⟩, least := ⟨0, 0, 0⟩, greatest := ⟨0, 0, 0⟩, flags := ⟨false, false, false⟩ }
                  anchor := anchor, window := w, settleTotal := min 65535 (m.settleTotal + 1) })) ∧
        (∀ a, m.phase = .averaging a → ¬ (∃ g, m.anchor = some g ∧ nearPoint m.tol g.pos d.at_.pos) →
          noPoint s t ∧
          t.emitter.mode =
            .single
              { m with
                phase := .settling, anchor := some d.at_, window := 1, settleTotal := min 65535 (m.settleTotal + 1) }) ∧
        ∀ a g b, m.phase = .averaging a → m.anchor = some g → nearPoint m.tol g.pos d.at_.pos →
          b = averagingWith a d.at_.pos flags →
          (b.count < m.n → noPoint s t ∧ t.emitter.mode = .single { m with phase := .averaging b }) ∧
          ∀ mean : Triple, m.n ≤ b.count →
            mean = ⟨(2 * b.sum.c1 + m.n) / (2 * m.n), (2 * b.sum.c2 + m.n) / (2 * m.n), (2 * b.sum.c3 + m.n) / (2 * m.n)⟩ →
            t.emitter.mode = .idle ∧
            pointOffered
              { sequence := 0, timestamp := f.timestamp
                kind :=
                  .single
                    (max
                      (max (max (b.greatest.c1 - mean.c1) (mean.c1 - b.least.c1))
                        (max (b.greatest.c2 - mean.c2) (mean.c2 - b.least.c2)))
                      (max (b.greatest.c3 - mean.c3) (mean.c3 - b.least.c3))).toNat
                    m.settleTotal
                at_ := ⟨g.frame, mean⟩, flags := b.flags, source := src, samples := m.n }
              s t)) ∧
  ∀ (s : State) (f : Sample) (rest : List Sample) (m : SingleMeasure), s.head.rx = f :: rest → s.round.state = .idle →
    s.emitter.mode = .single m →
    ∃ t, exec .takeSample s = .next t ∧
      ((∀ src d, ¬ handedDistance s f src d) ∨ t.follower.state ≠ .following →
        t.emitter = { s.emitter with mode := .idle, latestTimestamp := some f.timestamp } ∧
        t.events.get .measureAborted = (s.events.get .measureAborted).occurred s.localTime ∧ noPoint s t)
end

