-- ==== Sys2Proof/Laws/State.lean ====
section
/-! SUPPORT. One lemma per field per setter of the state. -/

namespace Sys2Proof.Machine

@[simp] theorem State.setCorrection_correction (s : State) x : (s.setCorrection x).correction = x := rfl
@[simp] theorem State.setCorrection_poses (s : State) x : (s.setCorrection x).poses = s.poses := rfl
@[simp] theorem State.setCorrection_distance (s : State) x : (s.setCorrection x).distance = s.distance := rfl
@[simp] theorem State.setCorrection_follower (s : State) x : (s.setCorrection x).follower = s.follower := rfl
@[simp] theorem State.setCorrection_search (s : State) x : (s.setCorrection x).search = s.search := rfl
@[simp] theorem State.setCorrection_emitter (s : State) x : (s.setCorrection x).emitter = s.emitter := rfl
@[simp] theorem State.setCorrection_round (s : State) x : (s.setCorrection x).round = s.round := rfl
@[simp] theorem State.setCorrection_events (s : State) x : (s.setCorrection x).events = s.events := rfl
@[simp] theorem State.setCorrection_head (s : State) x : (s.setCorrection x).head = s.head := rfl
@[simp] theorem State.setCorrection_station (s : State) x : (s.setCorrection x).station = s.station := rfl
@[simp] theorem State.setCorrection_localTime (s : State) x : (s.setCorrection x).localTime = s.localTime := rfl
@[simp] theorem State.setCorrection_service (s : State) x : (s.setCorrection x).service = s.service := rfl
@[simp] theorem State.setCorrection_freeCount (s : State) x : (s.setCorrection x).freeCount = s.freeCount := rfl
@[simp] theorem State.setCorrection_pending (s : State) x : (s.setCorrection x).pending = s.pending := rfl

@[simp] theorem State.setPoses_correction (s : State) x : (s.setPoses x).correction = s.correction := rfl
@[simp] theorem State.setPoses_poses (s : State) x : (s.setPoses x).poses = x := rfl
@[simp] theorem State.setPoses_distance (s : State) x : (s.setPoses x).distance = s.distance := rfl
@[simp] theorem State.setPoses_follower (s : State) x : (s.setPoses x).follower = s.follower := rfl
@[simp] theorem State.setPoses_search (s : State) x : (s.setPoses x).search = s.search := rfl
@[simp] theorem State.setPoses_emitter (s : State) x : (s.setPoses x).emitter = s.emitter := rfl
@[simp] theorem State.setPoses_round (s : State) x : (s.setPoses x).round = s.round := rfl
@[simp] theorem State.setPoses_events (s : State) x : (s.setPoses x).events = s.events := rfl
@[simp] theorem State.setPoses_head (s : State) x : (s.setPoses x).head = s.head := rfl
@[simp] theorem State.setPoses_station (s : State) x : (s.setPoses x).station = s.station := rfl
@[simp] theorem State.setPoses_localTime (s : State) x : (s.setPoses x).localTime = s.localTime := rfl
@[simp] theorem State.setPoses_service (s : State) x : (s.setPoses x).service = s.service := rfl
@[simp] theorem State.setPoses_freeCount (s : State) x : (s.setPoses x).freeCount = s.freeCount := rfl
@[simp] theorem State.setPoses_pending (s : State) x : (s.setPoses x).pending = s.pending := rfl

@[simp] theorem State.setDistance_correction (s : State) x : (s.setDistance x).correction = s.correction := rfl
@[simp] theorem State.setDistance_poses (s : State) x : (s.setDistance x).poses = s.poses := rfl
@[simp] theorem State.setDistance_distance (s : State) x : (s.setDistance x).distance = x := rfl
@[simp] theorem State.setDistance_follower (s : State) x : (s.setDistance x).follower = s.follower := rfl
@[simp] theorem State.setDistance_search (s : State) x : (s.setDistance x).search = s.search := rfl
@[simp] theorem State.setDistance_emitter (s : State) x : (s.setDistance x).emitter = s.emitter := rfl
@[simp] theorem State.setDistance_round (s : State) x : (s.setDistance x).round = s.round := rfl
@[simp] theorem State.setDistance_events (s : State) x : (s.setDistance x).events = s.events := rfl
@[simp] theorem State.setDistance_head (s : State) x : (s.setDistance x).head = s.head := rfl
@[simp] theorem State.setDistance_station (s : State) x : (s.setDistance x).station = s.station := rfl
@[simp] theorem State.setDistance_localTime (s : State) x : (s.setDistance x).localTime = s.localTime := rfl
@[simp] theorem State.setDistance_service (s : State) x : (s.setDistance x).service = s.service := rfl
@[simp] theorem State.setDistance_freeCount (s : State) x : (s.setDistance x).freeCount = s.freeCount := rfl
@[simp] theorem State.setDistance_pending (s : State) x : (s.setDistance x).pending = s.pending := rfl

@[simp] theorem State.setFollower_correction (s : State) x : (s.setFollower x).correction = s.correction := rfl
@[simp] theorem State.setFollower_poses (s : State) x : (s.setFollower x).poses = s.poses := rfl
@[simp] theorem State.setFollower_distance (s : State) x : (s.setFollower x).distance = s.distance := rfl
@[simp] theorem State.setFollower_follower (s : State) x : (s.setFollower x).follower = x := rfl
@[simp] theorem State.setFollower_search (s : State) x : (s.setFollower x).search = s.search := rfl
@[simp] theorem State.setFollower_emitter (s : State) x : (s.setFollower x).emitter = s.emitter := rfl
@[simp] theorem State.setFollower_round (s : State) x : (s.setFollower x).round = s.round := rfl
@[simp] theorem State.setFollower_events (s : State) x : (s.setFollower x).events = s.events := rfl
@[simp] theorem State.setFollower_head (s : State) x : (s.setFollower x).head = s.head := rfl
@[simp] theorem State.setFollower_station (s : State) x : (s.setFollower x).station = s.station := rfl
@[simp] theorem State.setFollower_localTime (s : State) x : (s.setFollower x).localTime = s.localTime := rfl
@[simp] theorem State.setFollower_service (s : State) x : (s.setFollower x).service = s.service := rfl
@[simp] theorem State.setFollower_freeCount (s : State) x : (s.setFollower x).freeCount = s.freeCount := rfl
@[simp] theorem State.setFollower_pending (s : State) x : (s.setFollower x).pending = s.pending := rfl

@[simp] theorem State.setSearch_correction (s : State) x : (s.setSearch x).correction = s.correction := rfl
@[simp] theorem State.setSearch_poses (s : State) x : (s.setSearch x).poses = s.poses := rfl
@[simp] theorem State.setSearch_distance (s : State) x : (s.setSearch x).distance = s.distance := rfl
@[simp] theorem State.setSearch_follower (s : State) x : (s.setSearch x).follower = s.follower := rfl
@[simp] theorem State.setSearch_search (s : State) x : (s.setSearch x).search = x := rfl
@[simp] theorem State.setSearch_emitter (s : State) x : (s.setSearch x).emitter = s.emitter := rfl
@[simp] theorem State.setSearch_round (s : State) x : (s.setSearch x).round = s.round := rfl
@[simp] theorem State.setSearch_events (s : State) x : (s.setSearch x).events = s.events := rfl
@[simp] theorem State.setSearch_head (s : State) x : (s.setSearch x).head = s.head := rfl
@[simp] theorem State.setSearch_station (s : State) x : (s.setSearch x).station = s.station := rfl
@[simp] theorem State.setSearch_localTime (s : State) x : (s.setSearch x).localTime = s.localTime := rfl
@[simp] theorem State.setSearch_service (s : State) x : (s.setSearch x).service = s.service := rfl
@[simp] theorem State.setSearch_freeCount (s : State) x : (s.setSearch x).freeCount = s.freeCount := rfl
@[simp] theorem State.setSearch_pending (s : State) x : (s.setSearch x).pending = s.pending := rfl

@[simp] theorem State.setEmitter_correction (s : State) x : (s.setEmitter x).correction = s.correction := rfl
@[simp] theorem State.setEmitter_poses (s : State) x : (s.setEmitter x).poses = s.poses := rfl
@[simp] theorem State.setEmitter_distance (s : State) x : (s.setEmitter x).distance = s.distance := rfl
@[simp] theorem State.setEmitter_follower (s : State) x : (s.setEmitter x).follower = s.follower := rfl
@[simp] theorem State.setEmitter_search (s : State) x : (s.setEmitter x).search = s.search := rfl
@[simp] theorem State.setEmitter_emitter (s : State) x : (s.setEmitter x).emitter = x := rfl
@[simp] theorem State.setEmitter_round (s : State) x : (s.setEmitter x).round = s.round := rfl
@[simp] theorem State.setEmitter_events (s : State) x : (s.setEmitter x).events = s.events := rfl
@[simp] theorem State.setEmitter_head (s : State) x : (s.setEmitter x).head = s.head := rfl
@[simp] theorem State.setEmitter_station (s : State) x : (s.setEmitter x).station = s.station := rfl
@[simp] theorem State.setEmitter_localTime (s : State) x : (s.setEmitter x).localTime = s.localTime := rfl
@[simp] theorem State.setEmitter_service (s : State) x : (s.setEmitter x).service = s.service := rfl
@[simp] theorem State.setEmitter_freeCount (s : State) x : (s.setEmitter x).freeCount = s.freeCount := rfl
@[simp] theorem State.setEmitter_pending (s : State) x : (s.setEmitter x).pending = s.pending := rfl

@[simp] theorem State.setRound_correction (s : State) x : (s.setRound x).correction = s.correction := rfl
@[simp] theorem State.setRound_poses (s : State) x : (s.setRound x).poses = s.poses := rfl
@[simp] theorem State.setRound_distance (s : State) x : (s.setRound x).distance = s.distance := rfl
@[simp] theorem State.setRound_follower (s : State) x : (s.setRound x).follower = s.follower := rfl
@[simp] theorem State.setRound_search (s : State) x : (s.setRound x).search = s.search := rfl
@[simp] theorem State.setRound_emitter (s : State) x : (s.setRound x).emitter = s.emitter := rfl
@[simp] theorem State.setRound_round (s : State) x : (s.setRound x).round = x := rfl
@[simp] theorem State.setRound_events (s : State) x : (s.setRound x).events = s.events := rfl
@[simp] theorem State.setRound_head (s : State) x : (s.setRound x).head = s.head := rfl
@[simp] theorem State.setRound_station (s : State) x : (s.setRound x).station = s.station := rfl
@[simp] theorem State.setRound_localTime (s : State) x : (s.setRound x).localTime = s.localTime := rfl
@[simp] theorem State.setRound_service (s : State) x : (s.setRound x).service = s.service := rfl
@[simp] theorem State.setRound_freeCount (s : State) x : (s.setRound x).freeCount = s.freeCount := rfl
@[simp] theorem State.setRound_pending (s : State) x : (s.setRound x).pending = s.pending := rfl

@[simp] theorem State.setEvents_correction (s : State) x : (s.setEvents x).correction = s.correction := rfl
@[simp] theorem State.setEvents_poses (s : State) x : (s.setEvents x).poses = s.poses := rfl
@[simp] theorem State.setEvents_distance (s : State) x : (s.setEvents x).distance = s.distance := rfl
@[simp] theorem State.setEvents_follower (s : State) x : (s.setEvents x).follower = s.follower := rfl
@[simp] theorem State.setEvents_search (s : State) x : (s.setEvents x).search = s.search := rfl
@[simp] theorem State.setEvents_emitter (s : State) x : (s.setEvents x).emitter = s.emitter := rfl
@[simp] theorem State.setEvents_round (s : State) x : (s.setEvents x).round = s.round := rfl
@[simp] theorem State.setEvents_events (s : State) x : (s.setEvents x).events = x := rfl
@[simp] theorem State.setEvents_head (s : State) x : (s.setEvents x).head = s.head := rfl
@[simp] theorem State.setEvents_station (s : State) x : (s.setEvents x).station = s.station := rfl
@[simp] theorem State.setEvents_localTime (s : State) x : (s.setEvents x).localTime = s.localTime := rfl
@[simp] theorem State.setEvents_service (s : State) x : (s.setEvents x).service = s.service := rfl
@[simp] theorem State.setEvents_freeCount (s : State) x : (s.setEvents x).freeCount = s.freeCount := rfl
@[simp] theorem State.setEvents_pending (s : State) x : (s.setEvents x).pending = s.pending := rfl

@[simp] theorem State.setHead_correction (s : State) x : (s.setHead x).correction = s.correction := rfl
@[simp] theorem State.setHead_poses (s : State) x : (s.setHead x).poses = s.poses := rfl
@[simp] theorem State.setHead_distance (s : State) x : (s.setHead x).distance = s.distance := rfl
@[simp] theorem State.setHead_follower (s : State) x : (s.setHead x).follower = s.follower := rfl
@[simp] theorem State.setHead_search (s : State) x : (s.setHead x).search = s.search := rfl
@[simp] theorem State.setHead_emitter (s : State) x : (s.setHead x).emitter = s.emitter := rfl
@[simp] theorem State.setHead_round (s : State) x : (s.setHead x).round = s.round := rfl
@[simp] theorem State.setHead_events (s : State) x : (s.setHead x).events = s.events := rfl
@[simp] theorem State.setHead_head (s : State) x : (s.setHead x).head = x := rfl
@[simp] theorem State.setHead_station (s : State) x : (s.setHead x).station = s.station := rfl
@[simp] theorem State.setHead_localTime (s : State) x : (s.setHead x).localTime = s.localTime := rfl
@[simp] theorem State.setHead_service (s : State) x : (s.setHead x).service = s.service := rfl
@[simp] theorem State.setHead_freeCount (s : State) x : (s.setHead x).freeCount = s.freeCount := rfl
@[simp] theorem State.setHead_pending (s : State) x : (s.setHead x).pending = s.pending := rfl

@[simp] theorem State.setStation_correction (s : State) x : (s.setStation x).correction = s.correction := rfl
@[simp] theorem State.setStation_poses (s : State) x : (s.setStation x).poses = s.poses := rfl
@[simp] theorem State.setStation_distance (s : State) x : (s.setStation x).distance = s.distance := rfl
@[simp] theorem State.setStation_follower (s : State) x : (s.setStation x).follower = s.follower := rfl
@[simp] theorem State.setStation_search (s : State) x : (s.setStation x).search = s.search := rfl
@[simp] theorem State.setStation_emitter (s : State) x : (s.setStation x).emitter = s.emitter := rfl
@[simp] theorem State.setStation_round (s : State) x : (s.setStation x).round = s.round := rfl
@[simp] theorem State.setStation_events (s : State) x : (s.setStation x).events = s.events := rfl
@[simp] theorem State.setStation_head (s : State) x : (s.setStation x).head = s.head := rfl
@[simp] theorem State.setStation_station (s : State) x : (s.setStation x).station = x := rfl
@[simp] theorem State.setStation_localTime (s : State) x : (s.setStation x).localTime = s.localTime := rfl
@[simp] theorem State.setStation_service (s : State) x : (s.setStation x).service = s.service := rfl
@[simp] theorem State.setStation_freeCount (s : State) x : (s.setStation x).freeCount = s.freeCount := rfl
@[simp] theorem State.setStation_pending (s : State) x : (s.setStation x).pending = s.pending := rfl

@[simp] theorem State.setLocalTime_correction (s : State) x : (s.setLocalTime x).correction = s.correction := rfl
@[simp] theorem State.setLocalTime_poses (s : State) x : (s.setLocalTime x).poses = s.poses := rfl
@[simp] theorem State.setLocalTime_distance (s : State) x : (s.setLocalTime x).distance = s.distance := rfl
@[simp] theorem State.setLocalTime_follower (s : State) x : (s.setLocalTime x).follower = s.follower := rfl
@[simp] theorem State.setLocalTime_search (s : State) x : (s.setLocalTime x).search = s.search := rfl
@[simp] theorem State.setLocalTime_emitter (s : State) x : (s.setLocalTime x).emitter = s.emitter := rfl
@[simp] theorem State.setLocalTime_round (s : State) x : (s.setLocalTime x).round = s.round := rfl
@[simp] theorem State.setLocalTime_events (s : State) x : (s.setLocalTime x).events = s.events := rfl
@[simp] theorem State.setLocalTime_head (s : State) x : (s.setLocalTime x).head = s.head := rfl
@[simp] theorem State.setLocalTime_station (s : State) x : (s.setLocalTime x).station = s.station := rfl
@[simp] theorem State.setLocalTime_localTime (s : State) x : (s.setLocalTime x).localTime = x := rfl
@[simp] theorem State.setLocalTime_service (s : State) x : (s.setLocalTime x).service = s.service := rfl
@[simp] theorem State.setLocalTime_freeCount (s : State) x : (s.setLocalTime x).freeCount = s.freeCount := rfl
@[simp] theorem State.setLocalTime_pending (s : State) x : (s.setLocalTime x).pending = s.pending := rfl

@[simp] theorem State.setService_correction (s : State) x : (s.setService x).correction = s.correction := rfl
@[simp] theorem State.setService_poses (s : State) x : (s.setService x).poses = s.poses := rfl
@[simp] theorem State.setService_distance (s : State) x : (s.setService x).distance = s.distance := rfl
@[simp] theorem State.setService_follower (s : State) x : (s.setService x).follower = s.follower := rfl
@[simp] theorem State.setService_search (s : State) x : (s.setService x).search = s.search := rfl
@[simp] theorem State.setService_emitter (s : State) x : (s.setService x).emitter = s.emitter := rfl
@[simp] theorem State.setService_round (s : State) x : (s.setService x).round = s.round := rfl
@[simp] theorem State.setService_events (s : State) x : (s.setService x).events = s.events := rfl
@[simp] theorem State.setService_head (s : State) x : (s.setService x).head = s.head := rfl
@[simp] theorem State.setService_station (s : State) x : (s.setService x).station = s.station := rfl
@[simp] theorem State.setService_localTime (s : State) x : (s.setService x).localTime = s.localTime := rfl
@[simp] theorem State.setService_service (s : State) x : (s.setService x).service = x := rfl
@[simp] theorem State.setService_freeCount (s : State) x : (s.setService x).freeCount = s.freeCount := rfl
@[simp] theorem State.setService_pending (s : State) x : (s.setService x).pending = s.pending := rfl

@[simp] theorem State.setFreeCount_correction (s : State) x : (s.setFreeCount x).correction = s.correction := rfl
@[simp] theorem State.setFreeCount_poses (s : State) x : (s.setFreeCount x).poses = s.poses := rfl
@[simp] theorem State.setFreeCount_distance (s : State) x : (s.setFreeCount x).distance = s.distance := rfl
@[simp] theorem State.setFreeCount_follower (s : State) x : (s.setFreeCount x).follower = s.follower := rfl
@[simp] theorem State.setFreeCount_search (s : State) x : (s.setFreeCount x).search = s.search := rfl
@[simp] theorem State.setFreeCount_emitter (s : State) x : (s.setFreeCount x).emitter = s.emitter := rfl
@[simp] theorem State.setFreeCount_round (s : State) x : (s.setFreeCount x).round = s.round := rfl
@[simp] theorem State.setFreeCount_events (s : State) x : (s.setFreeCount x).events = s.events := rfl
@[simp] theorem State.setFreeCount_head (s : State) x : (s.setFreeCount x).head = s.head := rfl
@[simp] theorem State.setFreeCount_station (s : State) x : (s.setFreeCount x).station = s.station := rfl
@[simp] theorem State.setFreeCount_localTime (s : State) x : (s.setFreeCount x).localTime = s.localTime := rfl
@[simp] theorem State.setFreeCount_service (s : State) x : (s.setFreeCount x).service = s.service := rfl
@[simp] theorem State.setFreeCount_freeCount (s : State) x : (s.setFreeCount x).freeCount = x := rfl
@[simp] theorem State.setFreeCount_pending (s : State) x : (s.setFreeCount x).pending = s.pending := rfl

@[simp] theorem State.setPending_correction (s : State) x : (s.setPending x).correction = s.correction := rfl
@[simp] theorem State.setPending_poses (s : State) x : (s.setPending x).poses = s.poses := rfl
@[simp] theorem State.setPending_distance (s : State) x : (s.setPending x).distance = s.distance := rfl
@[simp] theorem State.setPending_follower (s : State) x : (s.setPending x).follower = s.follower := rfl
@[simp] theorem State.setPending_search (s : State) x : (s.setPending x).search = s.search := rfl
@[simp] theorem State.setPending_emitter (s : State) x : (s.setPending x).emitter = s.emitter := rfl
@[simp] theorem State.setPending_round (s : State) x : (s.setPending x).round = s.round := rfl
@[simp] theorem State.setPending_events (s : State) x : (s.setPending x).events = s.events := rfl
@[simp] theorem State.setPending_head (s : State) x : (s.setPending x).head = s.head := rfl
@[simp] theorem State.setPending_station (s : State) x : (s.setPending x).station = s.station := rfl
@[simp] theorem State.setPending_localTime (s : State) x : (s.setPending x).localTime = s.localTime := rfl
@[simp] theorem State.setPending_service (s : State) x : (s.setPending x).service = s.service := rfl
@[simp] theorem State.setPending_freeCount (s : State) x : (s.setPending x).freeCount = s.freeCount := rfl
@[simp] theorem State.setPending_pending (s : State) x : (s.setPending x).pending = x := rfl

end Sys2Proof.Machine
end

