-- ==== Sys2Proof/Laws/Frames.lean ====
section
/-! SUPPORT. What each shared operation leaves unchanged, as one `keepsOthers` lemma each. -/

namespace Sys2Proof.Machine

/-! ### Reasoning with frames -/

theorem keeps_refl (l : List Part) (s : State) : keepsOthers l s s := by
  intro p _; cases p <;> rfl

theorem samePart_trans {p : Part} {s t u : State} (h : samePart p s t) (k : samePart p t u) : samePart p s u := by
  cases p <;> exact Eq.trans k h

/-- Two steps in a row, each within the same fields. -/
theorem keeps_trans {l : List Part} {s t u : State} (h : keepsOthers l s t) (k : keepsOthers l t u) : keepsOthers l s u :=
  fun p hp => samePart_trans (h p hp) (k p hp)

/-- A wider list of fields. -/
theorem keeps_mono {l m : List Part} {s t : State} (h : keepsOthers l s t) (hlm : l ⊆ m) : keepsOthers m s t :=
  fun p hp => h p fun hl => hp (hlm hl)

/-- One more operation after a step. -/
theorem keeps_then {l m : List Part} {s t u : State} (h : keepsOthers l s t) (k : keepsOthers m t u) (hm : m ⊆ l) :
    keepsOthers l s u :=
  keeps_trans h (keeps_mono k hm)

/-! ### The setters -/

theorem keeps_setCorrection (s : State) x : keepsOthers [.correction] s (s.setCorrection x) := by
  intro p hp; cases p <;> simp_all [samePart]

theorem keeps_setPoses (s : State) x : keepsOthers [.poses] s (s.setPoses x) := by
  intro p hp; cases p <;> simp_all [samePart]

theorem keeps_setDistance (s : State) x : keepsOthers [.distance] s (s.setDistance x) := by
  intro p hp; cases p <;> simp_all [samePart]

theorem keeps_setFollower (s : State) x : keepsOthers [.follower] s (s.setFollower x) := by
  intro p hp; cases p <;> simp_all [samePart]

theorem keeps_setSearch (s : State) x : keepsOthers [.search] s (s.setSearch x) := by
  intro p hp; cases p <;> simp_all [samePart]

theorem keeps_setEmitter (s : State) x : keepsOthers [.emitter] s (s.setEmitter x) := by
  intro p hp; cases p <;> simp_all [samePart]

theorem keeps_setRound (s : State) x : keepsOthers [.round] s (s.setRound x) := by
  intro p hp; cases p <;> simp_all [samePart]

theorem keeps_setEvents (s : State) x : keepsOthers [.events] s (s.setEvents x) := by
  intro p hp; cases p <;> simp_all [samePart]

theorem keeps_setHead (s : State) x : keepsOthers [.head] s (s.setHead x) := by
  intro p hp; cases p <;> simp_all [samePart]

theorem keeps_setStation (s : State) x : keepsOthers [.station] s (s.setStation x) := by
  intro p hp; cases p <;> simp_all [samePart]

theorem keeps_setLocalTime (s : State) x : keepsOthers [.localTime] s (s.setLocalTime x) := by
  intro p hp; cases p <;> simp_all [samePart]

theorem keeps_setService (s : State) x : keepsOthers [.service] s (s.setService x) := by
  intro p hp; cases p <;> simp_all [samePart]

theorem keeps_setFreeCount (s : State) x : keepsOthers [.freeCount] s (s.setFreeCount x) := by
  intro p hp; cases p <;> simp_all [samePart]

theorem keeps_setPending (s : State) x : keepsOthers [.pending] s (s.setPending x) := by
  intro p hp; cases p <;> simp_all [samePart]

/-! ### Events, the output queue and the head transmitter -/

theorem keeps_occur (src : Source) (s : State) : keepsOthers [.events] s (occur src s) := keeps_setEvents s _

theorem keeps_reportLevel (src : Source) (s : State) : keepsOthers [.events] s (reportLevel src s) := keeps_setEvents s _

theorem keeps_reevaluate (s : State) : keepsOthers [.events] s (reevaluate s) := keeps_setEvents s _

theorem keeps_useFree (s : State) : keepsOthers [.freeCount] s (useFree s) := keeps_setFreeCount s _

theorem keeps_admit (r : Record) (s : State) : keepsOthers [.station, .events] s (admitRecord r s) :=
  keeps_then (keeps_mono (keeps_setStation s _) (by simp)) (keeps_reportLevel _ _) (by simp)

theorem keeps_depart (s : State) : keepsOthers [.station, .events] s (depart s) := by
  unfold depart
  split
  · exact keeps_refl _ s
  · exact keeps_mono (keeps_setStation s _) (by simp)
  · exact keeps_then (keeps_mono (keeps_setStation s _) (by simp)) (keeps_reportLevel _ _) (by simp)

theorem keeps_beginRecord (s : State) : keepsOthers [.station] s (beginRecord s) := by
  unfold beginRecord
  split
  · exact keeps_setStation s _
  · exact keeps_refl _ s

theorem keeps_offerPoint (r : PointRecord) (s : State) : keepsOthers [.station, .events, .emitter] s (offerPoint r s) := by
  unfold offerPoint
  split
  · exact keeps_then (keeps_mono (keeps_admit _ s) (by simp)) (keeps_setEmitter _ _) (by simp)
  · exact keeps_mono (keeps_setStation s _) (by simp)

theorem keeps_offerStatus (h : HeadStatus) (s : State) : keepsOthers [.station, .events] s (offerStatus h s) := by
  unfold offerStatus
  split
  · exact keeps_admit _ s
  · exact keeps_mono (keeps_setStation s _) (by simp)

theorem keeps_admitEvent (src : Source) (s : State) : keepsOthers [.station, .events] s (admitEvent src s) :=
  keeps_trans (keeps_mono (keeps_setEvents s _) (by simp)) (keeps_admit _ _)

theorem keeps_arbitrate (s : State) : keepsOthers [.station, .events] s (arbitrate s) := by
  unfold arbitrate
  split
  · split
    · exact keeps_admitEvent _ s
    · exact keeps_refl _ s
  · exact keeps_refl _ s

theorem keeps_headBegin (s : State) : keepsOthers [.head] s (headBegin s) := by
  unfold headBegin
  split
  · exact keeps_refl _ s
  · split
    · exact keeps_setHead s _
    · split
      · exact keeps_setHead s _
      · exact keeps_refl _ s

theorem keeps_writeSteer (f : Steer) (s : State) : keepsOthers [.head] s (writeSteer f s) :=
  keeps_trans (keeps_setHead s _) (keeps_headBegin _)

theorem keeps_headDone (s : State) : keepsOthers [.head] s (headDone s) := by
  unfold headDone
  split
  · exact keeps_refl _ s
  · exact keeps_trans (keeps_setHead s _) (keeps_headBegin _)

theorem keeps_passForward (f : ForwardFrame) (s : State) : keepsOthers [.head, .events] s (passForward f s) := by
  unfold passForward
  split
  · exact keeps_mono (keeps_trans (keeps_setHead s _) (keeps_headBegin _)) (by simp)
  · exact keeps_then (keeps_mono (keeps_setHead s _) (by simp)) (keeps_occur _ _) (by simp)

/-! ### The distance unit -/

theorem keeps_cancelWait (s : State) : keepsOthers [.distance] s (cancelWait s) := by
  unfold cancelWait
  split
  · exact keeps_setDistance s _
  · exact keeps_setDistance s _
  · exact keeps_refl _ s
  · exact keeps_refl _ s

theorem keeps_dropBase (c : LossCause) (s : State) : keepsOthers [.distance, .events] s (dropBase c s) := by
  unfold dropBase
  split
  · exact keeps_then (keeps_mono (keeps_setDistance s _) (by simp)) (keeps_occur _ _) (by simp)
  all_goals exact keeps_refl _ s

theorem keeps_leaveDistance (c : LossCause) (s : State) : keepsOthers [.distance, .events] s (leaveDistance c s) :=
  keeps_trans (keeps_mono (keeps_cancelWait s) (by simp)) (keeps_dropBase c _)

theorem keeps_dropFault (s : State) : keepsOthers [.distance, .events] s (dropFault s) :=
  keeps_then (keeps_then (keeps_mono (keeps_setDistance s _) (by simp)) (keeps_occur _ _) (by simp)) (keeps_occur _ _) (by simp)

theorem keeps_releaseDistance (s : State) : keepsOthers [.distance] s (releaseDistance s) := by
  unfold releaseDistance
  split
  · exact keeps_setDistance s _
  · exact keeps_refl _ s
  all_goals exact keeps_cancelWait s

theorem keeps_startAdmWait (o : WaitOwner) (s : State) : keepsOthers [.distance] s (startAdmWait o s) := keeps_setDistance s _

theorem keeps_autoAdmWait (s : State) : keepsOthers [.distance] s (autoAdmWait s) := by
  unfold autoAdmWait
  split
  · exact keeps_startAdmWait _ s
  · exact keeps_refl _ s

theorem keeps_askRoundWait (s : State) : keepsOthers [.distance] s (askRoundWait s).1 := by
  unfold askRoundWait
  split
  · exact keeps_startAdmWait _ s
  · exact keeps_refl _ s

theorem keeps_decideDistance (f : Sample) (b : Bool) (s : State) :
    keepsOthers [.distance, .events] s (decideDistance f b s) := by
  unfold decideDistance
  split
  · exact keeps_refl _ s
  · split
    · exact keeps_refl _ s
    · exact keeps_dropBase _ s
  · split
    · split
      · exact keeps_mono (keeps_setDistance s _) (by simp)
      · exact keeps_refl _ s
    · exact keeps_refl _ s
  · split
    · exact keeps_mono (keeps_setDistance s _) (by simp)
    · exact keeps_refl _ s

theorem keeps_measure (f : Sample) (a : CorrectedAngles) (s : State) : keepsOthers [.distance, .events] s (measure f a s).1 := by
  unfold measure
  split
  · split
    · exact keeps_refl _ s
    · exact keeps_dropFault s
  all_goals exact keeps_refl _ s

theorem keeps_timeOutWait (k : DistanceSource) (s : State) : keepsOthers [.distance, .events] s (timeOutWait k s) :=
  keeps_then (keeps_mono (keeps_setDistance s _) (by simp)) (keeps_occur _ _) (by simp)

/-! ### The follower and the search unit -/

theorem keeps_storeFollower (u : Follower) (s : State) : keepsOthers [.follower, .events] s (storeFollower u s) :=
  keeps_then (keeps_mono (keeps_setFollower s _) (by simp)) (keeps_reportLevel _ _) (by simp)

theorem keeps_enterLost (s : State) : keepsOthers [.follower, .events] s (enterLost s) := keeps_storeFollower _ s

theorem keeps_enterFollowing (k : Bool) (s : State) : keepsOthers [.follower, .events, .distance] s (enterFollowing k s) :=
  keeps_then (keeps_mono (keeps_storeFollower _ s) (by simp)) (keeps_autoAdmWait _) (by simp)

theorem keeps_enterSearching (s : State) : keepsOthers [.follower, .events] s (enterSearching s) := keeps_storeFollower _ s

theorem keeps_storeSearch (u : SearchUnit) (s : State) : keepsOthers [.search, .events] s (storeSearch u s) :=
  keeps_then (keeps_mono (keeps_setSearch s _) (by simp)) (keeps_reportLevel _ _) (by simp)

theorem keeps_removeSearch (s : State) : keepsOthers [.search, .events] s (removeSearch s) := keeps_storeSearch _ s

theorem keeps_abortSearch (s : State) : keepsOthers [.search, .events] s (abortSearch s) := by
  unfold abortSearch
  split
  · exact keeps_removeSearch s
  · exact keeps_refl _ s

theorem keeps_endSearch (src : Source) (s : State) : keepsOthers [.search, .events, .follower] s (endSearch src s) :=
  keeps_then
    (keeps_then (keeps_mono (keeps_removeSearch s) (by simp)) (keeps_occur _ _) (by simp)) (keeps_enterLost _) (by simp)

theorem keeps_startSearch (i : Fin 8) (c : Angles) (o : SearchOwner) (s : State) :
    keepsOthers [.search, .events, .follower] s (startSearch i c o s).1 := by
  unfold startSearch
  dsimp only
  split
  · exact keeps_then (keeps_mono (keeps_storeSearch _ s) (by simp)) (keeps_enterSearching _) (by simp)
  · split
    · exact keeps_trans
        (keeps_then (keeps_mono (keeps_storeSearch _ s) (by simp)) (keeps_enterSearching _) (by simp)) (keeps_endSearch _ _)
    · exact keeps_then (keeps_mono (keeps_storeSearch _ s) (by simp)) (keeps_enterSearching _) (by simp)

theorem keeps_askSearch (d : Option (Fin 8)) (c : Angles) (o : SearchOwner) (s : State) :
    keepsOthers [.search, .events, .follower] s (askSearch d c o s).1 := by
  unfold askSearch
  split
  · exact keeps_refl _ s
  · split
    · exact keeps_startSearch _ c o s
    · exact keeps_refl _ s

theorem keeps_nextStep (a : ActiveSearch) (s : State) : keepsOthers [.search, .events, .follower] s (nextStep a s).1 := by
  unfold nextStep
  split
  · dsimp only
    split
    · exact keeps_mono (keeps_storeSearch _ s) (by simp)
    · split
      · exact keeps_mono (keeps_storeSearch _ s) (by simp)
      · exact keeps_endSearch _ s
  · split
    · exact keeps_endSearch _ s
    · exact keeps_mono (keeps_storeSearch _ s) (by simp)

theorem keeps_searchSample (s : State) : keepsOthers [.search, .events, .follower] s (searchSample s).1 := by
  unfold searchSample
  split
  · exact keeps_refl _ s
  · split
    · exact keeps_mono (keeps_setSearch s _) (by simp)
    · exact keeps_nextStep _ s

theorem keeps_enterAiming (t : Angles) (a : ThenAction) (o : AimOwner) (s : State) :
    keepsOthers [.search, .events, .follower, .distance] s (enterAiming t a o s) :=
  keeps_then
    (keeps_then (keeps_mono (keeps_abortSearch s) (by simp)) (keeps_storeFollower _ _) (by simp))
    (keeps_leaveDistance _ _) (by simp)

theorem keeps_enterParked (s : State) :
    keepsOthers [.search, .events, .follower, .distance, .head] s (enterParked s) :=
  keeps_then
    (keeps_then
      (keeps_then (keeps_mono (keeps_abortSearch s) (by simp)) (keeps_storeFollower _ _) (by simp))
      (keeps_leaveDistance _ _) (by simp))
    (keeps_writeSteer _ _) (by simp)

theorem keeps_closeLoop (k : Bool) (r : FollowerReport) (c : Corrected) (s : State) :
    keepsOthers [.follower, .events, .distance] s (closeLoop k r c s).state :=
  keeps_then (keeps_enterFollowing k s) (keeps_setFollower _ _) (by simp)

theorem keeps_autoSearch (c : Angles) (s : State) :
    keepsOthers [.search, .events, .follower] s (autoSearch c s).state := by
  have h := keeps_askSearch s.follower.autoSearch c .follower s
  unfold autoSearch
  split
  · simp_all
  · simp_all
  · rename_i t heq
    rw [heq] at h
    exact keeps_then h (keeps_enterLost t) (by simp)

/-- The follower's and the search unit's handling of a sample. -/
theorem keeps_followerSample (c : Corrected) (s : State) :
    keepsOthers [.search, .events, .follower, .distance] s (followerSample c s).state := by
  have hp : keepsOthers [.search, .events, .follower, .distance] s (notePresence c s) :=
    keeps_mono (keeps_setFollower s _) (by simp)
  have hset : ∀ (u : State) x, keepsOthers [.search, .events, .follower, .distance] u (u.setFollower x) :=
    fun u x => keeps_mono (keeps_setFollower u x) (by simp)
  have hloop : ∀ k r (u : State), keepsOthers [.search, .events, .follower, .distance] u (closeLoop k r c u).state :=
    fun k r u => keeps_mono (keeps_closeLoop k r c u) (by simp)
  have hlose : ∀ r (u : State), keepsOthers [.search, .events, .follower, .distance] u (loseBeam r u).state :=
    fun r u => keeps_mono (keeps_enterLost u) (by simp)
  have hauto : ∀ a (u : State), keepsOthers [.search, .events, .follower, .distance] u (autoSearch a u).state :=
    fun a u => keeps_mono (keeps_autoSearch a u) (by simp)
  have hgrace : ∀ u : State, keepsOthers [.search, .events, .follower, .distance] u (expireGrace u).state := by
    intro u
    unfold expireGrace
    split
    · exact hlose _ u
    · exact hauto _ u
  have hplay : ∀ o (u : State), keepsOthers [.search, .events, .follower, .distance] u (playSample o u).state := by
    intro o u
    have h := keeps_searchSample u
    unfold playSample
    split <;> simp_all <;> exact keeps_mono h (by simp)
  refine keeps_trans hp ?_
  unfold followerSample
  generalize notePresence c s = u
  unfold followerTransition
  split
  · unfold decidePending
    dsimp only
    split
    · exact keeps_trans (hset u _) (hloop _ _ _)
    · exact keeps_trans (hset u _) (hauto _ _)
  · split
    · exact keeps_refl _ u
    · split
      · unfold aimSample
        split
        · exact hset u _
        · split
          · exact hset u _
          · split
            · exact hloop _ _ u
            · exact hlose _ u
            · exact hlose _ u
      · exact keeps_refl _ u
    · split
      · exact hset u _
      · unfold enterHolding
        dsimp only
        have hst := keeps_mono (m := [.search, .events, .follower, .distance])
          (keeps_storeFollower { u.follower with state := .holding, grace := some u.follower.graceParam } u) (by simp)
        split
        · exact keeps_trans hst (hgrace _)
        · exact hst
    · split
      · exact hloop _ _ u
      · unfold countGrace
        dsimp only
        split
        · exact keeps_trans (hset u _) (hgrace _)
        · exact hset u _
    · unfold searchingSample
      dsimp only
      split
      · split
        · exact keeps_trans (hset u _) (hplay _ _)
        · unfold acquire
          exact keeps_trans
            (keeps_then (keeps_mono (keeps_removeSearch u) (by simp)) (keeps_occur _ _) (by simp)) (hloop _ _ _)
      · exact keeps_trans (hset u _) (hplay _ _)
    · unfold lostSample
      split
      · split
        · split
          · exact hset u _
          · exact hloop _ _ u
        · exact hset u _
      · exact keeps_refl _ u

/-! ### The emitter -/

theorem keeps_setMode (m : EmissionMode) (s : State) : keepsOthers [.emitter] s (setMode m s) := keeps_setEmitter s _

theorem keeps_abortSingle (s : State) : keepsOthers [.emitter, .events] s (abortSingle s) := by
  unfold abortSingle
  split
  · exact keeps_then (keeps_mono (keeps_setMode _ s) (by simp)) (keeps_occur _ _) (by simp)
  · exact keeps_refl _ s

theorem keeps_abortIfBroken (b s : State) : keepsOthers [.emitter, .events] s (abortIfBroken b s) := by
  unfold abortIfBroken
  split
  · exact keeps_abortSingle s
  · exact keeps_refl _ s

theorem keeps_emitterSample (c : Corrected) (s : State) :
    keepsOthers [.station, .events, .emitter] s (emitterSample c s) := by
  have hset : ∀ (u : State) x, keepsOthers [.station, .events, .emitter] u (u.setEmitter x) :=
    fun u x => keeps_mono (keeps_setEmitter u x) (by simp)
  have hmode : ∀ m (u : State), keepsOthers [.station, .events, .emitter] u (setMode m u) := fun m u => hset u _
  have hoffer : ∀ m p (u : State), keepsOthers [.station, .events, .emitter] u (offerPoint p (setMode m u)) :=
    fun m p u => keeps_trans (hmode m u) (keeps_offerPoint p _)
  unfold emitterSample
  dsimp only
  refine keeps_trans (hset s { s.emitter with latestTimestamp := some c.frame.timestamp }) ?_
  generalize s.setEmitter { s.emitter with latestTimestamp := some c.frame.timestamp } = u
  split
  · exact keeps_mono (keeps_abortSingle u) (by simp)
  · rename_i d _
    refine keeps_trans (t := writeLatest c d u) (hset u _) ?_
    generalize writeLatest c d u = v
    unfold modeSample
    split
    · exact keeps_refl _ v
    · unfold singleSample
      split
      · exact hmode _ v
      · split
        · dsimp only
          split
          · exact hoffer _ _ v
          · exact hmode _ v
        · exact hmode _ v
    · unfold streamSample
      split
      · exact hoffer _ _ v
      · exact hmode _ v
    · unfold spacedSample
      split
      · exact hoffer _ _ v
      · exact keeps_refl _ v
    · unfold triggeredSample
      split
      · exact keeps_refl _ v
      · exact hoffer _ _ v

/-! ### The round unit -/

/-- The fields that a round changes on its way through its slots. -/
def roundParts : List Part := [.round, .search, .events, .follower, .distance, .head]

theorem keeps_setRoundState (st : RoundState) (s : State) : keepsOthers [.round] s (setRoundState st s) := keeps_setRound s _

theorem keeps_storeRoundState (st : RoundState) (s : State) : keepsOthers [.round, .events] s (storeRoundState st s) :=
  keeps_then (keeps_mono (keeps_setRoundState st s) (by simp)) (keeps_reportLevel _ _) (by simp)

theorem keeps_beginSlot (r : RunningRound) (e : Fin 16) (s : State) : keepsOthers roundParts s (beginSlot r e s) :=
  keeps_then (keeps_mono (keeps_setRoundState _ s) (by simp [roundParts])) (keeps_enterAiming _ _ _ _) (by simp [roundParts])

theorem keeps_returnRound (s : State) : keepsOthers roundParts s (returnRound s) := by
  unfold returnRound
  split
  · exact keeps_mono (keeps_enterAiming _ _ _ s) (by simp [roundParts])
  · exact keeps_mono (keeps_enterParked s) (by simp [roundParts])
  · exact keeps_mono (keeps_enterParked s) (by simp [roundParts])

theorem keeps_completeRound (l : List PendingResult) (s : State) : keepsOthers roundParts s (completeRound l s) :=
  keeps_trans
    (keeps_then
      (keeps_then (keeps_mono (keeps_setRound s _) (by simp [roundParts])) (keeps_occur _ _) (by simp [roundParts]))
      (keeps_reportLevel _ _) (by simp [roundParts]))
    (keeps_returnRound _)

theorem keeps_endSlot (r : FiducialResult) (a : Option Angles) (s : State) : keepsOthers roundParts s (endSlot r a s) := by
  unfold endSlot
  split
  · dsimp only
    split
    · exact keeps_trans (keeps_mono (keeps_releaseDistance s) (by simp [roundParts])) (keeps_beginSlot _ _ _)
    · exact keeps_trans (keeps_mono (keeps_releaseDistance s) (by simp [roundParts])) (keeps_completeRound _ _)
  all_goals exact keeps_refl _ s

theorem keeps_startRoundNow (s : State) : keepsOthers roundParts s (startRoundNow s) := by
  unfold startRoundNow
  split
  · exact keeps_refl _ s
  · exact keeps_trans
      (keeps_then
        (keeps_then (keeps_mono (keeps_setRound s _) (by simp [roundParts])) (keeps_reportLevel _ _) (by simp [roundParts]))
        (keeps_releaseDistance _) (by simp [roundParts]))
      (keeps_beginSlot _ _ _)

theorem keeps_abandonRound (a : AbortReason) (s : State) : keepsOthers [.round, .events] s (abandonRound a s) :=
  keeps_then (keeps_then (keeps_mono (keeps_setRound s _) (by simp)) (keeps_reportLevel _ _) (by simp)) (keeps_occur _ _)
    (by simp)

theorem keeps_tryRound (s : State) : keepsOthers roundParts s (tryRound s) := by
  unfold tryRound
  split
  · exact keeps_startRoundNow s
  · exact keeps_mono (keeps_abandonRound _ s) (by simp [roundParts])

theorem keeps_examineDue (s : State) : keepsOthers roundParts s (examineDue s) := by
  unfold examineDue
  split
  · exact keeps_tryRound s
  · exact keeps_refl _ s

theorem keeps_expirePeriod (s : State) : keepsOthers roundParts s (expirePeriod s) := by
  have h : keepsOthers roundParts s (s.setRound (loadPeriod s.round)) :=
    keeps_mono (keeps_setRound s _) (by simp [roundParts])
  unfold expirePeriod
  dsimp only
  split
  · exact h
  · exact h
  · split
    · exact keeps_then h (keeps_storeRoundState _ _) (by simp [roundParts])
    · exact keeps_trans h (keeps_tryRound _)

theorem keeps_discardRound (a : AbortReason) (s : State) : keepsOthers [.round, .events] s (discardRound a s) :=
  keeps_trans (keeps_mono (keeps_setRound s _) (by simp)) (keeps_abandonRound a _)

theorem keeps_stopRoundFor (a : AbortReason) (s : State) : keepsOthers roundParts s (stopRoundFor a s) := by
  unfold stopRoundFor
  split
  · exact keeps_then (keeps_mono (keeps_releaseDistance s) (by simp [roundParts])) (keeps_discardRound a _) (by simp [roundParts])
  · exact keeps_mono (keeps_abandonRound a s) (by simp [roundParts])
  · exact keeps_refl _ s

theorem keeps_endDue (a : AbortReason) (s : State) : keepsOthers [.round, .events] s (endDue a s) := by
  unfold endDue
  split
  · exact keeps_abandonRound a s
  · exact keeps_refl _ s

theorem keeps_askRoundSearch (r : RunningRound) (s : State) : keepsOthers roundParts s (askRoundSearch r s).state := by
  have h := keeps_mono (m := roundParts)
    (keeps_askSearch (s.round.entry r).descriptor (s.round.entry r).aim .round s) (by simp [roundParts])
  unfold askRoundSearch
  split <;> simp_all
  exact keeps_then h (keeps_setRoundState _ _) (by simp [roundParts])

theorem keeps_roundSearch (c : Corrected) (h : Handled) : keepsOthers roundParts h.state (roundSearch c h).state := by
  unfold roundSearch
  split
  · split
    · split
      · exact keeps_refl _ _
      · exact keeps_askRoundSearch _ _
    · exact keeps_askRoundSearch _ _
    · exact keeps_trans (keeps_mono (keeps_releaseDistance _) (by simp [roundParts])) (keeps_askRoundSearch _ _)
    · exact keeps_refl _ _
  · exact keeps_refl _ _
  · exact keeps_refl _ _

theorem keeps_roundSample (rep : FollowerReport) (c : Corrected) (s : State) :
    keepsOthers roundParts s (roundSample rep c s) := by
  have hset : ∀ st (u : State), keepsOthers roundParts u (setRoundState st u) :=
    fun st u => keeps_mono (keeps_setRoundState st u) (by simp [roundParts])
  have hcentre : ∀ r (u : State), keepsOthers roundParts u (centreSample r c u) := by
    intro r u
    have hw := keeps_mono (m := roundParts) (keeps_askRoundWait u) (by simp [roundParts])
    unfold centreSample
    split
    · split <;> simp_all
      · exact keeps_trans hw (hset _ _)
      · exact keeps_trans hw (keeps_endSlot _ _ _)
    · exact hset _ u
  have havg : ∀ r (u : State), keepsOthers roundParts u (averageSample r c u) := by
    intro r u
    unfold averageSample
    split
    · exact keeps_endSlot _ _ u
    · dsimp only
      split
      · exact hset _ u
      · exact keeps_endSlot _ _ u
  unfold roundSample
  split
  · split
    · exact keeps_endSlot _ _ s
    · exact hset _ s
    · exact hcentre _ s
    · exact hcentre _ s
    · exact hcentre _ s
    · exact havg _ s
    · exact keeps_refl _ s
  · exact keeps_refl _ s
  · exact keeps_refl _ s

theorem keeps_roundEstablished (s : State) : keepsOthers [.round] s (roundEstablished s) := by
  unfold roundEstablished
  split
  · split
    · exact keeps_setRoundState _ s
    · exact keeps_refl _ s
  · exact keeps_refl _ s
  · exact keeps_refl _ s

theorem keeps_roundWaitFailed (s : State) : keepsOthers roundParts s (roundWaitFailed s) := by
  unfold roundWaitFailed
  split
  · split
    · exact keeps_endSlot _ _ s
    · exact keeps_refl _ s
  · exact keeps_refl _ s
  · exact keeps_refl _ s

/-! ### The taking of a sample -/

/-- The fields that the taking of a sample changes, besides the head receive queue in `head`. -/
def sampleParts : List Part :=
  [.correction, .round, .search, .events, .follower, .distance, .head, .emitter, .station]

theorem keeps_decideStep (f : Sample) (b : Bool) (s : State) : keepsOthers sampleParts s (decideStep f b s) := by
  have h := keeps_mono (m := sampleParts) (keeps_decideDistance f b s) (by simp [sampleParts])
  unfold decideStep noteEstablished
  split
  · exact keeps_then h (keeps_roundEstablished _) (by simp [sampleParts])
  · exact h

theorem keeps_correctSample (f : Sample) (s : State) : keepsOthers sampleParts s (correctSample f s).1 := by
  unfold correctSample
  split
  · exact keeps_trans (keeps_mono (keeps_setCorrection s _) (by simp [sampleParts])) (keeps_decideStep f _ _)
  · exact keeps_then (keeps_then (keeps_decideStep f _ s) (keeps_measure _ _ _) (by simp [sampleParts]))
      (keeps_setCorrection _ _) (by simp [sampleParts])

theorem keeps_handOver (c : Corrected) (s : State) : keepsOthers sampleParts s (handOver c s) := by
  have hw : ∀ o (u : State), keepsOthers sampleParts u (writeFrame o u) := by
    intro o u
    unfold writeFrame
    split
    · exact keeps_mono (keeps_writeSteer _ u) (by simp [sampleParts])
    · exact keeps_refl _ u
  have h1 := keeps_mono (m := sampleParts) (keeps_followerSample c s) (by simp [sampleParts])
  have h2 := keeps_then h1 (keeps_roundSearch c (followerSample c s)) (by simp [sampleParts, roundParts])
  unfold handOver
  exact keeps_then
    (keeps_then
      (keeps_then (keeps_trans h2 (hw _ _)) (keeps_emitterSample c _) (by simp [sampleParts]))
      (keeps_roundSample _ c _) (by simp [sampleParts, roundParts]))
    (keeps_examineDue _) (by simp [sampleParts, roundParts])

/-- A taken sample changes neither the pose table nor the local time, the SERVICE level, the free values or the queue. -/
theorem keeps_takeOldest (s : State) : keepsOthers sampleParts s (takeOldest s) := by
  unfold takeOldest
  split
  · exact keeps_refl _ s
  · exact keeps_trans
      (keeps_trans (keeps_mono (keeps_setHead s _) (by simp [sampleParts])) (keeps_correctSample _ _)) (keeps_handOver _ _)

end Sys2Proof.Machine
end

