-- ==== Sys2Proof/Laws/Fields.lean ====
section
/-! SUPPORT. The fields that each shared operation leaves unchanged, as one simplification lemma each. -/

namespace Sys2Proof.Machine

@[simp] theorem occur_keeps (src : Source) (s : State) :
    (occur src s).correction = s.correction ∧ (occur src s).poses = s.poses ∧ (occur src s).distance = s.distance ∧
      (occur src s).follower = s.follower ∧ (occur src s).search = s.search ∧ (occur src s).emitter = s.emitter ∧
      (occur src s).round = s.round ∧ (occur src s).head = s.head ∧ (occur src s).station = s.station ∧
      (occur src s).localTime = s.localTime ∧ (occur src s).service = s.service ∧ (occur src s).freeCount = s.freeCount ∧
      (occur src s).pending = s.pending := by
  have h := keeps_occur src s
  exact ⟨h .correction (by decide), h .poses (by decide), h .distance (by decide), h .follower (by decide),
    h .search (by decide), h .emitter (by decide), h .round (by decide), h .head (by decide), h .station (by decide),
    h .localTime (by decide), h .service (by decide), h .freeCount (by decide), h .pending (by decide)⟩

@[simp] theorem reportLevel_keeps (src : Source) (s : State) :
    (reportLevel src s).correction = s.correction ∧ (reportLevel src s).poses = s.poses ∧
      (reportLevel src s).distance = s.distance ∧ (reportLevel src s).follower = s.follower ∧
      (reportLevel src s).search = s.search ∧ (reportLevel src s).emitter = s.emitter ∧
      (reportLevel src s).round = s.round ∧ (reportLevel src s).head = s.head ∧ (reportLevel src s).station = s.station ∧
      (reportLevel src s).localTime = s.localTime ∧ (reportLevel src s).service = s.service ∧
      (reportLevel src s).freeCount = s.freeCount ∧ (reportLevel src s).pending = s.pending := by
  have h := keeps_reportLevel src s
  exact ⟨h .correction (by decide), h .poses (by decide), h .distance (by decide), h .follower (by decide),
    h .search (by decide), h .emitter (by decide), h .round (by decide), h .head (by decide), h .station (by decide),
    h .localTime (by decide), h .service (by decide), h .freeCount (by decide), h .pending (by decide)⟩

@[simp] theorem useFree_keeps (s : State) :
    (useFree s).correction = s.correction ∧ (useFree s).poses = s.poses ∧ (useFree s).distance = s.distance ∧
      (useFree s).follower = s.follower ∧ (useFree s).search = s.search ∧ (useFree s).emitter = s.emitter ∧
      (useFree s).round = s.round ∧ (useFree s).events = s.events ∧ (useFree s).head = s.head ∧
      (useFree s).station = s.station ∧ (useFree s).localTime = s.localTime ∧ (useFree s).service = s.service ∧
      (useFree s).pending = s.pending := by
  have h := keeps_useFree s
  exact ⟨h .correction (by decide), h .poses (by decide), h .distance (by decide), h .follower (by decide),
    h .search (by decide), h .emitter (by decide), h .round (by decide), h .events (by decide), h .head (by decide),
    h .station (by decide), h .localTime (by decide), h .service (by decide), h .pending (by decide)⟩

@[simp] theorem admit_keeps (r : Record) (s : State) :
    (admitRecord r s).correction = s.correction ∧ (admitRecord r s).poses = s.poses ∧ (admitRecord r s).distance = s.distance ∧
      (admitRecord r s).follower = s.follower ∧ (admitRecord r s).search = s.search ∧ (admitRecord r s).emitter = s.emitter ∧
      (admitRecord r s).round = s.round ∧ (admitRecord r s).head = s.head ∧ (admitRecord r s).localTime = s.localTime ∧
      (admitRecord r s).service = s.service ∧ (admitRecord r s).freeCount = s.freeCount ∧ (admitRecord r s).pending = s.pending := by
  have h := keeps_admit r s
  exact ⟨h .correction (by decide), h .poses (by decide), h .distance (by decide), h .follower (by decide),
    h .search (by decide), h .emitter (by decide), h .round (by decide), h .head (by decide), h .localTime (by decide),
    h .service (by decide), h .freeCount (by decide), h .pending (by decide)⟩

@[simp] theorem depart_keeps (s : State) :
    (depart s).correction = s.correction ∧ (depart s).poses = s.poses ∧ (depart s).distance = s.distance ∧
      (depart s).follower = s.follower ∧ (depart s).search = s.search ∧ (depart s).emitter = s.emitter ∧
      (depart s).round = s.round ∧ (depart s).head = s.head ∧ (depart s).localTime = s.localTime ∧
      (depart s).service = s.service ∧ (depart s).freeCount = s.freeCount ∧ (depart s).pending = s.pending := by
  have h := keeps_depart s
  exact ⟨h .correction (by decide), h .poses (by decide), h .distance (by decide), h .follower (by decide),
    h .search (by decide), h .emitter (by decide), h .round (by decide), h .head (by decide), h .localTime (by decide),
    h .service (by decide), h .freeCount (by decide), h .pending (by decide)⟩

@[simp] theorem beginRecord_keeps (s : State) :
    (beginRecord s).correction = s.correction ∧ (beginRecord s).poses = s.poses ∧
      (beginRecord s).distance = s.distance ∧ (beginRecord s).follower = s.follower ∧
      (beginRecord s).search = s.search ∧ (beginRecord s).emitter = s.emitter ∧ (beginRecord s).round = s.round ∧
      (beginRecord s).events = s.events ∧ (beginRecord s).head = s.head ∧ (beginRecord s).localTime = s.localTime ∧
      (beginRecord s).service = s.service ∧ (beginRecord s).freeCount = s.freeCount ∧
      (beginRecord s).pending = s.pending := by
  have h := keeps_beginRecord s
  exact ⟨h .correction (by decide), h .poses (by decide), h .distance (by decide), h .follower (by decide),
    h .search (by decide), h .emitter (by decide), h .round (by decide), h .events (by decide), h .head (by decide),
    h .localTime (by decide), h .service (by decide), h .freeCount (by decide), h .pending (by decide)⟩

/-- R178: what the beginning of a frame leaves in the station port. -/
@[simp] theorem beginRecord_station (s : State) :
    (beginRecord s).station =
      { s.station with tx := if s.station.tx = none ∧ s.station.out ≠ [] then some .front else s.station.tx } := by
  unfold beginRecord
  split <;> simp [State.setStation]

@[simp] theorem offerPoint_keeps (p : PointRecord) (s : State) :
    (offerPoint p s).correction = s.correction ∧ (offerPoint p s).poses = s.poses ∧
      (offerPoint p s).distance = s.distance ∧ (offerPoint p s).follower = s.follower ∧
      (offerPoint p s).search = s.search ∧ (offerPoint p s).round = s.round ∧ (offerPoint p s).head = s.head ∧
      (offerPoint p s).localTime = s.localTime ∧ (offerPoint p s).service = s.service ∧
      (offerPoint p s).freeCount = s.freeCount ∧ (offerPoint p s).pending = s.pending := by
  have h := keeps_offerPoint p s
  exact ⟨h .correction (by decide), h .poses (by decide), h .distance (by decide), h .follower (by decide),
    h .search (by decide), h .round (by decide), h .head (by decide), h .localTime (by decide), h .service (by decide),
    h .freeCount (by decide), h .pending (by decide)⟩

@[simp] theorem offerStatus_keeps (h : HeadStatus) (s : State) :
    (offerStatus h s).correction = s.correction ∧ (offerStatus h s).poses = s.poses ∧
      (offerStatus h s).distance = s.distance ∧ (offerStatus h s).follower = s.follower ∧
      (offerStatus h s).search = s.search ∧ (offerStatus h s).emitter = s.emitter ∧ (offerStatus h s).round = s.round ∧
      (offerStatus h s).head = s.head ∧ (offerStatus h s).localTime = s.localTime ∧
      (offerStatus h s).service = s.service ∧ (offerStatus h s).freeCount = s.freeCount ∧
      (offerStatus h s).pending = s.pending := by
  have h := keeps_offerStatus h s
  exact ⟨h .correction (by decide), h .poses (by decide), h .distance (by decide), h .follower (by decide),
    h .search (by decide), h .emitter (by decide), h .round (by decide), h .head (by decide), h .localTime (by decide),
    h .service (by decide), h .freeCount (by decide), h .pending (by decide)⟩

@[simp] theorem admitEvent_keeps (src : Source) (s : State) :
    (admitEvent src s).correction = s.correction ∧ (admitEvent src s).poses = s.poses ∧
      (admitEvent src s).distance = s.distance ∧ (admitEvent src s).follower = s.follower ∧
      (admitEvent src s).search = s.search ∧ (admitEvent src s).emitter = s.emitter ∧
      (admitEvent src s).round = s.round ∧ (admitEvent src s).head = s.head ∧
      (admitEvent src s).localTime = s.localTime ∧ (admitEvent src s).service = s.service ∧
      (admitEvent src s).freeCount = s.freeCount ∧ (admitEvent src s).pending = s.pending := by
  have h := keeps_admitEvent src s
  exact ⟨h .correction (by decide), h .poses (by decide), h .distance (by decide), h .follower (by decide),
    h .search (by decide), h .emitter (by decide), h .round (by decide), h .head (by decide), h .localTime (by decide),
    h .service (by decide), h .freeCount (by decide), h .pending (by decide)⟩

@[simp] theorem arbitrate_keeps (s : State) :
    (arbitrate s).correction = s.correction ∧ (arbitrate s).poses = s.poses ∧ (arbitrate s).distance = s.distance ∧
      (arbitrate s).follower = s.follower ∧ (arbitrate s).search = s.search ∧ (arbitrate s).emitter = s.emitter ∧
      (arbitrate s).round = s.round ∧ (arbitrate s).head = s.head ∧ (arbitrate s).localTime = s.localTime ∧
      (arbitrate s).service = s.service ∧ (arbitrate s).freeCount = s.freeCount ∧ (arbitrate s).pending = s.pending := by
  have h := keeps_arbitrate s
  exact ⟨h .correction (by decide), h .poses (by decide), h .distance (by decide), h .follower (by decide),
    h .search (by decide), h .emitter (by decide), h .round (by decide), h .head (by decide), h .localTime (by decide),
    h .service (by decide), h .freeCount (by decide), h .pending (by decide)⟩

@[simp] theorem headBegin_keeps (s : State) :
    (headBegin s).correction = s.correction ∧ (headBegin s).poses = s.poses ∧ (headBegin s).distance = s.distance ∧
      (headBegin s).follower = s.follower ∧ (headBegin s).search = s.search ∧ (headBegin s).emitter = s.emitter ∧
      (headBegin s).round = s.round ∧ (headBegin s).events = s.events ∧ (headBegin s).station = s.station ∧
      (headBegin s).localTime = s.localTime ∧ (headBegin s).service = s.service ∧ (headBegin s).freeCount = s.freeCount ∧
      (headBegin s).pending = s.pending := by
  have h := keeps_headBegin s
  exact ⟨h .correction (by decide), h .poses (by decide), h .distance (by decide), h .follower (by decide),
    h .search (by decide), h .emitter (by decide), h .round (by decide), h .events (by decide), h .station (by decide),
    h .localTime (by decide), h .service (by decide), h .freeCount (by decide), h .pending (by decide)⟩

@[simp] theorem writeSteer_keeps (f : Steer) (s : State) :
    (writeSteer f s).correction = s.correction ∧ (writeSteer f s).poses = s.poses ∧
      (writeSteer f s).distance = s.distance ∧ (writeSteer f s).follower = s.follower ∧
      (writeSteer f s).search = s.search ∧ (writeSteer f s).emitter = s.emitter ∧ (writeSteer f s).round = s.round ∧
      (writeSteer f s).events = s.events ∧ (writeSteer f s).station = s.station ∧
      (writeSteer f s).localTime = s.localTime ∧ (writeSteer f s).service = s.service ∧
      (writeSteer f s).freeCount = s.freeCount ∧ (writeSteer f s).pending = s.pending := by
  have h := keeps_writeSteer f s
  exact ⟨h .correction (by decide), h .poses (by decide), h .distance (by decide), h .follower (by decide),
    h .search (by decide), h .emitter (by decide), h .round (by decide), h .events (by decide), h .station (by decide),
    h .localTime (by decide), h .service (by decide), h .freeCount (by decide), h .pending (by decide)⟩

@[simp] theorem passForward_keeps (f : ForwardFrame) (s : State) :
    (passForward f s).correction = s.correction ∧ (passForward f s).poses = s.poses ∧
      (passForward f s).distance = s.distance ∧ (passForward f s).follower = s.follower ∧
      (passForward f s).search = s.search ∧ (passForward f s).emitter = s.emitter ∧ (passForward f s).round = s.round ∧
      (passForward f s).station = s.station ∧ (passForward f s).localTime = s.localTime ∧
      (passForward f s).service = s.service ∧ (passForward f s).freeCount = s.freeCount ∧
      (passForward f s).pending = s.pending := by
  have h := keeps_passForward f s
  exact ⟨h .correction (by decide), h .poses (by decide), h .distance (by decide), h .follower (by decide),
    h .search (by decide), h .emitter (by decide), h .round (by decide), h .station (by decide),
    h .localTime (by decide), h .service (by decide), h .freeCount (by decide), h .pending (by decide)⟩

@[simp] theorem cancelWait_keeps (s : State) :
    (cancelWait s).correction = s.correction ∧ (cancelWait s).poses = s.poses ∧ (cancelWait s).follower = s.follower ∧
      (cancelWait s).search = s.search ∧ (cancelWait s).emitter = s.emitter ∧ (cancelWait s).round = s.round ∧
      (cancelWait s).events = s.events ∧ (cancelWait s).head = s.head ∧ (cancelWait s).station = s.station ∧
      (cancelWait s).localTime = s.localTime ∧ (cancelWait s).service = s.service ∧
      (cancelWait s).freeCount = s.freeCount ∧ (cancelWait s).pending = s.pending := by
  have h := keeps_cancelWait s
  exact ⟨h .correction (by decide), h .poses (by decide), h .follower (by decide), h .search (by decide),
    h .emitter (by decide), h .round (by decide), h .events (by decide), h .head (by decide), h .station (by decide),
    h .localTime (by decide), h .service (by decide), h .freeCount (by decide), h .pending (by decide)⟩

@[simp] theorem dropBase_keeps (c : LossCause) (s : State) :
    (dropBase c s).correction = s.correction ∧ (dropBase c s).poses = s.poses ∧ (dropBase c s).follower = s.follower ∧
      (dropBase c s).search = s.search ∧ (dropBase c s).emitter = s.emitter ∧ (dropBase c s).round = s.round ∧
      (dropBase c s).head = s.head ∧ (dropBase c s).station = s.station ∧ (dropBase c s).localTime = s.localTime ∧
      (dropBase c s).service = s.service ∧ (dropBase c s).freeCount = s.freeCount ∧ (dropBase c s).pending = s.pending := by
  have h := keeps_dropBase c s
  exact ⟨h .correction (by decide), h .poses (by decide), h .follower (by decide), h .search (by decide),
    h .emitter (by decide), h .round (by decide), h .head (by decide), h .station (by decide), h .localTime (by decide),
    h .service (by decide), h .freeCount (by decide), h .pending (by decide)⟩

@[simp] theorem leaveDistance_keeps (c : LossCause) (s : State) :
    (leaveDistance c s).correction = s.correction ∧ (leaveDistance c s).poses = s.poses ∧
      (leaveDistance c s).follower = s.follower ∧ (leaveDistance c s).search = s.search ∧
      (leaveDistance c s).emitter = s.emitter ∧ (leaveDistance c s).round = s.round ∧ (leaveDistance c s).head = s.head ∧
      (leaveDistance c s).station = s.station ∧ (leaveDistance c s).localTime = s.localTime ∧
      (leaveDistance c s).service = s.service ∧ (leaveDistance c s).freeCount = s.freeCount ∧
      (leaveDistance c s).pending = s.pending := by
  have h := keeps_leaveDistance c s
  exact ⟨h .correction (by decide), h .poses (by decide), h .follower (by decide), h .search (by decide),
    h .emitter (by decide), h .round (by decide), h .head (by decide), h .station (by decide), h .localTime (by decide),
    h .service (by decide), h .freeCount (by decide), h .pending (by decide)⟩

@[simp] theorem dropFault_keeps (s : State) :
    (dropFault s).correction = s.correction ∧ (dropFault s).poses = s.poses ∧ (dropFault s).follower = s.follower ∧
      (dropFault s).search = s.search ∧ (dropFault s).emitter = s.emitter ∧ (dropFault s).round = s.round ∧
      (dropFault s).head = s.head ∧ (dropFault s).station = s.station ∧ (dropFault s).localTime = s.localTime ∧
      (dropFault s).service = s.service ∧ (dropFault s).freeCount = s.freeCount ∧ (dropFault s).pending = s.pending := by
  have h := keeps_dropFault s
  exact ⟨h .correction (by decide), h .poses (by decide), h .follower (by decide), h .search (by decide),
    h .emitter (by decide), h .round (by decide), h .head (by decide), h .station (by decide), h .localTime (by decide),
    h .service (by decide), h .freeCount (by decide), h .pending (by decide)⟩

@[simp] theorem releaseDistance_keeps (s : State) :
    (releaseDistance s).correction = s.correction ∧ (releaseDistance s).poses = s.poses ∧
      (releaseDistance s).follower = s.follower ∧ (releaseDistance s).search = s.search ∧
      (releaseDistance s).emitter = s.emitter ∧ (releaseDistance s).round = s.round ∧
      (releaseDistance s).events = s.events ∧ (releaseDistance s).head = s.head ∧
      (releaseDistance s).station = s.station ∧ (releaseDistance s).localTime = s.localTime ∧
      (releaseDistance s).service = s.service ∧ (releaseDistance s).freeCount = s.freeCount ∧
      (releaseDistance s).pending = s.pending := by
  have h := keeps_releaseDistance s
  exact ⟨h .correction (by decide), h .poses (by decide), h .follower (by decide), h .search (by decide),
    h .emitter (by decide), h .round (by decide), h .events (by decide), h .head (by decide), h .station (by decide),
    h .localTime (by decide), h .service (by decide), h .freeCount (by decide), h .pending (by decide)⟩

@[simp] theorem startAdmWait_keeps (o : WaitOwner) (s : State) :
    (startAdmWait o s).correction = s.correction ∧ (startAdmWait o s).poses = s.poses ∧
      (startAdmWait o s).follower = s.follower ∧ (startAdmWait o s).search = s.search ∧
      (startAdmWait o s).emitter = s.emitter ∧ (startAdmWait o s).round = s.round ∧
      (startAdmWait o s).events = s.events ∧ (startAdmWait o s).head = s.head ∧ (startAdmWait o s).station = s.station ∧
      (startAdmWait o s).localTime = s.localTime ∧ (startAdmWait o s).service = s.service ∧
      (startAdmWait o s).freeCount = s.freeCount ∧ (startAdmWait o s).pending = s.pending := by
  have h := keeps_startAdmWait o s
  exact ⟨h .correction (by decide), h .poses (by decide), h .follower (by decide), h .search (by decide),
    h .emitter (by decide), h .round (by decide), h .events (by decide), h .head (by decide), h .station (by decide),
    h .localTime (by decide), h .service (by decide), h .freeCount (by decide), h .pending (by decide)⟩

@[simp] theorem autoAdmWait_keeps (s : State) :
    (autoAdmWait s).correction = s.correction ∧ (autoAdmWait s).poses = s.poses ∧ (autoAdmWait s).follower = s.follower ∧
      (autoAdmWait s).search = s.search ∧ (autoAdmWait s).emitter = s.emitter ∧ (autoAdmWait s).round = s.round ∧
      (autoAdmWait s).events = s.events ∧ (autoAdmWait s).head = s.head ∧ (autoAdmWait s).station = s.station ∧
      (autoAdmWait s).localTime = s.localTime ∧ (autoAdmWait s).service = s.service ∧
      (autoAdmWait s).freeCount = s.freeCount ∧ (autoAdmWait s).pending = s.pending := by
  have h := keeps_autoAdmWait s
  exact ⟨h .correction (by decide), h .poses (by decide), h .follower (by decide), h .search (by decide),
    h .emitter (by decide), h .round (by decide), h .events (by decide), h .head (by decide), h .station (by decide),
    h .localTime (by decide), h .service (by decide), h .freeCount (by decide), h .pending (by decide)⟩

@[simp] theorem timeOutWait_keeps (k : DistanceSource) (s : State) :
    (timeOutWait k s).correction = s.correction ∧ (timeOutWait k s).poses = s.poses ∧
      (timeOutWait k s).follower = s.follower ∧ (timeOutWait k s).search = s.search ∧
      (timeOutWait k s).emitter = s.emitter ∧ (timeOutWait k s).round = s.round ∧ (timeOutWait k s).head = s.head ∧
      (timeOutWait k s).station = s.station ∧ (timeOutWait k s).localTime = s.localTime ∧
      (timeOutWait k s).service = s.service ∧ (timeOutWait k s).freeCount = s.freeCount ∧
      (timeOutWait k s).pending = s.pending := by
  have h := keeps_timeOutWait k s
  exact ⟨h .correction (by decide), h .poses (by decide), h .follower (by decide), h .search (by decide),
    h .emitter (by decide), h .round (by decide), h .head (by decide), h .station (by decide), h .localTime (by decide),
    h .service (by decide), h .freeCount (by decide), h .pending (by decide)⟩

@[simp] theorem storeFollower_keeps (u : Follower) (s : State) :
    (storeFollower u s).correction = s.correction ∧ (storeFollower u s).poses = s.poses ∧
      (storeFollower u s).distance = s.distance ∧ (storeFollower u s).search = s.search ∧
      (storeFollower u s).emitter = s.emitter ∧ (storeFollower u s).round = s.round ∧ (storeFollower u s).head = s.head ∧
      (storeFollower u s).station = s.station ∧ (storeFollower u s).localTime = s.localTime ∧
      (storeFollower u s).service = s.service ∧ (storeFollower u s).freeCount = s.freeCount ∧
      (storeFollower u s).pending = s.pending := by
  have h := keeps_storeFollower u s
  exact ⟨h .correction (by decide), h .poses (by decide), h .distance (by decide), h .search (by decide),
    h .emitter (by decide), h .round (by decide), h .head (by decide), h .station (by decide), h .localTime (by decide),
    h .service (by decide), h .freeCount (by decide), h .pending (by decide)⟩

@[simp] theorem enterLost_keeps (s : State) :
    (enterLost s).correction = s.correction ∧ (enterLost s).poses = s.poses ∧ (enterLost s).distance = s.distance ∧
      (enterLost s).search = s.search ∧ (enterLost s).emitter = s.emitter ∧ (enterLost s).round = s.round ∧
      (enterLost s).head = s.head ∧ (enterLost s).station = s.station ∧ (enterLost s).localTime = s.localTime ∧
      (enterLost s).service = s.service ∧ (enterLost s).freeCount = s.freeCount ∧ (enterLost s).pending = s.pending := by
  have h := keeps_enterLost s
  exact ⟨h .correction (by decide), h .poses (by decide), h .distance (by decide), h .search (by decide),
    h .emitter (by decide), h .round (by decide), h .head (by decide), h .station (by decide), h .localTime (by decide),
    h .service (by decide), h .freeCount (by decide), h .pending (by decide)⟩

@[simp] theorem enterFollowing_keeps (k : Bool) (s : State) :
    (enterFollowing k s).correction = s.correction ∧ (enterFollowing k s).poses = s.poses ∧
      (enterFollowing k s).search = s.search ∧ (enterFollowing k s).emitter = s.emitter ∧
      (enterFollowing k s).round = s.round ∧ (enterFollowing k s).head = s.head ∧
      (enterFollowing k s).station = s.station ∧ (enterFollowing k s).localTime = s.localTime ∧
      (enterFollowing k s).service = s.service ∧ (enterFollowing k s).freeCount = s.freeCount ∧
      (enterFollowing k s).pending = s.pending := by
  have h := keeps_enterFollowing k s
  exact ⟨h .correction (by decide), h .poses (by decide), h .search (by decide), h .emitter (by decide),
    h .round (by decide), h .head (by decide), h .station (by decide), h .localTime (by decide), h .service (by decide),
    h .freeCount (by decide), h .pending (by decide)⟩

@[simp] theorem enterSearching_keeps (s : State) :
    (enterSearching s).correction = s.correction ∧ (enterSearching s).poses = s.poses ∧
      (enterSearching s).distance = s.distance ∧ (enterSearching s).search = s.search ∧
      (enterSearching s).emitter = s.emitter ∧ (enterSearching s).round = s.round ∧ (enterSearching s).head = s.head ∧
      (enterSearching s).station = s.station ∧ (enterSearching s).localTime = s.localTime ∧
      (enterSearching s).service = s.service ∧ (enterSearching s).freeCount = s.freeCount ∧
      (enterSearching s).pending = s.pending := by
  have h := keeps_enterSearching s
  exact ⟨h .correction (by decide), h .poses (by decide), h .distance (by decide), h .search (by decide),
    h .emitter (by decide), h .round (by decide), h .head (by decide), h .station (by decide), h .localTime (by decide),
    h .service (by decide), h .freeCount (by decide), h .pending (by decide)⟩

@[simp] theorem storeSearch_keeps (u : SearchUnit) (s : State) :
    (storeSearch u s).correction = s.correction ∧ (storeSearch u s).poses = s.poses ∧
      (storeSearch u s).distance = s.distance ∧ (storeSearch u s).follower = s.follower ∧
      (storeSearch u s).emitter = s.emitter ∧ (storeSearch u s).round = s.round ∧ (storeSearch u s).head = s.head ∧
      (storeSearch u s).station = s.station ∧ (storeSearch u s).localTime = s.localTime ∧
      (storeSearch u s).service = s.service ∧ (storeSearch u s).freeCount = s.freeCount ∧
      (storeSearch u s).pending = s.pending := by
  have h := keeps_storeSearch u s
  exact ⟨h .correction (by decide), h .poses (by decide), h .distance (by decide), h .follower (by decide),
    h .emitter (by decide), h .round (by decide), h .head (by decide), h .station (by decide), h .localTime (by decide),
    h .service (by decide), h .freeCount (by decide), h .pending (by decide)⟩

@[simp] theorem removeSearch_keeps (s : State) :
    (removeSearch s).correction = s.correction ∧ (removeSearch s).poses = s.poses ∧
      (removeSearch s).distance = s.distance ∧ (removeSearch s).follower = s.follower ∧
      (removeSearch s).emitter = s.emitter ∧ (removeSearch s).round = s.round ∧ (removeSearch s).head = s.head ∧
      (removeSearch s).station = s.station ∧ (removeSearch s).localTime = s.localTime ∧
      (removeSearch s).service = s.service ∧ (removeSearch s).freeCount = s.freeCount ∧
      (removeSearch s).pending = s.pending := by
  have h := keeps_removeSearch s
  exact ⟨h .correction (by decide), h .poses (by decide), h .distance (by decide), h .follower (by decide),
    h .emitter (by decide), h .round (by decide), h .head (by decide), h .station (by decide), h .localTime (by decide),
    h .service (by decide), h .freeCount (by decide), h .pending (by decide)⟩

@[simp] theorem abortSearch_keeps (s : State) :
    (abortSearch s).correction = s.correction ∧ (abortSearch s).poses = s.poses ∧ (abortSearch s).distance = s.distance ∧
      (abortSearch s).follower = s.follower ∧ (abortSearch s).emitter = s.emitter ∧ (abortSearch s).round = s.round ∧
      (abortSearch s).head = s.head ∧ (abortSearch s).station = s.station ∧ (abortSearch s).localTime = s.localTime ∧
      (abortSearch s).service = s.service ∧ (abortSearch s).freeCount = s.freeCount ∧ (abortSearch s).pending = s.pending := by
  have h := keeps_abortSearch s
  exact ⟨h .correction (by decide), h .poses (by decide), h .distance (by decide), h .follower (by decide),
    h .emitter (by decide), h .round (by decide), h .head (by decide), h .station (by decide), h .localTime (by decide),
    h .service (by decide), h .freeCount (by decide), h .pending (by decide)⟩

@[simp] theorem endSearch_keeps (src : Source) (s : State) :
    (endSearch src s).correction = s.correction ∧ (endSearch src s).poses = s.poses ∧
      (endSearch src s).distance = s.distance ∧ (endSearch src s).emitter = s.emitter ∧
      (endSearch src s).round = s.round ∧ (endSearch src s).head = s.head ∧ (endSearch src s).station = s.station ∧
      (endSearch src s).localTime = s.localTime ∧ (endSearch src s).service = s.service ∧
      (endSearch src s).freeCount = s.freeCount ∧ (endSearch src s).pending = s.pending := by
  have h := keeps_endSearch src s
  exact ⟨h .correction (by decide), h .poses (by decide), h .distance (by decide), h .emitter (by decide),
    h .round (by decide), h .head (by decide), h .station (by decide), h .localTime (by decide), h .service (by decide),
    h .freeCount (by decide), h .pending (by decide)⟩

@[simp] theorem enterAiming_keeps (t : Angles) (a : ThenAction) (o : AimOwner) (s : State) :
    (enterAiming t a o s).correction = s.correction ∧ (enterAiming t a o s).poses = s.poses ∧
      (enterAiming t a o s).emitter = s.emitter ∧ (enterAiming t a o s).round = s.round ∧
      (enterAiming t a o s).head = s.head ∧ (enterAiming t a o s).station = s.station ∧
      (enterAiming t a o s).localTime = s.localTime ∧ (enterAiming t a o s).service = s.service ∧
      (enterAiming t a o s).freeCount = s.freeCount ∧ (enterAiming t a o s).pending = s.pending := by
  have h := keeps_enterAiming t a o s
  exact ⟨h .correction (by decide), h .poses (by decide), h .emitter (by decide), h .round (by decide),
    h .head (by decide), h .station (by decide), h .localTime (by decide), h .service (by decide),
    h .freeCount (by decide), h .pending (by decide)⟩

@[simp] theorem enterParked_keeps (s : State) :
    (enterParked s).correction = s.correction ∧ (enterParked s).poses = s.poses ∧ (enterParked s).emitter = s.emitter ∧
      (enterParked s).round = s.round ∧ (enterParked s).station = s.station ∧ (enterParked s).localTime = s.localTime ∧
      (enterParked s).service = s.service ∧ (enterParked s).freeCount = s.freeCount ∧ (enterParked s).pending = s.pending := by
  have h := keeps_enterParked s
  exact ⟨h .correction (by decide), h .poses (by decide), h .emitter (by decide), h .round (by decide),
    h .station (by decide), h .localTime (by decide), h .service (by decide), h .freeCount (by decide),
    h .pending (by decide)⟩

@[simp] theorem setMode_keeps (m : EmissionMode) (s : State) :
    (setMode m s).correction = s.correction ∧ (setMode m s).poses = s.poses ∧ (setMode m s).distance = s.distance ∧
      (setMode m s).follower = s.follower ∧ (setMode m s).search = s.search ∧ (setMode m s).round = s.round ∧
      (setMode m s).events = s.events ∧ (setMode m s).head = s.head ∧ (setMode m s).station = s.station ∧
      (setMode m s).localTime = s.localTime ∧ (setMode m s).service = s.service ∧ (setMode m s).freeCount = s.freeCount ∧
      (setMode m s).pending = s.pending := by
  have h := keeps_setMode m s
  exact ⟨h .correction (by decide), h .poses (by decide), h .distance (by decide), h .follower (by decide),
    h .search (by decide), h .round (by decide), h .events (by decide), h .head (by decide), h .station (by decide),
    h .localTime (by decide), h .service (by decide), h .freeCount (by decide), h .pending (by decide)⟩

@[simp] theorem abortSingle_keeps (s : State) :
    (abortSingle s).correction = s.correction ∧ (abortSingle s).poses = s.poses ∧ (abortSingle s).distance = s.distance ∧
      (abortSingle s).follower = s.follower ∧ (abortSingle s).search = s.search ∧ (abortSingle s).round = s.round ∧
      (abortSingle s).head = s.head ∧ (abortSingle s).station = s.station ∧ (abortSingle s).localTime = s.localTime ∧
      (abortSingle s).service = s.service ∧ (abortSingle s).freeCount = s.freeCount ∧ (abortSingle s).pending = s.pending := by
  have h := keeps_abortSingle s
  exact ⟨h .correction (by decide), h .poses (by decide), h .distance (by decide), h .follower (by decide),
    h .search (by decide), h .round (by decide), h .head (by decide), h .station (by decide), h .localTime (by decide),
    h .service (by decide), h .freeCount (by decide), h .pending (by decide)⟩

@[simp] theorem setRoundState_keeps (st : RoundState) (s : State) :
    (setRoundState st s).correction = s.correction ∧ (setRoundState st s).poses = s.poses ∧
      (setRoundState st s).distance = s.distance ∧ (setRoundState st s).follower = s.follower ∧
      (setRoundState st s).search = s.search ∧ (setRoundState st s).emitter = s.emitter ∧
      (setRoundState st s).events = s.events ∧ (setRoundState st s).head = s.head ∧
      (setRoundState st s).station = s.station ∧ (setRoundState st s).localTime = s.localTime ∧
      (setRoundState st s).service = s.service ∧ (setRoundState st s).freeCount = s.freeCount ∧
      (setRoundState st s).pending = s.pending := by
  have h := keeps_setRoundState st s
  exact ⟨h .correction (by decide), h .poses (by decide), h .distance (by decide), h .follower (by decide),
    h .search (by decide), h .emitter (by decide), h .events (by decide), h .head (by decide), h .station (by decide),
    h .localTime (by decide), h .service (by decide), h .freeCount (by decide), h .pending (by decide)⟩

@[simp] theorem storeRoundState_keeps (st : RoundState) (s : State) :
    (storeRoundState st s).correction = s.correction ∧ (storeRoundState st s).poses = s.poses ∧
      (storeRoundState st s).distance = s.distance ∧ (storeRoundState st s).follower = s.follower ∧
      (storeRoundState st s).search = s.search ∧ (storeRoundState st s).emitter = s.emitter ∧
      (storeRoundState st s).head = s.head ∧ (storeRoundState st s).station = s.station ∧
      (storeRoundState st s).localTime = s.localTime ∧ (storeRoundState st s).service = s.service ∧
      (storeRoundState st s).freeCount = s.freeCount ∧ (storeRoundState st s).pending = s.pending := by
  have h := keeps_storeRoundState st s
  exact ⟨h .correction (by decide), h .poses (by decide), h .distance (by decide), h .follower (by decide),
    h .search (by decide), h .emitter (by decide), h .head (by decide), h .station (by decide), h .localTime (by decide),
    h .service (by decide), h .freeCount (by decide), h .pending (by decide)⟩

@[simp] theorem beginSlot_keeps (r : RunningRound) (e : Fin 16) (s : State) :
    (beginSlot r e s).correction = s.correction ∧ (beginSlot r e s).poses = s.poses ∧
      (beginSlot r e s).emitter = s.emitter ∧ (beginSlot r e s).station = s.station ∧
      (beginSlot r e s).localTime = s.localTime ∧ (beginSlot r e s).service = s.service ∧
      (beginSlot r e s).freeCount = s.freeCount ∧ (beginSlot r e s).pending = s.pending := by
  have h := keeps_beginSlot r e s
  exact ⟨h .correction (by decide), h .poses (by decide), h .emitter (by decide), h .station (by decide),
    h .localTime (by decide), h .service (by decide), h .freeCount (by decide), h .pending (by decide)⟩

@[simp] theorem returnRound_keeps (s : State) :
    (returnRound s).correction = s.correction ∧ (returnRound s).poses = s.poses ∧ (returnRound s).emitter = s.emitter ∧
      (returnRound s).station = s.station ∧ (returnRound s).localTime = s.localTime ∧
      (returnRound s).service = s.service ∧ (returnRound s).freeCount = s.freeCount ∧ (returnRound s).pending = s.pending := by
  have h := keeps_returnRound s
  exact ⟨h .correction (by decide), h .poses (by decide), h .emitter (by decide), h .station (by decide),
    h .localTime (by decide), h .service (by decide), h .freeCount (by decide), h .pending (by decide)⟩

@[simp] theorem completeRound_keeps (l : List PendingResult) (s : State) :
    (completeRound l s).correction = s.correction ∧ (completeRound l s).poses = s.poses ∧
      (completeRound l s).emitter = s.emitter ∧ (completeRound l s).station = s.station ∧
      (completeRound l s).localTime = s.localTime ∧ (completeRound l s).service = s.service ∧
      (completeRound l s).freeCount = s.freeCount ∧ (completeRound l s).pending = s.pending := by
  have h := keeps_completeRound l s
  exact ⟨h .correction (by decide), h .poses (by decide), h .emitter (by decide), h .station (by decide),
    h .localTime (by decide), h .service (by decide), h .freeCount (by decide), h .pending (by decide)⟩

@[simp] theorem endSlot_keeps (r : FiducialResult) (a : Option Angles) (s : State) :
    (endSlot r a s).correction = s.correction ∧ (endSlot r a s).poses = s.poses ∧ (endSlot r a s).emitter = s.emitter ∧
      (endSlot r a s).station = s.station ∧ (endSlot r a s).localTime = s.localTime ∧
      (endSlot r a s).service = s.service ∧ (endSlot r a s).freeCount = s.freeCount ∧ (endSlot r a s).pending = s.pending := by
  have h := keeps_endSlot r a s
  exact ⟨h .correction (by decide), h .poses (by decide), h .emitter (by decide), h .station (by decide),
    h .localTime (by decide), h .service (by decide), h .freeCount (by decide), h .pending (by decide)⟩

@[simp] theorem startRoundNow_keeps (s : State) :
    (startRoundNow s).correction = s.correction ∧ (startRoundNow s).poses = s.poses ∧
      (startRoundNow s).emitter = s.emitter ∧ (startRoundNow s).station = s.station ∧
      (startRoundNow s).localTime = s.localTime ∧ (startRoundNow s).service = s.service ∧
      (startRoundNow s).freeCount = s.freeCount ∧ (startRoundNow s).pending = s.pending := by
  have h := keeps_startRoundNow s
  exact ⟨h .correction (by decide), h .poses (by decide), h .emitter (by decide), h .station (by decide),
    h .localTime (by decide), h .service (by decide), h .freeCount (by decide), h .pending (by decide)⟩

@[simp] theorem abandonRound_keeps (a : AbortReason) (s : State) :
    (abandonRound a s).correction = s.correction ∧ (abandonRound a s).poses = s.poses ∧
      (abandonRound a s).distance = s.distance ∧ (abandonRound a s).follower = s.follower ∧
      (abandonRound a s).search = s.search ∧ (abandonRound a s).emitter = s.emitter ∧ (abandonRound a s).head = s.head ∧
      (abandonRound a s).station = s.station ∧ (abandonRound a s).localTime = s.localTime ∧
      (abandonRound a s).service = s.service ∧ (abandonRound a s).freeCount = s.freeCount ∧
      (abandonRound a s).pending = s.pending := by
  have h := keeps_abandonRound a s
  exact ⟨h .correction (by decide), h .poses (by decide), h .distance (by decide), h .follower (by decide),
    h .search (by decide), h .emitter (by decide), h .head (by decide), h .station (by decide), h .localTime (by decide),
    h .service (by decide), h .freeCount (by decide), h .pending (by decide)⟩

@[simp] theorem tryRound_keeps (s : State) :
    (tryRound s).correction = s.correction ∧ (tryRound s).poses = s.poses ∧ (tryRound s).emitter = s.emitter ∧
      (tryRound s).station = s.station ∧ (tryRound s).localTime = s.localTime ∧ (tryRound s).service = s.service ∧
      (tryRound s).freeCount = s.freeCount ∧ (tryRound s).pending = s.pending := by
  have h := keeps_tryRound s
  exact ⟨h .correction (by decide), h .poses (by decide), h .emitter (by decide), h .station (by decide),
    h .localTime (by decide), h .service (by decide), h .freeCount (by decide), h .pending (by decide)⟩

@[simp] theorem examineDue_keeps (s : State) :
    (examineDue s).correction = s.correction ∧ (examineDue s).poses = s.poses ∧ (examineDue s).emitter = s.emitter ∧
      (examineDue s).station = s.station ∧ (examineDue s).localTime = s.localTime ∧ (examineDue s).service = s.service ∧
      (examineDue s).freeCount = s.freeCount ∧ (examineDue s).pending = s.pending := by
  have h := keeps_examineDue s
  exact ⟨h .correction (by decide), h .poses (by decide), h .emitter (by decide), h .station (by decide),
    h .localTime (by decide), h .service (by decide), h .freeCount (by decide), h .pending (by decide)⟩

@[simp] theorem expirePeriod_keeps (s : State) :
    (expirePeriod s).correction = s.correction ∧ (expirePeriod s).poses = s.poses ∧
      (expirePeriod s).emitter = s.emitter ∧ (expirePeriod s).station = s.station ∧
      (expirePeriod s).localTime = s.localTime ∧ (expirePeriod s).service = s.service ∧
      (expirePeriod s).freeCount = s.freeCount ∧ (expirePeriod s).pending = s.pending := by
  have h := keeps_expirePeriod s
  exact ⟨h .correction (by decide), h .poses (by decide), h .emitter (by decide), h .station (by decide),
    h .localTime (by decide), h .service (by decide), h .freeCount (by decide), h .pending (by decide)⟩

@[simp] theorem discardRound_keeps (a : AbortReason) (s : State) :
    (discardRound a s).correction = s.correction ∧ (discardRound a s).poses = s.poses ∧
      (discardRound a s).distance = s.distance ∧ (discardRound a s).follower = s.follower ∧
      (discardRound a s).search = s.search ∧ (discardRound a s).emitter = s.emitter ∧ (discardRound a s).head = s.head ∧
      (discardRound a s).station = s.station ∧ (discardRound a s).localTime = s.localTime ∧
      (discardRound a s).service = s.service ∧ (discardRound a s).freeCount = s.freeCount ∧
      (discardRound a s).pending = s.pending := by
  have h := keeps_discardRound a s
  exact ⟨h .correction (by decide), h .poses (by decide), h .distance (by decide), h .follower (by decide),
    h .search (by decide), h .emitter (by decide), h .head (by decide), h .station (by decide), h .localTime (by decide),
    h .service (by decide), h .freeCount (by decide), h .pending (by decide)⟩

@[simp] theorem stopRoundFor_keeps (a : AbortReason) (s : State) :
    (stopRoundFor a s).correction = s.correction ∧ (stopRoundFor a s).poses = s.poses ∧
      (stopRoundFor a s).emitter = s.emitter ∧ (stopRoundFor a s).station = s.station ∧
      (stopRoundFor a s).localTime = s.localTime ∧ (stopRoundFor a s).service = s.service ∧
      (stopRoundFor a s).freeCount = s.freeCount ∧ (stopRoundFor a s).pending = s.pending := by
  have h := keeps_stopRoundFor a s
  exact ⟨h .correction (by decide), h .poses (by decide), h .emitter (by decide), h .station (by decide),
    h .localTime (by decide), h .service (by decide), h .freeCount (by decide), h .pending (by decide)⟩

@[simp] theorem endDue_keeps (a : AbortReason) (s : State) :
    (endDue a s).correction = s.correction ∧ (endDue a s).poses = s.poses ∧ (endDue a s).distance = s.distance ∧
      (endDue a s).follower = s.follower ∧ (endDue a s).search = s.search ∧ (endDue a s).emitter = s.emitter ∧
      (endDue a s).head = s.head ∧ (endDue a s).station = s.station ∧ (endDue a s).localTime = s.localTime ∧
      (endDue a s).service = s.service ∧ (endDue a s).freeCount = s.freeCount ∧ (endDue a s).pending = s.pending := by
  have h := keeps_endDue a s
  exact ⟨h .correction (by decide), h .poses (by decide), h .distance (by decide), h .follower (by decide),
    h .search (by decide), h .emitter (by decide), h .head (by decide), h .station (by decide), h .localTime (by decide),
    h .service (by decide), h .freeCount (by decide), h .pending (by decide)⟩

end Sys2Proof.Machine
end

