-- ==== Sys2Proof/Laws/Events.lean ====
section
/-! SUPPORT. What each shared operation does to the event sources: `get` after each change, and one `keepsSources` lemma for
each operation. -/

namespace Sys2Proof.Machine

/-! ### The sources -/

theorem Source.idx_injective {a b : Source} (h : a.idx = b.idx) : a = b := by
  cases a <;> cases b <;> first | rfl | exact absurd h (by decide)

theorem Source.mem_all (src : Source) : src ∈ Source.all := by cases src <;> decide

@[simp] theorem EventUnit.get_put_self (e : EventUnit) (src : Source) (x : SourceState) : (e.put src x).get src = x := by
  simp [EventUnit.get, EventUnit.put]

theorem EventUnit.get_put_other (e : EventUnit) {a b : Source} (x : SourceState) (h : b ≠ a) : (e.put a x).get b = e.get b := by
  have : a.idx.val ≠ b.idx.val := fun k => h (Source.idx_injective (Fin.ext k.symm))
  simp [EventUnit.get, EventUnit.put, this]

@[simp] theorem EventUnit.put_floor (e : EventUnit) (src : Source) (x : SourceState) : (e.put src x).floor = e.floor := rfl

@[simp] theorem occur_get_self (src : Source) (s : State) :
    (occur src s).events.get src = (s.events.get src).occurred s.localTime := EventUnit.get_put_self _ _ _

theorem occur_get_other {a b : Source} (s : State) (h : b ≠ a) : (occur a s).events.get b = s.events.get b :=
  EventUnit.get_put_other _ _ h

@[simp] theorem reportLevel_get_self (src : Source) (s : State) :
    (reportLevel src s).events.get src =
      (s.events.get src).level (genuineOf s src) (s.events.get src).testMark s.localTime := EventUnit.get_put_self _ _ _

theorem reportLevel_get_other {a b : Source} (s : State) (h : b ≠ a) : (reportLevel a s).events.get b = s.events.get b :=
  EventUnit.get_put_other _ _ h

@[simp] theorem SourceState.level_genuine (x : SourceState) (g m : Bool) (t : Word) : (x.level g m t).genuine = g := rfl

@[simp] theorem SourceState.level_testMark (x : SourceState) (g m : Bool) (t : Word) : (x.level g m t).testMark = m := rfl

@[simp] theorem SourceState.occurred_genuine (x : SourceState) (t : Word) : (x.occurred t).genuine = x.genuine := by
  unfold SourceState.occurred; split <;> rfl

@[simp] theorem SourceState.occurred_latch (x : SourceState) (t : Word) : (x.occurred t).latch = true := by
  unfold SourceState.occurred; split <;> simp_all

/-! ### Reasoning about sources -/

theorem sources_refl (l : List Source) (s : State) : keepsSources l s s := ⟨rfl, fun _ _ => rfl⟩

theorem sources_of_events {l : List Source} {s t : State} (h : t.events = s.events) : keepsSources l s t :=
  ⟨by rw [h], fun _ _ => by rw [h]⟩

theorem sources_trans {l : List Source} {s t u : State} (h : keepsSources l s t) (k : keepsSources l t u) : keepsSources l s u :=
  ⟨k.1.trans h.1, fun p hp => (k.2 p hp).trans (h.2 p hp)⟩

theorem sources_mono {l m : List Source} {s t : State} (h : keepsSources l s t) (hlm : l ⊆ m) : keepsSources m s t :=
  ⟨h.1, fun p hp => h.2 p fun hl => hp (hlm hl)⟩

theorem sources_then {l m : List Source} {s t u : State} (h : keepsSources l s t) (k : keepsSources m t u) (hm : m ⊆ l) :
    keepsSources l s u :=
  sources_trans h (sources_mono k hm)

/-- One more occurrence after a change. -/
theorem sources_then_occur {l : List Source} {s t : State} {src : Source} (h : keepsSources l s t) (hm : src ∈ l) :
    keepsSources l s (occur src t) :=
  ⟨h.1, fun p hp => (occur_get_other t fun hs => hp (by rw [hs]; exact hm)).trans (h.2 p hp)⟩

/-- One more report after a change. -/
theorem sources_then_report {l : List Source} {s t : State} {src : Source} (h : keepsSources l s t) (hm : src ∈ l) :
    keepsSources l s (reportLevel src t) :=
  ⟨h.1, fun p hp => (reportLevel_get_other t fun hs => hp (by rw [hs]; exact hm)).trans (h.2 p hp)⟩

/-- A change that leaves the event unit as it is. -/
theorem sources_then_same {l : List Source} {s t u : State} (h : keepsSources l s t) (he : u.events = t.events) :
    keepsSources l s u :=
  sources_trans h (sources_of_events he)

theorem sources_put {src : Source} (s : State) (x : SourceState) : keepsSources [src] s (s.setEvents (s.events.put src x)) :=
  ⟨rfl, fun _ hp => EventUnit.get_put_other _ _ (by simpa using hp)⟩

theorem sources_occur (src : Source) (s : State) : keepsSources [src] s (occur src s) := sources_put s _

theorem sources_reportLevel (src : Source) (s : State) : keepsSources [src] s (reportLevel src s) := sources_put s _

theorem sources_admit (r : Record) (s : State) : keepsSources [.queueCongested] s (admitRecord r s) := sources_reportLevel _ _

theorem sources_headBegin (s : State) : keepsSources [] s (headBegin s) := by
  apply sources_of_events
  have := keeps_headBegin s .events (by simp)
  exact this

theorem sources_writeSteer (f : Steer) (s : State) : keepsSources [] s (writeSteer f s) :=
  sources_of_events (keeps_writeSteer f s .events (by simp))

/-- QUEUE_CONGESTED after an admission (R177). -/
theorem admit_congested (r : Record) (s : State) :
    ((admitRecord r s).events.get .queueCongested).genuine = decide (56 ≤ s.station.out.length + 1) := by
  unfold admitRecord
  simp [genuineOf]

end Sys2Proof.Machine
end

