-- ==== Sys2Proof/Laws/Requests.lean ====
section
/-! SUPPORT. What the owning blocks' answers leave unchanged, and what a request does that arrives at a ready station port. -/

namespace Sys2Proof.Machine

/-- The fields that an owning block's answer may change. -/
def answerParts : List Part :=
  [.correction, .poses, .distance, .follower, .search, .emitter, .round, .events, .head]

/-- An answer's state within `answerParts`. -/
def answerKeeps (s : State) (a : Answer) : Prop := keepsOthers answerParts s a.state

theorem answerKeeps_refuse (s : State) (r : RefuseReason) : answerKeeps s (refuse s r) := keeps_refl _ s

theorem answerKeeps_accept {s t : State} (l : List Datum) (h : keepsOthers answerParts s t) : answerKeeps s (accept t l) := h

theorem answerKeeps_clamped {s t : State} (b : Bool) (l : List Datum) (h : keepsOthers answerParts s t) :
    answerKeeps s (acceptClamped b t l) := h

theorem answerKeeps_set {s t : State} {p : Part} (h : keepsOthers [p] s t) (hp : p ∈ answerParts) :
    keepsOthers answerParts s t := keeps_mono h (by simpa using hp)

/-! ### Correction unit and pose table -/

theorem keeps_storeTable (a : Axis) (t : CompTable) (s : State) : keepsOthers answerParts s (storeTable a t s) :=
  keeps_then (keeps_mono (keeps_setCorrection s _) (by simp [answerParts])) (keeps_reportLevel _ _) (by simp [answerParts])

theorem answerKeeps_loadRequest (b : Byte) (s : State) (act : Axis → Answer) (h : ∀ a, answerKeeps s (act a)) :
    answerKeeps s (loadRequest b s act) := by
  unfold loadRequest
  split
  · exact keeps_refl _ s
  · split
    · exact keeps_refl _ s
    · exact h _

theorem answerKeeps_beginLoad (b : Byte) (s : State) : answerKeeps s (beginLoad b s) :=
  answerKeeps_loadRequest b s _ fun a => keeps_storeTable a _ s

theorem answerKeeps_loadData (b c : Byte) (l : List Half) (s : State) : answerKeeps s (loadData b c l s) :=
  answerKeeps_loadRequest b s _ fun a => by
    split
    · exact keeps_refl _ s
    · split
      · exact keeps_refl _ s
      · exact answerKeeps_set (keeps_setCorrection s _) (by simp [answerParts])

theorem answerKeeps_endLoad (b c : Byte) (s : State) : answerKeeps s (endLoad b c s) :=
  answerKeeps_loadRequest b s _ fun a => by
    dsimp only
    split
    · exact keeps_refl _ s
    · split
      · exact keeps_storeTable a _ s
      · exact keeps_storeTable a _ s

theorem answerKeeps_setRefraction (n : Word) (s : State) : answerKeeps s (setRefraction n s) :=
  keeps_then (keeps_mono (keeps_setCorrection s _) (by simp [answerParts])) (keeps_reportLevel _ _) (by simp [answerParts])

theorem answerKeeps_writePose (i : Byte) (p : PoseField) (l : Half) (s : State) : answerKeeps s (writePose i p l s) := by
  unfold writePose
  split
  · exact keeps_refl _ s
  · split
    · exact keeps_refl _ s
    · split
      · exact keeps_refl _ s
      · exact answerKeeps_set (keeps_setPoses s _) (by simp [answerParts])

theorem answerKeeps_clearPose (i : Byte) (s : State) : answerKeeps s (clearPose i s) := by
  unfold clearPose
  split
  · exact keeps_refl _ s
  · split
    · exact keeps_refl _ s
    · exact answerKeeps_set (keeps_setPoses s _) (by simp [answerParts])

theorem answerKeeps_readPose (i : Byte) (s : State) : answerKeeps s (readPose i s) := by
  unfold readPose
  split <;> exact keeps_refl _ s

theorem answerKeeps_selectPose (i : Byte) (s : State) : answerKeeps s (selectPose i s) := by
  unfold selectPose
  split
  · exact keeps_refl _ s
  · split
    · exact keeps_refl _ s
    · split
      · exact keeps_refl _ s
      · exact keeps_then (keeps_mono (keeps_setPoses s _) (by simp [answerParts])) (keeps_setEmitter _ _) (by simp [answerParts])

/-! ### Distance unit and follower -/

theorem answerKeeps_establishAdm (s : State) : answerKeeps s (establishAdm s) := by
  unfold establishAdm
  repeat' split
  all_goals first | exact keeps_refl _ s | exact answerKeeps_set (keeps_setDistance s _) (by simp [answerParts])

theorem answerKeeps_establishHome (s : State) : answerKeeps s (establishHome s) := by
  unfold establishHome
  repeat' split
  all_goals first | exact keeps_refl _ s | exact answerKeeps_set (keeps_setDistance s _) (by simp [answerParts])

theorem keeps_roundParts {s t : State} (h : keepsOthers roundParts s t) : keepsOthers answerParts s t :=
  keeps_mono h (by simp [roundParts, answerParts])

theorem keeps_parkFor (a : AbortReason) (s : State) : keepsOthers answerParts s (parkFor a s) := by
  unfold parkFor
  split
  · exact keeps_then (keeps_mono (keeps_setFollower s _) (by simp [answerParts])) (keeps_endDue a _) (by simp [answerParts])
  · exact keeps_then
      (keeps_then (keeps_roundParts (keeps_stopRoundFor a s)) (keeps_enterParked _) (by simp [answerParts]))
      (keeps_abortIfBroken s _) (by simp [answerParts])

theorem answerKeeps_dropDistance (s : State) : answerKeeps s (dropDistance s) := by
  have h : keepsOthers answerParts s (abortIfBroken s (releaseDistance s)) :=
    keeps_then (keeps_mono (keeps_releaseDistance s) (by simp [answerParts])) (keeps_abortIfBroken s _) (by simp [answerParts])
  refine answerKeeps_accept _ ?_
  unfold dropFor
  dsimp only
  split
  · exact keeps_trans h (keeps_roundParts (keeps_roundWaitFailed _))
  · exact h
  · exact h
  · exact h
  · exact h
  · exact keeps_trans h (keeps_roundParts (keeps_examineDue _))

theorem answerKeeps_follow (s : State) : answerKeeps s (follow s) := by
  unfold follow
  repeat' split
  all_goals first | exact keeps_refl _ s | exact answerKeeps_set (keeps_setFollower s _) (by simp [answerParts])

theorem answerKeeps_goTo (az el : Word) (b : Byte) (s : State) : answerKeeps s (goTo az el b s) := by
  unfold goTo
  split
  · exact keeps_refl _ s
  · split
    · exact keeps_refl _ s
    · split
      · exact keeps_refl _ s
      · split
        · exact keeps_refl _ s
        · exact keeps_then (keeps_mono (keeps_enterAiming _ _ _ s) (by simp [answerParts])) (keeps_abortIfBroken s _)
            (by simp [answerParts])

/-! ### Search unit -/

theorem answerKeeps_writeSteps (i : Half) (l : List StepField) (s : State) : answerKeeps s (writeSteps i l s) := by
  unfold writeSteps
  repeat' split
  all_goals first | exact keeps_refl _ s | exact answerKeeps_set (keeps_setSearch s _) (by simp [answerParts])

theorem answerKeeps_writeSearch (i st m : Byte) (a b : Half) (r : Byte) (s : State) :
    answerKeeps s (writeSearch i st m a b r s) := by
  unfold writeSearch
  repeat' split
  all_goals first | exact keeps_refl _ s | exact answerKeeps_set (keeps_setSearch s _) (by simp [answerParts])

theorem keeps_storeSearch' (u : SearchUnit) (s : State) : keepsOthers answerParts s (storeSearch u s) :=
  keeps_mono (keeps_storeSearch u s) (by simp [answerParts])

theorem answerKeeps_appendSteps (l : List StepField) (s : State) : answerKeeps s (appendSteps l s) := by
  unfold appendSteps
  split
  · exact keeps_refl _ s
  · exact keeps_storeSearch' _ s

theorem answerKeeps_resetStream (s : State) : answerKeeps s (resetStream s) := by
  unfold resetStream
  split
  · exact keeps_refl _ s
  · exact answerKeeps_set (keeps_setSearch s _) (by simp [answerParts])

theorem answerKeeps_readSearch (i : Byte) (s : State) : answerKeeps s (readSearch i s) := by
  unfold readSearch
  split <;> exact keeps_refl _ s

theorem answerKeeps_readSteps (a : Half) (b : Byte) (s : State) : answerKeeps s (readSteps a b s) := by
  unfold readSteps
  split <;> exact keeps_refl _ s

theorem keeps_writeStart (r : State × SearchStart) : keepsOthers answerParts r.1 (writeStart r) := by
  unfold writeStart
  split
  · exact keeps_mono (keeps_writeSteer _ _) (by simp [answerParts])
  · exact keeps_trans (keeps_mono (keeps_writeSteer _ _) (by simp [answerParts])) (keeps_roundParts (keeps_examineDue _))
  · exact keeps_refl _ _

theorem answerKeeps_stationSearch (i : Byte) (s : State) : answerKeeps s (stationSearch i s) := by
  unfold stationSearch
  split
  · exact keeps_refl _ s
  · repeat' split
    all_goals first
      | exact keeps_refl _ s
      | exact keeps_trans
          (keeps_trans (keeps_mono (keeps_setFollower s _) (by simp [answerParts]))
            (keeps_mono (keeps_startSearch _ _ _ _) (by simp [answerParts])))
          (keeps_writeStart _)

/-! ### Emitter and round unit -/

theorem answerKeeps_startMeasure (m k : Byte) (a b c : Word) (s : State) : answerKeeps s (startMeasure m k a b c s) := by
  unfold startMeasure
  repeat' split
  all_goals first | exact keeps_refl _ s | exact answerKeeps_set (keeps_setEmitter s _) (by simp [answerParts])

theorem answerKeeps_stopMeasure (s : State) : answerKeeps s (stopMeasure s) :=
  keeps_trans (keeps_mono (keeps_setEmitter s _) (by simp [answerParts])) (keeps_roundParts (keeps_examineDue _))

theorem answerKeeps_readLatest (s : State) : answerKeeps s (readLatest s) :=
  answerKeeps_set (keeps_setEmitter s _) (by simp [answerParts])

theorem keeps_storeFiducial (i : Fin 16) (e : FiducialEntry) (s : State) : keepsOthers answerParts s (storeFiducial i e s) :=
  keeps_then (keeps_mono (keeps_setRound s _) (by simp [answerParts])) (keeps_reportLevel _ _) (by simp [answerParts])

theorem answerKeeps_writeFiducial (i : Byte) (f : FiducialField) (s : State) : answerKeeps s (writeFiducial i f s) := by
  unfold writeFiducial
  repeat' split
  all_goals first | exact keeps_refl _ s | exact keeps_storeFiducial _ _ s

theorem answerKeeps_changeFiducial (st : FiducialState) (i : Byte) (s : State) : answerKeeps s (changeFiducial st i s) := by
  unfold changeFiducial
  repeat' split
  all_goals first | exact keeps_refl _ s | exact keeps_storeFiducial _ _ s

theorem answerKeeps_readFiducial (i : Byte) (s : State) : answerKeeps s (readFiducial i s) := by
  unfold readFiducial
  split <;> exact keeps_refl _ s

theorem answerKeeps_startRound (s : State) : answerKeeps s (startRound s) := by
  unfold startRound
  repeat' split
  all_goals first | exact keeps_refl _ s | exact keeps_roundParts (keeps_startRoundNow s)

theorem answerKeeps_stopRound (s : State) : answerKeeps s (stopRound s) := by
  unfold stopRound
  split
  · exact keeps_then (keeps_roundParts (keeps_stopRoundFor _ s)) (keeps_enterParked _) (by simp [answerParts])
  · exact keeps_roundParts (keeps_stopRoundFor _ s)
  · exact keeps_refl _ s

/-! ### Events, parameters and status -/

theorem answerKeeps_ackEvent (n : Byte) (s : State) : answerKeeps s (ackEvent n s) := by
  unfold ackEvent
  dsimp only
  repeat' split
  all_goals first | exact keeps_refl _ s | exact answerKeeps_set (keeps_setEvents s _) (by simp [answerParts])

theorem answerKeeps_raiseTest (n : Byte) (s : State) : answerKeeps s (raiseTest n s) := by
  unfold raiseTest
  dsimp only
  repeat' split
  all_goals first | exact keeps_refl _ s | exact answerKeeps_set (keeps_setEvents s _) (by simp [answerParts])

theorem answerKeeps_setFloor (f : Word) (s : State) : answerKeeps s (setFloor f s) :=
  answerKeeps_set (keeps_setEvents s _) (by simp [answerParts])

theorem answerKeeps_setEnumerated {α : Type} (i : Byte) (v : Word) (o : Option α) (s : State) (f : α → State)
    (h : ∀ x, keepsOthers answerParts s (f x)) : answerKeeps s (setEnumerated i v o s f) := by
  unfold setEnumerated
  split
  · exact keeps_refl _ s
  · exact h _

theorem answerKeeps_storeParam (p : Param) (i : Byte) (v : Word) (s : State) : answerKeeps s (storeParam p i v s) := by
  have hd : ∀ x, keepsOthers answerParts s (s.setDistance x) :=
    fun x => answerKeeps_set (keeps_setDistance s x) (by simp [answerParts])
  have hf : ∀ x, keepsOthers answerParts s (s.setFollower x) :=
    fun x => answerKeeps_set (keeps_setFollower s x) (by simp [answerParts])
  have hr : ∀ x, keepsOthers answerParts s (s.setRound x) :=
    fun x => answerKeeps_set (keeps_setRound s x) (by simp [answerParts])
  cases p
  · exact hd _
  · exact hd _
  · exact answerKeeps_setEnumerated _ _ _ _ _ fun x => hd _
  · exact hf _
  · exact hf _
  · exact hf _
  · exact hf _
  · exact hf _
  · exact hf _
  · exact hf _
  · exact answerKeeps_setEnumerated _ _ _ _ _ fun x => hf _
  · exact keeps_storeSearch' _ s
  · exact answerKeeps_setEnumerated _ _ _ _ _ fun x => answerKeeps_set (keeps_setEmitter s _) (by simp [answerParts])
  · exact hr _
  · exact answerKeeps_setEnumerated _ _ _ _ _ fun x => hr _

theorem answerKeeps_setParam (i : Byte) (v : Word) (s : State) : answerKeeps s (setParam i v s) := by
  unfold setParam
  repeat' split
  all_goals first | exact keeps_refl _ s | exact answerKeeps_storeParam _ i v s

theorem answerKeeps_readStatus (c : Byte) (s : State) : answerKeeps s (readStatus c s) := by
  unfold readStatus
  split <;> exact keeps_refl _ s

/-- R173 step 1: no request but RESTART changes a port's queues, the local time, the SERVICE level or the model's own fields. -/
theorem perform_keeps (r : Request) (hr : r ≠ .restart) (s : State) : answerKeeps s (perform r s) := by
  cases r with
  | loadCompBegin a => exact answerKeeps_beginLoad a s
  | loadCompData a b c => exact answerKeeps_loadData a b c s
  | loadCompEnd a b => exact answerKeeps_endLoad a b s
  | setRefraction n => exact answerKeeps_setRefraction n s
  | writePose a b c => exact answerKeeps_writePose a b c s
  | clearPose a => exact answerKeeps_clearPose a s
  | readPose a => exact answerKeeps_readPose a s
  | selectPose a => exact answerKeeps_selectPose a s
  | establishAdm => exact answerKeeps_establishAdm s
  | establishHome => exact answerKeeps_establishHome s
  | dropDistance => exact answerKeeps_dropDistance s
  | follow => exact answerKeeps_follow s
  | park => exact keeps_parkFor _ s
  | goto a b c => exact answerKeeps_goTo a b c s
  | writeSteps a b => exact answerKeeps_writeSteps a b s
  | writeSearch a b c d e f => exact answerKeeps_writeSearch a b c d e f s
  | appendSteps a => exact answerKeeps_appendSteps a s
  | resetStream => exact answerKeeps_resetStream s
  | readSearch a => exact answerKeeps_readSearch a s
  | readSteps a b => exact answerKeeps_readSteps a b s
  | startSearch a => exact answerKeeps_stationSearch a s
  | startMeasure a b c d e => exact answerKeeps_startMeasure a b c d e s
  | stopMeasure => exact answerKeeps_stopMeasure s
  | readLatest => exact answerKeeps_readLatest s
  | writeFiducial a b => exact answerKeeps_writeFiducial a b s
  | enableFiducial a => exact answerKeeps_changeFiducial _ a s
  | disableFiducial a => exact answerKeeps_changeFiducial _ a s
  | readFiducial a => exact answerKeeps_readFiducial a s
  | startRound => exact answerKeeps_startRound s
  | stopRound => exact answerKeeps_stopRound s
  | ackEvent a => exact answerKeeps_ackEvent a s
  | raiseTest a => exact answerKeeps_raiseTest a s
  | setFloor a => exact answerKeeps_setFloor a s
  | setParam a b => exact answerKeeps_setParam a b s
  | readStatus a => exact answerKeeps_readStatus a s
  | restart => exact absurd rfl hr

/-! ### A request at a ready port -/

/-- The state in which a request that arrives at a ready port is taken. -/
def takingState (q : Taking) (f : RequestFrame) (s : State) : State :=
  (s.setService q.service).setStation { s.station with breakArmed := true, rx := [], slot := some f }

@[simp] theorem admit_station (r : Record) (s : State) :
    (admitRecord r s).station = { s.station with out := s.station.out ++ [r], tx := some (s.station.tx.getD .front) } := rfl

/-- R172 and R173: a frame that arrives at a ready port is taken at once, when its taking leaves the receive queue empty. -/
theorem stationArrive_ready (q : Taking) (f : RequestFrame) (s : State) (h : portReady s)
    (hrx : (answerFrame f (takingState q f s)).state.station.rx = []) :
    stationArrive (.request f) (s.setService q.service) = serve f (takingState q f s) := by
  obtain ⟨h1, h2, h3, h4⟩ := h
  have h5 : (serve f (takingState q f s)).station.rx = [] := hrx
  have h6 : (serve f (takingState q f s)).station.slot = none := rfl
  simp only [stationArrive, State.setService_station, h1, Bool.false_eq_true, if_false, joinQueue, armBreak,
    State.setStation_station, h3, List.length_nil, Nat.ofNat_pos, if_true, List.nil_append, portAdvance, List.length_singleton]
  simp only [portMoves, portMove, State.setStation_station, h2]
  have h7 : ((takingState q f s).station.out.length < 64) := h4
  have e : ((((s.setService q.service).setStation
      { s.station with breakArmed := true }).setStation { s.station with breakArmed := true, rx := [.request f] }).setStation
      { s.station with breakArmed := true, rx := [], slot := some f }) = takingState q f s := rfl
  simp_all

/-- The answer to any request but RESTART leaves the station port as it is. -/
theorem perform_station (r : Request) (hr : r ≠ .restart) (s : State) : (perform r s).state.station = s.station :=
  perform_keeps r hr s .station (by simp [answerParts])

/-- R172 and R173: a request other than RESTART that arrives at a ready port is taken at once. -/
theorem requestArrive_ready (q : Taking) (r : Request) (hr : r ≠ .restart) (s : State) (h : portReady s) :
    requestArrive q r s = serve (.named q.tag r) (takingState q (.named q.tag r) s) :=
  stationArrive_ready q _ s h (by
    show (perform r _).state.station.rx = []
    rw [perform_station r hr]
    rfl)

end Sys2Proof.Machine
end

