-- ==== Sys2Proof/Laws/Serving.lean ====
section
/-! SUPPORT. What the taking of a request leaves in every field, in terms of the owning block's answer. -/

namespace Sys2Proof.Machine

/-! ### The state in which a request is taken -/

section Taking

variable (q : Taking) (f : RequestFrame) (s : State)

@[simp] theorem takingState_correction : (takingState q f s).correction = s.correction := rfl
@[simp] theorem takingState_poses : (takingState q f s).poses = s.poses := rfl
@[simp] theorem takingState_distance : (takingState q f s).distance = s.distance := rfl
@[simp] theorem takingState_follower : (takingState q f s).follower = s.follower := rfl
@[simp] theorem takingState_search : (takingState q f s).search = s.search := rfl
@[simp] theorem takingState_emitter : (takingState q f s).emitter = s.emitter := rfl
@[simp] theorem takingState_round : (takingState q f s).round = s.round := rfl
@[simp] theorem takingState_events : (takingState q f s).events = s.events := rfl
@[simp] theorem takingState_head : (takingState q f s).head = s.head := rfl
@[simp] theorem takingState_localTime : (takingState q f s).localTime = s.localTime := rfl
@[simp] theorem takingState_service : (takingState q f s).service = q.service := rfl
@[simp] theorem takingState_freeCount : (takingState q f s).freeCount = s.freeCount := rfl
@[simp] theorem takingState_pending : (takingState q f s).pending = s.pending := rfl
@[simp] theorem takingState_station :
    (takingState q f s).station = { s.station with breakArmed := true, rx := [], slot := some f } := rfl

theorem keeps_takingState : keepsOthers [.station, .service] s (takingState q f s) := by
  intro p hp; cases p <;> simp_all [samePart]

end Taking

/-! ### A request's taking -/

theorem keeps_serve (f : RequestFrame) (s : State) : keepsOthers [.station, .events] (answerFrame f s).state (serve f s) :=
  keeps_then (keeps_admit _ _) (keeps_setStation _ _) (by simp)

theorem sources_serve (f : RequestFrame) (s : State) : keepsSources [.queueCongested] (answerFrame f s).state (serve f s) :=
  sources_then (sources_admit _ _) (sources_of_events (l := []) rfl) (by simp)

theorem answerKeeps_answerFrame (f : RequestFrame) (hf : ∀ t, f ≠ .named t .restart) (s : State) :
    answerKeeps s (answerFrame f s) := by
  cases f with
  | named t r => exact perform_keeps r (fun h => hf t (by rw [h])) s
  | unnamed t c => exact keeps_refl _ s

/-- R172 and R173: a frame other than a RESTART that arrives at a ready port is taken at once. -/
theorem stationArrive_taken (q : Taking) (f : RequestFrame) (hf : ∀ t, f ≠ .named t .restart) (s : State) (h : portReady s) :
    stationArrive (.request f) (s.setService q.service) = serve f (takingState q f s) :=
  stationArrive_ready q f s h (by
    rw [answerKeeps_answerFrame f hf (takingState q f s) .station (by simp [answerParts])]; rfl)

/-- R173 and R174: the reply, the SERVICE level and QUEUE_CONGESTED after a taking. -/
theorem serve_answers (q : Taking) (f : RequestFrame) (hf : ∀ t, f ≠ .named t .restart) (ht : frameTag f = q.tag) (s : State)
    (h : portReady s) :
    answers q (frameCode f) (answerFrame f (takingState q f s)).result (answerFrame f (takingState q f s)).data s
      (serve f (takingState q f s)) := by
  have hk := answerKeeps_answerFrame f hf (takingState q f s)
  have hs := hk .station (by simp [answerParts])
  have hv := hk .service (by simp [answerParts])
  simp only [samePart] at hs hv
  obtain ⟨h1, h2, h3, h4⟩ := h
  refine ⟨?_, ?_, ?_⟩
  · simp [serve, setSlot, hs, replyTo, ht, h3]
  · have := keeps_serve f (takingState q f s) .service (by simp)
    exact this.trans hv
  · have := admit_congested (.reply (replyTo f (answerFrame f (takingState q f s)))) (answerFrame f (takingState q f s)).state
    rw [hs] at this
    exact this

/-! ### Requests of the table -/

section Requests

variable (q : Taking) (r : Request) (s : State)

/-- The owning block's answer to a request that is taken from `s`. -/
def taken : Answer := perform r (takingState q (.named q.tag r) s)

/-- What a request that arrives at a ready port leaves, in terms of the owning block's answer. -/
theorem requestArrive_taken (hr : r ≠ .restart) (h : portReady s) :
    answers q (requestCode r) (taken q r s).result (taken q r s).data s (requestArrive q r s) ∧
      keepsOthers [.station, .events] (taken q r s).state (requestArrive q r s) ∧
      keepsSources [.queueCongested] (taken q r s).state (requestArrive q r s) := by
  rw [requestArrive_ready q r hr s h]
  refine ⟨?_, keeps_serve _ _, sources_serve _ _⟩
  exact serve_answers q (.named q.tag r) (by simpa using hr) rfl s h

theorem requestArrive_refuses (hr : r ≠ .restart) (h : portReady s) (reason : RefuseReason)
    (ha : taken q r s = refuse (takingState q (.named q.tag r) s) reason) :
    refuses q (requestCode r) reason s (requestArrive q r s) := by
  obtain ⟨h1, h2, h3⟩ := requestArrive_taken q r s hr h
  rw [ha] at h1 h2 h3
  refine ⟨h1, ?_, ?_⟩
  · exact keeps_then (keeps_mono (keeps_takingState q _ s) (by simp)) h2 (by simp)
  · exact sources_then (sources_of_events (l := [.queueCongested]) rfl) h3 (by simp)

theorem requestArrive_accepts (hr : r ≠ .restart) (h : portReady s) (result : ReplyResult) (data : List Datum)
    (parts : List Part) (sources : List Source) (hres : (taken q r s).result = result) (hdata : (taken q r s).data = data)
    (hp : keepsOthers (.station :: .service :: .events :: parts) (takingState q (.named q.tag r) s) (taken q r s).state)
    (hs : keepsSources (.queueCongested :: sources) (takingState q (.named q.tag r) s) (taken q r s).state) :
    acceptsWithin q (requestCode r) result data parts sources s (requestArrive q r s) := by
  obtain ⟨h1, h2, h3⟩ := requestArrive_taken q r s hr h
  rw [hres, hdata] at h1
  refine ⟨h1, ?_, ?_⟩
  · exact keeps_then (keeps_trans (keeps_mono (keeps_takingState q _ s) (by simp)) hp) h2 (by simp)
  · exact sources_then (sources_trans (sources_of_events rfl) hs) h3 (by simp)

/-- A field other than the station port and the event unit is what the owning block left. -/
theorem requestArrive_part (hr : r ≠ .restart) (h : portReady s) {p : Part} (hp : p ∉ [Part.station, .events]) :
    samePart p (taken q r s).state (requestArrive q r s) :=
  (requestArrive_taken q r s hr h).2.1 p hp

theorem requestArrive_source (hr : r ≠ .restart) (h : portReady s) {src : Source} (hp : src ≠ .queueCongested) :
    (requestArrive q r s).events.get src = (taken q r s).state.events.get src :=
  (requestArrive_taken q r s hr h).2.2.2 src (by simpa using hp)

end Requests

end Sys2Proof.Machine
end

