-- ==== Sys2Proof/Laws/Operations.lean ====
section
/-! SUPPORT. What each shared operation does: the values it gives the fields that it changes. -/

namespace Sys2Proof.Machine

variable (s : State)

/-! ### Ranges -/

theorem clamp_eq_max_min {lo hi : Int} (x : Int) (h : lo ≤ hi) : clamp lo hi x = max lo (min hi x) := by
  unfold clamp
  split
  · omega
  · split <;> omega

theorem clamp_eq_self_iff {lo hi : Int} (x : Int) (h : lo ≤ hi) : clamp lo hi x = x ↔ lo ≤ x ∧ x ≤ hi := by
  rw [clamp_eq_max_min x h]; omega

theorem inRange_iff (lo hi x : Int) : inRange lo hi x = true ↔ lo ≤ x ∧ x ≤ hi := by simp [inRange]

/-! ### Runs -/

/-- Every index after a run is written: an index of the run holds the run's value, any other its own. -/
theorem writeRun_get {α : Type} {n : Nat} (l : List α) :
    ∀ (v : Vector α n) (start i : Nat) (hi : i < n),
      (writeRun v start l)[i] = if start ≤ i then (l[i - start]?).getD v[i] else v[i] := by
  induction l with
  | nil => intro v start i hi; simp [writeRun]
  | cons x xs ih =>
    intro v start i hi
    simp only [writeRun, ih]
    rcases Nat.lt_trichotomy start i with hlt | heq | hgt
    · have : i - start = (i - (start + 1)) + 1 := by omega
      simp [show start + 1 ≤ i by omega, show start ≤ i by omega, this, show start ≠ i by omega]
    · subst heq
      simp
    · simp [show ¬ start + 1 ≤ i by omega, show ¬ start ≤ i by omega, show start ≠ i by omega]

/-! ### The distance unit -/

/-- What a wait leaves when it is cancelled (R52). -/
theorem cancelWait_of_wait {k : DistanceSource} {o : WaitOwner} {m : Nat} (h : s.distance.state.wait = some (k, o, m)) :
    cancelWait s = s.setDistance { s.distance with state := .none, lastWaitKind := k, lastWaitOutcome := .cancelled } := by
  unfold cancelWait
  cases hs : s.distance.state <;> simp_all [DistanceState.wait]

theorem cancelWait_of_no_wait (h : s.distance.state.wait = none) : cancelWait s = s := by
  unfold cancelWait
  cases hs : s.distance.state <;> simp_all [DistanceState.wait]

theorem releaseDistance_of_none (h : s.distance.state = .none) : releaseDistance s = s := by simp [releaseDistance, h]

theorem releaseDistance_of_established {d b c} (h : s.distance.state = .established d b c) :
    releaseDistance s = s.setDistance { s.distance with state := .none } := by simp [releaseDistance, h]

theorem releaseDistance_of_wait {k : DistanceSource} {o : WaitOwner} {m : Nat}
    (h : s.distance.state.wait = some (k, o, m)) :
    releaseDistance s = s.setDistance { s.distance with state := .none, lastWaitKind := k, lastWaitOutcome := .cancelled } := by
  rw [← cancelWait_of_wait s h]
  unfold releaseDistance
  cases hs : s.distance.state <;> simp_all [DistanceState.wait]

/-- R57: a release leaves no distance and reports no loss. -/
@[simp] theorem releaseDistance_state :
    (releaseDistance s).distance.state = .none ∧ (releaseDistance s).distance.lastLoss = s.distance.lastLoss := by
  cases hs : s.distance.state <;> simp [releaseDistance, cancelWait, hs]

theorem dropBase_of_established (cause : LossCause) {d b c} (h : s.distance.state = .established d b c) :
    dropBase cause s = occur .distanceLost (s.setDistance { s.distance with state := .none, lastLoss := cause }) := by
  simp [dropBase, h]

theorem dropBase_of_not (cause : LossCause) (h : s.distance.state.isEstablished = false) : dropBase cause s = s := by
  cases hs : s.distance.state <;> simp_all [dropBase, DistanceState.isEstablished]

theorem leaveDistance_of_none (cause : LossCause) (h : s.distance.state = .none) : leaveDistance cause s = s := by
  simp [leaveDistance, dropBase, cancelWait, h]

theorem leaveDistance_of_established (cause : LossCause) {d b c} (h : s.distance.state = .established d b c) :
    leaveDistance cause s =
      occur .distanceLost (s.setDistance { s.distance with state := .none, lastLoss := cause }) := by
  simp [leaveDistance, dropBase, cancelWait, h]

theorem leaveDistance_of_wait (cause : LossCause) {k : DistanceSource} {o : WaitOwner} {m : Nat}
    (h : s.distance.state.wait = some (k, o, m)) :
    leaveDistance cause s =
      s.setDistance { s.distance with state := .none, lastWaitKind := k, lastWaitOutcome := .cancelled } := by
  unfold leaveDistance
  rw [cancelWait_of_wait s h, dropBase_of_not _ _ rfl]

@[simp] theorem leaveDistance_state (cause : LossCause) : (leaveDistance cause s).distance.state = .none := by
  cases hs : s.distance.state <;> simp [leaveDistance, dropBase, cancelWait, hs]

theorem sources_leaveDistance (cause : LossCause) : keepsSources [.distanceLost] s (leaveDistance cause s) := by
  cases hs : s.distance.state with
  | none => rw [leaveDistance_of_none s _ hs]; exact sources_refl _ s
  | established d b c =>
    rw [leaveDistance_of_established s _ hs]
    exact sources_then (sources_of_events rfl) (sources_occur _ _) (by simp)
  | awaitAdm o m => rw [leaveDistance_of_wait s _ (by rw [hs]; rfl)]; exact sources_of_events rfl
  | awaitHome o c m => rw [leaveDistance_of_wait s _ (by rw [hs]; rfl)]; exact sources_of_events rfl

theorem autoAdmWait_of_established_or_wait (h : s.distance.state ≠ .none) : autoAdmWait s = s := by
  simp [autoAdmWait, h]

/-! ### The follower's entries -/

@[simp] theorem storeFollower_follower (u : Follower) : (storeFollower u s).follower = u := rfl

theorem sources_storeFollower (u : Follower) : keepsSources [.beamAbsent] s (storeFollower u s) :=
  sources_then (sources_of_events rfl) (sources_reportLevel _ _) (by simp)

/-- R83: BEAM_ABSENT is true exactly after an entry to SEARCHING or LOST. -/
@[simp] theorem storeFollower_beamAbsent (u : Follower) :
    ((storeFollower u s).events.get .beamAbsent).genuine = u.state.beamAbsent := by
  unfold storeFollower
  rw [reportLevel_get_self]
  rfl

@[simp] theorem enterLost_follower :
    (enterLost s).follower = { s.follower with state := .lost, grace := none, aim := none, arrivalRun := 0, acqRun := 0 } := rfl

@[simp] theorem enterSearching_follower :
    (enterSearching s).follower =
      { s.follower with state := .searching, followPending := false, grace := none, aim := none, arrivalRun := 0, acqRun := 0 } :=
  rfl

/-! ### The search unit -/

@[simp] theorem storeSearch_search (u : SearchUnit) : (storeSearch u s).search = u := rfl

@[simp] theorem removeSearch_search : (removeSearch s).search = { s.search with active := none } := rfl

theorem sources_storeSearch (u : SearchUnit) : keepsSources [.patternLow] s (storeSearch u s) :=
  sources_then (sources_of_events rfl) (sources_reportLevel _ _) (by simp)

@[simp] theorem abortSearch_search : (abortSearch s).search = { s.search with active := none } := by
  unfold abortSearch
  split
  · rfl
  · rename_i h
    cases ha : s.search.active with
    | none => rw [← ha]
    | some a => simp [ha] at h

theorem sources_abortSearch : keepsSources [.patternLow] s (abortSearch s) := by
  unfold abortSearch
  split
  · exact sources_storeSearch s _
  · exact sources_refl _ s

/-! ### Entries to AIMING and PARKED -/

@[simp] theorem enterAiming_follower (t : Angles) (a : ThenAction) (o : AimOwner) :
    (enterAiming t a o s).follower =
      { s.follower with
        state := .aiming, followPending := false, grace := none, acqRun := 0, arrivalRun := 0
        aim := some { az := t.az, el := t.el, thenAction := a, owner := o, timer := 3000 } } := by
  simp [enterAiming]

@[simp] theorem enterAiming_search (t : Angles) (a : ThenAction) (o : AimOwner) :
    (enterAiming t a o s).search = { s.search with active := none } := by
  simp [enterAiming]

@[simp] theorem enterAiming_distance (t : Angles) (a : ThenAction) (o : AimOwner) :
    (enterAiming t a o s).distance.state = .none := by
  simp [enterAiming]

@[simp] theorem enterParked_follower : (enterParked s).follower = s.follower.parkedAs := by
  simp [enterParked]

@[simp] theorem enterParked_search : (enterParked s).search = { s.search with active := none } := by
  simp [enterParked]

@[simp] theorem enterParked_distance : (enterParked s).distance.state = .none := by
  simp [enterParked]

/-! ### Steering frames -/

theorem writeSteer_head (f : Steer) :
    (writeSteer f s).head =
      if s.head.tx.isSome then
        { s.head with
          slot := some f
          superseded := if s.head.slot.isSome then count16 s.head.superseded else s.head.superseded }
      else
        { s.head with
          slot := none, tx := some (.steer f)
          superseded := if s.head.slot.isSome then count16 s.head.superseded else s.head.superseded } := by
  cases h : s.head.tx <;> simp [writeSteer, headBegin, h]

/-- R89 and R171: a written frame waits while another is in transmission, and begins otherwise. -/
theorem steerWritten_writeSteer (f : Steer) : steerWritten f s (writeSteer f s) := by
  unfold steerWritten
  rw [writeSteer_head]
  cases h : s.head.tx <;> simp [h]

/-! ### The emitter -/

@[simp] theorem setMode_emitter (m : EmissionMode) : (setMode m s).emitter = { s.emitter with mode := m } := rfl

@[simp] theorem setMode_events (m : EmissionMode) : (setMode m s).events = s.events := rfl

theorem abortSingle_of_not (h : s.emitter.mode.isSingle = false) : abortSingle s = s := by simp [abortSingle, h]

theorem abortSingle_of_single (h : s.emitter.mode.isSingle = true) :
    abortSingle s = occur .measureAborted (setMode .idle s) := by simp [abortSingle, h]

theorem sources_abortSingle : keepsSources [.measureAborted] s (abortSingle s) := by
  unfold abortSingle
  split
  · exact sources_then (sources_of_events rfl) (sources_occur _ _) (by simp)
  · exact sources_refl _ s

theorem abortIfBroken_of_not (b : State) (h : s.emitter.mode.isSingle = false) : abortIfBroken b s = s := by
  simp [abortIfBroken, abortSingle_of_not s h]

theorem abortIfBroken_of_same (b : State) (h : b.distance.state.isEstablished = true → s.distance.state.isEstablished = true)
    (k : b.follower.state = .following → s.follower.state = .following) : abortIfBroken b s = s := by
  unfold abortIfBroken
  split
  · rename_i hc
    cases hd : b.distance.state.isEstablished <;> simp_all
  · rfl

theorem abortIfBroken_of_broken (b : State)
    (h : (b.distance.state.isEstablished = true ∧ s.distance.state.isEstablished = false) ∨
      (b.follower.state = .following ∧ s.follower.state ≠ .following)) : abortIfBroken b s = abortSingle s := by
  unfold abortIfBroken
  rcases h with ⟨h, k⟩ | ⟨h, k⟩ <;> simp [h, k]

theorem sources_abortIfBroken (b : State) : keepsSources [.measureAborted] s (abortIfBroken b s) := by
  unfold abortIfBroken
  split
  · exact sources_abortSingle s
  · exact sources_refl _ s

/-! ### The round unit -/

@[simp] theorem setRoundState_round (st : RoundState) : (setRoundState st s).round = { s.round with state := st } := rfl

@[simp] theorem setRoundState_events (st : RoundState) : (setRoundState st s).events = s.events := rfl

@[simp] theorem abandonRound_round (a : AbortReason) :
    (abandonRound a s).round = { s.round with state := .idle, summary := .aborted a } := by
  simp [abandonRound]

@[simp] theorem discardRound_round (a : AbortReason) :
    (discardRound a s).round = { s.round with state := .idle, returnAngles := none, summary := .aborted a } := by
  simp [discardRound]

theorem sources_abandonRound (a : AbortReason) : keepsSources [.roundDue, .roundAborted] s (abandonRound a s) :=
  sources_then_occur (sources_then_report (sources_of_events rfl) (by simp)) (by simp)

theorem abandonRound_event (a : AbortReason) :
    (abandonRound a s).events.get .roundAborted = (s.events.get .roundAborted).occurred s.localTime := by
  unfold abandonRound
  rw [occur_get_self, reportLevel_get_other _ (by simp)]
  simp

@[simp] theorem examineDue_of_not_due (h : s.round.state ≠ .due) : examineDue s = s := by simp [examineDue, h]

theorem examineDue_of_busy (h : roundBusy s = true) : examineDue s = s := by simp [examineDue, h]

/-! ### DROP_DISTANCE (R57) -/

theorem dropFor_of_none (h : s.distance.state = .none) : dropFor s = s := by
  unfold dropFor
  rw [releaseDistance_of_none s h, abortIfBroken_of_same s s id id, h]

theorem dropFor_of_wait {k : DistanceSource} {o : WaitOwner} {m : Nat} (h : s.distance.state.wait = some (k, o, m))
    (hr : s.round.state.isRunning = false) :
    dropFor s = s.setDistance { s.distance with state := .none, lastWaitKind := k, lastWaitOutcome := .cancelled } := by
  have ha : abortIfBroken s (releaseDistance s) = releaseDistance s := by
    refine abortIfBroken_of_same _ s (fun he => ?_) (by simp)
    cases hs : s.distance.state <;> simp_all [DistanceState.wait, DistanceState.isEstablished]
  rw [← releaseDistance_of_wait s h]
  unfold dropFor
  rw [ha]
  have hf : roundWaitFailed (releaseDistance s) = releaseDistance s := by
    unfold roundWaitFailed
    cases hs : s.round.state <;> simp_all [RoundState.isRunning]
  cases hs : s.distance.state with
  | none => simp [hs, DistanceState.wait] at h
  | established a b c => simp [hs, DistanceState.wait] at h
  | awaitAdm o m => cases o <;> simp [hf]
  | awaitHome o c m => rfl

theorem dropFor_of_established {d b c} (h : s.distance.state = .established d b c) (hr : s.round.state ≠ .due) :
    dropFor s = abortSingle (s.setDistance { s.distance with state := .none }) := by
  have ha : abortIfBroken s (releaseDistance s) = abortSingle (releaseDistance s) :=
    abortIfBroken_of_broken _ s (.inl (by simp [h, DistanceState.isEstablished]))
  unfold dropFor
  rw [ha, h, releaseDistance_of_established s h]
  exact examineDue_of_not_due _ (by simpa using hr)

/-! ### Ticks -/

theorem severalDue_of_one (e : Expiry) (h : ∀ x, x ≠ e → expiryDue s x = false) : severalDue s = false := by
  have hlen : (Expiry.all.filter (expiryDue s)).length ≤ (Expiry.all.filter (fun x => decide (x = e))).length := by
    simp only [← List.countP_eq_length_filter]
    refine List.countP_mono_left fun x _ hx => ?_
    by_contra hne
    simp [h x (by simpa using hne)] at hx
  have hone : (Expiry.all.filter (fun x => decide (x = e))).length = 1 := by cases e <;> rfl
  unfold severalDue
  simp only [decide_eq_false_iff_not]
  omega

theorem baseTick_of_quiet (h : ∀ e, expiryDue s e = false) : baseTick s = tickIn Expiry.all s := by
  simp [baseTick, severalDue_of_one s .silence fun x _ => h x]

theorem namedTick_of_only (e : Expiry) (he : expiryDue s e = true) (h : ∀ x, x ≠ e → expiryDue s x = false) :
    namedTick e s = tickIn Expiry.all s := by
  simp [namedTick, he, severalDue_of_one s e h]

theorem namedTick_of_not_due (e : Expiry) (he : expiryDue s e = false) : namedTick e s = s := by
  simp [namedTick, he]

/-- A tick counts once and handles the timers in some order. -/
theorem baseTick_cases : ∃ order u, (u = s ∨ u = useFree s) ∧ baseTick s = tickIn order u := by
  unfold baseTick
  split
  · exact ⟨_, _, .inr rfl, rfl⟩
  · exact ⟨_, _, .inl rfl, rfl⟩

/-- A named tick is no tick, or counts once and handles the timers in some order. -/
theorem namedTick_cases (e : Expiry) :
    namedTick e s = s ∨ ∃ order u, (u = s ∨ u = useFree s) ∧ namedTick e s = tickIn order u := by
  unfold namedTick
  split
  · split
    · exact .inr ⟨_, _, .inr rfl, rfl⟩
    · exact .inr ⟨_, _, .inl rfl, rfl⟩
  · exact .inl rfl

theorem mem_place (free : Nat) (e x : Expiry) (l : List Expiry) : x ∈ Expiry.place free e l ↔ x = e ∨ x ∈ l := by
  induction l with
  | nil => simp [Expiry.place]
  | cons y ys ih =>
    unfold Expiry.place
    split
    · simp
    · simp only [List.mem_cons, ih]; tauto

/-- The free order handles every timer. -/
theorem mem_freeOrder (free : Nat) (e : Expiry) : e ∈ Expiry.freeOrder free := by
  simp only [Expiry.freeOrder, Expiry.all, List.foldl_cons, List.foldl_nil, mem_place]
  cases e <;> simp

end Sys2Proof.Machine
end

