-- ==== Sys2Proof/Laws/Sampling.lean ====
section
/-! SUPPORT. What the taking of a sample comes to, once: the corrected sample and the state that the correction leaves (R1 to R4),
and the hand-over with no round (R66). -/

namespace Sys2Proof.Machine

/-! ### The correction -/

/-- The report to the round unit changes nothing but the phase ADM of a RUNNING round. -/
theorem noteEstablished_of_quiet (b : DistanceState) {s : State}
    (h : ∀ r, s.round.state = .running r → r.phase ≠ .adm) : noteEstablished b s = s := by
  unfold noteEstablished
  split
  · unfold roundEstablished
    split
    · rename_i r hr
      simp [h r hr]
    · rfl
    · rfl
  · rfl

/-- R2 to R4: what the corrected sample holds of the raw one. -/
theorem correctSample_fields (f : Sample) (s : State) :
    (correctSample f s).2.frame = f ∧ (correctSample f s).2.present = decidePresence s.follower f ∧
      (correctSample f s).2.psdX = clampPsd f.psdX ∧ (correctSample f s).2.psdY = clampPsd f.psdY ∧
      (correctSample f s).2.angles = (if badSample f then none else some (correctAngles s.correction f)) := by
  unfold correctSample
  split
  · simp [correctBad, decidePresence, *]
  · simp [correctGood, *]

theorem correctSample_sampleAngles (f : Sample) (s : State) :
    (correctSample f s).2.sampleAngles = (if badSample f then none else some (stageA s.correction f)) := by
  unfold Corrected.sampleAngles
  rw [(correctSample_fields f s).2.2.2.2]
  split <;> simp [correctAngles]

/-- The events that a correction can latch. -/
theorem sources_decideDistance (f : Sample) (b : Bool) (s : State) : keepsSources [.distanceLost] s (decideDistance f b s) := by
  unfold decideDistance
  split
  · exact sources_refl _ _
  · split
    · exact sources_refl _ _
    · unfold dropBase
      split
      · exact sources_then_occur (sources_of_events rfl) (by simp)
      all_goals exact sources_refl _ _
  · split
    · split
      · exact sources_of_events rfl
      · exact sources_refl _ _
    · exact sources_refl _ _
  · split
    · exact sources_of_events rfl
    · exact sources_refl _ _

theorem noteEstablished_events (b : DistanceState) (s : State) : (noteEstablished b s).events = s.events := by
  unfold noteEstablished roundEstablished
  split
  · split
    · split <;> rfl
    · rfl
    · rfl
  · rfl

theorem sources_measure (f : Sample) (a : CorrectedAngles) (s : State) :
    keepsSources [.distanceLost, .distanceFault] s (measure f a s).1 := by
  unfold measure
  split
  · split
    · exact sources_refl _ _
    · exact sources_then_occur (sources_then_occur (sources_of_events rfl) (by simp)) (by simp)
  all_goals exact sources_refl _ _

theorem sources_correctSample (f : Sample) (s : State) :
    keepsSources [.distanceLost, .distanceFault] s (correctSample f s).1 := by
  have hd : ∀ (b : Bool) (u : State), keepsSources [.distanceLost, .distanceFault] u (decideStep f b u) := fun b u =>
    sources_then_same (sources_mono (sources_decideDistance f b u) (by simp)) (noteEstablished_events _ _)
  unfold correctSample
  split
  · exact sources_trans (sources_of_events rfl) (hd _ _)
  · exact sources_then_same (sources_trans (hd _ _) (sources_measure f _ _)) rfl

theorem keeps_noteEstablished (b : DistanceState) (s : State) : keepsOthers [.round] s (noteEstablished b s) := by
  unfold noteEstablished
  split
  · exact keeps_roundEstablished _
  · exact keeps_refl _ s

theorem keeps_decideStep_parts (f : Sample) (b : Bool) (s : State) :
    keepsOthers [.distance, .events, .round] s (decideStep f b s) :=
  keeps_trans (keeps_mono (keeps_decideDistance f b s) (by simp)) (keeps_mono (keeps_noteEstablished _ _) (by simp))

/-- The correction of a sample changes the correction unit, the distance, the events and the phase of a round, and nothing else. -/
theorem keeps_correctSample_parts (f : Sample) (s : State) :
    keepsOthers [.correction, .distance, .events, .round] s (correctSample f s).1 := by
  have hd := fun (b : Bool) (u : State) =>
    keeps_mono (m := [.correction, .distance, .events, .round]) (keeps_decideStep_parts f b u) (by simp)
  unfold correctSample
  split
  · exact keeps_trans (keeps_mono (keeps_setCorrection s _) (by simp)) (hd _ _)
  · exact keeps_then (keeps_then (hd _ s) (keeps_measure _ _ _) (by simp)) (keeps_setCorrection _ _) (by simp)

/-- The fields that the correction of a sample leaves. -/
theorem correctSample_keeps (f : Sample) (s : State) :
    (correctSample f s).1.poses = s.poses ∧ (correctSample f s).1.follower = s.follower ∧
      (correctSample f s).1.search = s.search ∧ (correctSample f s).1.emitter = s.emitter ∧
      (correctSample f s).1.head = s.head ∧ (correctSample f s).1.station = s.station ∧
      (correctSample f s).1.localTime = s.localTime := by
  have h := keeps_correctSample_parts f s
  exact ⟨h .poses (by decide), h .follower (by decide), h .search (by decide), h .emitter (by decide), h .head (by decide),
    h .station (by decide), h .localTime (by decide)⟩

/-- With no round in phase ADM the round unit is as it was. -/
theorem correctSample_round (f : Sample) {s : State} (h : ∀ r, s.round.state = .running r → r.phase ≠ .adm) :
    (correctSample f s).1.round = s.round := by
  have hd : ∀ (b : Bool) (u : State), u.round = s.round → (decideStep f b u).round = s.round := by
    intro b u hu
    have hk : (decideDistance f b u).round = u.round := keeps_decideDistance f b u .round (by decide)
    unfold decideStep
    rw [noteEstablished_of_quiet _ (by rw [hk, hu]; exact h), hk, hu]
  unfold correctSample
  split
  · exact hd _ _ rfl
  · have hm : ∀ a (u : State), (measure f a u).1.round = u.round := fun a u => keeps_measure f a u .round (by decide)
    simp [correctGood, hm, hd]

/-- R25 and R3: the correction unit after the correction. -/
theorem correctSample_correction (f : Sample) (s : State) :
    (correctSample f s).1.correction =
      if badSample f then { s.correction with badSamples := count16 s.correction.badSamples }
      else { s.correction with cosEl := cosOf (stageA s.correction f).el, sinEl := sinOf (stageA s.correction f).el } := by
  have hd : ∀ (b : Bool) (u : State), (decideStep f b u).correction = u.correction := fun b u =>
    keeps_decideStep_parts f b u .correction (by decide)
  have hm : ∀ a (u : State), (measure f a u).1.correction = u.correction := fun a u => keeps_measure f a u .correction (by decide)
  unfold correctSample
  split
  · simp [correctBad, hd]
  · simp [correctGood, hd, hm, correctAngles]

/-- R111: a sample without beam, or whose count does not stand, has no distance. -/
theorem decideDistance_not_established (f : Sample) (b : Bool) (s : State) (h : b = false ∨ ifmGood f = false)
    : (decideDistance f b s).distance.state.isEstablished = false := by
  unfold decideDistance
  split
  · simp [*, DistanceState.isEstablished]
  · rename_i hs
    rw [if_neg (by rcases h with h | h <;> simp [h]), dropBase_of_established _ _ hs]
    simp [DistanceState.isEstablished]
  · rename_i hs
    split
    · rename_i d q _
      rw [if_neg]
      · simp [hs, DistanceState.isEstablished]
      · rcases h with h | h
        · simp [qualifiesAdm, h]
        · unfold ifmGood at h; unfold qualifiesAdm; revert h; cases badSample f <;> cases f.ifmOk <;> simp
    · simp [hs, DistanceState.isEstablished]
  · rename_i hs
    rw [if_neg]
    · simp [hs, DistanceState.isEstablished]
    · rcases h with h | h
      · simp [qualifiesHome, h]
      · unfold ifmGood at h; unfold qualifiesHome; revert h; cases badSample f <;> cases f.ifmOk <;> simp

theorem measure_not_established (f : Sample) (a : CorrectedAngles) {s : State} (h : s.distance.state.isEstablished = false) :
    measure f a s = (s, none) := by
  unfold measure
  split <;> simp_all [DistanceState.isEstablished]

theorem decideStep_distance (f : Sample) (b : Bool) (s : State) : (decideStep f b s).distance = (decideDistance f b s).distance :=
  keeps_noteEstablished _ _ .distance (by decide)

/-- R111: a sample that is absent, or whose count does not stand, or that comes with no base or wait, has no distance. -/
theorem correctSample_no_distance (f : Sample) (s : State)
    (h : decidePresence s.follower f = false ∨ f.ifmOk = false ∨ s.distance.state = .none) :
    (correctSample f s).2.distance = none := by
  unfold correctSample
  split
  · rfl
  · rename_i hb
    have he : (decideStep f (decidePresence s.follower f) s).distance.state.isEstablished = false := by
      rw [decideStep_distance]
      rcases h with h | h | h
      · exact decideDistance_not_established _ _ _ (.inl h)
      · exact decideDistance_not_established _ _ _ (.inr (by simp [ifmGood, h]))
      · simp [decideDistance, h, DistanceState.isEstablished]
    simp [correctGood, measure_not_established f _ he]

/-- With no base and no wait the distance stays NONE. -/
theorem correctSample_none (f : Sample) {s : State} (h : s.distance.state = .none) :
    (correctSample f s).1.distance = s.distance := by
  have hd : ∀ (b : Bool) (u : State), u.distance = s.distance → (decideStep f b u).distance = s.distance := by
    intro b u hu
    rw [decideStep_distance]; simp [decideDistance, hu, h]
  unfold correctSample
  split
  · exact hd _ _ rfl
  · have he : (decideStep f (decidePresence s.follower f) s).distance = s.distance := hd _ _ rfl
    simp only [correctGood]
    rw [measure_not_established f _ (by rw [he, h]; rfl)]
    exact he

/-- R16 to R18 and R111: a good and PRESENT sample keeps a base whose distance is plausible, and has that distance. -/
theorem correctSample_usable (f : Sample) {s : State} {src : DistanceSource} {b : Nat} {c : Word}
    (hs : s.distance.state = .established src b c) (hb : badSample f = false) (hp : decidePresence s.follower f = true)
    (hi : f.ifmOk = true) (hpl : plausible (opticalDistance b c f.ifmCount) = true) :
    (correctSample f s).1.distance = s.distance ∧
      (correctSample f s).2.distance =
        some (correctDistance s src (correctAngles s.correction f) (opticalDistance b c f.ifmCount)) := by
  have hd : decideStep f true s = s := by
    simp [decideStep, decideDistance, hs, ifmGood, hi, hb, noteEstablished]
  unfold correctSample
  simp [hb, correctGood, hp, hd, measure, hs, hpl]

/-! ### The follower -/

/-- The events that the follower's and the search unit's handling of a sample can report. -/
def followerSources : List Source := [.beamAbsent, .patternLow, .searchExhausted, .searchStarved, .reacquired]

theorem sources_endSearch {src : Source} (s : State) (h : src ∈ followerSources) :
    keepsSources followerSources s (endSearch src s) :=
  sources_trans
    (sources_then_occur (sources_mono (sources_storeSearch s { s.search with active := none }) (by simp [followerSources])) h)
    (sources_mono (sources_storeFollower _ _) (by simp [followerSources]))

theorem sources_startSearch (i : Fin 8) (c : Angles) (o : SearchOwner) (s : State) :
    keepsSources followerSources s (startSearch i c o s).1 := by
  have hs : ∀ (x : SearchUnit) (u : State), keepsSources followerSources u (enterSearching (storeSearch x u)) := fun x u =>
    sources_trans (sources_mono (sources_storeSearch u x) (by simp [followerSources]))
      (sources_mono (sources_storeFollower _ _) (by simp [followerSources]))
  unfold startSearch
  dsimp only
  split
  · exact hs _ s
  · split
    · exact sources_trans (hs _ s) (sources_endSearch _ (by simp [followerSources]))
    · exact hs _ s

theorem sources_askSearch (d : Option (Fin 8)) (c : Angles) (o : SearchOwner) (s : State) :
    keepsSources followerSources s (askSearch d c o s).1 := by
  unfold askSearch
  split
  · exact sources_refl _ s
  · split
    · exact sources_startSearch _ _ _ s
    · exact sources_refl _ s

theorem sources_searchSample (s : State) : keepsSources followerSources s (searchSample s).1 := by
  have hs : ∀ x : SearchUnit, keepsSources followerSources s (storeSearch x s) := fun x =>
    sources_mono (sources_storeSearch s x) (by simp [followerSources])
  have he : ∀ src, src ∈ followerSources → keepsSources followerSources s (endSearch src s) := fun _ h =>
    sources_endSearch s h
  unfold searchSample
  split
  · exact sources_refl _ s
  · split
    · exact sources_of_events rfl
    · unfold nextStep
      split
      · dsimp only
        split
        · exact hs _
        · split
          · exact hs _
          · exact he _ (by simp [followerSources])
      · split
        · exact he _ (by simp [followerSources])
        · exact hs _

/-- The follower's and the search unit's handling of a sample reports nothing but those five. -/
theorem sources_followerSample (c : Corrected) (s : State) :
    keepsSources followerSources s (followerSample c s).state := by
  have hp : keepsSources followerSources s (notePresence c s) := sources_of_events rfl
  have hset : ∀ (u : State) x, keepsSources followerSources u (u.setFollower x) := fun _ _ => sources_of_events rfl
  have hauto' : ∀ u : State, (autoAdmWait u).events = u.events := fun u => keeps_autoAdmWait u .events (by decide)
  have hloop : ∀ k r (u : State), keepsSources followerSources u (closeLoop k r c u).state := fun k r u =>
    sources_then_same
      (sources_mono
        (sources_storeFollower u
          { u.follower with
            state := .following, grace := none, aim := none, arrivalRun := 0, acqRun := 0
            iAz := if k then u.follower.iAz else 0
            iEl := if k then u.follower.iEl else 0 })
        (by simp [followerSources]))
      (hauto' _)
  have hlose : ∀ r (u : State), keepsSources followerSources u (loseBeam r u).state := fun r u =>
    sources_mono (sources_storeFollower u _) (by simp [followerSources])
  have hauto : ∀ a (u : State), keepsSources followerSources u (autoSearch a u).state := by
    intro a u
    have h := sources_askSearch u.follower.autoSearch a .follower u
    unfold autoSearch
    split
    · simp_all
    · simp_all
    · rename_i t heq
      rw [heq] at h
      exact sources_trans h (hlose .none t)
  have hgrace : ∀ u : State, keepsSources followerSources u (expireGrace u).state := by
    intro u
    unfold expireGrace
    split
    · exact hlose _ u
    · exact hauto _ u
  have hplay : ∀ o (u : State), keepsSources followerSources u (playSample o u).state := by
    intro o u
    have h := sources_searchSample u
    unfold playSample
    split <;> simp_all
  refine sources_trans hp ?_
  unfold followerSample
  generalize notePresence c s = u
  unfold followerTransition
  split
  · unfold decidePending
    dsimp only
    split
    · exact sources_trans (hset u _) (hloop _ _ _)
    · exact sources_trans (hset u _) (hauto _ _)
  · split
    · exact sources_refl _ u
    · split
      · unfold aimSample
        split
        · exact hset u _
        · split
          · exact hset u _
          · split
            · exact hloop _ _ u
            · exact hlose _ u
            · exact hlose _ u
      · exact sources_refl _ u
    · split
      · exact hset u _
      · unfold enterHolding
        dsimp only
        have hst := sources_mono (m := followerSources)
          (sources_storeFollower u { u.follower with state := .holding, grace := some u.follower.graceParam })
          (by simp [followerSources])
        split
        · exact sources_trans hst (hgrace _)
        · exact hst
    · split
      · exact hloop _ _ u
      · unfold countGrace
        dsimp only
        split
        · exact sources_trans (hset u _) (hgrace _)
        · exact hset u _
    · unfold searchingSample
      dsimp only
      split
      · split
        · exact sources_trans (hset u _) (hplay _ _)
        · unfold acquire
          exact sources_trans
            (sources_then_occur (sources_mono (sources_storeSearch u { u.search with active := none }) (by simp [followerSources]))
              (by simp [followerSources])) (hloop _ _ _)
      · exact sources_trans (hset u _) (hplay _ _)
    · unfold lostSample
      split
      · split
        · split
          · exact hset u _
          · exact hloop _ _ u
        · exact hset u _
      · exact sources_refl _ u

/-! ### The hand-over -/

theorem writeFrame_keeps (o : Option Steer) (s : State) : keepsOthers [.head] s (writeFrame o s) := by
  unfold writeFrame
  split
  · exact keeps_writeSteer _ s
  · exact keeps_refl _ s

/-- The writing of a frame touches the steering slot and the transmitter, not the queues. -/
@[simp] theorem writeSteer_rx (f : Steer) (s : State) : (writeSteer f s).head.rx = s.head.rx := by
  rw [writeSteer_head]
  split <;> rfl

@[simp] theorem writeFrame_rx (o : Option Steer) (s : State) : (writeFrame o s).head.rx = s.head.rx := by
  unfold writeFrame
  split <;> simp

theorem writeFrame_events (o : Option Steer) (s : State) : (writeFrame o s).events = s.events :=
  writeFrame_keeps o s .events (by decide)

/-- The emitter's handling of a sample reports an aborted SINGLE and the occupancy of the output queue, and nothing else. -/
theorem sources_offerPoint (p : PointRecord) (s : State) : keepsSources [.queueCongested] s (offerPoint p s) := by
  unfold offerPoint
  split
  · exact sources_then_same (sources_admit _ s) rfl
  · exact sources_of_events rfl

theorem sources_emitterSample (c : Corrected) (s : State) :
    keepsSources [.measureAborted, .queueCongested] s (emitterSample c s) := by
  have ho : ∀ p (u : State), u.events = s.events → keepsSources [.measureAborted, .queueCongested] s (offerPoint p u) := by
    intro p u hu
    exact sources_trans (sources_of_events hu) (sources_mono (sources_offerPoint p u) (by simp))
  have hs : ∀ u : State, u.events = s.events → keepsSources [.measureAborted, .queueCongested] s u := fun u hu =>
    sources_of_events hu
  unfold emitterSample
  dsimp only
  split
  · exact sources_trans (sources_of_events rfl) (sources_mono (sources_abortSingle _) (by simp))
  · unfold modeSample
    split
    · exact hs _ rfl
    · unfold singleSample
      split
      · exact hs _ rfl
      · split
        · dsimp only
          split
          · exact ho _ _ rfl
          · exact hs _ rfl
        · exact hs _ rfl
    · unfold streamSample
      split
      · exact ho _ _ rfl
      · exact hs _ rfl
    · unfold spacedSample
      split
      · exact ho _ _ rfl
      · exact hs _ rfl
    · unfold triggeredSample
      split
      · exact hs _ rfl
      · exact ho _ _ rfl

/-- The corrected sample and the state that a taken sample's correction leaves. -/
def correctedFront (f : Sample) (rest : List Sample) (s : State) : State × Corrected :=
  correctSample f (s.setHead { s.head with rx := rest })

theorem takeOldest_of_front {s : State} {f : Sample} {rest : List Sample} (h : s.head.rx = f :: rest) :
    takeOldest s = handOver (correctedFront f rest s).2 (correctedFront f rest s).1 := by
  unfold takeOldest
  rw [h]
  rfl

/-- With no round the sample goes to the follower, which writes its frame, and then to the emitter. -/
theorem handOver_idle (c : Corrected) {s : State} (h : s.round.state = .idle) :
    handOver c s = emitterSample c (writeFrame (followerSample c s).frame (followerSample c s).state) := by
  have h1 : (followerSample c s).state.round = s.round := keeps_followerSample c s .round (by decide)
  have h2 : roundSearch c (followerSample c s) = followerSample c s := by simp [roundSearch, h1, h]
  have h3 : ∀ u : State, (emitterSample c (writeFrame (followerSample c s).frame u)).round = u.round := fun u => by
    rw [keeps_emitterSample c _ .round (by decide), writeFrame_keeps _ u .round (by decide)]
  unfold handOver
  simp only [h2]
  have h4 : (emitterSample c (writeFrame (followerSample c s).frame (followerSample c s).state)).round.state = .idle := by
    rw [h3, h1, h]
  simp [roundSample, h4, examineDue]

/-- The parts and the events that a sample with no round leaves as the follower left them. -/
theorem handOver_idle_keeps (c : Corrected) {s : State} (h : s.round.state = .idle) :
    (handOver c s).follower = (followerSample c s).state.follower ∧ (handOver c s).search = (followerSample c s).state.search ∧
      (handOver c s).distance = (followerSample c s).state.distance ∧
      (∀ f, (followerSample c s).frame = some f → steerWritten f s (handOver c s)) ∧
      ((followerSample c s).frame = none → (handOver c s).head = s.head) ∧
      (handOver c s).round = s.round ∧ (handOver c s).head.rx = s.head.rx ∧
      keepsSources [.measureAborted, .queueCongested] (followerSample c s).state (handOver c s) := by
  have hk := keeps_followerSample c s
  have hh : (followerSample c s).state.head = s.head := hk .head (by decide)
  rw [handOver_idle c h]
  have hw := writeFrame_keeps (followerSample c s).frame (followerSample c s).state
  have he := keeps_emitterSample c (writeFrame (followerSample c s).frame (followerSample c s).state)
  refine ⟨(he .follower (by decide)).trans (hw .follower (by decide)), (he .search (by decide)).trans (hw .search (by decide)),
    (he .distance (by decide)).trans (hw .distance (by decide)), fun f hf => ?_, fun hf => ?_,
    ((he .round (by decide)).trans (hw .round (by decide))).trans (hk .round (by decide)), ?_, ?_⟩
  · have hp := he .head (by decide)
    have hq := steerWritten_writeSteer (followerSample c s).state f
    simp only [samePart] at hp
    unfold steerWritten at hq ⊢
    rw [hp]
    simpa [writeFrame, hf, hh] using hq
  · have hp := he .head (by decide)
    simp only [samePart] at hp
    rw [hp]
    simp [writeFrame, hf, hh]
  · have hp := he .head (by decide)
    simp only [samePart] at hp
    rw [hp, writeFrame_rx, hh]
  · exact sources_trans (sources_of_events (writeFrame_events _ _)) (sources_emitterSample c _)

end Sys2Proof.Machine
end

