-- ==== Sys2Proof/Laws/Distances.lean ====
section
/-! SUPPORT. What the taking of a sample does to the distance, once: a wait that qualifies or is passed over, a base that stays or
is dropped (R47, R48, R50, R53, R54), and the distance that the sample is handed on with (R4, R111). -/

namespace Sys2Proof.Machine

/-! ### The conditions of R47 and R50 -/

theorem clampPsd_centred (p : Half) : inRange (-200) 200 (clampPsd p) = true ↔ -200 ≤ p.toInt ∧ p.toInt ≤ 200 := by
  unfold inRange clampPsd clamp
  rw [Bool.and_eq_true, decide_eq_true_iff, decide_eq_true_iff]
  split
  · omega
  · split <;> omega

theorem qualifiesAdm_iff (s : State) (f : Sample) (d : Word) (q : Byte) (h : f.adm = some (d, q)) :
    qualifiesAdm s.distance f (decidePresence s.follower f) d q = true ↔ admQualifies s f d q := by
  unfold qualifiesAdm admQualifies centred
  simp only [Bool.and_eq_true, clampPsd_centred, Bool.not_eq_true', decide_eq_true_eq, h, true_and]
  tauto

theorem qualifiesHome_iff (s : State) (f : Sample) :
    qualifiesHome f (decidePresence s.follower f) = true ↔ homeQualifies s f := by
  unfold qualifiesHome homeQualifies
  simp only [Bool.and_eq_true, Bool.not_eq_true']
  tauto

/-- A PRESENT sample is not bad (R3, R61). -/
theorem good_of_present {u : Follower} {f : Sample} (h : decidePresence u f = true) : badSample f = false := by
  unfold decidePresence at h
  split at h
  · cases h
  · simpa using ‹¬ badSample f = true›

/-! ### The correction, by its decision -/

/-- The decision of step 2 of R4 on a sample, for which a bad sample is absent. -/
def decided (f : Sample) (s : State) : State := decideDistance f (decidePresence s.follower f) s

theorem decided_keeps (f : Sample) (s : State) :
    (decideStep f (decidePresence s.follower f) s).distance = (decided f s).distance ∧
      (decideStep f (decidePresence s.follower f) s).events = (decided f s).events :=
  ⟨decideStep_distance _ _ _, noteEstablished_events _ _⟩

/-- Where the decision leaves no base, the sample has no distance and nothing more happens. -/
theorem correctSample_unestablished (f : Sample) {s : State} (h : (decided f s).distance.state.isEstablished = false) :
    (correctSample f s).1.distance = (decided f s).distance ∧ (correctSample f s).1.events = (decided f s).events ∧
      (correctSample f s).2.distance = none := by
  obtain ⟨hd, he⟩ := decided_keeps f s
  unfold correctSample
  split
  · rename_i hb
    have hp : decidePresence s.follower f = false := by simp [decidePresence, hb]
    rw [hp] at hd he
    have h1 : ∀ c : CorrectionUnit, (decideStep f false (s.setCorrection c)).distance = (decideStep f false s).distance ∧
        (decideStep f false (s.setCorrection c)).events = (decideStep f false s).events := by
      intro c
      rw [decideStep_distance, decideStep_distance]
      refine ⟨?_, ?_⟩
      · unfold decideDistance dropBase
        simp only [State.setCorrection_distance]
        split <;> (repeat' split) <;> simp_all [setBase]
      · unfold decideStep
        rw [noteEstablished_events, noteEstablished_events]
        unfold decideDistance dropBase
        simp only [State.setCorrection_distance]
        split <;> (repeat' split) <;> simp_all [setBase, occur]
    simp only [correctBad]
    exact ⟨(h1 _).1.trans hd, (h1 _).2.trans he, trivial⟩
  · simp only [correctGood]
    rw [measure_not_established f _ (by rw [hd]; exact h)]
    exact ⟨hd, he, rfl⟩

/-- Where the decision leaves a base, stage B runs on the good sample and keeps it or drops it (R17, R54). -/
theorem correctSample_established (f : Sample) {s : State} {src : DistanceSource} {b : Nat} {c : Word}
    (hg : badSample f = false) (h : (decided f s).distance.state = .established src b c) :
    (plausible (opticalDistance b c f.ifmCount) = true →
      (correctSample f s).1.distance = (decided f s).distance ∧ (correctSample f s).1.events = (decided f s).events ∧
        (correctSample f s).2.distance =
          some (correctDistance s src (correctAngles s.correction f) (opticalDistance b c f.ifmCount))) ∧
    (plausible (opticalDistance b c f.ifmCount) = false →
      (correctSample f s).1.distance = { (decided f s).distance with state := .none, lastLoss := .fault } ∧
        (correctSample f s).1.events = (dropFault (decideStep f (decidePresence s.follower f) s)).events ∧
        (correctSample f s).2.distance = none) := by
  obtain ⟨hd, he⟩ := decided_keeps f s
  have hk := keeps_decideStep_parts f (decidePresence s.follower f) s
  have hs : (decideStep f (decidePresence s.follower f) s).distance.state = .established src b c := by rw [hd, h]
  unfold correctSample
  simp only [hg, Bool.false_eq_true, if_false, correctGood, measure, hs]
  refine ⟨fun hp => ?_, fun hp => ?_⟩
  · simp only [hp, if_true]
    refine ⟨hd, he, ?_⟩
    have hc : (decideStep f (decidePresence s.follower f) s).correction = s.correction := hk .correction (by decide)
    have hq : (decideStep f (decidePresence s.follower f) s).poses = s.poses := hk .poses (by decide)
    simp only [correctDistance, hc, hq]
  · simp only [hp, Bool.false_eq_true, if_false]
    exact ⟨by simp [dropFault, ← hd], rfl, trivial⟩

/-! ### The decision, by the state before it -/

theorem decided_adm {f : Sample} {s : State} {o : WaitOwner} {m : Nat} {d : Word} {q : Byte}
    (hs : s.distance.state = .awaitAdm o m) (h : admQualifies s f d q) : decided f s = setBase .adm d.toNat f.ifmCount s := by
  have := (qualifiesAdm_iff s f d q h.2.1).2 h
  simp [decided, decideDistance, hs, h.2.1, this]

theorem decided_adm_passed {f : Sample} {s : State} {o : WaitOwner} {m : Nat}
    (hs : s.distance.state = .awaitAdm o m) (h : ∀ d q, ¬ admQualifies s f d q) : decided f s = s := by
  unfold decided decideDistance
  simp only [hs]
  split
  · rename_i d q hd
    rw [if_neg]
    exact fun hq => h d q ((qualifiesAdm_iff s f d q hd).1 hq)
  · rfl

theorem decided_home {f : Sample} {s : State} {o : WaitOwner} {c m : Nat} (hs : s.distance.state = .awaitHome o c m)
    (h : homeQualifies s f) : decided f s = setBase .home c f.ifmCount s := by
  simp [decided, decideDistance, hs, (qualifiesHome_iff s f).2 h]

theorem decided_home_passed {f : Sample} {s : State} {o : WaitOwner} {c m : Nat} (hs : s.distance.state = .awaitHome o c m)
    (h : ¬ homeQualifies s f) : decided f s = s := by
  simp only [decided, decideDistance, hs]
  rw [if_neg (fun hq => h ((qualifiesHome_iff s f).1 hq))]

theorem decided_held {f : Sample} {s : State} {src : DistanceSource} {b : Nat} {c : Word}
    (hs : s.distance.state = .established src b c) (hp : decidePresence s.follower f = true) (hi : f.ifmOk = true) :
    decided f s = s := by
  simp [decided, decideDistance, hs, hp, ifmGood, hi, good_of_present hp]

theorem decided_dropped {f : Sample} {s : State} {src : DistanceSource} {b : Nat} {c : Word}
    (hs : s.distance.state = .established src b c) (h : f.ifmOk = false ∨ decidePresence s.follower f = false) :
    decided f s = dropBase .sample s := by
  simp only [decided, decideDistance, hs]
  rw [if_neg]
  rcases h with h | h <;> simp [h, ifmGood]

theorem decided_none {f : Sample} {s : State} (hs : s.distance.state = .none) : decided f s = s := by
  simp [decided, decideDistance, hs]

/-! ### The distance of a sample -/

/-- R4 and R111: the sample is handed on with the distance that `handedDistance` gives. -/
theorem correctSample_handed {f : Sample} {s : State} {src : DistanceSource} {d : CorrectedDistance}
    (h : handedDistance s f src d) : (correctSample f s).2.distance = some d := by
  obtain ⟨b, c, hc, hp, rfl⟩ := h
  rcases hc with ⟨hs, h1, h2⟩ | ⟨o, m, dist, q, hs, h1, rfl, rfl, rfl⟩ | ⟨o, m, hs, h1, rfl, rfl⟩
  · exact ((correctSample_established f (good_of_present h1) (by rw [decided_held hs h1 h2]; exact hs)).1 hp).2.2
  · exact ((correctSample_established f h1.1 (by rw [decided_adm hs h1]; rfl)).1 hp).2.2
  · exact ((correctSample_established f h1.1 (by rw [decided_home hs h1]; rfl)).1 hp).2.2

/-- R4 and R111: and with no other. -/
theorem correctSample_unhanded {f : Sample} {s : State} (h : ∀ src d, ¬ handedDistance s f src d) :
    (correctSample f s).2.distance = none := by
  have base : ∀ src b c, (decided f s).distance.state = .established src b c → badSample f = false →
      (∀ d, d = correctDistance s src (correctAngles s.correction f) (opticalDistance b c f.ifmCount) →
        plausible (opticalDistance b c f.ifmCount) = true → handedDistance s f src d) →
      (correctSample f s).2.distance = none := by
    intro src b c hd hg hn
    refine ((correctSample_established f hg hd).2 ?_).2.2
    cases hpl : plausible (opticalDistance b c f.ifmCount)
    · rfl
    · exact absurd (hn _ rfl hpl) (h _ _)
  cases hs : s.distance.state with
  | none => exact (correctSample_unestablished f (by rw [decided_none hs, hs]; rfl)).2.2
  | established src b c =>
    by_cases hu : f.ifmOk = false ∨ decidePresence s.follower f = false
    · refine (correctSample_unestablished f ?_).2.2
      rw [decided_dropped hs hu, dropBase_of_established _ _ hs]
      simp [DistanceState.isEstablished]
    · simp only [not_or, Bool.not_eq_false] at hu
      exact base src b c (by rw [decided_held hs hu.2 hu.1, hs]) (good_of_present hu.2)
        fun d hd hp => ⟨b, c, .inl ⟨hs, hu.2, hu.1⟩, hp, hd⟩
  | awaitAdm o m =>
    by_cases hq : ∃ d q, admQualifies s f d q
    · obtain ⟨d, q, hq⟩ := hq
      exact base .adm d.toNat f.ifmCount (by rw [decided_adm hs hq]; rfl) hq.1
        fun _ hd hp => ⟨_, _, .inr (.inl ⟨o, m, d, q, hs, hq, rfl, rfl, rfl⟩), hp, hd⟩
    · exact (correctSample_unestablished f
        (by rw [decided_adm_passed hs (fun d q hh => hq ⟨d, q, hh⟩), hs]; rfl)).2.2
  | awaitHome o c m =>
    by_cases hq : homeQualifies s f
    · exact base .home c f.ifmCount (by rw [decided_home hs hq]; rfl) hq.1
        fun _ hd hp => ⟨_, _, .inr (.inr ⟨o, m, hs, hq, rfl, rfl⟩), hp, hd⟩
    · exact (correctSample_unestablished f (by rw [decided_home_passed hs hq, hs]; rfl)).2.2

end Sys2Proof.Machine
end

