-- ==== Sys2Proof/Laws/Handling.lean ====
section
/-! SUPPORT. What the follower's and the emitter's handling of a sample can come to, once: whether the follower is in FOLLOWING
after it and what becomes of the distance (R45, R66), and what a usable or an unusable sample does in the emitter (R111, R112). -/

namespace Sys2Proof.Machine

/-! ### The follower -/

/-- R45: the distance unit after an entry to FOLLOWING. -/
def autoWait (s : State) : DistanceUnit :=
  if s.distance.state = .none ∧ s.distance.autoAdm = true ∧ s.head.hasAdm = true ∧ s.round.state.isRunning = false then
    { s.distance with state := .awaitAdm .follower 2000 }
  else s.distance

/-- A handled sample left the follower outside FOLLOWING with the distance as it was, or took it into FOLLOWING. -/
def handledAs (c : Corrected) (s : State) (h : Handled) : Prop :=
  (h.state.follower.state ≠ .following ∧ h.state.distance = s.distance) ∨
    (h.state.follower.state = .following ∧ h.state.distance = autoWait s ∧ c.present = true)

/-- R66 and R85: a PRESENT sample in FOLLOWING runs the loop and nothing more. -/
theorem followerSample_following (c : Corrected) {s : State} (h : s.follower.state = .following)
    (hf : s.follower.followPending = false) (hp : c.present = true) :
    (followerSample c s).state.follower.state = .following ∧ (followerSample c s).state.distance = s.distance ∧
      (followerSample c s).state.round = s.round ∧ (followerSample c s).state.correction = s.correction ∧
      (followerSample c s).state.events = s.events ∧ (followerSample c s).report = .none := by
  simp [followerSample, followerTransition, notePresence, h, hf, hp, steer]

theorem closeLoop_handled (k : Bool) (rep : FollowerReport) (c : Corrected) (s u : State) (h1 : u.distance = s.distance)
    (h2 : u.head = s.head) (h3 : u.round = s.round) (hc : c.present = true) : handledAs c s (closeLoop k rep c u) := by
  right
  refine ⟨by simp [closeLoop, steer, enterFollowing], ?_, hc⟩
  rw [show (closeLoop k rep c u).state.distance = (autoAdmWait u).distance by
      simp [closeLoop, steer, enterFollowing, autoAdmWait, startAdmWait]; split <;> simp]
  unfold autoAdmWait autoWait
  rw [h1, h2, h3]
  split <;> simp [startAdmWait, h1]

theorem loseBeam_handled (rep : FollowerReport) {c : Corrected} (s u : State) (h : u.distance = s.distance) :
    handledAs c s (loseBeam rep u) :=
  .inl ⟨by simp [loseBeam], by simp [loseBeam, h]⟩

theorem startSearch_leaves (i : Fin 8) (ce : Angles) (o : SearchOwner) (u : State) :
    (startSearch i ce o u).1.follower.state ≠ .following ∧ (startSearch i ce o u).1.distance = u.distance := by
  unfold startSearch; dsimp only
  split
  · simp [enterSearching]
  · split <;> simp [enterSearching, endSearch]

theorem autoSearch_handled (ce : Angles) {c : Corrected} (s u : State) (h : u.distance = s.distance) :
    handledAs c s (autoSearch ce u) := by
  unfold autoSearch
  have key : ∀ t, askSearch u.follower.autoSearch ce .follower u = t → t.2 ≠ .unusable →
      t.1.follower.state ≠ .following ∧ t.1.distance = u.distance := by
    intro t ht hn
    unfold askSearch at ht
    split at ht
    · subst ht; simp at hn
    · split at ht
      · subst ht; exact startSearch_leaves _ _ _ _
      · subst ht; simp at hn
  split
  · rename_i t target e
    have := key _ e (by simp)
    exact .inl ⟨this.1, this.2.trans h⟩
  · rename_i t e
    have := key _ e (by simp)
    exact .inl ⟨this.1, this.2.trans h⟩
  · rename_i t e
    refine loseBeam_handled _ _ _ ?_
    have : t.distance = u.distance := by
      unfold askSearch at e
      split at e
      · cases e; rfl
      · split at e
        · rename_i i _ _
          have := (startSearch_leaves i ce .follower u).2
          rw [e] at this
          exact this
        · cases e; rfl
    rw [this, h]

theorem expireGrace_handled {c : Corrected} (s u : State) (h : u.distance = s.distance) : handledAs c s (expireGrace u) := by
  unfold expireGrace; split
  · exact loseBeam_handled _ _ _ h
  · exact autoSearch_handled _ _ _ h

theorem playSample_handled (o : SearchOwner) {c : Corrected} (s u : State) (h : u.distance = s.distance)
    (hs : u.follower.state ≠ .following) : handledAs c s (playSample o u) := by
  have hss : (searchSample u).1.follower.state ≠ .following ∧ (searchSample u).1.distance = u.distance := by
    unfold searchSample
    split
    · exact ⟨hs, rfl⟩
    · split
      · exact ⟨by simpa using hs, by simp⟩
      · unfold nextStep; split
        · dsimp only; split
          · exact ⟨by simpa using hs, by simp⟩
          · split
            · exact ⟨by simpa using hs, by simp⟩
            · simp [endSearch]
        · split
          · simp [endSearch]
          · exact ⟨by simpa using hs, by simp⟩
  unfold playSample
  split <;> (rename_i e; rw [e] at hss; exact .inl ⟨hss.1, hss.2.trans h⟩)

/-- What a sample can come to in the follower: it stays in FOLLOWING on a PRESENT one, or `handledAs` says the rest. -/
theorem followerSample_handled (c : Corrected) (s : State) :
    (s.follower.state = .following ∧ s.follower.followPending = false ∧ c.present = true ∧
      (followerSample c s).state.follower.state = .following ∧ (followerSample c s).state.distance = s.distance) ∨
    (¬ (s.follower.state = .following ∧ s.follower.followPending = false ∧ c.present = true) ∧
      handledAs c s (followerSample c s)) := by
  by_cases hx : s.follower.state = .following ∧ s.follower.followPending = false ∧ c.present = true
  · left
    have := followerSample_following c hx.1 hx.2.1 hx.2.2
    exact ⟨hx.1, hx.2.1, hx.2.2, this.1, this.2.1⟩
  right
  refine ⟨hx, ?_⟩
  unfold followerSample followerTransition
  have hn : (notePresence c s).distance = s.distance := by simp [notePresence]
  have hh : (notePresence c s).head = s.head := by simp [notePresence]
  have hr : (notePresence c s).round = s.round := by simp [notePresence]
  have hf : (notePresence c s).follower.state = s.follower.state ∧
      (notePresence c s).follower.followPending = s.follower.followPending := by simp [notePresence]
  rw [← hf.1, ← hf.2] at hx
  clear hf
  generalize notePresence c s = v at hn hh hr hx
  split
  · unfold decidePending; dsimp only
    split
    · exact closeLoop_handled _ _ _ _ _ (by simp [hn]) (by simp [hh]) (by simp [hr]) (by assumption)
    · exact autoSearch_handled _ _ _ (by simp [hn])
  · rename_i hp
    split
    · rename_i hst; exact .inl ⟨by simp [hst], hn⟩
    · rename_i hst
      split
      · unfold aimSample
        split
        · exact .inl ⟨by simp [hst], by simp [hn]⟩
        · split
          · exact .inl ⟨by simp [hst], by simp [hn]⟩
          · split
            · exact closeLoop_handled _ _ _ _ _ hn hh hr (by assumption)
            · exact loseBeam_handled _ _ _ hn
            · exact loseBeam_handled _ _ _ hn
      · exact .inl ⟨by simp [hst], hn⟩
    · rename_i hst
      split
      · rename_i hpr; exact absurd ⟨hst, by simpa using hp, hpr⟩ hx
      · unfold enterHolding; dsimp only; split
        · exact expireGrace_handled _ _ (by simp [hn])
        · exact .inl ⟨by simp, by simp [hn]⟩
    · rename_i hst
      split
      · exact closeLoop_handled _ _ _ _ _ hn hh hr (by assumption)
      · unfold countGrace; dsimp only; split
        · exact expireGrace_handled _ _ (by simp [hn])
        · exact .inl ⟨by simp [hst], by simp [hn]⟩
    · rename_i hst
      unfold searchingSample; dsimp only
      split
      · split
        · exact playSample_handled _ _ _ (by simp [hn]) (by simp [hst])
        · exact closeLoop_handled _ _ _ _ _ (by simp [hn]) (by simp [hh]) (by simp [hr]) (by assumption)
      · exact playSample_handled _ _ _ (by simp [hn]) (by simp [hst])
    · rename_i hst
      unfold lostSample
      split
      · split
        · split
          · exact .inl ⟨by simp [hst], by simp [hn]⟩
          · exact closeLoop_handled _ _ _ _ _ hn hh hr (by assumption)
        · exact .inl ⟨by simp [hst], by simp [hn]⟩
      · exact .inl ⟨by simp [hst], hn⟩

/-! ### The emitter -/

theorem emitterSample_follower (c : Corrected) (s : State) : (emitterSample c s).follower = s.follower :=
  keeps_emitterSample c s .follower (by decide)

/-- R111, R112: a usable sample is written into the latest-point slot, and the mode handles it. -/
theorem emitterSample_usable {c : Corrected} {s : State} {d : CorrectedDistance} (h : s.follower.state = .following)
    (hd : c.distance = some d) :
    emitterSample c s =
      modeSample c d (writeLatest c d (s.setEmitter { s.emitter with latestTimestamp := some c.frame.timestamp })) := by
  simp [emitterSample, usableDistance, h, hd]

/-- R111: any other ends a SINGLE and does nothing more. -/
theorem emitterSample_unusable {c : Corrected} {s : State} (h : s.follower.state ≠ .following ∨ c.distance = none) :
    emitterSample c s = abortSingle (s.setEmitter { s.emitter with latestTimestamp := some c.frame.timestamp }) := by
  rcases h with h | h <;> simp [emitterSample, usableDistance, h]

/-- `measuredFront` asks less than `usableFront`. -/
theorem measured_of_usable {s : State} {f : Sample} {rest : List Sample} {src : DistanceSource} {d : CorrectedDistance}
    {flags : PointFlags} (h : usableFront s f rest src d flags) : measuredFront s f rest src d flags := by
  obtain ⟨h1, -, -, h2, h3, ⟨b, c, h4, h5, h6⟩, h7⟩ := h
  exact ⟨h1, ⟨b, c, .inl ⟨h4, h2, h3⟩, h5, h6⟩, h7⟩

end Sys2Proof.Machine
end

