-- ==== Sys2Proof/Laws/PerInstr.lean ====
section
/-! SUPPORT. The family `PayloadFits`: the payload of the frame that brings a well-formed command fits in a frame (R165). -/

namespace Sys2Proof.Laws

open Sys2Proof

/-- The payload of the frame that brings a command; a command that no frame brings, or a frame without its bytes, has none. -/
def linkPayload : Instr → List Byte
  | .sample f => samplePayload f
  | .headStatus h => (headStatusFrame h).payload
  | .requestFrame _ (.named tag r) => requestPayload tag r
  | .requestFrame _ (.unnamed _ _) => []
  | .forwardFrame f => f.payload
  | .discardedFrame _ => []
  | .takeSample => []
  | .headFrameSent => []
  | .stationRecordSent _ => []
  | .eventAdmission => []
  | .headSilent => []
  | .establishTimerExpiry => []
  | .aimTimerExpiry => []
  | .measureTimerExpiry => []
  | .slotTimerExpiry => []
  | .roundPeriodExpiry => []
  | .refractionStale => []
  | .graceExpiry => []
  | .dwellExpiry => []
  | .dueRoundStart => []
  | .trigEdge _ => []
  | .linkBreak => []
  | .powerOnReset => []
  | .loadCompBegin q table => requestPayload q.tag (.loadCompBegin table)
  | .loadCompData q table start entries => requestPayload q.tag (.loadCompData table start entries)
  | .loadCompEnd q table count => requestPayload q.tag (.loadCompEnd table count)
  | .setRefraction q n => requestPayload q.tag (.setRefraction n)
  | .writePose q index pose label => requestPayload q.tag (.writePose index pose label)
  | .clearPose q index => requestPayload q.tag (.clearPose index)
  | .readPose q index => requestPayload q.tag (.readPose index)
  | .selectPose q index => requestPayload q.tag (.selectPose index)
  | .establishAdm q => requestPayload q.tag .establishAdm
  | .establishHome q => requestPayload q.tag .establishHome
  | .dropDistance q => requestPayload q.tag .dropDistance
  | .follow q => requestPayload q.tag .follow
  | .park q => requestPayload q.tag .park
  | .goto q az el thenAction => requestPayload q.tag (.goto az el thenAction)
  | .writeSteps q start steps => requestPayload q.tag (.writeSteps start steps)
  | .writeSearch q index state mode start length repeats => requestPayload q.tag (.writeSearch index state mode start length repeats)
  | .appendSteps q steps => requestPayload q.tag (.appendSteps steps)
  | .resetStream q => requestPayload q.tag .resetStream
  | .readSearch q index => requestPayload q.tag (.readSearch index)
  | .readSteps q start count => requestPayload q.tag (.readSteps start count)
  | .startSearch q index => requestPayload q.tag (.startSearch index)
  | .startMeasure q mode mask p1 p2 p3 => requestPayload q.tag (.startMeasure mode mask p1 p2 p3)
  | .stopMeasure q => requestPayload q.tag .stopMeasure
  | .readLatest q => requestPayload q.tag .readLatest
  | .writeFiducial q index fields => requestPayload q.tag (.writeFiducial index fields)
  | .enableFiducial q index => requestPayload q.tag (.enableFiducial index)
  | .disableFiducial q index => requestPayload q.tag (.disableFiducial index)
  | .readFiducial q index => requestPayload q.tag (.readFiducial index)
  | .startRound q => requestPayload q.tag .startRound
  | .stopRound q => requestPayload q.tag .stopRound
  | .ackEvent q source => requestPayload q.tag (.ackEvent source)
  | .raiseTest q source => requestPayload q.tag (.raiseTest source)
  | .setFloor q f => requestPayload q.tag (.setFloor f)
  | .setParam q id value => requestPayload q.tag (.setParam id value)
  | .readStatus q sect => requestPayload q.tag (.readStatus sect)
  | .restart q => requestPayload q.tag .restart
  | .unknownRequest _ _ => []
  | .timeBaseTick => []
  | .srxReturnsHigh => []

theorem halfBytes_length (h : Half) : (halfBytes h).length = 2 := rfl

theorem wordBytes_length (w : Word) : (wordBytes w).length = 4 := rfl

theorem flatMap_length_const {α : Type} (f : α → List Byte) (n : Nat) (h : ∀ x, (f x).length = n) (l : List α) :
    (l.flatMap f).length = n * l.length := by
  induction l with
  | nil => simp
  | cons x xs ih => simp only [List.flatMap_cons, List.length_append, List.length_cons, ih, h]; rw [Nat.mul_add]; omega

theorem entries_length (l : List Half) : (l.flatMap halfBytes).length = 2 * l.length :=
  flatMap_length_const _ 2 halfBytes_length l

theorem steps_length (l : List StepField) : (l.flatMap stepFieldBytes).length = 9 * l.length :=
  flatMap_length_const _ 9 (fun _ => rfl) l

/-- R165: the payload of every request whose runs fit is at most 240 bytes. -/
theorem requestPayload_fits (tag : Half) (r : Request) (h : requestFits r = true) : (requestPayload tag r).length ≤ 240 := by
  cases r <;>
    simp_all [requestFits, requestPayload, requestFields, poseFieldBytes, fiducialFieldBytes, halfBytes_length, wordBytes_length,
      entries_length, steps_length, -List.length_flatMap] <;>
    omega

theorem samplePayload_fits (f : Sample) : (samplePayload f).length ≤ 240 := by
  cases h : f.adm <;> simp [samplePayload, admBytes, h, halfBytes_length, wordBytes_length]

end Sys2Proof.Laws

namespace Sys2Proof.Laws.PayloadFits

open Sys2Proof

/-- A well-formed command's frame has a payload of at most 240 bytes. -/
def Statement (i : Instr) : Prop := wellFormed i = true → (linkPayload i).length ≤ 240

theorem sample (f : Sample) : Statement (.sample f) :=
  fun _ => samplePayload_fits f

theorem headStatus (h : HeadStatus) : Statement (.headStatus h) :=
  fun h₀ => by
  simp [linkPayload, headStatusFrame, wellFormed] at *; omega

theorem requestFrame (service : Bool) (r : RequestFrame) : Statement (.requestFrame service r) := by
  cases r with
  | named tag r => exact fun h => requestPayload_fits tag r h
  | unnamed tag code => exact fun _ => Nat.zero_le _

theorem forwardFrame (f : ForwardFrame) : Statement (.forwardFrame f) :=
  fun h => of_decide_eq_true h

theorem discardedFrame (port : Port) : Statement (.discardedFrame port) :=
  fun _ => Nat.zero_le _

theorem takeSample : Statement .takeSample :=
  fun _ => Nat.zero_le _

theorem headFrameSent : Statement .headFrameSent :=
  fun _ => Nat.zero_le _

theorem stationRecordSent (service : Bool) : Statement (.stationRecordSent service) :=
  fun _ => Nat.zero_le _

theorem eventAdmission : Statement .eventAdmission :=
  fun _ => Nat.zero_le _

theorem headSilent : Statement .headSilent :=
  fun _ => Nat.zero_le _

theorem establishTimerExpiry : Statement .establishTimerExpiry :=
  fun _ => Nat.zero_le _

theorem aimTimerExpiry : Statement .aimTimerExpiry :=
  fun _ => Nat.zero_le _

theorem measureTimerExpiry : Statement .measureTimerExpiry :=
  fun _ => Nat.zero_le _

theorem slotTimerExpiry : Statement .slotTimerExpiry :=
  fun _ => Nat.zero_le _

theorem roundPeriodExpiry : Statement .roundPeriodExpiry :=
  fun _ => Nat.zero_le _

theorem refractionStale : Statement .refractionStale :=
  fun _ => Nat.zero_le _

theorem graceExpiry : Statement .graceExpiry :=
  fun _ => Nat.zero_le _

theorem dwellExpiry : Statement .dwellExpiry :=
  fun _ => Nat.zero_le _

theorem dueRoundStart : Statement .dueRoundStart :=
  fun _ => Nat.zero_le _

theorem trigEdge (edge : Edge) : Statement (.trigEdge edge) :=
  fun _ => Nat.zero_le _

theorem linkBreak : Statement .linkBreak :=
  fun _ => Nat.zero_le _

theorem powerOnReset : Statement .powerOnReset :=
  fun _ => Nat.zero_le _

theorem loadCompBegin (q : Taking) (table : Byte) : Statement (.loadCompBegin q table) :=
  fun _ => requestPayload_fits _ _ rfl

theorem loadCompData (q : Taking) (table start : Byte) (entries : List Half) : Statement (.loadCompData q table start entries) :=
  fun h => requestPayload_fits _ _ h

theorem loadCompEnd (q : Taking) (table count : Byte) : Statement (.loadCompEnd q table count) :=
  fun _ => requestPayload_fits _ _ rfl

theorem setRefraction (q : Taking) (n : Word) : Statement (.setRefraction q n) :=
  fun _ => requestPayload_fits _ _ rfl

theorem writePose (q : Taking) (index : Byte) (pose : PoseField) (label : Half) : Statement (.writePose q index pose label) :=
  fun _ => requestPayload_fits _ _ rfl

theorem clearPose (q : Taking) (index : Byte) : Statement (.clearPose q index) :=
  fun _ => requestPayload_fits _ _ rfl

theorem readPose (q : Taking) (index : Byte) : Statement (.readPose q index) :=
  fun _ => requestPayload_fits _ _ rfl

theorem selectPose (q : Taking) (index : Byte) : Statement (.selectPose q index) :=
  fun _ => requestPayload_fits _ _ rfl

theorem establishAdm (q : Taking) : Statement (.establishAdm q) :=
  fun _ => requestPayload_fits _ _ rfl

theorem establishHome (q : Taking) : Statement (.establishHome q) :=
  fun _ => requestPayload_fits _ _ rfl

theorem dropDistance (q : Taking) : Statement (.dropDistance q) :=
  fun _ => requestPayload_fits _ _ rfl

theorem follow (q : Taking) : Statement (.follow q) :=
  fun _ => requestPayload_fits _ _ rfl

theorem park (q : Taking) : Statement (.park q) :=
  fun _ => requestPayload_fits _ _ rfl

theorem goto (q : Taking) (az el : Word) (thenAction : Byte) : Statement (.goto q az el thenAction) :=
  fun _ => requestPayload_fits _ _ rfl

theorem writeSteps (q : Taking) (start : Half) (steps : List StepField) : Statement (.writeSteps q start steps) :=
  fun h => requestPayload_fits _ _ h

theorem writeSearch (q : Taking) (index state mode : Byte) (start length : Half) (repeats : Byte) : Statement (.writeSearch q index state mode start length repeats) :=
  fun _ => requestPayload_fits _ _ rfl

theorem appendSteps (q : Taking) (steps : List StepField) : Statement (.appendSteps q steps) :=
  fun h => requestPayload_fits _ _ h

theorem resetStream (q : Taking) : Statement (.resetStream q) :=
  fun _ => requestPayload_fits _ _ rfl

theorem readSearch (q : Taking) (index : Byte) : Statement (.readSearch q index) :=
  fun _ => requestPayload_fits _ _ rfl

theorem readSteps (q : Taking) (start : Half) (count : Byte) : Statement (.readSteps q start count) :=
  fun _ => requestPayload_fits _ _ rfl

theorem startSearch (q : Taking) (index : Byte) : Statement (.startSearch q index) :=
  fun _ => requestPayload_fits _ _ rfl

theorem startMeasure (q : Taking) (mode mask : Byte) (p1 p2 p3 : Word) : Statement (.startMeasure q mode mask p1 p2 p3) :=
  fun _ => requestPayload_fits _ _ rfl

theorem stopMeasure (q : Taking) : Statement (.stopMeasure q) :=
  fun _ => requestPayload_fits _ _ rfl

theorem readLatest (q : Taking) : Statement (.readLatest q) :=
  fun _ => requestPayload_fits _ _ rfl

theorem writeFiducial (q : Taking) (index : Byte) (fields : FiducialField) : Statement (.writeFiducial q index fields) :=
  fun _ => requestPayload_fits _ _ rfl

theorem enableFiducial (q : Taking) (index : Byte) : Statement (.enableFiducial q index) :=
  fun _ => requestPayload_fits _ _ rfl

theorem disableFiducial (q : Taking) (index : Byte) : Statement (.disableFiducial q index) :=
  fun _ => requestPayload_fits _ _ rfl

theorem readFiducial (q : Taking) (index : Byte) : Statement (.readFiducial q index) :=
  fun _ => requestPayload_fits _ _ rfl

theorem startRound (q : Taking) : Statement (.startRound q) :=
  fun _ => requestPayload_fits _ _ rfl

theorem stopRound (q : Taking) : Statement (.stopRound q) :=
  fun _ => requestPayload_fits _ _ rfl

theorem ackEvent (q : Taking) (source : Byte) : Statement (.ackEvent q source) :=
  fun _ => requestPayload_fits _ _ rfl

theorem raiseTest (q : Taking) (source : Byte) : Statement (.raiseTest q source) :=
  fun _ => requestPayload_fits _ _ rfl

theorem setFloor (q : Taking) (f : Word) : Statement (.setFloor q f) :=
  fun _ => requestPayload_fits _ _ rfl

theorem setParam (q : Taking) (id : Byte) (value : Word) : Statement (.setParam q id value) :=
  fun _ => requestPayload_fits _ _ rfl

theorem readStatus (q : Taking) (sect : Byte) : Statement (.readStatus q sect) :=
  fun _ => requestPayload_fits _ _ rfl

theorem restart (q : Taking) : Statement (.restart q) :=
  fun _ => requestPayload_fits _ _ rfl

theorem unknownRequest (q : Taking) (code : Byte) : Statement (.unknownRequest q code) :=
  fun _ => Nat.zero_le _

theorem timeBaseTick : Statement .timeBaseTick :=
  fun _ => Nat.zero_le _

theorem srxReturnsHigh : Statement .srxReturnsHigh :=
  fun _ => Nat.zero_le _

end Sys2Proof.Laws.PayloadFits
end

