-- ==== Sys2Proof/Laws/Rounds.lean ====
section
/-! SUPPORT. What the round unit does, once: the commit of a round's results (R150), the return (R151), the end of a slot (R149), the
start of a round (R141), and the hand-over of a sample while a round is RUNNING (section 7.4). -/

namespace Sys2Proof.Machine

/-! ### The commit (R150) -/

/-- An entry that no result names is left as it was. -/
theorem commitResults_other (n : Nat) (l : List PendingResult) :
    ∀ (tb : Vector FiducialEntry 16) (i : Fin 16), (∀ p ∈ l, p.entry ≠ i) → (commitResults n tb l)[i] = tb[i] := by
  induction l with
  | nil => intro _ _ _; rfl
  | cons p l ih =>
    intro tb i h
    rw [commitResults, ih _ _ fun q hq => h q (by simp [hq])]
    have hp : p.entry.val ≠ i.val := fun e => h p (by simp) (Fin.ext e)
    simp only [Fin.getElem_fin]
    rw [Vector.getElem_set_ne]
    exact hp

/-- An entry that one result names receives it under the round number. -/
theorem commitResults_mem (n : Nat) (l : List PendingResult) :
    ∀ tb : Vector FiducialEntry 16, (l.map (·.entry)).Nodup → ∀ p ∈ l,
      (commitResults n tb l)[p.entry] =
        { tb[p.entry] with result := p.result, aim := p.newAim.getD tb[p.entry].aim, resultRound := some n } := by
  induction l with
  | nil => intro _ _ p hp; simp at hp
  | cons q l ih =>
    intro tb hn p hp
    simp only [List.map_cons, List.nodup_cons, List.mem_map, not_exists, not_and] at hn
    rw [commitResults]
    rcases List.mem_cons.1 hp with rfl | hp
    · rw [commitResults_other _ _ _ _ fun x hx he => hn.1 x hx he]
      simp [FiducialEntry.commit]
    · rw [ih _ hn.2 p hp]
      have hq : q.entry.val ≠ p.entry.val := fun e => hn.1 p hp (Fin.ext e.symm)
      simp only [Fin.getElem_fin]
      rw [Vector.getElem_set_ne]
      exact hq

/-! ### The return and the end of a slot (R149, R151) -/

/-- The events that a return, a start and the end of a slot can report. -/
def slotSources : List Source := [.patternLow, .beamAbsent, .distanceLost, .roundDone, .drift]

theorem sources_enterAiming (a : Angles) (act : ThenAction) (o : AimOwner) (s : State) :
    keepsSources [.patternLow, .beamAbsent, .distanceLost] s (enterAiming a act o s) :=
  sources_trans
    (sources_trans (sources_mono (sources_abortSearch s) (by simp)) (sources_mono (sources_storeFollower _ _) (by simp)))
    (sources_mono (sources_leaveDistance _ _) (by simp))

theorem sources_enterParked (s : State) : keepsSources [.patternLow, .beamAbsent, .distanceLost] s (enterParked s) :=
  sources_trans
    (sources_trans
      (sources_trans (sources_mono (sources_abortSearch s) (by simp)) (sources_mono (sources_storeFollower _ _) (by simp)))
      (sources_mono (sources_leaveDistance _ _) (by simp)))
    (sources_mono (sources_writeSteer _ _) (by simp))

theorem sources_returnRound (s : State) : keepsSources [.patternLow, .beamAbsent, .distanceLost] s (returnRound s) := by
  unfold returnRound
  split
  · exact sources_enterAiming _ _ _ s
  · exact sources_enterParked s
  · exact sources_enterParked s

/-- What the return leaves: no distance, the emitter and the round unit as they were, and no aim timer at 0. -/
theorem returnRound_leaves (s : State) :
    (returnRound s).distance.state = .none ∧ (returnRound s).emitter = s.emitter ∧ (returnRound s).round = s.round ∧
      (∀ a, (returnRound s).follower.aim = some a → a.timer ≠ 0) ∧ (returnRound s).localTime = s.localTime ∧
      (returnRound s).search.active = none := by
  unfold returnRound
  split <;> simp [Follower.parkedAs]

theorem releaseDistance_events (s : State) : (releaseDistance s).events = s.events :=
  keeps_releaseDistance s .events (by decide)

theorem sources_completeRound (l : List PendingResult) (s : State) : keepsSources slotSources s (completeRound l s) :=
  sources_trans
    (sources_then_report
      (sources_then_occur (sources_of_events (s := s) (t := s.setRound (s.round.committed l)) rfl) (src := .roundDone)
        (by simp [slotSources]))
      (src := .drift) (by simp [slotSources]))
    (sources_mono (sources_returnRound _) (by simp [slotSources]))

theorem sources_beginSlot (r : RunningRound) (e : Fin 16) (s : State) : keepsSources slotSources s (beginSlot r e s) :=
  sources_trans (sources_of_events rfl) (sources_mono (sources_enterAiming _ _ _ _) (by simp [slotSources]))

theorem sources_endSlot (res : FiducialResult) (aim : Option Angles) (s : State) :
    keepsSources slotSources s (endSlot res aim s) := by
  unfold endSlot
  split
  · dsimp only
    have h := sources_of_events (l := slotSources) (releaseDistance_events s)
    split
    · exact sources_trans h (sources_beginSlot _ _ _)
    · exact sources_trans h (sources_completeRound _ _)
  · exact sources_refl _ s
  · exact sources_refl _ s

/-- What the end of a slot leaves: no distance, no search and no timer at 0; the emitter, the period and its timer as they were; and
no DUE round. -/
theorem endSlot_leaves (res : FiducialResult) (aim : Option Angles) {s : State} {r : RunningRound}
    (h : s.round.state = .running r) :
    (endSlot res aim s).distance.state = .none ∧ (endSlot res aim s).search.active = none ∧
      (endSlot res aim s).emitter = s.emitter ∧ (∀ a, (endSlot res aim s).follower.aim = some a → a.timer ≠ 0) ∧
      (∀ x, (endSlot res aim s).round.state = .running x → x.slotTimer ≠ 0) ∧
      (endSlot res aim s).round.period = s.round.period ∧ (endSlot res aim s).round.periodTimer = s.round.periodTimer ∧
      (endSlot res aim s).localTime = s.localTime ∧ (endSlot res aim s).round.state ≠ .due := by
  simp only [endSlot, h]
  split
  · simp [beginSlot]
  · obtain ⟨h1, h2, h3, h4, h5, h6⟩ :=
      returnRound_leaves
        (reportLevel .drift
          (occur .roundDone
            ((releaseDistance s).setRound ((releaseDistance s).round.committed (r.results ++ [⟨r.current, res, aim⟩])))))
    refine ⟨h1, h6, ?_, h4, ?_, ?_, ?_, ?_, ?_⟩
    · exact h2.trans (by simp)
    all_goals unfold completeRound
    · rw [h3]; simp [RoundUnit.committed]
    · rw [h3]; simp [RoundUnit.committed]
    · rw [h3]; simp [RoundUnit.committed]
    · rw [h5]; simp
    · rw [h3]; simp [RoundUnit.committed]

/-! ### The start of a round, and a DUE one (R138 to R141) -/

/-- With no distance, an entry to AIMING leaves the distance unit alone. -/
theorem enterAiming_of_none (a : Angles) (act : ThenAction) (o : AimOwner) {s : State} (h : s.distance.state = .none) :
    (enterAiming a act o s).distance = s.distance ∧ keepsSources [.patternLow, .beamAbsent] s (enterAiming a act o s) := by
  unfold enterAiming
  dsimp only
  rw [leaveDistance_of_none _ _ (by simpa using h)]
  exact ⟨by simp, sources_trans (sources_mono (sources_abortSearch s) (by simp)) (sources_mono (sources_storeFollower _ _) (by simp))⟩

theorem releaseDistance_distance_congr {s u : State} (h : u.distance = s.distance) :
    (releaseDistance u).distance = (releaseDistance s).distance := by
  unfold releaseDistance cancelWait
  rw [h]
  split <;> simp_all

/-- R141: what a start leaves. -/
theorem startRoundNow_leaves {s : State} (h : roundCondition s = none) :
    (startRoundNow s).round.state.isRunning = true ∧ (startRoundNow s).follower.state = .aiming ∧
      (startRoundNow s).distance = (releaseDistance s).distance ∧ (startRoundNow s).search.active = none ∧
      (startRoundNow s).round.periodTimer = s.round.period * 60000 ∧
      keepsSources [.roundDue, .patternLow, .beamAbsent] s (startRoundNow s) := by
  unfold startRoundNow
  split
  · rename_i he
    simp [roundCondition, he] at h
    (split at h <;> (try cases h)); (split at h <;> cases h)
  · rename_i first rest he
    dsimp only
    generalize hw : reportLevel .roundDue (s.setRound _) = w
    have hwd : w.distance = s.distance := by rw [← hw]; simp
    have hwr : w.round.periodTimer = s.round.period * 60000 := by rw [← hw]; simp [loadPeriod]
    have hws : keepsSources [.roundDue] s w := by
      rw [← hw]
      exact sources_then_report (sources_of_events (s := s) rfl) (by simp)
    unfold beginSlot
    dsimp only
    generalize hv : setRoundState _ (releaseDistance w) = v
    have hd : v.distance = (releaseDistance s).distance := by
      rw [← hv]
      exact releaseDistance_distance_congr hwd
    have hn : v.distance.state = .none := by rw [hd]; simp
    have hr : v.round.periodTimer = s.round.period * 60000 ∧ v.round.state.isRunning = true := by
      rw [← hv]
      exact ⟨by simpa using hwr, rfl⟩
    have hs : v.events = w.events := by
      rw [← hv]
      exact releaseDistance_events w
    obtain ⟨h1, h2⟩ := enterAiming_of_none v.round.table[first].aim .hold .round hn
    refine ⟨?_, by simp, h1.trans hd, by simp, ?_, ?_⟩
    · simpa using hr.2
    · simpa using hr.1
    · exact sources_trans (sources_mono hws (by simp)) (sources_trans (sources_of_events hs) (sources_mono h2 (by simp)))

/-- R140: the examination of a DUE round. -/
theorem examineDue_of_free {s : State} (hd : s.round.state = .due) (hb : roundBusy s = false) :
    (∀ x, roundCondition s = some x → examineDue s = abandonRound x.abortReason s) ∧
      (roundCondition s = none → examineDue s = startRoundNow s) := by
  refine ⟨fun x h => ?_, fun h => ?_⟩ <;> simp [examineDue, hd, hb, tryRound, h]

/-- R138 to R140: after an examination a round is DUE only while a busy condition holds. -/
theorem examineDue_dueIsBusy (s : State) : (examineDue s).dueIsBusy = true := by
  unfold State.dueIsBusy
  by_cases hd : s.round.state = .due
  · cases hb : roundBusy s
    · cases hc : roundCondition s with
      | some x => rw [(examineDue_of_free hd hb).1 x hc]; simp
      | none =>
        rw [(examineDue_of_free hd hb).2 hc]
        have := (startRoundNow_leaves hc).1
        cases h : (startRoundNow s).round.state <;> simp_all [RoundState.isRunning]
    · rw [examineDue_of_busy s hb]; simp [hb]
  · rw [examineDue_of_not_due s hd]; simp [hd]

/-! ### A sample while a round is RUNNING (R66, R143 to R148) -/

theorem roundSearch_running (c : Corrected) {h : Handled} {r : RunningRound} (hr : h.state.round.state = .running r) :
    ∃ r', (roundSearch c h).state.round.state = .running r' := by
  have ha : ∀ u : State, u.round.state = .running r → ∃ r', (askRoundSearch r u).state.round.state = .running r' := by
    intro u hu
    have hk := keeps_askSearch (u.round.entry r).descriptor (u.round.entry r).aim .round u .round (by decide)
    simp only [samePart] at hk
    unfold askRoundSearch
    split
    · exact ⟨_, rfl⟩
    · rename_i heq; rw [heq] at hk; exact ⟨r, by rw [hk]; exact hu⟩
    · rename_i heq; rw [heq] at hk; exact ⟨r, by rw [hk]; exact hu⟩
  unfold roundSearch
  rw [hr]
  dsimp only
  split
  · split
    · exact ⟨r, hr⟩
    · exact ha _ hr
  · exact ha _ hr
  · exact ha _ (by simp [hr])
  · exact ⟨r, hr⟩

theorem roundSearch_head (c : Corrected) (h : Handled) : (roundSearch c h).state.head = h.state.head := by
  have ha : ∀ r (u : State), (askRoundSearch r u).state.head = u.head := by
    intro r u
    have hk := keeps_askSearch (u.round.entry r).descriptor (u.round.entry r).aim .round u .head (by decide)
    simp only [samePart] at hk
    unfold askRoundSearch
    split <;> rename_i heq <;> rw [heq] at hk <;> simpa using hk
  unfold roundSearch
  split
  · split
    · split
      · rfl
      · exact ha _ _
    · exact ha _ _
    · rw [ha]; simp
    · rfl
  · rfl
  · rfl

theorem roundSample_not_due (rep : FollowerReport) (c : Corrected) {s : State} {r : RunningRound}
    (h : s.round.state = .running r) : (roundSample rep c s).round.state ≠ .due := by
  have he : ∀ res aim, (endSlot res aim s).round.state ≠ .due := fun res aim => (endSlot_leaves res aim h).2.2.2.2.2.2.2.2
  have hc : (centreSample r c s).round.state ≠ .due := by
    unfold centreSample
    split
    · split
      · simp
      · rename_i t heq
        have hk := keeps_askRoundWait s .round (by decide)
        simp only [samePart] at hk
        rw [heq] at hk
        exact (endSlot_leaves _ _ (by rw [hk]; exact h)).2.2.2.2.2.2.2.2
    · simp
  have ha : (averageSample r c s).round.state ≠ .due := by
    unfold averageSample
    split
    · exact he _ _
    · dsimp only
      split
      · simp
      · exact he _ _
  unfold roundSample
  rw [h]
  dsimp only
  split
  · exact he _ _
  · simp
  · exact hc
  · exact hc
  · exact hc
  · exact ha
  · simp [h]

/-- While a round is RUNNING, a handed-over sample is the round unit's handling of a state `v` that the follower, the search unit, the
round unit's own search and the emitter have left; the sample's frame has been written to it. -/
theorem handOver_running (c : Corrected) {s : State} {r : RunningRound} (hr : s.round.state = .running r) :
    ∃ v, handOver c s = roundSample (roundSearch c (followerSample c s)).report c v ∧
      v.round = (roundSearch c (followerSample c s)).state.round ∧
      v.follower = (roundSearch c (followerSample c s)).state.follower ∧
      v.search = (roundSearch c (followerSample c s)).state.search ∧
      v.distance = (roundSearch c (followerSample c s)).state.distance ∧
      v.poses = s.poses ∧ v.localTime = s.localTime ∧ v.head.rx = s.head.rx ∧ v.head.hasAdm = s.head.hasAdm ∧
      v.correction = s.correction ∧
      keepsSources [.measureAborted, .queueCongested] (roundSearch c (followerSample c s)).state v ∧
      ∀ g, (roundSearch c (followerSample c s)).frame = some g → steerWritten g s v := by
  have k1 := keeps_followerSample c s
  have k2 := keeps_roundSearch c (followerSample c s)
  have hrun : (followerSample c s).state.round.state = .running r := by
    have := k1 .round (by decide)
    simp only [samePart] at this
    rw [this, hr]
  obtain ⟨r', hr'⟩ := roundSearch_running c hrun
  have hh : (roundSearch c (followerSample c s)).state.head = s.head :=
    (roundSearch_head c _).trans (k1 .head (by decide))
  generalize hq : roundSearch c (followerSample c s) = h at *
  have hw := writeFrame_keeps h.frame h.state
  have he := keeps_emitterSample c (writeFrame h.frame h.state)
  have hhead : (emitterSample c (writeFrame h.frame h.state)).head = (writeFrame h.frame h.state).head := he .head (by decide)
  have two : keepsOthers [.head, .station, .events, .emitter] h.state (emitterSample c (writeFrame h.frame h.state)) :=
    keeps_trans (keeps_mono hw (by simp)) (keeps_mono he (by simp))
  refine ⟨emitterSample c (writeFrame h.frame h.state), ?_, two .round (by decide), two .follower (by decide),
    two .search (by decide), two .distance (by decide),
    (two .poses (by decide)).trans ((k2 .poses (by decide)).trans (k1 .poses (by decide))),
    (two .localTime (by decide)).trans ((k2 .localTime (by decide)).trans (k1 .localTime (by decide))), ?_, ?_,
    (two .correction (by decide)).trans ((k2 .correction (by decide)).trans (k1 .correction (by decide))), ?_, ?_⟩
  · unfold handOver
    simp only [hq]
    refine examineDue_of_not_due _ (roundSample_not_due (r := r') _ _ ?_)
    have h1 := two .round (by decide)
    simp only [samePart] at h1
    rw [h1, hr']
  · rw [hhead, writeFrame_rx, hh]
  · rw [hhead]
    unfold writeFrame
    split
    · rw [writeSteer_head]
      split <;> simp [hh]
    · rw [hh]
  · exact sources_trans (sources_of_events (writeFrame_events _ _)) (sources_emitterSample c _)
  · intro g hg
    have h2 := steerWritten_writeSteer h.state g
    unfold steerWritten at h2 ⊢
    rw [hhead]
    simpa [writeFrame, hg, hh] using h2

end Sys2Proof.Machine
end

