-- ==== Sys2Proof/Laws/Ticks.lean ====
section
/-! SUPPORT. What a tick does, once: the counting, the handling of a timer that does not stand at 0, and the whole tick when the
silence timer does not end on it (R21, R51, R74, R121, R137, R142, R168). -/

namespace Sys2Proof.Machine

/-! ### Counting -/

/-- What the counting of a tick leaves in every field but the correction unit and the event unit. -/
theorem countTick_fields (s : State) :
    (countTick s).localTime = s.localTime + 1 ∧
      (countTick s).distance = { s.distance with state := s.distance.state.tick } ∧
      (countTick s).follower = { s.follower with aim := s.follower.aim.map fun a => { a with timer := a.timer - 1 } } ∧
      (countTick s).emitter = { s.emitter with mode := s.emitter.mode.tick } ∧ (countTick s).round = s.round.tick ∧
      (countTick s).search = s.search ∧ (countTick s).poses = s.poses ∧ (countTick s).station = s.station ∧
      (countTick s).head = { s.head with silenceTimer := s.head.silenceTimer - 1 } := by
  refine ⟨rfl, rfl, rfl, rfl, rfl, rfl, rfl, rfl, rfl⟩

theorem sources_countTick (s : State) : keepsSources [.refractionStale] s (countTick s) :=
  sources_trans (sources_of_events rfl) (sources_reportLevel _ _)

theorem countTick_running {s : State} {r : RunningRound} (h : s.round.state = .running r) :
    (countTick s).round.state = .running { r with slotTimer := r.slotTimer - 1 } := by
  rw [(countTick_fields s).2.2.2.2.1]
  simp [RoundUnit.tick, RoundState.tick, h]

/-! ### A timer that does not stand at 0 -/

theorem expireWait_of_quiet {s : State} (h : ∀ k o m, s.distance.state.wait = some (k, o, m) → m ≠ 0) : expireWait s = s := by
  unfold expireWait
  split
  · rename_i k o hw
    exact absurd rfl (h _ _ _ hw)
  · rfl

theorem expireAim_of_quiet {s : State} (h : ∀ a, s.follower.aim = some a → a.timer ≠ 0) : expireAim s = s := by
  unfold expireAim
  split
  · rename_i a ha
    simp [h a ha]
  · rfl

theorem expireMeasure_of_quiet {s : State} (h : ∀ m, s.emitter.mode = .single m → m.timer ≠ 0) : expireMeasure s = s := by
  unfold expireMeasure
  split
  · rename_i m hm
    simp [h m hm]
  all_goals rfl

theorem expireSlot_of_quiet {s : State} (h : ∀ r, s.round.state = .running r → r.slotTimer ≠ 0) : expireSlot s = s := by
  unfold expireSlot
  split
  · rename_i r hr
    simp [h r hr]
  all_goals rfl

theorem expireRoundPeriod_of_quiet {s : State} (h : s.round.period ≠ 0 → s.round.periodTimer ≠ 0) :
    expireRoundPeriod s = s := by
  unfold expireRoundPeriod
  split
  · rename_i hp
    exact absurd hp.2 (h hp.1)
  · rfl

/-! ### A timer that is not due does not stand at 0 after the counting -/

theorem countTick_wait {s : State} (h : expiryDue s .establish = false) :
    ∀ k o m, (countTick s).distance.state.wait = some (k, o, m) → m ≠ 0 := by
  intro k o m
  rw [(countTick_fields s).2.1]
  unfold expiryDue at h
  cases hd : s.distance.state <;> simp [DistanceState.tick, DistanceState.wait, hd] at h ⊢ <;> omega

theorem countTick_aim {s : State} (h : expiryDue s .aim = false) :
    ∀ a, (countTick s).follower.aim = some a → a.timer ≠ 0 := by
  intro a
  rw [(countTick_fields s).2.2.1]
  unfold expiryDue at h
  cases hd : s.follower.aim <;> simp [hd] at h ⊢
  rintro rfl
  simp
  omega

theorem countTick_measure {s : State} (h : expiryDue s .measure = false) :
    ∀ m, (countTick s).emitter.mode = .single m → m.timer ≠ 0 := by
  intro m
  rw [(countTick_fields s).2.2.2.1]
  unfold expiryDue at h
  cases hd : s.emitter.mode <;> simp [hd, EmissionMode.tick] at h ⊢
  rintro rfl
  simp
  omega

theorem countTick_slot {s : State} (h : expiryDue s .slot = false) :
    ∀ r, (countTick s).round.state = .running r → r.slotTimer ≠ 0 := by
  intro r
  rw [(countTick_fields s).2.2.2.2.1]
  unfold expiryDue at h
  cases hd : s.round.state <;> simp [hd, RoundUnit.tick, RoundState.tick] at h ⊢
  rintro rfl
  simp
  omega

theorem countTick_period {s : State} (h : expiryDue s .period = false) :
    (countTick s).round.period ≠ 0 → (countTick s).round.periodTimer ≠ 0 := by
  rw [(countTick_fields s).2.2.2.2.1]
  unfold expiryDue at h
  simp only [RoundUnit.tick, Bool.and_eq_false_iff, decide_eq_false_iff_not] at h ⊢
  intro hp
  have := h.resolve_left (by simpa using hp)
  rw [if_neg hp]
  omega

/-! ### The whole tick -/

/-- A tick on which the silence timer does not end counts, and handles the other timers in the order of the table. -/
theorem tickIn_of_not_silent {s : State} (h : expiryDue s .silence = false) :
    tickIn Expiry.all s = expireRoundPeriod (expireSlot (expireMeasure (expireAim (expireWait (countTick s))))) := by
  have hs : decide (s.head.silenceTimer = 1) = false := h
  simp [tickIn, Expiry.all, hs, expire]

/-- A tick on which the silence timer ends makes the assertion first. -/
theorem tickIn_of_silent {s : State} (h : expiryDue s .silence = true) :
    tickIn Expiry.all s =
      expireRoundPeriod (expireSlot (expireMeasure (expireAim (expireWait (assertSilence (countTick s)))))) := by
  have hs : decide (s.head.silenceTimer = 1) = true := h
  simp [tickIn, Expiry.all, hs, expire]

/-- After the end of a slot no timer stands at 0, where the measure timer and the period timer do not. -/
theorem endSlot_quiet {res : FiducialResult} {aim : Option Angles} {s : State} {r : RunningRound}
    (h : s.round.state = .running r) (hm : ∀ m, s.emitter.mode = .single m → m.timer ≠ 0)
    (hp : s.round.period ≠ 0 → s.round.periodTimer ≠ 0) :
    expireWait (endSlot res aim s) = endSlot res aim s ∧ expireAim (endSlot res aim s) = endSlot res aim s ∧
      expireMeasure (endSlot res aim s) = endSlot res aim s ∧ expireSlot (endSlot res aim s) = endSlot res aim s ∧
      expireRoundPeriod (endSlot res aim s) = endSlot res aim s := by
  obtain ⟨h1, -, h2, h3, h4, h5, h6, -, -⟩ := endSlot_leaves res aim h
  refine ⟨expireWait_of_quiet ?_, expireAim_of_quiet h3, expireMeasure_of_quiet ?_, expireSlot_of_quiet h4,
    expireRoundPeriod_of_quiet ?_⟩
  · intro k o m hw
    simp [h1, DistanceState.wait] at hw
  · rw [h2]
    exact hm
  · rw [h5, h6]
    exact hp

end Sys2Proof.Machine
end

