-- ==== Sys2Proof/Tests/Slice0.lean ====
section
/-! SUPPORT. Tests: the spec's worked cases, the refusals of `wellFormed`, frames written out byte by byte, and a witness for the
hypotheses of each obligation. Every expected value is the spec's, or a hand calculation from it. -/

set_option Elab.async false

namespace Sys2Proof.Tests

open Sys2Proof Sys2Proof.Machine

/-! ### Small states -/

/-- The state a command leaves. -/
def after (c : Instr) (s : State) : State :=
  match exec c s with
  | .next t => t
  | .fault _ => s
  | .refused _ => s

/-- A request's tag with SERVICE low, and with SERVICE high. -/
def low : Taking := ⟨301, false⟩
def high : Taking := ⟨302, true⟩

/-- The SAMPLE of the worked case of chapter 1. -/
def worked : Sample :=
  { seq := 7, timestamp := 1000000, azRaw := 1079984, elRaw := 359990, ifmCount := 50055014, ifmOk := true, psdX := 0,
    psdY := 0, intensity := 2000, atHome := false, adm := none }

/-- A SAMPLE on the horizon at azimuth 0, with a strong beam. -/
def level0 : Sample := { worked with azRaw := 0, elRaw := 0 }

/-- The same with no beam. -/
def dark : Sample := { level0 with intensity := 0 }

/-- A bad sample: its azimuth is one beyond the range. -/
def bad : Sample := { level0 with azRaw := 4320000 }

/-- Drives ENABLED and an ADM fitted. -/
def ready : State := { State.reset with head := { HeadPort.reset with hasAdm := true, driveState := .enabled } }

/-- The follower in a state, with last-present angles. -/
def follower (st : FollowerState) : Follower := { Follower.reset with state := st, lastAngles := some ⟨4319990, 955000⟩ }

def inState (st : FollowerState) : State := { ready with follower := follower st }

/-- A sample waits at the front of the head receive queue. -/
def queue (f : Sample) (s : State) : State := { s with head := { s.head with rx := [f] } }

/-- The distance ESTABLISHED at 15 m, count 1,000. -/
def based (s : State) : State :=
  { s with distance := { DistanceUnit.reset with state := .established .adm 150000000 1000 } }

/-- An event record to fill the output queue with. -/
def filler : Record := .event { source := .frameError, transition := .latched, count := 1, testMark := false, time := 0 }

/-- The output queue holds `n` records and STX is sending the first. -/
def full (n : Nat) (s : State) : State :=
  { s with station := { s.station with out := List.replicate n filler, tx := some .front } }

/-- A RUNNING round over entries 2 and 5, in its first slot. -/
def slot0 : RunningRound :=
  { slots := [2, 5], current := 2, phase := .aim, slotTimer := 10000, avgCount := 0, sums := zero3, results := [] }

def running (s : State) : State := { s with round := { RoundUnit.reset with state := .running slot0 } }

def due (s : State) : State := { s with round := { RoundUnit.reset with state := .due } }

/-- Entry 2 of the pose table VALID with the pose of the worked case of chapter 2, and active. -/
def casePose : PoseEntry :=
  { state := .valid, rot := ⟨⟨0, -1073741824, 0⟩, ⟨1073741824, 0, 0⟩, ⟨0, 0, 1073741824⟩⟩,
    trans := ⟨1500000, -2000000, 250000⟩, label := 9, writeCount := 1 }

def posed (s : State) : State := { s with poses := { entries := PoseTable.reset.entries.set 2 casePose, active := some 2 } }

/-- A LOADED table with two neighbouring entries. -/
def tableWith (i : Fin 240) (x y : Int) : CompTable :=
  { load := .loaded
    entries := ((Vector.replicate 240 (0 : Int)).set i.val x i.isLt).setIfInBounds ((i.val + 1) % 240) y
    written := Vector.replicate 240 true }

/-- The starting state of the worked case of chapter 1, with the follower in FOLLOWING and STREAM with m = 1. -/
def caseState : State :=
  posed
    (based
      { inState .following with
        correction :=
          { CorrectionUnit.reset with azc := tableWith 59 16 16, elc := tableWith 19 10 10, age := 180000 }
        emitter := { Emitter.reset with mode := .stream 1 0 } })

/-- A BLOCK search of chapter 5's worked count: descriptor 2, start 10, length 3, steps of dwells 1, 2 and 1. -/
def blockStore : Vector Step 512 :=
  ((SearchUnit.reset.store.set 10 ⟨1000, 0, 1⟩).set 11 ⟨0, 1000, 2⟩).set 12 ⟨-1000, 0, 1⟩

def blockUnit (pos repeats dwell : Nat) : SearchUnit :=
  { SearchUnit.reset with
    store := blockStore
    descriptors := SearchUnit.reset.descriptors.set 2 { ready := true, mode := .block, start := 10, length := 3, repeats := 1 }
    active :=
      some
        { descriptor := 2, play := .block pos repeats, centre := ⟨4319990, 955000⟩, target := ⟨0, 0⟩, dwell := dwell
          owner := .follower } }

/-- A STREAM search with `fill` steps waiting at ring position 127. -/
def streamUnit (fill : Nat) : SearchUnit :=
  { SearchUnit.reset with
    ringRead := 127, ringFill := fill
    store := SearchUnit.reset.store.set 511 ⟨-100, 36000, 3⟩
    descriptors := SearchUnit.reset.descriptors.set 0 { ready := true, mode := .stream, start := 0, length := 1, repeats := 0 }
    active := some { descriptor := 0, play := .stream, centre := ⟨50, 950000⟩, target := ⟨0, 0⟩, dwell := 1, owner := .follower } }

/-! ### Chapter 1 -/

/-- Section 1.2, the worked interpolation cases: near the wrap, a negative elevation, a falling pair and on an entry. -/
theorem test_interpolation :
    (tableWith 239 (-30) 10).interpolate 4319995 = 10 ∧ (tableWith 239 (-12) 7).interpolate 4311000 = -2 ∧
      (tableWith 10 5 (-6)).interpolate 189000 = 0 ∧ (tableWith 239 (-12) 7).interpolate 4302000 = -12 := by
  decide +kernel

/-- R16's example of a count that wraps. -/
theorem test_optical_distance_wraps : opticalDistance 5000000 4294000000 2000000 = 7967296 := by decide +kernel

/-- The worked case: stage B. -/
theorem test_geometric : geometricUm 200054014 270000 = 20000000 := by decide +kernel

/-- The worked case of chapters 1 and 2, from the raw sample to the block coordinates of the point record. -/
theorem test_worked_sample :
    (after .takeSample (queue worked caseState)).follower.lastAngles = some ⟨1080000, 360000⟩ ∧
      (after .takeSample (queue worked caseState)).correction.cosEl = 929887697 ∧
      (after .takeSample (queue worked caseState)).emitter.latest =
        some
          { seq := 7, timestamp := 1000000, at_ := ⟨.block 2, ⟨-15820508, -2000000, 10250000⟩⟩
            flags := ⟨false, false, false⟩, source := .adm } := by
  decide +kernel

/-- R23: sines and cosines at exact angles; -90 degrees is taken modulo a revolution. -/
theorem test_trig :
    sinOf 360000 = 536870912 ∧ cosOf 360000 = 929887697 ∧ cosOf 1080000 = 0 ∧ sinOf (-1080000) = -1073741824 ∧
      cosOf 2160000 = -1073741824 := by
  decide +kernel

/-- R20's examples. -/
theorem test_set_refraction :
    (after (.setRefraction low 120000) ready).correction.refraction = 150000 ∧
      (after (.setRefraction low 281400) ready).station.out =
        [.reply { tag := 301, code := 4, result := .ok, data := [⟨4, 281400⟩] }] ∧
      (after (.setRefraction low 0xFFFFFFFF) ready).correction.refraction = 150000 := by
  decide +kernel

/-- Section 1.3: a run that would pass index 239 is refused RANGE, and data for a table that is not LOADING STATE. -/
theorem test_load_data :
    (after (.loadCompData high 1 225 (List.replicate 30 5)) (after (.loadCompBegin high 1) ready)).correction.elc.entries[225] =
        0 ∧
      (after (.loadCompData high 1 210 (List.replicate 30 5)) (after (.loadCompBegin high 1) ready)).correction.elc.entries[239] =
        5 ∧
      (after (.loadCompData high 0 0 [5]) ready).station.out =
        [.reply { tag := 302, code := 2, result := .refused .state, data := [⟨1, 0⟩, ⟨1, 0⟩] }] := by
  decide +kernel

/-- R13: an end with too few written indices empties the table and is refused INCOMPLETE. -/
theorem test_load_end :
    (after (.loadCompEnd high 0 240) (after (.loadCompBegin high 0) ready)).correction.azc.load = .empty ∧
      (after (.loadCompEnd high 0 240) (after (.loadCompBegin high 0) ready)).station.out.getLast? =
        some (.reply { tag := 302, code := 3, result := .refused .incomplete, data := [⟨1, 0⟩, ⟨1, 0⟩] }) := by
  decide +kernel

/-- Section 1.3: a load needs service authority. -/
theorem test_load_begin :
    (after (.loadCompBegin low 0) ready).correction.azc.load = .empty ∧
      (after (.loadCompBegin high 0) ready).correction.azc.load = .loading := by
  decide +kernel

/-! ### Chapter 2 -/

/-- The pose of section 2.2 with entry r12 short by `short` units. -/
def shortPose (short : Nat) : PoseField :=
  { r11 := 0, r12 := BitVec.ofInt 32 (short - 1073741824), r13 := 0, r21 := 1073741824, r22 := 0, r23 := 0, r31 := 0, r32 := 0,
    r33 := 1073741824, t1 := 500000000, t2 := 0, t3 := BitVec.ofInt 32 (-500000000) }

/-- Section 2.2: 824 units short passes, 1,100 units short is ROW_LENGTH of row 1, and two swapped rows are a reflection. -/
theorem test_write_pose :
    (after (.writePose low 7 (shortPose 824) 4) ready).poses.entries[7].writeCount = 1 ∧
      poseFault (poseRot (shortPose 1100)) (poseTrans (shortPose 1100)) = some (.rowLength 1) ∧
      poseFault ⟨⟨1073741824, 0, 0⟩, ⟨0, 0, 1073741824⟩, ⟨0, 1073741824, 0⟩⟩ zero3 = some .determinant := by
  decide +kernel

/-- R28 and R32: the active entry is neither written nor cleared. -/
theorem test_pose_active :
    (after (.clearPose low 2) (posed ready)).poses.entries[2] = casePose ∧
      (after (.writePose low 2 (shortPose 0) 4) (posed ready)).station.out =
        [.reply { tag := 301, code := 5, result := .refused .poseActive, data := [] }] := by
  decide +kernel

/-- R34: selecting an EMPTY entry is refused STATE; NONE is accepted. -/
theorem test_select_pose :
    (after (.selectPose low 3) (posed ready)).poses.active = some 2 ∧
      (after (.selectPose low 255) (posed ready)).poses.active = none := by
  decide +kernel

/-! ### Chapters 3 and 4 -/

/-- R44 and R49. -/
theorem test_establish :
    (after (.establishAdm low) ready).distance.state = .awaitAdm .station 2000 ∧
      (after (.establishAdm low) State.reset).distance.state = .none ∧
      (after (.establishHome low) ready).distance.state = .none := by
  decide +kernel

/-- R57. -/
theorem test_drop_distance :
    (after (.dropDistance low) (based ready)).distance.state = .none ∧
      ((after (.dropDistance low) (based ready)).events.get .distanceLost).latch = false := by
  decide +kernel

/-- R62's examples. -/
theorem test_thresholds :
    (after (.setParam low 7 300) ready).follower.tOff = 280 ∧
      (after (.setParam low 7 600) (after (.setParam low 7 300) ready)).station.out.getLast? =
        some (.reply { tag := 301, code := 0x22, result := .ok, data := [⟨1, 7⟩, ⟨4, 600⟩, ⟨4, 280⟩] }) := by
  decide +kernel

/-- Chapter 4's worked case "steering high on the block", samples a to e: the error, then the drive and the integrator after it. -/
theorem test_steering :
    azimuthError 1700 223243000 = 6800 ∧ steerAxis 1200 200 0 6800 = (31875, 0) ∧
      steerAxis 1200 200 0 3600 = (19688, 2813) ∧ steerAxis 1200 200 2813 (-1200) = (-3749, 1876) ∧
      steerAxis 1200 200 1876 8000 = (32767, 1876) ∧ steerAxis 1200 200 1876 4000 = (23751, 5001) ∧
      azimuthError 1700 929887697 = 1962 := by
  decide +kernel

/-- Chapter 4's worked aim across the zero of azimuth: step 3 does not count, step 4 does. -/
theorem test_arrival :
    countsArrival ⟨100, 24000, .follow, .station, 3000⟩ (some ⟨4319750, 23900⟩) = false ∧
      countsArrival ⟨100, 24000, .follow, .station, 3000⟩ (some ⟨4319900, 23980⟩) = true ∧
      countsArrival ⟨100, 24000, .follow, .station, 3000⟩ none = false := by
  decide +kernel

/-- R71 and the worked aim's step 1: GOTO drops the distance with cause FOLLOWER. -/
theorem test_goto :
    (after (.goto low 100 24000 0) (based (inState .following))).follower.aim = some ⟨100, 24000, .follow, .station, 3000⟩ ∧
      (after (.goto low 100 24000 0) (based (inState .following))).distance.lastLoss = .follower ∧
      (after (.goto low 4320000 0 0) (inState .lost)).follower.state = .lost := by
  decide +kernel

/-- R68. -/
theorem test_follow :
    (after (.follow low) (inState .lost)).follower.followPending = true ∧
      (after (.follow low) State.reset).station.out =
        [.reply { tag := 301, code := 0x0C, result := .refused .state, data := [] }] := by
  decide +kernel

/-- R70: PARK in FOLLOWING writes one HOLD frame. -/
theorem test_park :
    (after (.park low) (inState .following)).follower.state = .parked ∧
      (after (.park low) (inState .following)).htxFrame = some (headLinkFrame (.steer .hold)).bytes := by
  decide +kernel

/-- R75: the first ABSENT sample takes FOLLOWING to HOLDING with the grace at 20. -/
theorem test_holding :
    (after .takeSample (queue dark (based (inState .following)))).follower.grace = some 20 ∧
      (after .takeSample (queue dark (based (inState .following)))).distance.lastLoss = .sample ∧
      (after .takeSample (queue dark (based (inState .following)))).head.tx = some (.steer .hold) := by
  decide +kernel

/-! ### Chapter 5 -/

/-- Chapter 5's worked count: at sample 4 the pass starts again at step 10, and at sample 8 the search ends EXHAUSTED. -/
theorem test_block_search :
    ((after .dwellExpiry (queue dark { inState .searching with search := blockUnit 12 1 1 })).search.active.map (·.play)) =
        some (.block 10 0) ∧
      (after .dwellExpiry (queue dark { inState .searching with search := blockUnit 12 0 1 })).follower.state = .lost ∧
      ((after .dwellExpiry (queue dark { inState .searching with search := blockUnit 12 0 1 })).events.get .searchExhausted).latch =
        true := by
  decide +kernel

/-- R101: the target wraps in azimuth and is clamped in elevation. -/
theorem test_step_target : stepTarget ⟨4319990, 955000⟩ ⟨1000, 36000, 1⟩ = ⟨990, 960000⟩ := by decide +kernel

/-- R96: an append to a ring with 126 waiting steps takes the first two of three, at positions 125 and 126. -/
theorem test_append :
    (after (.appendSteps low [⟨1, 2, 3⟩, ⟨4, 5, 6⟩, ⟨7, 8, 9⟩]) { ready with search := streamUnit 126 }).search.ringFill = 128 ∧
      (after (.appendSteps low [⟨1, 2, 3⟩, ⟨4, 5, 6⟩, ⟨7, 8, 9⟩]) { ready with search := streamUnit 126 }).search.store[510] =
        ⟨4, 5, 6⟩ ∧
      (after (.appendSteps low [⟨1, 2, 3⟩, ⟨4, 5, 6⟩, ⟨7, 8, 9⟩]) { ready with search := streamUnit 126 }).station.out =
        [.reply { tag := 301, code := 0x11, result := .okClamped, data := [⟨1, 2⟩, ⟨1, 128⟩] }] := by
  decide +kernel

/-- R93: a run that reaches into the ring is refused whole; one that ends at 383 is stored. -/
theorem test_write_steps :
    (after (.writeSteps low 383 [⟨1, 2, 3⟩, ⟨1, 2, 3⟩]) ready).search.store[383] = ⟨0, 0, 1⟩ ∧
      (after (.writeSteps low 383 [⟨0xFFFF7360, 2, 16⟩]) ready).search.store[383] = ⟨-36000, 2, 16⟩ := by
  decide +kernel

/-- R94: start + length is at most 384, also for a DISABLED descriptor. -/
theorem test_write_search :
    (after (.writeSearch low 7 0 0 383 2 0) ready).station.out =
        [.reply { tag := 301, code := 0x10, result := .refused .range, data := [] }] ∧
      (after (.writeSearch low 7 1 0 380 4 7) ready).search.descriptors[7] =
        { ready := true, mode := .block, start := 380, length := 4, repeats := 7 } := by
  decide +kernel

/-- R97. -/
theorem test_reset_stream :
    (after (.resetStream low) { ready with search := streamUnit 5 }).search.ringFill = 5 ∧
      (after (.resetStream low) { ready with search := { streamUnit 5 with active := none } }).search.ringRead = 0 := by
  decide +kernel

/-! ### Chapter 6 -/

/-- The usable corrected sample of chapter 6's worked SINGLE at an offset from the base point. -/
def markPoint (x y z : Int) : CorrectedDistance :=
  { dOpt := 0, dUm := 0, outOfRange := false, refractionStale := false, source := .adm, tracker := zero3,
    at_ := ⟨.block 2, ⟨12400000 + x, -3250000 + y, 1800000 + z⟩⟩ }

/-- The state of the worked SINGLE before its last sample a4. -/
def beforeA4 : SingleMeasure :=
  { n := 4, tol := 25, settle := 5, anchor := some ⟨.block 2, ⟨12400041, -3249998, 1800001⟩⟩, window := 5, settleTotal := 7
    timer := 4990
    phase :=
      .averaging
        { count := 3, sum := ⟨37200125, -9749998, 5400003⟩, least := ⟨12400039, -3250002, 1800000⟩
          greatest := ⟨12400044, -3249997, 1800002⟩, flags := ⟨false, false, false⟩ } }

/-- A corrected sample that carries a distance. -/
def carrying (d : CorrectedDistance) : Corrected :=
  { frame := worked, present := true, psdX := 0, psdY := 0, distance := some d
    angles := some ⟨0, 0, 1073741824, 0, 1073741824, 0, false⟩ }

/-- Chapter 6's worked SINGLE: the record that completes on a4. -/
theorem test_single_completes :
    (emitterSample (carrying (markPoint 40 (-3) (-1)))
        { inState .following with
          emitter := { Emitter.reset with mode := .single beforeA4, sequence := 4117 } }).station.out =
      [.point
        { sequence := 4117, timestamp := 1000000, kind := .single 3 7
          at_ := ⟨.block 2, ⟨12400041, -3250000, 1800001⟩⟩, flags := ⟨false, false, false⟩, source := .adm, samples := 4 }] := by
  decide +kernel

/-- Chapter 6's seam: p3 lies exactly 5,000 from the anchor and is emitted, p2 is not. -/
theorem test_spaced :
    (emitterSample (carrying { markPoint 0 0 0 with at_ := ⟨.tracker, ⟨20003000, 4000000, 900000⟩⟩ })
        { inState .following with
          emitter := { Emitter.reset with mode := .spaced 5000 (some ⟨.tracker, ⟨20000000, 4000000, 900000⟩⟩) } }).station.out =
        [] ∧
      (emitterSample (carrying { markPoint 0 0 0 with at_ := ⟨.tracker, ⟨20004000, 4003000, 900000⟩⟩ })
        { inState .following with
          emitter := { Emitter.reset with mode := .spaced 5000 (some ⟨.tracker, ⟨20000000, 4000000, 900000⟩⟩) } }).emitter.mode =
        .spaced 5000 (some ⟨.tracker, ⟨20004000, 4003000, 900000⟩⟩) := by
  decide +kernel

/-- R114: a parameter left out takes its default, one out of range is clamped. -/
theorem test_start_measure :
    (after (.startMeasure low 1 5 4 3 200) ready).station.out =
        [.reply { tag := 301, code := 0x16, result := .okClamped, data := [⟨1, 1⟩, ⟨4, 4⟩, ⟨4, 25⟩, ⟨4, 100⟩] }] ∧
      (after (.startMeasure low 0 0 0 0 0) ready).station.out =
        [.reply { tag := 301, code := 0x16, result := .refused .range, data := [] }] := by
  decide +kernel

/-- R116 and R113. -/
theorem test_stop_and_read :
    (after (.stopMeasure low) caseState).emitter.mode = .idle ∧
      (after (.stopMeasure low) caseState).station.out = [.reply { tag := 301, code := 0x17, result := .ok, data := [⟨1, 2⟩] }] ∧
      (after (.readLatest low) { ready with emitter := { Emitter.reset with fresh := true } }).emitter.fresh = false := by
  decide +kernel

/-- Chapter 6's trigger: the first edge captures, the second is lost. -/
theorem test_trigger :
    (after (.trigEdge .rising)
        { ready with localTime := 781204, emitter := { Emitter.reset with mode := .triggered none } }).emitter.mode =
        .triggered (some ⟨781204, 0⟩) ∧
      ((after (.trigEdge .rising) { ready with emitter := { Emitter.reset with mode := .triggered (some ⟨781204, 5⟩) } }).events.get
          .triggerLost).latch = true := by
  decide +kernel

/-! ### Chapter 7 -/

/-- Chapter 7's worked round: entries 1, 4 and 9 with their pending results. -/
def nest (x y z az el : Int) (tol : Nat) (mode : CheckMode) : FiducialEntry :=
  { FiducialEntry.blank with state := .enabled, nominal := ⟨x, y, z⟩, aim := ⟨az, el⟩, tolerance := tol, checkMode := mode }

def nest1 : FiducialEntry := nest 8500000 2000000 (-300000) 1296000 30000 100 .position
def nest4 : FiducialEntry := nest (-6200000) 11750000 2400000 2950000 48000 50 .position

/-- Slots 1 and 2 of the worked round: IN_TOL with exact halves rounded up, and OUT_TOL; a deviation equal to the tolerance is
IN_TOL. -/
theorem test_judge :
    judge nest1 ⟨68000180, 15999948, -2399980⟩ = .inTol ⟨⟨8500023, 1999994, -299997⟩, ⟨23, -6, 3⟩⟩ ∧
      judge nest4 ⟨-49599296, 94000248, 19200032⟩ = .outTol ⟨⟨-6199912, 11750031, 2400004⟩, ⟨88, 31, 4⟩⟩ ∧
      judge { nest4 with tolerance := 88 } ⟨-49599296, 94000248, 19200032⟩ =
        .inTol ⟨⟨-6199912, 11750031, 2400004⟩, ⟨88, 31, 4⟩⟩ := by
  decide +kernel

/-- The table of the worked round, at round number 41. -/
def roundTable : Vector FiducialEntry 16 :=
  ((RoundUnit.reset.table.set 1 nest1).set 4 nest4).set 9 (nest 14000000 (-9600000) (-1450000) 3700000 (-24000) 200 .presence)

/-- The round unit of the worked round with no round on. -/
def roundUnit (st : RoundState) : RoundUnit :=
  { RoundUnit.reset with table := roundTable, roundNumber := 41, period := 30, periodTimer := 1, state := st }

def inRound (st : RoundState) (s : State) : State := { s with round := roundUnit st }

/-- The third slot of the worked round, in phase SEARCH. -/
def slot9 : RunningRound :=
  { slots := [1, 4, 9], current := 9, phase := .search, slotTimer := 9000, avgCount := 0, sums := zero3
    results :=
      [⟨1, .inTol ⟨⟨8500023, 1999994, -299997⟩, ⟨23, -6, 3⟩⟩, some ⟨1296012, 29996⟩⟩,
        ⟨4, .outTol ⟨⟨-6199912, 11750031, 2400004⟩, ⟨88, 31, 4⟩⟩, some ⟨2950040, 48011⟩⟩] }

/-- The completion of the worked round: the summary, DRIFT, entry 4's new aim angles and the return aim. -/
theorem test_round_completes :
    (endSlot .notFound none
        { posed (inState .lost) with
          round := { roundUnit (.running slot9) with returnAngles := some ⟨410500, 62300⟩ } }).round.summary =
        .completed 42 1 1 ∧
      (endSlot .notFound none (inRound (.running slot9) (posed (inState .lost)))).round.table[4].aim = ⟨2950040, 48011⟩ ∧
      ((endSlot .notFound none (inRound (.running slot9) (posed (inState .lost)))).events.get .drift).genuine = true ∧
      (endSlot .notFound none
        { posed (inState .lost) with
          round := { roundUnit (.running slot9) with returnAngles := some ⟨410500, 62300⟩ } }).follower.aim =
        some ⟨410500, 62300, .follow, .round, 3000⟩ := by
  decide +kernel

/-- The worked round's start: a STOP_MEASURE in DUE starts it in the same handling. -/
theorem test_due_round_starts :
    (after (.stopMeasure low)
        { inRound .due (posed (based (inState .following))) with
          emitter := { Emitter.reset with mode := .stream 1 0 } }).round.periodTimer = 1800000 ∧
      (after (.stopMeasure low)
        { inRound .due (posed (based (inState .following))) with
          emitter := { Emitter.reset with mode := .stream 1 0 } }).follower.aim =
        some ⟨1296000, 30000, .hold, .round, 3000⟩ := by
  decide +kernel

/-- R138: START_ROUND names the number of slots and the round number; with no active pose it is refused NO_POSE. -/
theorem test_start_round :
    (after (.startRound low) (inRound .idle (posed (inState .parked)))).station.out =
        [.reply { tag := 301, code := 0x1D, result := .ok, data := [⟨1, 3⟩, ⟨4, 42⟩] }] ∧
      (after (.startRound low) (inRound .idle (inState .parked))).station.out =
        [.reply { tag := 301, code := 0x1D, result := .refused .noPose, data := [] }] := by
  decide +kernel

/-- Chapter 7's "had the operator parked the head": PARK aborts the round and keeps the table. -/
theorem test_round_parked :
    (after (.park low) (inRound (.running slot9) (posed (inState .lost)))).round.summary = .aborted .parked ∧
      (after (.stopRound low) (inRound (.running slot9) (posed (inState .lost)))).round.roundNumber = 41 := by
  decide +kernel

/-- R132 and R133: a tolerance of 9 is refused; enabling an UNUSED entry is refused STATE. -/
theorem test_fiducials :
    (after (.writeFiducial low 15 ⟨1, 1, 2, 3, 4, 0xFFFFFFFB, 9, 0, 255⟩) ready).round.table[15].state = .unused ∧
      (after (.writeFiducial low 15 ⟨1, 1, 2, 3, 4, 0xFFFFFFFB, 10, 0, 255⟩) ready).round.table[15].aim = ⟨4, -5⟩ ∧
      (after (.enableFiducial low 0) ready).station.out =
        [.reply { tag := 301, code := 0x1A, result := .refused .state, data := [] }] ∧
      (after (.disableFiducial low 1) (inRound .idle ready)).round.table[1].state = .disabled := by
  decide +kernel

/-! ### Chapter 8 -/

/-- R162: the records pending after power-on, by level and number: 12, then 21, then 22. -/
theorem test_power_on_records :
    (after .eventAdmission State.reset).station.out =
        [.event { source := .drivesDisabled, transition := .asserted, count := 0, testMark := false, time := 0 }] ∧
      chooseSource (after .eventAdmission State.reset).events = some .refractionStale ∧
      chooseSource (after .eventAdmission (after .eventAdmission State.reset)).events = some .uncompensated := by
  decide +kernel

/-- R155: DISTANCE_LOST clears itself at its admission. -/
theorem test_distance_lost_clears :
    (after .eventAdmission (occur .distanceLost (occur .distanceLost ready))).station.out =
        [.event { source := .distanceLost, transition := .latched, count := 2, testMark := false, time := 0 }] ∧
      ((after .eventAdmission (occur .distanceLost ready)).events.get .distanceLost).latch = false := by
  decide +kernel

/-- Chapter 8, step 10: the acknowledgement of a latch of count 2. -/
theorem test_ack :
    (after (.ackEvent low 23) (occur .triggerLost (occur .triggerLost ready))).station.out =
        [.reply { tag := 301, code := 0x1F, result := .ok, data := [⟨1, 2⟩, ⟨1, 0⟩] }] ∧
      (after (.ackEvent low 25) ready).station.out =
        [.reply { tag := 301, code := 0x1F, result := .refused .range, data := [] }] := by
  decide +kernel

/-- R158: a test of HEAD_SILENT needs authority, and silences no head. -/
theorem test_raise_test :
    (after (.raiseTest low 1) ready).station.out =
        [.reply { tag := 301, code := 0x20, result := .refused .authority, data := [] }] ∧
      ((after (.raiseTest high 1) ready).events.get .headSilent).genuine = false ∧
      ((after (.raiseTest high 1) ready).events.get .headSilent).testMark = true := by
  decide +kernel

/-- R160: a floor of 15 is clamped to 14. -/
theorem test_set_floor :
    (after (.setFloor low 15) ready).station.out =
      [.reply { tag := 301, code := 0x21, result := .okClamped, data := [⟨4, 14⟩] }] := by
  decide +kernel

/-! ### Chapter 9 -/

/-- Chapter 9's worked sequence, step 1: with 63 records the home distance is refused AUTHORITY in the 64th place. -/
theorem test_authority :
    (after (.setParam low 1 500) (full 63 ready)).station.out.getLast? =
        some (.reply { tag := 301, code := 0x22, result := .refused .authority, data := [] }) ∧
      (after (.setParam low 1 500) (full 63 ready)).station.out.length = 64 := by
  decide +kernel

/-- R167: the ninth sample is lost. -/
theorem test_head_overrun :
    (after (.sample level0) { ready with head := { ready.head with rx := List.replicate 8 dark } }).head.overruns = 1 ∧
      (after (.sample level0) ready).head.rx = [level0] := by
  decide +kernel

/-- R168: 20 ticks without a sample; the twentieth asserts. -/
theorem test_silence :
    ((after .timeBaseTick { ready with head := { ready.head with silenceTimer := 2 } }).events.get .headSilent).genuine = false ∧
      ((after .timeBaseTick { ready with head := { ready.head with silenceTimer := 1 } }).events.get .headSilent).genuine =
        true := by
  decide +kernel

/-- R176 and R184: section 9 is none; the reply of PORTS begins with the tag, the code, the result, the reason and the four
occupancies. -/
theorem test_read_status :
    (after (.readStatus low 9) ready).station.out =
        [.reply { tag := 301, code := 0x23, result := .refused .range, data := [] }] ∧
      ((after (.readStatus low 1) (full 3 ready)).station.out.getLast?.map fun r => (recordFrame r).payload.take 9) =
        some [1, 45, 0x23, 0, 0, 0, 0, 0, 3] := by
  decide +kernel

/-- R180: the restart's HOLD frame, and the reply as the first record. -/
theorem test_restart :
    (after (.restart low) (full 5 (inState .following))).station.out =
        [.reply { tag := 301, code := 0x24, result := .ok, data := [] }] ∧
      (after (.restart low) (inState .following)).head.tx = some (.steer .hold) := by
  decide +kernel

/-- R179: a break at power-on is not armed; after SRX has been high it restarts. -/
theorem test_link_break :
    (after .linkBreak (full 5 ready)).station.out.length = 5 ∧
      (after .linkBreak (after .srxReturnsHigh (full 5 ready))).station.out = [] := by
  decide +kernel

/-- R174: an unknown code, and a known one with a payload of the wrong length. -/
theorem test_unknown_request :
    (after (.unknownRequest low 37) ready).station.out =
        [.reply { tag := 301, code := 37, result := .refused .unknown, data := [] }] ∧
      (after (.requestFrame false (.unnamed 301 0x0C)) ready).station.out =
        [.reply { tag := 301, code := 0x0C, result := .refused .range, data := [] }] := by
  decide +kernel

/-! ### Chapter 10: frames written out from the layouts -/

/-- R165: the check of "123456789". -/
theorem test_check : crc16 [0x31, 0x32, 0x33, 0x34, 0x35, 0x36, 0x37, 0x38, 0x39] = 0x29B1 := by decide +kernel

/-- R183: a SAMPLE without and with the ADM part. -/
theorem test_receive_sample :
    receiveHead
        [0x5A, 0x10, 0x01, 0x19, 0x07, 0x00, 0x0F, 0x42, 0x40, 0x00, 0x10, 0x7A, 0xB0, 0xFF, 0xFA, 0x81, 0xCA, 0x02, 0xFB, 0xC7,
          0x66, 0x01, 0xFF, 0x74, 0x00, 0x5F, 0x07, 0xD0, 0x00, 0x92, 0xA7] =
        some (.sample { worked with elRaw := BitVec.ofInt 32 (-359990), psdX := BitVec.ofInt 16 (-140), psdY := 95 }) ∧
      receiveHead
        [0x5A, 0x10, 0x01, 0x1E, 0x07, 0x00, 0x0F, 0x42, 0x40, 0x00, 0x10, 0x7A, 0xB0, 0xFF, 0xFA, 0x81, 0xCA, 0x02, 0xFB, 0xC7,
          0x66, 0x01, 0xFF, 0x74, 0x00, 0x5F, 0x07, 0xD0, 0x00, 0x08, 0xF0, 0xD1, 0x80, 0xC8, 0xCF, 0xF6] =
        some
          (.sample
            { worked with
              elRaw := BitVec.ofInt 32 (-359990), psdX := BitVec.ofInt 16 (-140), psdY := 95
              adm := some (150000000, 200) }) := by
  decide +kernel

/-- R166 and R183: HEAD_STATUS with any destination, one whose has_adm is 2, and one whose check differs. -/
theorem test_receive_head_status :
    receiveHead [0x5A, 0x11, 0x77, 0x03, 0x01, 0x01, 0xAB, 0xB0, 0x3A] =
        some (.headStatus { destination := 0x77, hasAdm := true, driveState := .enabled, remainder := [0xAB] }) ∧
      receiveHead [0x5A, 0x11, 0x77, 0x02, 0x02, 0x01, 0xB4, 0x7C] = some (.discardedFrame .head) ∧
      receiveHead [0x5A, 0x11, 0x77, 0x03, 0x01, 0x01, 0xAB, 0xB0, 0x3B] = some (.discardedFrame .head) ∧
      receiveHead [0x00, 0x11] = none := by
  decide +kernel

/-- R166: a FORWARD frame of an unlisted kind, and a frame for the station. -/
theorem test_receive_forward :
    receiveStation true [0x5A, 0x99, 0x02, 0x02, 0x05, 0x06, 0x83, 0xC1] = some (.forwardFrame ⟨0x99, [5, 6]⟩) ∧
      receiveStation true [0x5A, 0x30, 0x03, 0x03, 0x0C, 0x01, 0x2D, 0xE7, 0x0D] = some (.discardedFrame .station) := by
  decide +kernel

/-- R184 and section 10.5: FOLLOW, GOTO and WRITE_STEPS requests, one with a byte too many and one whose count asks for more. -/
theorem test_receive_request :
    receiveStation false [0x5A, 0x30, 0x01, 0x03, 0x0C, 0x01, 0x2D, 0xA3, 0x8E] =
        some (.requestFrame false (.named 301 .follow)) ∧
      receiveStation false
        [0x5A, 0x30, 0x01, 0x0C, 0x0E, 0x01, 0x2D, 0x00, 0x00, 0x00, 0x64, 0xFF, 0xFF, 0xA2, 0x40, 0x01, 0x17, 0x86] =
        some (.requestFrame false (.named 301 (.goto 100 (BitVec.ofInt 32 (-24000)) 1))) ∧
      receiveStation true
        [0x5A, 0x30, 0x01, 0x0F, 0x0F, 0x01, 0x2D, 0x01, 0x7F, 0x01, 0xFF, 0xFF, 0xFF, 0xFF, 0x00, 0x00, 0x00, 0x02, 0x03, 0x8A,
          0x10] =
        some (.requestFrame true (.named 301 (.writeSteps 383 [⟨BitVec.ofInt 32 (-1), 2, 3⟩]))) ∧
      receiveStation true [0x5A, 0x30, 0x01, 0x04, 0x0C, 0x01, 0x2D, 0x00, 0x6C, 0x5D] =
        some (.requestFrame true (.unnamed 301 0x0C)) ∧
      receiveStation true
        [0x5A, 0x30, 0x01, 0x0F, 0x0F, 0x01, 0x2D, 0x01, 0x7F, 0x02, 0xFF, 0xFF, 0xFF, 0xFF, 0x00, 0x00, 0x00, 0x02, 0x03, 0x3B,
          0xDF] =
        some (.requestFrame true (.unnamed 301 0x0F)) := by
  decide +kernel

/-- R183: the three STEER frames. -/
theorem test_steer_frames :
    (headLinkFrame (.steer .hold)).bytes = [0x5A, 0x20, 0x02, 0x01, 0x02, 0xCE, 0x9D] ∧
      (headLinkFrame (.steer (.follow (-2) 300))).bytes =
        [0x5A, 0x20, 0x02, 0x05, 0x00, 0xFF, 0xFE, 0x01, 0x2C, 0x0C, 0x9B] ∧
      (headLinkFrame (.steer (.position 100 (-24000)))).bytes =
        [0x5A, 0x20, 0x02, 0x09, 0x01, 0x00, 0x00, 0x00, 0x64, 0xFF, 0xFF, 0xA2, 0x40, 0xA3, 0x05] := by
  decide +kernel

/-- R184: an EVENT, a POINT with two flags, and two REPLY frames. -/
theorem test_record_frames :
    (recordFrame (.event { source := .headSilent, transition := .asserted, count := 0, testMark := false, time := 20 })).bytes =
        [0x5A, 0x41, 0x03, 0x0B, 0x01, 0x81, 0x0F, 0x01, 0x01, 0x00, 0x00, 0x00, 0x00, 0x00, 0x14, 0x4E, 0x4D] ∧
      (recordFrame
          (.point
            { sequence := 4117, timestamp := 1000000, kind := .stream, at_ := ⟨.block 2, ⟨-15820508, -2000000, 10250000⟩⟩
              flags := ⟨true, false, true⟩, source := .adm, samples := 1 })).bytes =
        [0x5A, 0x42, 0x03, 0x17, 0x10, 0x15, 0x00, 0x0F, 0x42, 0x40, 0x01, 0x02, 0xFF, 0x0E, 0x99, 0x24, 0xFF, 0xE1, 0x7B, 0x80,
          0x00, 0x9C, 0x67, 0x10, 0x05, 0x00, 0x01, 0xA6, 0xA3] ∧
      (recordFrame (.reply { tag := 301, code := 4, result := .okClamped, data := [⟨4, 150000⟩] })).bytes =
        [0x5A, 0x40, 0x03, 0x09, 0x01, 0x2D, 0x04, 0x01, 0x00, 0x00, 0x02, 0x49, 0xF0, 0x70, 0x2F] ∧
      (recordFrame (.reply { tag := 301, code := 0x0C, result := .refused .state, data := [] })).bytes =
        [0x5A, 0x40, 0x03, 0x05, 0x01, 0x2D, 0x0C, 0x02, 0x04, 0xAB, 0x73] := by
  decide +kernel

/-! ### What `wellFormed` refuses -/

theorem test_ill_formed_head_status :
    wellFormed (.headStatus ⟨1, true, .enabled, List.replicate 239 0⟩) = false ∧
      wellFormed (.headStatus ⟨1, true, .enabled, List.replicate 238 0⟩) = true := by decide +kernel

theorem test_ill_formed_forward :
    wellFormed (.forwardFrame ⟨0x99, List.replicate 241 0⟩) = false ∧
      wellFormed (.forwardFrame ⟨0x99, List.replicate 240 0⟩) = true := by decide +kernel

theorem test_ill_formed_load_data :
    wellFormed (.loadCompData low 0 0 (List.replicate 118 0)) = false ∧
      wellFormed (.requestFrame false (.named 1 (.loadCompData 0 0 (List.replicate 118 0)))) = false ∧
      wellFormed (.loadCompData low 0 0 (List.replicate 117 0)) = true := by decide +kernel

theorem test_ill_formed_write_steps :
    wellFormed (.writeSteps low 0 (List.replicate 27 ⟨0, 0, 1⟩)) = false ∧
      wellFormed (.requestFrame false (.named 1 (.writeSteps 0 (List.replicate 27 ⟨0, 0, 1⟩)))) = false := by decide +kernel

theorem test_ill_formed_append :
    wellFormed (.appendSteps low (List.replicate 27 ⟨0, 0, 1⟩)) = false ∧
      wellFormed (.requestFrame false (.named 1 (.appendSteps (List.replicate 27 ⟨0, 0, 1⟩)))) = false := by decide +kernel

theorem test_ill_formed_unknown : wellFormed (.unknownRequest low 36) = false ∧ wellFormed (.unknownRequest low 37) = true := by
  decide +kernel

/-- No row of the table gives bits. -/
theorem test_table_words : decodeTableWord 8 0x0C = none ∧ State.reset.withFetchWord 8 0x0C = State.reset := ⟨rfl, rfl⟩

/-! ### Witnesses: states and operands that meet the hypotheses of each obligation's clauses -/

/-- A port that takes a request at once, with 63 records waiting. -/
theorem portReady_ready : portReady ready ∧ portReady (full 63 (inState .following)) ∧ portReady (running ready) := by
  refine ⟨⟨?_, ?_, ?_, ?_⟩, ⟨?_, ?_, ?_, ?_⟩, ⟨?_, ?_, ?_, ?_⟩⟩ <;> decide +kernel

theorem witness_StepRunsFrontCommand :
    ({ ready with pending := [.takeSample, .timeBaseTick] } : State).pending = .takeSample :: [.timeBaseTick] ∧
      ready.pending = [] := ⟨rfl, rfl⟩

/-- A state in the middle of a round, with a tick waiting, that meets the whole invariant. -/
def busyState : State :=
  { reevaluate (inRound (.running { slot9 with phase := .acquire }) (posed (inState .lost))) with pending := [.timeBaseTick] }

/-- The hypotheses of the six `StepKeeps` obligations. -/
theorem witness_StepKeeps :
    busyState.safe = true ∧ busyState.queuesBounded = true ∧ busyState.conditionsTrue = true ∧
      (busyState.searchAgrees = true ∧ busyState.followerItems = true) ∧
      (busyState.roundAgrees = true ∧ busyState.dueIsBusy = true ∧ busyState.silenceBounded = true) ∧
      ((due (inState .aiming)).dueIsBusy = true ∧ (due ready).dueIsBusy = false) ∧
      (busyState.poseActiveValid = true ∧ busyState.tablesComplete = true) ∧
      (busyState.parametersInRange = true ∧ busyState.integratorsBounded = true ∧ busyState.ringBounded = true ∧
        busyState.descriptorsInRegion = true) ∧
      (match step busyState with
       | .next t => t.localTime = 1
       | .fault _ => False
       | .refused _ => False) := by
  refine ⟨?_, ?_, ?_, ?_, ?_, ?_, ?_, ?_, ?_⟩ <;> first | rfl | decide +kernel

theorem witness_OccurrenceLatches :
    (ready.events.get .frameError).latch = false ∧ ((occur .frameError ready).events.get .frameError).latch = true := by
  decide +kernel

/-- R160: TRIGGER_LOST, of level 4, is eligible above a floor of 3 and not above a floor of 4; R156: a level source whose mark
agrees with its condition is not. -/
theorem test_floor :
    ({ (occur .triggerLost State.reset).events with floor := 3 } : EventUnit).eligible .triggerLost = true ∧
      ({ (occur .triggerLost State.reset).events with floor := 4 } : EventUnit).eligible .triggerLost = false ∧
      State.reset.events.eligible .headSilent = false ∧ State.reset.events.eligible .drivesDisabled = true := by
  decide +kernel

theorem witness_EventAdmission :
    (full 63 State.reset).station.out.length < 64 ∧ chooseSource (full 63 State.reset).events = some .drivesDisabled ∧
      chooseSource (occur .distanceLost State.reset).events = some .distanceLost ∧
      64 ≤ (full 64 State.reset).station.out.length ∧ chooseSource { State.reset.events with floor := 14 } = none := by
  decide +kernel

theorem witness_SampleArrives :
    (List.replicate 7 dark).length < 8 ∧ 8 ≤ ({ ready.head with rx := List.replicate 8 dark } : HeadPort).rx.length := by
  decide +kernel

theorem witness_HeadStatusRead :
    (List.replicate 238 (0 : Byte)).length ≤ 238 ∧ (full 55 ready).station.out.length < 56 ∧
      56 ≤ (full 56 ready).station.out.length ∧
      (ready.follower.state = .parked ∧ ready.round.state = .idle) ∧
      (running (inState .lost)).follower.state ≠ .parked ∧ (running (inState .lost)).round.state ≠ .idle ∧
      (based (inState .following)).distance.state = .established .adm 150000000 1000 ∧
      (based (inState .following)).round.state.isRunning = false ∧
      ((due ready).follower.state = .parked ∧ (due ready).round.state = .due) ∧
      ((due (inState .aiming)).follower.state ≠ .parked ∧ (due (inState .aiming)).round.state = .due) ∧
      (startAdmWait .station (inState .lost)).distance.state.wait = some (.adm, .station, 2000) ∧
      (setMode (.single (singleStart 1 5 5)) (inState .following)).emitter.mode.isSingle = true ∧
      (setMode (.single (singleStart 1 5 5)) (based (inState .holding))).follower.state ≠ .following ∧
      (∀ d b c, (inState .lost).distance.state ≠ .established d b c) := by
  refine ⟨?_, ?_, ?_, ?_, ?_, ?_, ?_, ?_, ?_, ?_, ?_, ?_, ?_, fun _ _ _ h => nomatch h⟩ <;> decide +kernel

/-- R81 and R140: a DISABLED read in PARKED ends a DUE round with reason DRIVES. -/
theorem test_disabled_ends_due :
    (after (.headStatus { destination := 1, hasAdm := true, driveState := .disabled, remainder := [] }) (due ready)).round.summary =
      .aborted .drives := by
  decide +kernel

theorem witness_DiscardedFrameCounted :
    ready.station.srxLow = false ∧ ({ ready.station with srxLow := true } : StationPort).srxLow = true := ⟨rfl, rfl⟩

/-- A held request before a full output queue. -/
def held (rx : List StationFrame) : State :=
  { full 64 ready with station := { (full 64 ready).station with slot := some (.named 300 .follow), rx := rx } }

theorem witness_StationFrameArrives :
    ((List.replicate 240 (0 : Byte)).length ≤ 240 ∧ ready.station.srxLow = false ∧ ready.station.rx = [] ∧
        ready.station.slot = none ∧ 64 ≤ (held []).station.out.length ∧ (held []).station.rx = [] ∧
        ready.head.forward.length < 4 ∧ ready.head.tx = none ∧ ready.head.slot = none ∧ ready.head.forward = [] ∧
        (writeSteer .hold ready).head.tx ≠ none ∧
        4 ≤ ({ ready.head with forward := List.replicate 4 ⟨0x99, []⟩ } : HeadPort).forward.length) ∧
      (full 64 ready).station.srxLow = false ∧ 64 ≤ (full 64 ready).station.out.length ∧ (full 64 ready).station.slot = none ∧
      (full 64 ready).station.rx = [] ∧ (held []).station.slot = some (.named 300 .follow) ∧
      (held (List.replicate 7 (.request (.named 299 .park)))).station.rx =
        .request (.named 299 .park) :: List.replicate 6 (.request (.named 299 .park)) ∧
      (held (List.replicate 7 (.request (.named 299 .park)))).station.rx.length < 8 ∧
      8 ≤ (held (List.replicate 8 (.request (.named 299 .park)))).station.rx.length ∧
      ({ ready.station with srxLow := true } : StationPort).srxLow = true := by
  decide +kernel

/-- R172: a FORWARD frame keeps its place behind a request that waits. -/
theorem test_forward_waits :
    (after (.forwardFrame ⟨0x99, []⟩) (held [.request (.named 299 .park)])).station.rx =
      [.request (.named 299 .park), .forward ⟨0x99, []⟩] := by
  decide +kernel

/-- A follower in AIMING at azimuth `az`, with `run` samples counted. -/
def aimed (az : Int) (run : Nat) (act : ThenAction) (owner : AimOwner) : State :=
  { ready with
    follower := { follower .aiming with aim := some ⟨az, 300, act, owner, 3000⟩, arrivalRun := run } }

/-- The front sample and the follower's state of each clause; the target is at the limit of R72, and one count beyond it. -/
theorem witness_FollowerTakesSample :
    ((queue level0 ready).head.rx = level0 :: [] ∧ ready.round.state = .idle ∧
        (after (.follow low) (inState .lost)).follower.followPending = true ∧
        decidePresence (inState .lost).follower level0 = true ∧ decidePresence (inState .lost).follower dark = false ∧
        ready.follower.state = .parked ∧ ready.follower.followPending = false) ∧
      (atTarget ⟨300, 300, .follow, .station, 3000⟩ (aimed 300 3 .follow .station) level0 ∧
        ¬ atTarget ⟨301, 300, .follow, .station, 3000⟩ (aimed 301 3 .follow .station) level0 ∧
        (aimed 300 3 .follow .station).follower.arrivalRun + 1 < 5 ∧ 4 ≤ (aimed 300 4 .hold .station).follower.arrivalRun ∧
        (aimed 300 4 .follow .station).follower.aim = some ⟨300, 300, .follow, .station, 3000⟩ ∧
        (aimed 300 4 .follow .station).follower.state = .aiming) ∧
      ((inState .following).follower.state = .following ∧ 0 < (inState .following).follower.graceParam ∧
        (after (.setParam low 9 0) (inState .following)).follower.graceParam = 0 ∧ (inState .holding).follower.state = .holding ∧
        (after .takeSample (queue dark (inState .following))).follower.grace = some 20) ∧
      ({ inState .searching with search := blockUnit 10 1 2 } : State).search.active.map (·.dwell) = some 2 ∧
      ({ inState .searching with follower := { follower .searching with acqRun := 2 } } : State).follower.acqRun = 2 ∧
      (inState .lost).follower.state = .lost := by
  unfold atTarget
  decide +kernel

theorem witness_RequestFrameActsAsRequest :
    codeNamed 0 = false ∧ codeNamed 37 = false ∧ codeNamed 1 = true ∧ codeNamed 36 = true := by decide +kernel

/-- The head transmitter is sending; `n` forward frames and perhaps a steering frame wait. -/
def sending (slot : Option Steer) (n : Nat) : HeadPort :=
  { ready.head with tx := some (.steer .hold), slot := slot, forward := List.replicate n ⟨0x99, [1]⟩ }

theorem witness_TransmitterFrameSent :
    (ready.head.tx = none ∧ (sending none 0).tx ≠ none ∧ (sending (some .hold) 1).slot = some .hold ∧
        (sending none 1).forward = ⟨0x99, [1]⟩ :: [] ∧ (sending none 1).slot = none ∧ (sending none 0).forward = []) ∧
      (full 1 ready).station.tx = some .front ∧ (full 1 ready).station.out = filler :: [] ∧
      (full 57 ready).station.out = filler :: List.replicate 56 filler ∧ (full 57 ready).station.slot = none ∧
      (full 57 ready).station.rx = [] := by
  decide +kernel

/-- A RUNNING round in a phase of its first slot. -/
def inPhase (p : SlotPhase) (s : State) : State :=
  { s with round := { RoundUnit.reset with state := .running { slot0 with phase := p } } }

/-- The items of a RUNNING round. -/
def runningOf (s : State) : Option RunningRound :=
  match s.round.state with
  | .running r => some r
  | .idle => none
  | .due => none

/-- A search of the round unit's. -/
def roundSearching (u : SearchUnit) : SearchUnit := { u with active := u.active.map fun a => { a with owner := .round } }

/-- A wait of the round unit's. -/
def roundWaiting (s : State) : State := { s with distance := { DistanceUnit.reset with state := .awaitAdm .round 9 } }

/-- A qualifying sample at the limits of R47 and R146. -/
def centredSample : Sample := { level0 with psdX := 200, psdY := BitVec.ofInt 16 (-200), adm := some (900000000, 160) }

theorem witness_SlotFindsBeam :
    ((queue level0 (inPhase .aim (aimed 300 4 .hold .round))).round.state = .running { slot0 with phase := .aim } ∧
        (inPhase .aim (aimed 300 4 .hold .round)).follower.followPending = false ∧
        (inPhase .aim (aimed 300 4 .hold .round)).follower.aim = some ⟨300, 300, .hold, .round, 3000⟩ ∧
        atTarget ⟨300, 300, .hold, .round, 3000⟩ (inPhase .aim (aimed 300 4 .hold .round)) level0 ∧
        ¬ atTarget ⟨300, 300, .hold, .round, 3000⟩ (inPhase .aim (aimed 300 4 .hold .round)) bad) ∧
      ((inPhase .acquire (inState .lost)).follower.acqRun < 2 ∧ decidePresence (inState .lost).follower level0 = true ∧
        decidePresence (inState .lost).follower dark = false ∧
        2 ≤ ({ follower .lost with acqRun := 2 } : Follower).acqRun ∧ (inPhase .acquire (inState .lost)).distance.state = .none) ∧
      ((roundSearching (blockUnit 12 0 1)).active.map (·.owner) = some .round ∧
        (roundSearching (blockUnit 12 0 1)).active.map (·.play) = some (.block 12 0) ∧
        (blockUnit 12 0 1).descriptors[2].start + (blockUnit 12 0 1).descriptors[2].length ≤ 12 + 1 ∧
        (roundSearching (streamUnit 0)).active.map (·.play) = some .stream ∧ (streamUnit 0).ringFill = 0) ∧
      (centred centredSample ∧ ¬ centred { centredSample with psdX := 201 } ∧ (inPhase .centre ready).head.hasAdm = true ∧
        State.reset.head.hasAdm = false ∧ (inState .following).follower.state = .following ∧
        (after .takeSample (queue dark (inPhase .centre (inState .following)))).follower.grace = some 20) ∧
      (roundWaiting ready).distance.state = .awaitAdm .round 9 ∧ admQualifies ready centredSample 900000000 160 ∧
      ¬ admQualifies ready { centredSample with psdX := 201 } 900000000 160 ∧ slot0.avgCount + 1 < 8 ∧
      ({ follower .following with graceParam := 0 } : Follower).graceParam = 0 ∧
      ((roundSearching (blockUnit 10 1 2)).active.map (·.dwell) = some 2 ∧ (roundSearching (blockUnit 11 1 1)).active.map (·.owner) =
          some .round ∧ (blockUnit 12 1 1).store[12]? = some ⟨-1000, 0, 1⟩ ∧
        (roundSearching (streamUnit 1)).active.map (·.play) = some .stream ∧ 0 < (streamUnit 1).ringFill) := by
  refine ⟨?_, ?_, ?_, ?_, ?_, ?_, ?_, ?_, ?_, ?_⟩ <;> (try unfold atTarget) <;> (try unfold admQualifies) <;> (try unfold centred) <;> decide +kernel

/-- R144 to R147: the third PRESENT sample in ACQUIRE that is centred starts the ADM wait, and an ABSENT one without a READY
descriptor ends the slot; R147: the qualifying sample is the first that is averaged. -/
theorem test_slot_phases :
    (after .takeSample
        (queue centredSample
          (inPhase .acquire { ready with follower := { follower .lost with acqRun := 2 } }))).distance.state =
        .awaitAdm .round 2000 ∧
      (after .takeSample (queue dark (inPhase .acquire (inState .lost)))).round.state =
        .running { slot0 with current := 5, results := [⟨2, .notFound, none⟩] } ∧
      (runningOf (after .takeSample (queue centredSample (inPhase .adm (roundWaiting (inState .following)))))).map
          (fun r => (r.phase, r.avgCount)) = some (.average, 1) := by
  decide +kernel

/-- R102, R103 and R145: in phase SEARCH a sample with one dwell left takes the next step, or the first step of the repeat, and
writes its POSITION frame; the phase stays SEARCH. -/
theorem test_round_search_steps :
    (after .takeSample (queue dark (inPhase .search { inState .searching with search := roundSearching (blockUnit 11 1 1) }))).head.tx =
        some (.steer (.position 4318990 955000)) ∧
      (runningOf
          (after .takeSample
            (queue dark (inPhase .search { inState .searching with search := roundSearching (blockUnit 12 1 1) })))).map
          (·.phase) = some .search ∧
      (after .takeSample
          (queue dark (inPhase .search { inState .searching with search := roundSearching (blockUnit 12 1 1) }))).head.tx =
        some (.steer (.position 990 955000)) := by
  decide +kernel

/-- A full queue before a held request: with no event record eligible, and with TRIGGER_LOST eligible. -/
def settled (s : State) : State :=
  { s with events := { s.events with sources := s.events.sources.map fun x => { x with reported := x.effective } } }

/-- A held RESTART before a full queue. -/
def heldRestart : State :=
  settled (reevaluate { held [] with station := { (held []).station with slot := some (.named 300 .restart) } })

theorem witness_FreedPlaceIsGiven :
    (settled (reevaluate (held []))).conditionsTrue = true ∧ (settled (reevaluate (held []))).station.tx = some .front ∧
      (settled (reevaluate (held []))).station.out = filler :: List.replicate 63 filler ∧
      (settled (reevaluate (held []))).station.slot = some (.named 300 .follow) ∧
      (settled (reevaluate (held []))).station.rx = [] ∧
      Source.all.all (fun src => !(settled (reevaluate (held []))).events.eligible src) = true ∧
      (occur .triggerLost (settled (reevaluate (held [])))).conditionsTrue = true ∧
      chooseSource (occur .triggerLost (settled (reevaluate (held [])))).events = some .triggerLost ∧
      heldRestart.conditionsTrue = true ∧ heldRestart.station.slot = some (.named 300 .restart) ∧
      Source.all.all (fun src => !heldRestart.events.eligible src) = true := by
  decide +kernel

/-- R178 and R180: a RESTART held at 64 records is taken in the place of the record that left, before another begins: its reply is
the only record, and is sent next. -/
theorem test_held_restart :
    (after (.stationRecordSent false) heldRestart).station.out =
        [.reply { tag := 300, code := 0x24, result := .ok, data := [] }] ∧
      (after (.stationRecordSent false) heldRestart).station.tx = some .front := by
  decide +kernel

theorem witness_TriggerEdge :
    Edge.falling ≠ ready.emitter.polarity ∧ ready.emitter.mode = .idle ∧ Edge.rising = ready.emitter.polarity ∧
      (setMode (.triggered none) ready).emitter.mode = .triggered none ∧
      (setMode (.triggered (some ⟨1, 2⟩)) ready).emitter.mode = .triggered (some ⟨1, 2⟩) := by
  decide +kernel

theorem witness_LinkBreakRestarts : (armBreak ready).station.breakArmed = true ∧ ready.station.breakArmed = false := ⟨rfl, rfl⟩

theorem witness_RestartRequest : portReady (full 63 (inState .following)) := portReady_ready.2.1

/-! ### Ticks -/

/-- A state whose timers are set: a wait, an aim, a SINGLE, a round period. -/
def timed (wait aim single period silence : Nat) : State :=
  { inState .aiming with
    distance := { DistanceUnit.reset with state := .awaitAdm .station wait }
    follower := { follower .aiming with aim := some ⟨100, 24000, .follow, .station, aim⟩ }
    emitter := { Emitter.reset with mode := .single { singleStart 4 25 5 with timer := single } }
    round := { RoundUnit.reset with period := 30, periodTimer := period }
    head := { ready.head with silenceTimer := silence } }

theorem witness_QuietTick :
    (∀ e, expiryDue (timed 2 2 2 2 2) e = false) ∧ (∀ e, expiryDue ready e = false) ∧
      (∀ e, expiryDue (running ready) e = false) ∧
      (timed 2 2 2 2 2).distance.state = .awaitAdm .station 2 ∧ ready.distance.state.wait = none ∧
      (after (.establishHome low)
          { ready with distance := { DistanceUnit.reset with homeDistance := 7 } }).distance.state = .awaitHome .station 7 2000 ∧
      (timed 2 2 2 2 2).follower.aim = some ⟨100, 24000, .follow, .station, 2⟩ ∧ ready.follower.aim = none ∧
      (timed 2 2 2 2 2).emitter.mode = .single { singleStart 4 25 5 with timer := 2 } ∧
      ready.emitter.mode.isSingle = false ∧ (running ready).round.state = .running slot0 ∧
      ready.round.state.isRunning = false ∧
      ({ ready.correction with age := 600000 } : CorrectionUnit).age = 600000 := by
  refine ⟨?_, ?_, ?_, ?_⟩
  · intro e; cases e <;> decide +kernel
  · intro e; cases e <;> decide +kernel
  · intro e; cases e <;> decide +kernel
  · decide +kernel

/-- The tick brings one timer to 0 and no other. -/
theorem onlyDue_of (e : Expiry) (s : State) (h : Expiry.all.all (fun x => expiryDue s x == decide (x = e)) = true) :
    onlyDue e s := by
  simp [Expiry.all] at h
  refine ⟨?_, fun x hx => ?_⟩
  · cases e <;> simp_all
  · cases e <;> cases x <;> simp_all

/-- The state `s` with one ms left of silence. -/
def quiet (s : State) : State := { s with head := { s.head with silenceTimer := 1 } }

theorem witness_HeadSilentTick :
    (onlyDue .silence (quiet (based (inState .following))) ∧ (based (inState .following)).round.state = .idle ∧
        (based (inState .following)).follower.state ≠ .parked ∧ (based (inState .following)).follower.state ≠ .lost ∧
        (based (inState .following)).distance.state = .established .adm 150000000 1000) ∧
      (onlyDue .silence (quiet (setMode (.single (singleStart 4 25 5)) ready)) ∧
        (setMode (.single (singleStart 4 25 5)) ready).emitter.mode.isSingle = true) ∧
      (onlyDue .silence (quiet (running (inState .lost))) ∧ (running (inState .lost)).round.state.isRunning = true) ∧
      (onlyDue .silence (quiet (due (based (inState .aiming)))) ∧ (due (based (inState .aiming))).round.state = .due ∧
        (due (based (inState .aiming))).searchAgrees = true ∧ roundCondition (due (inState .aiming)) = some .noPose ∧
        roundCondition (inRound .due (posed (inState .aiming))) = none ∧ ready.emitter.mode = .idle ∧
        (setMode (.stream 1 0) ready).emitter.mode ≠ .idle ∧ (setMode (.stream 1 0) ready).emitter.mode.isSingle = false) := by
  refine ⟨⟨onlyDue_of _ _ ?_, ?_⟩, ⟨onlyDue_of _ _ ?_, ?_⟩, ⟨onlyDue_of _ _ ?_, ?_⟩, ⟨onlyDue_of _ _ ?_, ?_⟩⟩ <;> decide +kernel

/-- R80: outside a RUNNING round the acquisition run counter is 0 in LOST, also when HEAD_SILENT ends the round in ACQUIRE. -/
theorem test_silence_in_acquire :
    (silenceFollower (inPhase .acquire { ready with follower := { follower .lost with acqRun := 2 } })).follower.acqRun = 0 := by
  decide +kernel

/-- The aim timer stands at 1 ms. -/
def lastAim (s : State) : State :=
  { s with follower := { s.follower with aim := s.follower.aim.map fun a => { a with timer := 1 } } }

/-- A DUE round whose period timer does not end on the next tick. -/
def dueLater (s : State) : State := { s with round := { roundUnit .due with periodTimer := 9 } }

theorem witness_TimerExpiries :
    (timed 1 9 9 9 9).round.state = .idle ∧ onlyDue .establish (timed 1 9 9 9 9) ∧ onlyDue .aim (timed 9 1 9 9 9) ∧
      onlyDue .measure (timed 9 9 1 9 9) ∧
      onlyDue .aim (dueLater (lastAim (aimed 0 0 .hold .station))) ∧
      roundCondition (dueLater (lastAim (aimed 0 0 .hold .station))) = some .noPose ∧
      roundCondition (dueLater (posed (lastAim (aimed 0 0 .hold .station)))) = none ∧
      (lastAim (aimed 0 0 .hold .station)).emitter.mode = .idle ∧ (lastAim (aimed 0 0 .hold .station)).search.active = none ∧
      onlyDue .measure (due { timed 9 9 1 9 9 with follower := follower .lost }) ∧
      (follower .lost).state ≠ .aiming := by
  refine ⟨rfl, onlyDue_of _ _ ?_, onlyDue_of _ _ ?_, onlyDue_of _ _ ?_, onlyDue_of _ _ ?_, ?_, ?_, ?_, ?_, onlyDue_of _ _ ?_, ?_⟩ <;> decide +kernel

/-- The worked sample in phase AVERAGE with the base of the worked case, after seven samples. -/
def averaging (count : Nat) : State :=
  queue worked { caseState with round := { RoundUnit.reset with state := .running { slot0 with phase := .average, avgCount := count } } }

/-- The worked sample in `s` is usable with a base of 150 m. -/
def usableWorked (s : State) : Prop :=
  usableFront s worked [] .adm
    (correctDistance s .adm (correctAngles s.correction worked) (opticalDistance 150000000 1000 worked.ifmCount))
    { uncompensated := s.correction.uncompensated
      outOfRange :=
        (correctDistance s .adm (correctAngles s.correction worked) (opticalDistance 150000000 1000 worked.ifmCount)).outOfRange
      refractionStale := s.correction.stale }

theorem usableWorked_case (s : State) (h1 : s.head.rx = [worked]) (h2 : s.follower.state = .following)
    (h3 : s.follower.followPending = false) (h4 : decidePresence s.follower worked = true)
    (h5 : s.distance.state = .established .adm 150000000 1000) : usableWorked s :=
  ⟨h1, h2, h3, h4, rfl, ⟨150000000, 1000, h5, by decide +kernel, rfl⟩, rfl⟩

/-- A sample is not handed on with a distance where none is held, and where the held base gives an implausible one or none. -/
theorem unhanded_of {s : State} {f : Sample}
    (h : s.distance.state = .none ∨
      ∃ src b c, s.distance.state = .established src b c ∧
        (decidePresence s.follower f = false ∨ f.ifmOk = false ∨ plausible (opticalDistance b c f.ifmCount) = false)) :
    ∀ src d, ¬ handedDistance s f src d := by
  rintro src d ⟨b, c, hc, hp, -⟩
  rcases h with h | ⟨src', b', c', h, hx⟩
  · simp [h] at hc
  · simp only [h, DistanceState.established.injEq, reduceCtorEq, false_and, exists_false, or_false, and_assoc] at hc
    obtain ⟨rfl, rfl, rfl, h1, h2⟩ := hc
    simp_all

/-- One reading at one quality: a sample whose reading does not qualify has no other. -/
theorem unqualified_of {s : State} {f : Sample} {dist : Word} {quality : Byte} (h : f.adm = some (dist, quality))
    (hn : ¬ admQualifies s f dist quality) (d : Word) (q : Byte) : ¬ admQualifies s f d q := by
  intro hq
  have hdq := hq.2.1
  rw [h] at hdq
  cases hdq
  exact hn hq

theorem witness_SlotEnds :
    (onlyDue .slot (setRoundState (.running { slot0 with slotTimer := 1 }) ready) ∧
        slot0.slots[slot0.results.length + 1]? = some 5 ∧
        onlyDue .slot
          { ready with round := { roundUnit (.running { slot9 with slotTimer := 1 }) with periodTimer := 9 } } ∧
        slot9.slots[slot9.results.length + 1]? = none) ∧
      (onlyDue .establish (inPhase .adm { ready with distance := { DistanceUnit.reset with state := .awaitAdm .round 1 } }) ∧
        onlyDue .aim (inPhase .aim (lastAim (aimed 0 0 .hold .round))) ∧ portReady (inPhase .adm (roundWaiting ready)) ∧
        (inPhase .adm (roundWaiting ready)).distance.state = .awaitAdm .round 9) ∧
      (usableWorked (averaging 6) ∧ usableWorked (averaging 7) ∧ (averaging 6).round.state.isRunning = true) ∧
      ((averaging 7).round.table[2].checkMode = .position ∧
        ¬ nearPoint (averaging 7).round.table[2].tolerance (averaging 7).round.table[2].nominal
          ((zero3.add ⟨-15820508, -2000000, 10250000⟩).mean 8) ∧
        nearPoint 10 ⟨0, 0, 0⟩ ⟨10, -10, 0⟩ ∧ decidePresence (averaging 7).follower { worked with intensity := 0 } = false) ∧
      ((slot9.results ++ [(⟨slot9.current, .notFound, none⟩ : PendingResult)]).map (·.entry)).Nodup ∧
      (RoundUnit.reset.returnOn = true ∧ RoundUnit.reset.returnAngles = none) ∧
      (∀ src d, ¬ handedDistance (averaging 7) { worked with intensity := 0 } src d) ∧
      (∀ src d, ¬ handedDistance (averaging 7) { worked with ifmOk := false } src d) ∧
      (∀ src d, ¬ handedDistance (averaging 7) { worked with ifmCount := 750001001 } src d) ∧
      opticalDistance 150000000 1000 750001001 = 900000001 := by
  refine ⟨⟨onlyDue_of _ _ ?_, ?_, onlyDue_of _ _ ?_, ?_⟩, ⟨onlyDue_of _ _ ?_, onlyDue_of _ _ ?_, ⟨?_, ?_, ?_, ?_⟩, ?_⟩,
    ⟨usableWorked_case _ ?_ ?_ ?_ ?_ ?_, usableWorked_case _ ?_ ?_ ?_ ?_ ?_, ?_⟩, ?_, ?_, ?_,
    unhanded_of (.inr ⟨.adm, 150000000, 1000, ?_⟩), unhanded_of (.inr ⟨.adm, 150000000, 1000, ?_⟩),
    unhanded_of (.inr ⟨.adm, 150000000, 1000, ?_⟩), ?_⟩
  all_goals first | unfold nearPoint; decide +kernel | decide +kernel

theorem witness_RoundDueAndStart :
    (onlyDue .period (inRound .due ready) ∧ (inRound .due ready).round.state = .due) ∧
      (onlyDue .period (inRound .idle (inState .aiming)) ∧ roundBusy (inRound .idle (inState .aiming)) = true) ∧
      (onlyDue .period (inRound .idle ready) ∧ roundBusy (inRound .idle ready) = false ∧
        roundCondition (inRound .idle ready) = some .noPose) ∧
      (onlyDue .period (inRound .idle (posed ready)) ∧ roundBusy (inRound .idle (posed ready)) = false ∧
        roundCondition (inRound .idle (posed ready)) = none) ∧
      (inRound .idle ready).round.state ≠ .due ∧ roundBusy (inRound .due (inState .aiming)) = true ∧
      roundCondition (inRound .due ready) = some .noPose ∧ roundBusy (inRound .due (posed ready)) = false ∧
      roundCondition (inRound .due (posed ready)) = none := by
  refine ⟨⟨onlyDue_of _ _ ?_, ?_⟩, ⟨onlyDue_of _ _ ?_, ?_⟩, ⟨onlyDue_of _ _ ?_, ?_, ?_⟩, ⟨onlyDue_of _ _ ?_, ?_, ?_⟩, ?_, ?_,
    ?_, ?_, ?_⟩ <;> decide +kernel

/-! ### Samples -/

theorem witness_TakenSampleIsDecided :
    (queue bad (based ready)).head.rx = bad :: [] ∧ badSample bad = true ∧ badSample level0 = false ∧
      (based ready).distance.state = .established .adm 150000000 1000 ∧
      (after .takeSample (queue level0 ready)).follower.present = true ∧
      (after .takeSample (queue dark ready)).follower.present = false ∧
      ((due (inState .aiming)).round.state = .due ∧ roundBusy (after .takeSample (queue dark (due (inState .aiming)))) = true) ∧
      (roundCondition (inRound .due (posed ready)) = none ∧ roundCondition (inRound .due ready) = some .noPose) := by
  decide +kernel

/-- R140: the sample that breaks the base of a SINGLE ends it, and the DUE round that waited for it starts. -/
theorem test_due_round_starts_on_sample :
    (after .takeSample
        (queue dark (inRound .due (posed (setMode (.single (singleStart 4 25 5)) (based ready)))))).round.state.isRunning = true := by
  decide +kernel

theorem witness_InterpolationLiesBetween :
    (0 : Int) ≤ 4319999 ∧ (4319999 : Int) < 4320000 ∧ (4302000 : Int) % 18000 = 0 ∧
      ∀ k : Fin 240, -4000 ≤ CompTable.blank.entries[k] ∧ CompTable.blank.entries[k] ≤ 4000 := by
  refine ⟨by decide, by decide, by decide, fun k => ?_⟩
  simp [CompTable.blank]

theorem witness_RefractionRemoved :
    (0 : Int) ≤ 900000000 ∧ (900000000 : Int) ≤ 900000000 ∧ (150000 : Int) ≤ 400000 ∧ (400000 : Int) ≤ 400000 ∧
      CorrectionUnit.reset.refraction = 270000 := by
  decide

theorem witness_SteeringLoop :
    (queue level0 (inState .following)).head.rx = level0 :: [] ∧
      (queue level0 (inState .following)).follower.state = .following ∧
      (queue level0 (inState .following)).follower.followPending = false ∧
      (queue level0 (inState .following)).round.state = .idle ∧ decidePresence (follower .following) level0 = true ∧
      decidePresence { follower .following with present := true } { level0 with intensity := 400 } = true ∧
      decidePresence (follower .following) { level0 with intensity := 599 } = false := by
  decide +kernel

/-- A sample with an ADM reading at the limits of R47, at home. -/
def admSample : Sample := { level0 with psdX := 200, psdY := BitVec.ofInt 16 (-200), adm := some (900000000, 160), atHome := true }

/-- R47 and R50: a sample at every limit qualifies, and one beyond any one limit does not; R53 and R54: the breaks of a base. -/
theorem witness_DistanceOnSample :
    ((queue admSample ready).head.rx = admSample :: [] ∧ ready.round.state = .idle ∧
        (startAdmWait .station (inState .lost)).distance.state = .awaitAdm .station 2000 ∧
        admQualifies (inState .lost) admSample 900000000 160 ∧ homeQualifies (inState .lost) admSample) ∧
      ((∀ d q, ¬ admQualifies ready level0 d q) ∧
        (∀ d q, ¬ admQualifies ready { admSample with adm := some (900000001, 160) } d q) ∧
        (∀ d q, ¬ admQualifies ready { admSample with adm := some (900000000, 159) } d q) ∧
        (∀ d q, ¬ admQualifies ready { admSample with psdY := 201 } d q) ∧
        (∀ d q, ¬ admQualifies ready { admSample with intensity := 599 } d q) ∧
        (∀ d q, ¬ admQualifies ready { admSample with ifmOk := false } d q) ∧
        (∀ d q, ¬ admQualifies ready { admSample with azRaw := 4320000 } d q)) ∧
      (¬ homeQualifies ready { admSample with atHome := false } ∧ ¬ homeQualifies ready { admSample with ifmOk := false } ∧
        ¬ homeQualifies ready { admSample with intensity := 599 }) ∧
      (based (inState .holding)).distance.state = .established .adm 150000000 1000 ∧
      decidePresence (follower .holding) dark = false ∧ decidePresence (follower .holding) level0 = true ∧
      ((150000000 : Nat) : Int) + ((750000000 + 1000 + 1) - (1000 : Word)).toInt > 900000000 ∧
      ((150000000 : Nat) : Int) + ((750000000 + 1000) - (1000 : Word)).toInt ≤ 900000000 ∧
      ((150000000 : Nat) : Int) + ((0 - 150000001 + 1000) - (1000 : Word)).toInt < 0 ∧
      (after .takeSample (queue dark (based (inState .holding)))).follower.state ≠ .following ∧
      (after .takeSample (queue { level0 with ifmOk := false } (based (inState .holding)))).follower.state = .following := by
  refine ⟨?_, ⟨?_, unqualified_of rfl ?_, unqualified_of rfl ?_, unqualified_of rfl ?_, unqualified_of rfl ?_,
    unqualified_of rfl ?_, unqualified_of rfl ?_⟩, ?_⟩
  case refine_2 => exact fun d q h => nomatch h.2.1
  all_goals
    try unfold admQualifies centred
    try unfold homeQualifies
    decide +kernel

/-- The worked sample in a mode of the emitter. -/
def inMode (m : EmissionMode) : State := queue worked (setMode m caseState)

/-- The block coordinates of the worked sample. -/
def workedPoint : Anchor := ⟨.block 2, ⟨-15820508, -2000000, 10250000⟩⟩

/-- R123: an anchor exactly 3,000 µm away from the worked point, and the gap at that distance and one beyond it. -/
theorem witness_PointsEmitted :
    (usableWorked (inMode (.stream 1 0)) ∧ usableWorked (full 56 (inMode (.stream 1 0))) ∧
        usableWorked (inMode (.spaced 3000 none)) ∧ usableWorked (inMode (.triggered none)) ∧ usableWorked (inMode .idle)) ∧
      ((inMode .idle).round.state = .idle ∧ (inMode .idle).emitter.mode.isSingle = false ∧
        (inMode (.stream 2 0)).emitter.mode = .stream 2 0 ∧ (inMode (.triggered (some ⟨1, 2⟩))).emitter.mode =
          .triggered (some ⟨1, 2⟩) ∧ (full 55 caseState).station.out.length < 56 ∧ 56 ≤ (full 56 caseState).station.out.length) ∧
      (correctDistance caseState .adm (correctAngles caseState.correction worked)
        (opticalDistance 150000000 1000 worked.ifmCount)).at_ = workedPoint ∧
      (3000 : Int) * 3000 ≤ (-15820508 - (-15820508 + 3000)) * (-15820508 - (-15820508 + 3000)) ∧
      ¬ (3001 : Int) * 3001 ≤ (-15820508 - (-15820508 + 3000)) * (-15820508 - (-15820508 + 3000)) ∧
      (after .takeSample (queue worked { caseState with follower := follower .parked })).follower.state ≠ .following ∧
      (after .takeSample (queue worked { caseState with follower := follower .holding })).follower.state = .following := by
  refine ⟨⟨usableWorked_case _ ?_ ?_ ?_ ?_ ?_, usableWorked_case _ ?_ ?_ ?_ ?_ ?_, usableWorked_case _ ?_ ?_ ?_ ?_ ?_,
    usableWorked_case _ ?_ ?_ ?_ ?_ ?_, usableWorked_case _ ?_ ?_ ?_ ?_ ?_⟩, ?_⟩ <;> decide +kernel

/-- Samples that are handed on with a distance in any state of the follower, and samples that are handed on with none. -/
theorem witness_Unusable :
    (∃ src d flags, measuredFront (inMode (.stream 1 0)) worked [] src d flags) ∧
      (∃ d, handedDistance { caseState with follower := follower .parked } worked .adm d) ∧
      (∃ d, handedDistance (startAdmWait .station (inState .lost)) admSample .adm d) ∧
      (∀ src d, ¬ handedDistance caseState dark src d) ∧ (∀ src d, ¬ handedDistance ready worked src d) ∧
      ∀ src d, ¬ handedDistance caseState { worked with ifmCount := 750001001 } src d := by
  refine ⟨⟨_, _, _, measured_of_usable (usableWorked_case _ ?_ ?_ ?_ ?_ ?_)⟩,
    ⟨_, 150000000, 1000, .inl ⟨?_, ?_, ?_⟩, ?_, rfl⟩,
    ⟨_, 900000000, admSample.ifmCount, .inr (.inl ⟨.station, 2000, 900000000, 160, ?_, ?_, rfl, rfl, rfl⟩), ?_, rfl⟩,
    unhanded_of (.inr ⟨.adm, 150000000, 1000, ?_⟩), unhanded_of (.inl ?_),
    unhanded_of (.inr ⟨.adm, 150000000, 1000, ?_⟩)⟩
  all_goals first | decide +kernel | unfold admQualifies centred; decide +kernel

/-- R123 and R126: the spaced point at exactly the gap is emitted, and one nearer is not; a pending capture is emitted. -/
theorem test_modes_emit :
    (after .takeSample (inMode (.spaced 3000 (some ⟨.block 2, ⟨-15817508, -2000000, 10250000⟩⟩)))).station.out.length = 1 ∧
      (after .takeSample (inMode (.spaced 3001 (some ⟨.block 2, ⟨-15817508, -2000000, 10250000⟩⟩)))).station.out.length = 0 ∧
      (after .takeSample (inMode (.triggered (some ⟨1, 2⟩)))).station.out =
        [.point
          { sequence := 0, timestamp := 1000000, kind := .triggered 1 2, at_ := workedPoint, flags := ⟨false, false, false⟩
            source := .adm, samples := 1 }] := by
  decide +kernel

/-- A SINGLE over 2 samples with a settle count of 2 and the given phase, anchor and window. -/
def single2 (p : SinglePhase) (anchor : Option Anchor) (window : Nat) : SingleMeasure :=
  { n := 2, tol := 25, settle := 2, phase := p, anchor := anchor, window := window, settleTotal := 2, timer := 4000 }

/-- One sample averaged at 25 µm from the worked point. -/
def oneAveraged : Averaging :=
  { count := 1, sum := ⟨-15820483, -2000000, 10250000⟩, least := ⟨-15820483, -2000000, 10250000⟩
    greatest := ⟨-15820483, -2000000, 10250000⟩, flags := ⟨false, false, false⟩ }

theorem witness_SingleMeasured :
    (usableWorked (inMode (.single (single2 .settling none 0))) ∧
        usableWorked (inMode (.single (single2 (.averaging oneAveraged) (some workedPoint) 2)))) ∧
      ((inMode (.single (single2 .settling none 0))).round.state = .idle ∧ (single2 .settling none 0).phase = .settling ∧
        nearPoint 25 ⟨-15820533, -2000000, 10250000⟩ workedPoint.pos ∧
        ¬ nearPoint 25 ⟨-15820534, -2000000, 10250000⟩ workedPoint.pos ∧
        (single2 (.averaging oneAveraged) (some workedPoint) 2).phase = .averaging oneAveraged) ∧
      ((1 : Nat) < (single2 .settling none 0).settle ∧ (single2 .settling (some workedPoint) 1).settle ≤ 1 + 1 ∧
        (averagingWith oneAveraged workedPoint.pos ⟨false, false, false⟩).count = 2 ∧
        (averagingWith { oneAveraged with count := 0 } workedPoint.pos ⟨false, false, false⟩).count < 2) ∧
      decidePresence caseState.follower dark = false := by
  refine ⟨⟨usableWorked_case _ ?_ ?_ ?_ ?_ ?_, usableWorked_case _ ?_ ?_ ?_ ?_ ?_⟩, ?_⟩
  all_goals first | unfold nearPoint; decide +kernel | decide +kernel

/-- HOLDING with one sample of grace left. -/
def lastGrace (auto : Option (Fin 8)) (u : SearchUnit) : State :=
  queue dark { inState .holding with follower := { follower .holding with grace := some 1, autoSearch := auto }, search := u }

theorem witness_GraceExpires :
    (lastGrace none SearchUnit.reset).head.rx = dark :: [] ∧ (lastGrace none SearchUnit.reset).round.state = .idle ∧
      (lastGrace none SearchUnit.reset).follower.state = .holding ∧
      (lastGrace none SearchUnit.reset).follower.followPending = false ∧
      (lastGrace none SearchUnit.reset).follower.grace = some 1 ∧
      decidePresence (lastGrace none SearchUnit.reset).follower dark = false ∧
      (lastGrace (some 0) SearchUnit.reset).search.descriptors[0].ready = false ∧
      (blockUnit 10 1 1).descriptors[2].ready = true ∧ (blockUnit 10 1 1).descriptors[2].mode = .block ∧
      (blockUnit 10 1 1).store[(blockUnit 10 1 1).descriptors[2].start]? = some ⟨1000, 0, 1⟩ ∧
      (streamUnit 0).descriptors[0].ready = true ∧ (streamUnit 0).descriptors[0].mode = .stream ∧
      (streamUnit 0).ringFill = 0 ∧ 0 < (streamUnit 1).ringFill ∧
      (streamUnit 1).store[384 + (streamUnit 1).ringRead]? = some ⟨-100, 36000, 3⟩ := by
  decide +kernel

theorem witness_DwellExpires :
    (inState .searching).follower.state = .searching ∧ (blockUnit 10 1 1).active.map (·.dwell) = some 1 ∧
      decidePresence (inState .searching).follower dark = false ∧ decidePresence (inState .searching).follower level0 = true ∧
      (inState .searching).follower.acqRun < 2 ∧ 0 < (streamUnit 1).ringFill ∧
      (blockUnit 11 1 1).active.map (·.play) = some (.block 11 1) ∧
      11 + 1 < (blockUnit 11 1 1).descriptors[2].start + (blockUnit 11 1 1).descriptors[2].length ∧
      (blockUnit 12 1 1).descriptors[2].start + (blockUnit 12 1 1).descriptors[2].length ≤ 12 + 1 ∧
      (blockUnit 12 1 1).store[12]? = some ⟨-1000, 0, 1⟩ ∧ (blockUnit 12 0 1).active.map (·.play) = some (.block 12 0) ∧
      (streamUnit 1).active.map (·.play) = some .stream ∧ (streamUnit 1).store[384 + (streamUnit 1).ringRead]? =
        some ⟨-100, 36000, 3⟩ ∧ (streamUnit 0).ringFill = 0 := by
  decide +kernel

/-- A STREAM search takes the step at ring position 127 and reads on at 0. -/
theorem test_stream_search :
    (after .takeSample (queue dark { inState .searching with search := streamUnit 1 })).search.ringRead = 0 ∧
      (after .takeSample (queue dark { inState .searching with search := streamUnit 1 })).head.tx =
        some (.steer (.position 4319950 960000)) := by
  decide +kernel

/-! ### Requests -/

theorem witness_LoadComp :
    portReady ready ∧ axisOf 2 = none ∧ axisOf 0 = some .azc ∧ axisOf 1 = some .elc ∧ low.service = false ∧
      high.service = true ∧ ((ready.correction.table .azc).load ≠ .loading) ∧
      ((after (.loadCompBegin high 1) ready).correction.table .elc).load = .loading ∧
      ([] : List Half) = [] ∧ 30 < (List.replicate 31 (0 : Half)).length ∧ 240 < (211 : Byte).toNat + (List.replicate 30 (0 : Half)).length ∧
      (210 : Byte).toNat + (List.replicate 30 (0 : Half)).length ≤ 240 ∧ ((4001 : Half).toInt > 4000) ∧
      (BitVec.ofInt 16 (-4000)).toInt = -4000 ∧
      (tableWith 0 1 2).writtenCount = 240 ∧
      ({ tableWith 0 1 2 with load := .loading } : CompTable).load = .loading ∧ (239 : Byte) ≠ 240 ∧
      (ready.correction.table .azc).writtenCount ≠ 240 := by
  refine ⟨portReady_ready.1, ?_⟩
  decide +kernel

theorem witness_ClampedSettings : portReady ready ∧ (0x80000000 : Word).toInt < 150000 ∧ (15 : Word).toInt > 14 :=
  ⟨portReady_ready.1, by decide, by decide⟩

theorem witness_SetParam :
    portReady ready ∧ 15 ≤ (15 : Byte).toNat ∧ ((2 : Word).toInt ≠ 0 ∧ (2 : Word).toInt ≠ 1) ∧
      ((300 : Nat) = (max 50 (min 4095 (300 : Word).toInt)).toNat ∧ (280 : Nat) = min ready.follower.tOff (300 - 20)) ∧
      ((580 : Nat) = min (max 20 (min 4095 (4095 : Word).toInt)).toNat (ready.follower.tOn - 20) ∧ 50 ≤ ready.follower.tOn) ∧
      (8 ≤ (8 : Word).toInt ∧ (8 : Word).toInt ≠ 255) ∧ (255 : Word).toInt = 255 ∧
      (7 : Word).toInt = ((7 : Fin 8).val : Int) := by
  refine ⟨portReady_ready.1, ?_⟩
  decide +kernel

theorem witness_Poses :
    portReady ready ∧ portReady (posed ready) ∧ 8 ≤ (8 : Byte).toNat ∧ (8 : Byte).toNat ≠ 255 ∧
      ((2 : Byte).toNat = (2 : Fin 8).val ∧ (posed ready).poses.active = some 2) ∧
      ((7 : Byte).toNat = (7 : Fin 8).val ∧ (posed ready).poses.active ≠ some 7) ∧
      poseFault (poseRot (shortPose 1100)) (poseTrans (shortPose 1100)) = some (.rowLength 1) ∧
      poseFault (poseRot (shortPose 824)) (poseTrans (shortPose 824)) = none ∧
      poseFault { casePose.rot with row1 := casePose.rot.row2, row2 := casePose.rot.row1 } zero3 = some .determinant ∧
      poseFault casePose.rot ⟨500000000, -500000000, 500000001⟩ = some (.translation 3) ∧
      index8OrNone 255 = some none ∧ (setMode (.single (singleStart 1 5 5)) ready).emitter.mode.isSingle = true ∧
      (running ready).round.state.isRunning = true ∧ ready.poses.entries[7].state = .empty ∧
      (posed ready).poses.entries[2].state = .valid ∧ ready.emitter.mode.isSingle = false ∧
      ready.round.state.isRunning = false ∧ (255 : Byte).toNat = 255 ∧
      (setMode (.spaced 5000 (some ⟨.tracker, zero3⟩)) ready).emitter.mode = .spaced 5000 (some ⟨.tracker, zero3⟩) := by
  refine ⟨portReady_ready.1, ⟨?_, ?_, ?_, ?_⟩, ?_⟩ <;> decide +kernel

theorem witness_ReadsChangeNothing :
    portReady (running ready) ∧ (0 : Byte).toNat = 0 ∧ 16 < (17 : Byte).toNat ∧ 512 < (497 : Half).toNat + (16 : Byte).toNat ∧
      (496 : Half).toNat + (16 : Byte).toNat ≤ 512 ∧ 16 ≤ (16 : Byte).toNat ∧ (15 : Byte).toNat = (15 : Fin 16).val ∧
      9 ≤ (9 : Byte).toNat ∧ (8 : Byte).toNat < 9 ∧ (sectionData 8 (ready.setService true)).isSome = true := by
  refine ⟨portReady_ready.2.2, ?_⟩
  decide +kernel

/-- A DUE round that waits for a SINGLE, with everything else ready for it. -/
def dueWithSingle : State := inRound .due (posed (setMode (.single (singleStart 4 25 5)) (based ready)))

/-- R140: DROP_DISTANCE and STOP_MEASURE end the SINGLE, and the round starts. -/
theorem test_due_round_starts_on_request :
    (after (.dropDistance low) dueWithSingle).round.state.isRunning = true ∧
      (after (.stopMeasure low) dueWithSingle).round.state.isRunning = true := by
  decide +kernel

theorem witness_DistanceRequests :
    portReady ready ∧ portReady (running ready) ∧ (running ready).round.state.isRunning = true ∧
      ready.round.state.isRunning = false ∧ (based ready).distance.state ≠ .none ∧ ready.distance.state = .none ∧
      State.reset.head.hasAdm = false ∧ ready.head.hasAdm = true ∧ ready.distance.homeDistance = 0 ∧
      0 < ({ ready.distance with homeDistance := 1 } : DistanceUnit).homeDistance ∧ ready.round.state = .idle ∧
      ready.emitter.mode.isSingle = false ∧ (based ready).distance.state = .established .adm 150000000 1000 ∧
      (setMode (.single (singleStart 1 5 5)) (based ready)).emitter.mode.isSingle = true ∧
      (startAdmWait .station ready).distance.state.wait = some (.adm, .station, 2000) ∧
      dueWithSingle.round.state = .due ∧ dueWithSingle.distance.state = .established .adm 150000000 1000 ∧
      dueWithSingle.emitter.mode.isSingle = true ∧ dueWithSingle.follower.state ≠ .aiming ∧
      dueWithSingle.search.active = none ∧ roundCondition dueWithSingle = none ∧
      roundCondition { dueWithSingle with poses := PoseTable.reset } = some .noPose ∧
      (running ready).round.state.isRunning = true ∧ (running ready).distance.state = .none := by
  refine ⟨portReady_ready.1, portReady_ready.2.2, ?_⟩
  decide +kernel

theorem witness_FollowerRequests :
    portReady ready ∧ portReady (full 63 (inState .following)) ∧ portReady (running ready) ∧
      (running ready).round.state.isRunning = true ∧ State.reset.head.driveState = .disabled ∧
      ready.head.driveState = .enabled ∧ (inState .aiming).follower.state = .aiming ∧
      (inState .holding).follower.state = .holding ∧ (inState .lost).follower.state = .lost ∧
      (due ready).follower.state = .parked ∧ (due ready).round.state = .due ∧ (running ready).round.state ≠ .idle ∧
      (running (inState .lost)).follower.state ≠ .parked ∧
      ((setMode (.single (singleStart 1 5 5)) (inState .following)).follower.state = .following ∧
        (setMode (.single (singleStart 1 5 5)) (inState .following)).emitter.mode.isSingle = true) ∧
      thenOf 2 = none ∧ thenOf 1 = some .hold ∧ (0xFFFFFFFF : Word).toInt < 0 ∧ (4319999 : Word).toInt = 4319999 ∧
      (BitVec.ofInt 32 (-720000)).toInt = -720000 ∧ 960000 < (960001 : Word).toInt ∧
      (based ready).distance.state = .established .adm 150000000 1000 ∧
      (startAdmWait .station (inState .lost)).distance.state.wait = some (.adm, .station, 2000) ∧
      (based (setMode (.single (singleStart 1 5 5)) (inState .holding))).emitter.mode.isSingle = true ∧
      (based (setMode (.single (singleStart 1 5 5)) (inState .holding))).distance.state = .established .adm 150000000 1000 ∧
      (due (inState .lost)).round.state = .due := by
  refine ⟨portReady_ready.1, portReady_ready.2.1, portReady_ready.2.2, ?_⟩
  decide +kernel

theorem witness_StoreRequests :
    portReady ready ∧ 16 < (List.replicate 17 (⟨0, 0, 1⟩ : StepField)).length ∧
      384 < (383 : Half).toNat + (List.replicate 2 (⟨0, 0, 1⟩ : StepField)).length ∧
      [(⟨0, 0, 17⟩ : StepField)].all stepInRange = false ∧ [(⟨36000, 0, 16⟩ : StepField)].all stepInRange = true ∧
      (383 : Half).toNat + [(⟨36000, 0, 16⟩ : StepField)].length ≤ 384 ∧ (blockUnit 10 1 1).covers 12 1 = true ∧
      (blockUnit 10 1 1).covers 13 1 = false ∧ (blockUnit 10 1 1).plays 2 = true ∧ ready.search.plays 2 = false ∧
      2 ≤ (2 : Byte).toNat ∧ 7 < (8 : Byte).toNat ∧ (383 : Half).toNat + (1 : Half).toNat ≤ 384 ∧ (1 : Byte).toNat < 2 ∧
      (streamUnit 128).ringFill ≤ 128 ∧ (0 : Nat) = min 1 (128 - (streamUnit 128).ringFill) ∧
      (2 : Nat) = min 3 (128 - (streamUnit 126).ringFill) := by
  refine ⟨portReady_ready.1, ?_⟩
  decide +kernel

theorem witness_ResetStream :
    portReady ready ∧ (streamUnit 1).active.map (·.play) = some .stream ∧
      (blockUnit 10 1 1).active.map (·.play) = some (.block 10 1) ∧ ready.search.active = none := by
  refine ⟨portReady_ready.1, ?_⟩
  decide +kernel

/-- A DUE round beside a descriptor of a STREAM search with an empty ring. -/
def starvingDue (m : EmissionMode) : State :=
  inRound .due (posed (setMode m { ready with search := { streamUnit 0 with active := none } }))

theorem witness_StartSearchRequest :
    portReady ready ∧ portReady (running ready) ∧ (running ready).round.state.isRunning = true ∧
      State.reset.head.driveState = .disabled ∧
      ((inState .holding).follower.state ≠ .parked ∧ (inState .holding).follower.state ≠ .lost) ∧
      ready.search.descriptors[7].ready = false ∧ ready.follower.state = .parked ∧
      (blockUnit 10 1 1).descriptors[2].ready = true ∧ (blockUnit 10 1 1).descriptors[2].mode = .block ∧
      (blockUnit 10 1 1).store[(blockUnit 10 1 1).descriptors[2].start]? = some ⟨1000, 0, 1⟩ ∧
      (streamUnit 0).descriptors[0].ready = true ∧ (streamUnit 0).descriptors[0].mode = .stream ∧
      (streamUnit 0).ringFill = 0 ∧ 0 < (streamUnit 1).ringFill ∧
      (streamUnit 1).store[384 + (streamUnit 1).ringRead]? = some ⟨-100, 36000, 3⟩ ∧
      (starvingDue .idle).round.state = .due ∧ (starvingDue .idle).follower.state = .parked ∧
      (starvingDue .idle).emitter.mode = .idle ∧ (starvingDue (.stream 1 0)).emitter.mode ≠ .idle ∧
      roundCondition (starvingDue .idle) = none ∧
      roundCondition { starvingDue .idle with poses := PoseTable.reset } = some .noPose := by
  refine ⟨portReady_ready.1, portReady_ready.2.2, ?_⟩
  decide +kernel

/-- R140: the search that starves at once is examined for the DUE round, which starts. -/
theorem test_starved_start_examines :
    (after (.startSearch low 0) (starvingDue .idle)).round.state.isRunning = true ∧
      (after (.startSearch low 0) (starvingDue (.stream 1 0))).round.state = .due := by
  decide +kernel

/-- START_SEARCH on an empty ring starts and ends STARVED at once, and on a waiting step takes it (R99, R100). -/
theorem test_start_search :
    (after (.startSearch low 0) { inState .lost with search := { streamUnit 0 with active := none } }).station.out =
        [.reply
          { tag := 301, code := 0x15, result := .ok, data := [⟨1, 0⟩, ⟨4, 4319990⟩, ⟨4, 955000⟩, ⟨1, 0⟩] }] ∧
      (after (.startSearch low 0) { inState .lost with search := { streamUnit 1 with active := none } }).head.tx =
        some (.steer (.position 4319890 960000)) := by
  decide +kernel

theorem witness_MeasureRequests :
    portReady ready ∧ portReady (running ready) ∧ 5 ≤ (5 : Byte).toNat ∧ (running ready).round.state.isRunning = true ∧
      (setMode (.single (singleStart 1 5 5)) ready).emitter.mode.isSingle = true ∧ ready.round.state.isRunning = false ∧
      ready.emitter.mode.isSingle = false ∧
      ((16 : Int) = (if (6 : Byte).getLsbD 0 then max 1 (min 64 (0 : Word).toInt) else 16) ∧
        (5 : Int) = (if (6 : Byte).getLsbD 1 then max 5 (min 2000 (1 : Word).toInt) else 25) ∧
        (100 : Int) = (if (6 : Byte).getLsbD 2 then max 5 (min 100 (101 : Word).toInt) else 20)) ∧
      (10 : Int) = (if (0 : Byte).getLsbD 0 then max 1 (min 1000 (0 : Word).toInt) else 10) ∧
      (100 : Int) = (if (1 : Byte).getLsbD 0 then max 100 (min 1000000 (0 : Word).toInt) else 5000) ∧
      ready.round.state ≠ .due ∧ dueWithSingle.round.state = .due ∧ dueWithSingle.follower.state ≠ .aiming ∧
      dueWithSingle.search.active = none ∧ roundCondition dueWithSingle = none ∧ ready.emitter.latest = none ∧
      (after .takeSample (queue worked caseState)).emitter.latest.isSome = true := by
  refine ⟨portReady_ready.1, portReady_ready.2.2, ?_⟩
  decide +kernel

/-- Fields at the limits of R132. -/
def edgeField : FiducialField :=
  ⟨2, 1000000000, BitVec.ofInt 32 (-1000000000), 0, 4319999, BitVec.ofInt 32 (-720000), 10000, 1, 7⟩

theorem witness_FiducialRequests :
    portReady ready ∧ portReady (running ready) ∧ 16 ≤ (16 : Byte).toNat ∧ (15 : Byte).toNat = (15 : Fin 16).val ∧
      (running ready).round.state.isRunning = true ∧ ready.round.state.isRunning = false ∧ 3 ≤ (3 : Byte).toNat ∧
      10000 < (10001 : Half).toNat ∧ fiducialStateOf edgeField.state = some .disabled ∧
      checkModeOf edgeField.checkMode = some .presence ∧ index8OrNone edgeField.descriptor = some (some 7) ∧
      edgeField.nomX.toInt = 1000000000 ∧ edgeField.nomY.toInt = -1000000000 ∧ edgeField.nomZ.toInt = 0 ∧
      edgeField.aimAz.toInt = 4319999 ∧ edgeField.aimEl.toInt = -720000 ∧ edgeField.tolerance.toNat = 10000 ∧
      ready.round.table[15].state = .unused ∧ (inRound .idle ready).round.table[9].state ≠ .unused := by
  refine ⟨portReady_ready.1, portReady_ready.2.2, ?_⟩
  decide +kernel

theorem witness_RoundRequests :
    portReady ready ∧ portReady (running ready) ∧ (running ready).round.state.isRunning = true ∧ ready.poses.active = none ∧
      (posed ready).poses.active ≠ none ∧ State.reset.head.hasAdm = false ∧ ready.round.enabledSlots = [] ∧
      (inRound .idle (posed ready)).round.enabledSlots = 1 :: [4, 9] ∧ State.reset.head.driveState = .disabled ∧
      (inState .aiming).follower.state = .aiming ∧ ready.emitter.mode = .idle ∧ ready.search.active = none ∧
      ready.follower.state ≠ .aiming ∧ caseState.emitter.mode ≠ .idle ∧ ready.round.state = .idle ∧
      (due ready).round.state = .due := by
  refine ⟨portReady_ready.1, portReady_ready.2.2, ?_⟩
  decide +kernel

theorem witness_AckAndTest :
    portReady ready ∧ 25 ≤ (25 : Byte).toNat ∧ (1 : Byte).toNat = Source.headSilent.number ∧
      (24 : Byte).toNat = Source.roundDue.number ∧ (16 : Byte).toNat = Source.queueCongested.number ∧
      Source.headSilent.isLevel = true ∧ Source.triggerLost.isLevel = false ∧ (23 : Byte).toNat = Source.triggerLost.number ∧
      low.service = false ∧ high.service = true := by
  refine ⟨portReady_ready.1, ?_⟩
  decide +kernel

theorem witness_RequestFrameRoundTrip :
    requestFits (.loadCompData 0 0 (List.replicate 117 0)) = true ∧
      requestFits (.writeSteps 0 (List.replicate 26 ⟨0, 0, 1⟩)) = true := by
  decide +kernel

theorem witness_FramesReceived :
    ((List.replicate 238 (0 : Byte)).length ≤ 238 ∧ (List.replicate 240 (0 : Byte)).length ≤ 240) ∧
      (0xA38F : Half) ≠ crc16 ([0x30, 0x01, 0x03] ++ [0x0C, 0x01, 0x2D]) ∧ 240 < (241 : Byte).toNat ∧
      (4 : Byte).toNat ≠ [(0x0C : Byte), 0x01, 0x2D].length ∧ ((0x03 : Byte) ≠ 0x01 ∧ (0x03 : Byte) ≠ 0x02) ∧
      ((0x31 : Byte) ≠ 0x30) ∧ [(0x0C : Byte), 0x01].length < 3 ∧ ((0x20 : Byte) ≠ 0x10 ∧ (0x20 : Byte) ≠ 0x11) ∧
      ((List.replicate 26 (0 : Byte)).length ≠ 25 ∧ (List.replicate 26 (0 : Byte)).length ≠ 30) ∧ [(0 : Byte)].length < 2 := by
  decide +kernel

/-- R182: an index, a yes/no and an enumerated field take one byte, also among the parameters of READ_STATUS. -/
theorem test_one_byte_fields :
    (followerData ready).getLast? = some ⟨1, 0⟩ ∧ (distanceData ready.distance).getLast? = some ⟨1, 1⟩ ∧
      (emissionData ready.emitter).getLast? = some ⟨1, 0⟩ := by
  decide +kernel

end Sys2Proof.Tests
end

