-- ==== Sys2Proof/Proofs/Correction.lean ====
section
/-! The correction unit (chapter 1): the interpolation of a table and the loading of the tables. -/

namespace Sys2Proof.Machine

/-! ### Interpolation (R6) -/

/-- The rounded part `f / b` of a step `d` leads from 0 towards `d` and not beyond it. -/
theorem roundDiv_mul_between (d f b : Int) (hf : 0 ≤ f) (hfb : f < b) :
    min 0 d ≤ roundDiv (d * f) b ∧ roundDiv (d * f) b ≤ max 0 d := by
  have hb : 0 < b := by omega
  unfold roundDiv
  rcases le_total 0 d with hd | hd
  · rw [min_eq_left hd, max_eq_right hd]
    have hlo : 0 ≤ d * f := Int.mul_nonneg hd hf
    have hhi : d * f ≤ d * b := Int.mul_le_mul_of_nonneg_left hfb.le hd
    exact ⟨Int.ediv_nonneg (by omega) hb.le, Int.lt_add_one_iff.mp (Int.ediv_lt_of_lt_mul hb (by rw [Int.add_mul]; omega))⟩
  · rw [min_eq_right hd, max_eq_left hd]
    have hlo : d * b ≤ d * f := Int.mul_le_mul_of_nonpos_left hd hfb.le
    have hhi : d * f ≤ 0 := Int.mul_nonpos_of_nonpos_of_nonneg hd hf
    exact ⟨Int.le_ediv_of_mul_le hb (by omega), Int.lt_add_one_iff.mp (Int.ediv_lt_of_lt_mul hb (by omega))⟩

theorem roundDiv_zero {b : Int} (hb : 0 < b) : roundDiv 0 b = 0 := by
  rw [roundDiv, Int.zero_add]
  exact Int.ediv_eq_zero_of_lt (by omega) (by omega)

/-- R6: the interpolation between the entry of the angle and the entry that follows it, cyclically. -/
theorem CompTable.interpolate_eq (t : CompTable) {angle : Int} {i j : Fin 240} (hi : i.val = (angle / 18000).toNat)
    (hj : j.val = (i.val + 1) % 240) :
    t.interpolate angle = t.entries[i] + roundDiv ((t.entries[j] - t.entries[i]) * (angle % 18000)) 18000 := by
  simp [CompTable.interpolate, ← hi, ← hj]

/-! ### The tables of the unit -/

@[simp] theorem CorrectionUnit.table_setTable_self (c : CorrectionUnit) (a : Axis) (t : CompTable) :
    (c.setTable a t).table a = t := by cases a <;> rfl

theorem CorrectionUnit.table_setTable_other (c : CorrectionUnit) {a b : Axis} (t : CompTable) (h : b ≠ a) :
    (c.setTable a t).table b = c.table b := by
  cases a <;> cases b
  case azc.azc | elc.elc => exact absurd rfl h
  case azc.elc | elc.azc => rfl

/-- R8: UNCOMPENSATED is true when some table is not LOADED. -/
theorem CorrectionUnit.uncompensated_of_not_loaded (c : CorrectionUnit) (a : Axis) (h : (c.table a).load ≠ .loaded) :
    c.uncompensated = true := by
  cases a <;> simp_all [CorrectionUnit.uncompensated, CorrectionUnit.table]

/-- R8: a table that is LOADING corrects nothing. -/
theorem CompTable.supply_of_loading {t : CompTable} (h : t.load = .loading) (angle : Int) : t.supply angle = 0 := by
  simp [CompTable.supply, h]

@[simp] theorem CompTable.writeEntries_load (t : CompTable) (start : Nat) (l : List Half) :
    (t.writeEntries start l).load = t.load := rfl

/-- R12: an entry of the run holds the run's value, any other its own. -/
theorem CompTable.writeEntries_entry (t : CompTable) (start : Nat) (l : List Half) (i : Fin 240) :
    (t.writeEntries start l).entries[i] =
      if start ≤ i.val then ((l[i.val - start]?).map (·.toInt)).getD t.entries[i] else t.entries[i] := by
  simp [CompTable.writeEntries, writeRun_get]

/-- R12: the written-index set after a run is the set before it with the indices of the run. -/
theorem CompTable.writeEntries_written (t : CompTable) (start : Nat) (l : List Half) (i : Fin 240) :
    (t.writeEntries start l).written[i] =
      ((decide (start ≤ i.val) && decide (i.val < start + l.length)) || t.written[i]) := by
  simp only [CompTable.writeEntries, Fin.getElem_fin, writeRun_get, List.getElem?_map]
  by_cases hs : start ≤ i.val
  · rcases Nat.lt_or_ge (i.val - start) l.length with hl | hl
    · simp [hs, hl, show i.val < start + l.length by omega]
    · simp [hs, hl, show ¬ i.val < start + l.length by omega]
  · simp [hs]

/-! ### Storing a table (R8, R14) -/

@[simp] theorem storeTable_correction (a : Axis) (t : CompTable) (s : State) :
    (storeTable a t s).correction = s.correction.setTable a t := rfl

theorem keeps_storeTable_correction (a : Axis) (t : CompTable) (s : State) :
    keepsOthers [.correction, .events] s (storeTable a t s) :=
  keeps_then (keeps_mono (keeps_setCorrection s _) (by simp)) (keeps_reportLevel _ _) (by simp)

theorem sources_storeTable (a : Axis) (t : CompTable) (s : State) : keepsSources [.uncompensated] s (storeTable a t s) :=
  sources_then (sources_of_events rfl) (sources_reportLevel _ _) (by simp)

theorem storeTable_uncompensated (a : Axis) (t : CompTable) (s : State) :
    ((storeTable a t s).events.get .uncompensated).genuine = (s.correction.setTable a t).uncompensated := by
  rw [storeTable, reportLevel_get_self]
  rfl

/-! ### The checks of a load request (R10) -/

section LoadRequest

variable {table : Byte} {s : State} {act : Axis → Answer}

theorem loadRequest_of_no_service (hv : s.service = false) :
    loadRequest table s act = refuseLoad s (axisOf table) .authority := by simp [loadRequest, hv]

theorem loadRequest_of_no_table (hv : s.service = true) (ha : axisOf table = none) :
    loadRequest table s act = refuse s .range := by simp [loadRequest, hv, ha, refuseLoad, refuse]

theorem loadRequest_of_table {a : Axis} (hv : s.service = true) (ha : axisOf table = some a) :
    loadRequest table s act = act a := by simp [loadRequest, hv, ha]

/-- R10: a load request is refused, or the named table is acted on. -/
theorem loadRequest_cases {motive : Answer → Prop} (hrefuse : ∀ a r, motive (refuseLoad s a r)) (hact : ∀ a, motive (act a)) :
    motive (loadRequest table s act) := by
  unfold loadRequest
  split
  · exact hrefuse _ _
  · split
    · exact hrefuse _ _
    · exact hact _

end LoadRequest

/-- R10: a refused load request that arrives at a ready port is answered with the data of the refusal and leaves the unit as
it is. -/
theorem requestArrive_refuseLoad {q : Taking} {r : Request} {s : State} (hr : r ≠ .restart) (h : portReady s)
    {a : Option Axis} {reason : RefuseReason} (ha : taken q r s = refuseLoad (takingState q (.named q.tag r) s) a reason) :
    answers q (requestCode r) (.refused reason) (refuseLoad s a reason).data s (requestArrive q r s) ∧
      (requestArrive q r s).correction = s.correction := by
  obtain ⟨hans, hkeep, -⟩ := requestArrive_taken q r s hr h
  rw [ha] at hans hkeep
  exact ⟨hans, hkeep .correction (by simp)⟩

/-! ### LOAD_COMP_BEGIN (R11) -/

theorem beginLoad_of_table {table : Byte} {s : State} {a : Axis} (hv : s.service = true) (ha : axisOf table = some a) :
    beginLoad table s = accept (storeTable a .begun s) CompTable.begun.data := loadRequest_of_table hv ha

/-- R11: the reply's data after a begin: LOADING and an empty set. -/
theorem CompTable.begun_data : CompTable.begun.data = [⟨1, 1⟩, ⟨1, 0⟩] := by decide +kernel

/-- R11: a begin that arrives at a ready port makes the table that it names LOADING and blank, and no other change but the
report of UNCOMPENSATED. -/
theorem requestArrive_beginLoad_of_table {q : Taking} {table : Byte} {s : State} {a : Axis} (h : portReady s)
    (hv : q.service = true) (ha : axisOf table = some a) :
    acceptsWithin q 0x01 .ok CompTable.begun.data [.correction] [.uncompensated] s (requestArrive q (.loadCompBegin table) s) ∧
      (requestArrive q (.loadCompBegin table) s).correction = s.correction.setTable a .begun ∧
      ((requestArrive q (.loadCompBegin table) s).events.get .uncompensated).genuine = true := by
  have hr : Request.loadCompBegin table ≠ .restart := by simp
  have htaken : taken q (.loadCompBegin table) s = _ :=
    beginLoad_of_table (s := takingState q (.named q.tag (.loadCompBegin table)) s) hv ha
  refine ⟨requestArrive_accepts q _ s hr h _ _ _ _ (by rw [htaken]; rfl) (by rw [htaken]; rfl) ?_ ?_, ?_, ?_⟩
  · rw [htaken]
    exact keeps_mono (keeps_storeTable_correction _ _ _) (by simp)
  · rw [htaken]
    exact sources_mono (sources_storeTable _ _ _) (by simp)
  · rw [requestArrive_part q _ s hr h (p := .correction) (by simp), htaken]
    rfl
  · rw [requestArrive_source q _ s hr h (by simp), htaken]
    exact (storeTable_uncompensated _ _ _).trans (CorrectionUnit.uncompensated_of_not_loaded _ a (by simp [CompTable.begun]))

/-! ### LOAD_COMP_DATA (R12) -/

theorem loadRunValid_iff (start : Byte) (l : List Half) :
    loadRunValid start l = true ↔
      l ≠ [] ∧ l.length ≤ 30 ∧ start.toNat + l.length ≤ 240 ∧ ∀ e ∈ l, -4000 ≤ e.toInt ∧ e.toInt ≤ 4000 := by
  simp [loadRunValid, inRange_iff, Nat.one_le_iff_ne_zero, and_assoc]

theorem loadRunValid_eq_false_iff (start : Byte) (l : List Half) :
    loadRunValid start l = false ↔
      l = [] ∨ 30 < l.length ∨ 240 < start.toNat + l.length ∨ ∃ e ∈ l, e.toInt < -4000 ∨ 4000 < e.toInt := by
  rw [Bool.eq_false_iff, Ne, loadRunValid_iff]
  simp only [not_and_or, not_not, not_forall, exists_prop, not_le]

section LoadData

variable {table start : Byte} {l : List Half} {s : State} {a : Axis}

theorem loadData_of_not_loading (hv : s.service = true) (ha : axisOf table = some a)
    (hl : (s.correction.table a).load ≠ .loading) : loadData table start l s = refuseLoad s (some a) .state := by
  rw [loadData, loadRequest_of_table hv ha, if_pos hl]

theorem loadData_of_invalid (hv : s.service = true) (ha : axisOf table = some a)
    (hl : (s.correction.table a).load = .loading) (hr : loadRunValid start l = false) :
    loadData table start l s = refuseLoad s (some a) .range := by
  rw [loadData, loadRequest_of_table hv ha, if_neg (not_not_intro hl), if_pos hr]

theorem loadData_of_valid (hv : s.service = true) (ha : axisOf table = some a)
    (hl : (s.correction.table a).load = .loading) (hr : loadRunValid start l = true) :
    loadData table start l s =
      accept (s.setCorrection (s.correction.setTable a ((s.correction.table a).writeEntries start.toNat l)))
        ((s.correction.table a).writeEntries start.toNat l).data := by
  rw [loadData, loadRequest_of_table hv ha, if_neg (not_not_intro hl), if_neg (by simp [hr])]

end LoadData

/-- R12: a data request changes the correction unit at most, whatever it is answered. -/
theorem keeps_loadData (table start : Byte) (l : List Half) (s : State) :
    keepsOthers [.correction] s (loadData table start l s).state := by
  refine loadRequest_cases (motive := fun x => keepsOthers [.correction] s x.state) (fun _ _ => keeps_refl _ s) fun a => ?_
  split
  · exact keeps_refl _ s
  · split
    · exact keeps_refl _ s
    · exact keeps_setCorrection s _

/-- R12: a valid run that arrives at a ready port is written into the LOADING table that it names. -/
theorem requestArrive_loadData_of_valid {q : Taking} {table start : Byte} {l : List Half} {s : State} {a : Axis}
    (h : portReady s) (hv : q.service = true) (ha : axisOf table = some a) (hl : (s.correction.table a).load = .loading)
    (hr : loadRunValid start l = true) :
    answers q 0x02 .ok ((s.correction.table a).writeEntries start.toNat l).data s
        (requestArrive q (.loadCompData table start l) s) ∧
      (requestArrive q (.loadCompData table start l) s).correction =
        s.correction.setTable a ((s.correction.table a).writeEntries start.toNat l) := by
  have htaken : taken q (.loadCompData table start l) s = _ :=
    loadData_of_valid (s := takingState q (.named q.tag (.loadCompData table start l)) s) hv ha hl hr
  obtain ⟨hans, hkeep, -⟩ := requestArrive_taken q (.loadCompData table start l) s (by simp) h
  rw [htaken] at hans hkeep
  exact ⟨hans, hkeep .correction (by simp)⟩

end Sys2Proof.Machine

/-! ### The statements -/

namespace Sys2Proof.Proofs

open Sys2Proof Sys2Proof.Machine

/-- Settles O32: the rounded part of the step between the two entries leads from the first towards the second and not beyond. -/
theorem interpolationLiesBetween : Obligations.InterpolationLiesBetween := by
  intro t angle h0 h1
  obtain ⟨i, hi⟩ : ∃ i : Fin 240, i.val = (angle / 18000).toNat :=
    ⟨⟨(angle / 18000).toNat, by omega⟩, rfl⟩
  obtain ⟨j, hj⟩ : ∃ j : Fin 240, j.val = (i.val + 1) % 240 := ⟨⟨(i.val + 1) % 240, by omega⟩, rfl⟩
  have hc : t.interpolate angle = t.entries[i] + roundDiv ((t.entries[j] - t.entries[i]) * (angle % 18000)) 18000 :=
    t.interpolate_eq hi hj
  obtain ⟨hlo, hhi⟩ := roundDiv_mul_between (t.entries[j] - t.entries[i]) (angle % 18000) 18000 (by omega) (by omega)
  have hmin : min t.entries[i] t.entries[j] ≤ t.interpolate angle := by omega
  have hmax : t.interpolate angle ≤ max t.entries[i] t.entries[j] := by omega
  refine ⟨i, j, hi, hj, hc, hmin, hmax, fun hk => ?_, fun hf => ?_⟩
  · obtain ⟨hi1, hi2⟩ := hk i
    obtain ⟨hj1, hj2⟩ := hk j
    have hprod : |(t.entries[j] - t.entries[i]) * (angle % 18000)| ≤ 8000 * 17999 := by
      rw [abs_mul]
      exact mul_le_mul (abs_le.mpr ⟨by omega, by omega⟩) (abs_le.mpr ⟨by omega, by omega⟩) (abs_nonneg _) (by decide)
    exact ⟨by omega, by omega, (abs_le.mp hprod).1, (abs_le.mp hprod).2⟩
  · rw [hc, hf, Int.mul_zero, roundDiv_zero (by decide), Int.add_zero]

/-- Settles O39, by R10's checks in their order. -/
theorem loadCompBegin : Obligations.LoadCompBegin := by
  intro q table s h
  have hr : Request.loadCompBegin table ≠ .restart := by simp
  refine ⟨_, rfl, fun hv => ?_, fun hv ha => ?_, fun a hv ha => ?_⟩
  · exact ⟨_, requestArrive_refuseLoad hr h (loadRequest_of_no_service hv)⟩
  · exact requestArrive_refuses q _ s hr h .range (loadRequest_of_no_table hv ha)
  · obtain ⟨hacc, hcorr, hgenuine⟩ := requestArrive_beginLoad_of_table h hv ha
    have hload : ((requestArrive q (.loadCompBegin table) s).correction.table a).load = .loading := by
      rw [hcorr, CorrectionUnit.table_setTable_self]
      rfl
    exact ⟨CompTable.begun_data ▸ hacc, hcorr, hgenuine, CompTable.supply_of_loading hload⟩

/-- Settles O40, by R10's and R12's checks in their order. -/
theorem loadCompData : Obligations.LoadCompData := by
  intro q table start l s a h ha
  have hr : Request.loadCompData table start l ≠ .restart := by simp
  obtain ⟨-, hkeep, hsrc⟩ := requestArrive_accepts q _ s hr h _ _ [.correction] [] rfl rfl
    (keeps_mono (keeps_loadData table start l _) (by simp))
    (sources_of_events (keeps_loadData table start l _ .events (by simp)))
  refine ⟨_, rfl, hkeep, hsrc, fun hv => ?_, fun hv hl => ?_, fun hv hl hbad => ?_, fun hv hl h1 h2 h3 h4 => ?_⟩
  · exact requestArrive_refuseLoad hr h (ha ▸ loadRequest_of_no_service hv)
  · exact requestArrive_refuseLoad hr h (loadData_of_not_loading hv ha hl)
  · exact requestArrive_refuseLoad hr h (loadData_of_invalid hv ha hl ((loadRunValid_eq_false_iff start l).mpr hbad))
  · obtain ⟨hans, hcorr⟩ :=
      requestArrive_loadData_of_valid h hv ha hl ((loadRunValid_iff start l).mpr ⟨h1, h2, h3, h4⟩)
    rw [hcorr, CorrectionUnit.table_setTable_self]
    exact ⟨hans, hl, CompTable.supply_of_loading hl, fun b hb => CorrectionUnit.table_setTable_other _ _ hb,
      fun i => ⟨CompTable.writeEntries_entry _ _ _ i, CompTable.writeEntries_written _ _ _ i⟩⟩

end Sys2Proof.Proofs
end

