-- ==== Sys2Proof/Proofs/Distance.lean ====
section
/-! The distance unit (chapter 3): the requests that start and end a base or a wait. -/

namespace Sys2Proof.Machine

/-! ### Requests that start a wait (R44, R49) -/

section Establish

variable {s : State}

theorem establishAdm_of_running (hr : s.round.state.isRunning = true) : establishAdm s = refuse s .busy := by
  rw [establishAdm, if_pos hr]

theorem establishAdm_of_distance (hr : s.round.state.isRunning = false) (hd : s.distance.state ≠ .none) :
    establishAdm s = refuse s .state := by
  rw [establishAdm, if_neg (by simp [hr]), if_pos hd]

theorem establishAdm_of_no_adm (hr : s.round.state.isRunning = false) (hd : s.distance.state = .none)
    (ha : s.head.hasAdm = false) : establishAdm s = refuse s .noAdm := by
  rw [establishAdm, if_neg (by simp [hr]), if_neg (not_not_intro hd), if_pos ha]

theorem establishAdm_of_free (hr : s.round.state.isRunning = false) (hd : s.distance.state = .none)
    (ha : s.head.hasAdm = true) :
    establishAdm s = accept (s.setDistance { s.distance with state := .awaitAdm .station 2000 }) [] := by
  rw [establishAdm, if_neg (by simp [hr]), if_neg (not_not_intro hd), if_neg (by simp [ha]), startAdmWait]

theorem establishHome_of_running (hr : s.round.state.isRunning = true) : establishHome s = refuse s .busy := by
  rw [establishHome, if_pos hr]

theorem establishHome_of_state (hr : s.round.state.isRunning = false)
    (hd : s.distance.state ≠ .none ∨ s.distance.homeDistance = 0) : establishHome s = refuse s .state := by
  rw [establishHome, if_neg (by simp [hr])]
  split
  · rfl
  · next hn => rw [if_pos (hd.resolve_left hn)]

theorem establishHome_of_free (hr : s.round.state.isRunning = false) (hd : s.distance.state = .none)
    (hh : 0 < s.distance.homeDistance) :
    establishHome s =
      accept (s.setDistance { s.distance with state := .awaitHome .station s.distance.homeDistance 2000 }) [] := by
  rw [establishHome, if_neg (by simp [hr]), if_neg (not_not_intro hd), if_neg (by omega)]

end Establish

/-- R173: a request that only replaces the distance unit and carries no data, arriving at a ready port. -/
theorem requestArrive_setDistance {q : Taking} {r : Request} {s : State} {u : DistanceUnit} (hr : r ≠ .restart)
    (h : portReady s) (ht : taken q r s = accept ((takingState q (.named q.tag r) s).setDistance u) []) :
    acceptsWithin q (requestCode r) .ok [] [.distance] [] s (requestArrive q r s) ∧
      (requestArrive q r s).distance = u := by
  refine ⟨requestArrive_accepts q r s hr h _ _ _ _ (by rw [ht]; rfl) (by rw [ht]; rfl) ?_ ?_, ?_⟩
  · rw [ht]
    exact keeps_mono (keeps_setDistance _ _) (by simp)
  · rw [ht]
    exact sources_of_events rfl
  · rw [requestArrive_part q r s hr h (p := .distance) (by simp), ht]
    rfl

/-! ### The examination of a DUE round where no distance is left (R140) -/

/-- Whether a start is possible does not depend on the distance, the emitter or the events. -/
theorem roundCondition_of_keeps {s t : State} (h : keepsOthers [.distance, .emitter, .events] s t) :
    roundCondition t = roundCondition s := by
  have hposes : t.poses = s.poses := h .poses (by simp)
  have hhead : t.head = s.head := h .head (by simp)
  have hround : t.round = s.round := h .round (by simp)
  simp [roundCondition, hposes, hhead, hround]

/-- With no distance to release, an examination leaves the distance unit as it is, and reports no loss. -/
theorem examineDue_of_no_distance {s : State} (h : s.distance.state = .none) :
    (examineDue s).distance = s.distance ∧
      keepsSources [.roundDue, .roundAborted, .patternLow, .beamAbsent] s (examineDue s) := by
  by_cases hd : s.round.state = .due
  · cases hb : roundBusy s with
    | true => rw [examineDue_of_busy s hb]; exact ⟨rfl, sources_refl _ s⟩
    | false =>
      cases hc : roundCondition s with
      | some x =>
        rw [(examineDue_of_free hd hb).1 x hc]
        exact ⟨by simp, sources_mono (sources_abandonRound s _) (by simp)⟩
      | none =>
        rw [(examineDue_of_free hd hb).2 hc]
        obtain ⟨-, -, hdist, -, -, hsrc⟩ := startRoundNow_leaves hc
        rw [releaseDistance_of_none s h] at hdist
        exact ⟨hdist, sources_mono hsrc (by simp)⟩
  · rw [examineDue_of_not_due s hd]
    exact ⟨rfl, sources_refl _ s⟩

/-! ### The base dropped by DROP_DISTANCE (R57, R120) -/

/-- What DROP_DISTANCE leaves of a held base: none, and no SINGLE that it served. -/
def droppedBase (s : State) : State := abortSingle (s.setDistance { s.distance with state := .none })

section DroppedBase

variable (s : State)

theorem keeps_droppedBase : keepsOthers [.distance, .emitter, .events] s (droppedBase s) :=
  keeps_then (keeps_mono (keeps_setDistance s _) (by simp)) (keeps_abortSingle _) (by simp)

theorem sources_droppedBase : keepsSources [.measureAborted] s (droppedBase s) :=
  sources_trans (sources_of_events rfl) (sources_abortSingle _)

@[simp] theorem droppedBase_distance : (droppedBase s).distance = { s.distance with state := .none } := by
  simp [droppedBase]

@[simp] theorem droppedBase_round : (droppedBase s).round = s.round := keeps_droppedBase s .round (by simp)

theorem droppedBase_of_not_single (h : s.emitter.mode.isSingle = false) :
    droppedBase s = s.setDistance { s.distance with state := .none } := abortSingle_of_not _ h

theorem droppedBase_of_single (h : s.emitter.mode.isSingle = true) :
    (droppedBase s).emitter = { s.emitter with mode := .idle } ∧
      (droppedBase s).events.get .measureAborted = (s.events.get .measureAborted).occurred s.localTime := by
  have haborted : droppedBase s = occur .measureAborted (setMode .idle (s.setDistance { s.distance with state := .none })) :=
    abortSingle_of_single _ h
  rw [haborted, occur_get_self]
  exact ⟨by simp, rfl⟩

/-- R138 check 6: once a base is dropped, the emitter is busy in a mode other than IDLE and SINGLE only. -/
theorem roundBusy_droppedBase :
    roundBusy (droppedBase s) = true ↔
      (s.emitter.mode ≠ .idle ∧ s.emitter.mode.isSingle = false) ∨ s.follower.state = .aiming ∨
        s.search.active ≠ none := by
  have hfollower : (droppedBase s).follower = s.follower := keeps_droppedBase s .follower (by simp)
  have hsearch : (droppedBase s).search = s.search := keeps_droppedBase s .search (by simp)
  have hmode : (droppedBase s).emitter.mode ≠ .idle ↔ s.emitter.mode ≠ .idle ∧ s.emitter.mode.isSingle = false := by
    cases hm : s.emitter.mode.isSingle with
    | true => simp [(droppedBase_of_single s hm).1]
    | false => simp [droppedBase_of_not_single s hm]
  simp only [roundBusy, hfollower, hsearch, Bool.or_eq_true, decide_eq_true_eq, hmode, Option.isSome_iff_ne_none]
  tauto

end DroppedBase

/-! ### DROP_DISTANCE (R57) -/

/-- The distance state holds nothing, a wait, or a base. -/
theorem DistanceState.none_or_wait_or_base (d : DistanceState) :
    d = .none ∨ (∃ k o m, d.wait = some (k, o, m)) ∨ ∃ src b c, d = .established src b c := by
  cases d with
  | none => exact .inl rfl
  | awaitAdm o m => exact .inr (.inl ⟨_, _, _, rfl⟩)
  | awaitHome o c m => exact .inr (.inl ⟨_, _, _, rfl⟩)
  | established src b c => exact .inr (.inr ⟨_, _, _, rfl⟩)

section DropFor

variable {s : State}

/-- R57 and R140: a held base is dropped, and a DUE round is then examined. -/
theorem dropFor_of_base {d b c} (h : s.distance.state = .established d b c) :
    dropFor s = examineDue (droppedBase s) := by
  have hbroken : abortIfBroken s (releaseDistance s) = abortSingle (releaseDistance s) :=
    abortIfBroken_of_broken _ s (.inl (by simp [h, DistanceState.isEstablished]))
  rw [dropFor, hbroken, h, releaseDistance_of_established s h]
  rfl

/-- R57: a wait that is not the round unit's ends with its cancelling. -/
theorem dropFor_of_foreign_wait {k o m} (h : s.distance.state.wait = some (k, o, m))
    (hown : ∀ m, s.distance.state ≠ .awaitAdm .round m) : dropFor s = releaseDistance s := by
  have hwhole : abortIfBroken s (releaseDistance s) = releaseDistance s := by
    refine abortIfBroken_of_same _ s (fun he => ?_) (by simp)
    cases hs : s.distance.state <;> simp_all [DistanceState.wait, DistanceState.isEstablished]
  rw [dropFor, hwhole]
  cases hs : s.distance.state with
  | none => simp [hs, DistanceState.wait] at h
  | established a b c => simp [hs, DistanceState.wait] at h
  | awaitAdm o m =>
    cases o with
    | round => exact absurd hs (hown m)
    | station | follower => rfl
  | awaitHome o c m => rfl

/-- R57: a dropped base leaves the rest of the distance unit and reports no loss. -/
theorem dropFor_base_leaves {d b c} (h : s.distance.state = .established d b c) :
    (dropFor s).distance = { s.distance with state := .none } ∧
      (dropFor s).events.get .distanceLost = s.events.get .distanceLost := by
  obtain ⟨hdist, -, hsrc⟩ := examineDue_of_no_distance (s := droppedBase s) (by simp)
  rw [dropFor_of_base h]
  exact ⟨hdist.trans (droppedBase_distance s),
    (hsrc .distanceLost (by simp)).trans ((sources_droppedBase s).2 .distanceLost (by simp))⟩

/-- R57 and R120: the SINGLE that a dropped base served is aborted, also where a DUE round is examined then. -/
theorem dropFor_base_aborts_single {d b c} (h : s.distance.state = .established d b c)
    (hm : s.emitter.mode.isSingle = true) :
    (dropFor s).emitter = { s.emitter with mode := .idle } ∧
      (dropFor s).events.get .measureAborted = (s.events.get .measureAborted).occurred s.localTime := by
  obtain ⟨hemitter, hevent⟩ := droppedBase_of_single s hm
  obtain ⟨-, -, hsrc⟩ := examineDue_of_no_distance (s := droppedBase s) (by simp)
  rw [dropFor_of_base h]
  exact ⟨(by simp : (examineDue (droppedBase s)).emitter = _).trans hemitter,
    (hsrc .measureAborted (by simp)).trans hevent⟩

/-- R57: outside a RUNNING round no distance is left and no loss is reported. -/
theorem dropFor_loses_nothing (hr : s.round.state.isRunning = false) :
    (dropFor s).distance.state = .none ∧ (dropFor s).distance.lastLoss = s.distance.lastLoss ∧
      (dropFor s).events.get .distanceLost = s.events.get .distanceLost := by
  rcases s.distance.state.none_or_wait_or_base with hn | ⟨k, o, m, hw⟩ | ⟨d, b, c, he⟩
  · rw [dropFor_of_none s hn]
    exact ⟨hn, rfl, rfl⟩
  · rw [dropFor_of_wait s hw hr]
    exact ⟨rfl, rfl, rfl⟩
  · obtain ⟨hdist, hevent⟩ := dropFor_base_leaves he
    exact ⟨by rw [hdist], by rw [hdist], hevent⟩

/-- R57: with no round and no SINGLE, only the distance unit changes. -/
theorem keeps_dropFor (hr : s.round.state = .idle) (hm : s.emitter.mode.isSingle = false) :
    keepsOthers [.distance] s (dropFor s) := by
  rcases s.distance.state.none_or_wait_or_base with hn | ⟨k, o, m, hw⟩ | ⟨d, b, c, he⟩
  · rw [dropFor_of_none s hn]
    exact keeps_refl _ s
  · rw [dropFor_of_wait s hw (by rw [hr]; rfl)]
    exact keeps_setDistance s _
  · rw [dropFor_of_established s he (by simp [hr]), abortSingle_of_not _ (by simpa using hm)]
    exact keeps_setDistance s _

/-- R140: where no base is dropped, a DUE round goes on waiting. -/
theorem dropFor_round_of_no_base (hr : s.round.state = .due) (hn : ∀ d b c, s.distance.state ≠ .established d b c) :
    (dropFor s).round = s.round := by
  rcases s.distance.state.none_or_wait_or_base with hd | ⟨k, o, m, hw⟩ | ⟨d, b, c, he⟩
  · rw [dropFor_of_none s hd]
  · rw [dropFor_of_wait s hw (by rw [hr]; rfl)]
    rfl
  · exact absurd he (hn d b c)

/-- R152: a base or a wait that is not the round unit's is dropped under a RUNNING round, which goes on. -/
theorem dropFor_of_running (hr : s.round.state.isRunning = true) (hown : ∀ m, s.distance.state ≠ .awaitAdm .round m) :
    (dropFor s).distance.state = .none ∧ (dropFor s).round = s.round := by
  rcases s.distance.state.none_or_wait_or_base with hn | ⟨k, o, m, hw⟩ | ⟨d, b, c, he⟩
  · rw [dropFor_of_none s hn]
    exact ⟨hn, rfl⟩
  · rw [dropFor_of_foreign_wait hw hown]
    simp
  · have hdue : (droppedBase s).round.state ≠ .due := by
      rw [droppedBase_round]
      intro hd
      simp [hd, RoundState.isRunning] at hr
    rw [dropFor_of_base he, examineDue_of_not_due _ hdue]
    simp

/-- R140: a DUE round goes on waiting while something other than the dropped base's SINGLE is busy. -/
theorem dropFor_round_of_busy {d b c} (he : s.distance.state = .established d b c)
    (hb : (s.emitter.mode ≠ .idle ∧ s.emitter.mode.isSingle = false) ∨ s.follower.state = .aiming ∨
      s.search.active ≠ none) :
    (dropFor s).round = s.round := by
  rw [dropFor_of_base he, examineDue_of_busy _ ((roundBusy_droppedBase s).mpr hb), droppedBase_round]

/-- R140: the end of the base's SINGLE lets the DUE round be abandoned or start. -/
theorem dropFor_due_examined {d b c} (hr : s.round.state = .due) (he : s.distance.state = .established d b c)
    (hm : s.emitter.mode = .idle ∨ s.emitter.mode.isSingle = true) (hf : s.follower.state ≠ .aiming)
    (ha : s.search.active = none) :
    (∀ x, roundCondition s = some x →
      (dropFor s).round = { s.round with state := .idle, summary := .aborted x.abortReason } ∧
        (dropFor s).events.get .roundAborted = (s.events.get .roundAborted).occurred s.localTime) ∧
      (roundCondition s = none → (dropFor s).round.state.isRunning = true ∧ (dropFor s).follower.state = .aiming) := by
  have hdue : (droppedBase s).round.state = .due := by rw [droppedBase_round, hr]
  have hfree : roundBusy (droppedBase s) = false := by
    rw [Bool.eq_false_iff, Ne, roundBusy_droppedBase]
    rcases hm with hm | hm <;> simp [hm, hf, ha]
  have hcond : roundCondition (droppedBase s) = roundCondition s := roundCondition_of_keeps (keeps_droppedBase s)
  obtain ⟨habandon, hstart⟩ := examineDue_of_free hdue hfree
  rw [dropFor_of_base he]
  refine ⟨fun x hx => ?_, fun hn => ?_⟩
  · have htime : (droppedBase s).localTime = s.localTime := keeps_droppedBase s .localTime (by simp)
    rw [habandon x (hcond.trans hx), abandonRound_round, abandonRound_event, droppedBase_round, htime,
      (sources_droppedBase s).2 .roundAborted (by simp)]
    exact ⟨rfl, rfl⟩
  · obtain ⟨hrunning, haiming, -⟩ := startRoundNow_leaves (hcond.trans hn)
    rw [hstart (hcond.trans hn)]
    exact ⟨hrunning, haiming⟩

end DropFor

end Sys2Proof.Machine

/-! ### The statements -/

namespace Sys2Proof.Proofs

open Sys2Proof Sys2Proof.Machine

/-- R44: ESTABLISH_ADM at a ready port, by its checks in their order. -/
theorem establishAdm_arrives (q : Taking) (s : State) (h : portReady s) :
    ∃ t, exec (.establishAdm q) s = .next t ∧
      (s.round.state.isRunning = true → refuses q 0x09 .busy s t) ∧
      (s.round.state.isRunning = false → s.distance.state ≠ .none → refuses q 0x09 .state s t) ∧
      (s.round.state.isRunning = false → s.distance.state = .none → s.head.hasAdm = false → refuses q 0x09 .noAdm s t) ∧
      (s.round.state.isRunning = false → s.distance.state = .none → s.head.hasAdm = true →
        acceptsWithin q 0x09 .ok [] [.distance] [] s t ∧
        t.distance = { s.distance with state := .awaitAdm .station 2000 }) := by
  have hreq : Request.establishAdm ≠ .restart := by simp
  refine ⟨_, rfl, fun hr => ?_, fun hr hd => ?_, fun hr hd ha => ?_, fun hr hd ha => ?_⟩
  · exact requestArrive_refuses q _ s hreq h _ (establishAdm_of_running hr)
  · exact requestArrive_refuses q _ s hreq h _ (establishAdm_of_distance hr hd)
  · exact requestArrive_refuses q _ s hreq h _ (establishAdm_of_no_adm hr hd ha)
  · exact requestArrive_setDistance hreq h (establishAdm_of_free hr hd ha)

/-- R49: ESTABLISH_HOME at a ready port, by its checks in their order. -/
theorem establishHome_arrives (q : Taking) (s : State) (h : portReady s) :
    ∃ t, exec (.establishHome q) s = .next t ∧
      (s.round.state.isRunning = true → refuses q 0x0A .busy s t) ∧
      (s.round.state.isRunning = false → s.distance.state ≠ .none ∨ s.distance.homeDistance = 0 →
        refuses q 0x0A .state s t) ∧
      (s.round.state.isRunning = false → s.distance.state = .none → 0 < s.distance.homeDistance →
        acceptsWithin q 0x0A .ok [] [.distance] [] s t ∧
        t.distance = { s.distance with state := .awaitHome .station s.distance.homeDistance 2000 }) := by
  have hreq : Request.establishHome ≠ .restart := by simp
  refine ⟨_, rfl, fun hr => ?_, fun hr hd => ?_, fun hr hd hh => ?_⟩
  · exact requestArrive_refuses q _ s hreq h _ (establishHome_of_running hr)
  · exact requestArrive_refuses q _ s hreq h _ (establishHome_of_state hr hd)
  · exact requestArrive_setDistance hreq h (establishHome_of_free hr hd hh)

/-- Settles O47: the establish requests by their checks, and DROP_DISTANCE by what the distance state holds when it is taken. -/
theorem distanceRequests : Obligations.DistanceRequests := by
  refine ⟨establishAdm_arrives, establishHome_arrives, fun q s h => ⟨_, rfl, ?_⟩⟩
  have hreq : Request.dropDistance ≠ .restart := by simp
  obtain ⟨hans, hkeep, hsrc⟩ := requestArrive_taken q .dropDistance s hreq h
  -- The owning block acts on `u`, which has the fields of `s` outside the station port and the SERVICE level.
  let u : State := takingState q (.named q.tag .dropDistance) s
  have hdistance : (requestArrive q .dropDistance s).distance = _ := hkeep .distance (by simp)
  have hemitter : (requestArrive q .dropDistance s).emitter = _ := hkeep .emitter (by simp)
  have hround : (requestArrive q .dropDistance s).round = _ := hkeep .round (by simp)
  have hfollower : (requestArrive q .dropDistance s).follower = _ := hkeep .follower (by simp)
  rw [hdistance, hemitter, hround, hfollower, hsrc.2 .distanceLost (by simp), hsrc.2 .measureAborted (by simp),
    hsrc.2 .roundAborted (by simp)]
  refine ⟨hans, fun hr hm => ?_, fun hr => ?_, fun hr hn => ?_, fun d b c hr he => ⟨fun hb => ?_, fun hm hf ha => ?_⟩,
    fun hr hown => ?_⟩
  · have hkept := keeps_dropFor (s := u) hr hm
    obtain ⟨-, hparts, hsources⟩ := requestArrive_accepts q _ s hreq h _ _ [.distance] [] rfl rfl
      (keeps_mono hkept (by simp)) (sources_of_events (hkept .events (by simp)))
    exact ⟨hparts, hsources⟩
  · obtain ⟨hnone, hloss, hlost⟩ := dropFor_loses_nothing (s := u) hr
    refine ⟨hnone, hloss, hlost, fun ⟨d, b, c, he⟩ => ⟨?_, fun hm => ?_⟩, fun k o m hw => ?_, fun hn => ?_⟩
    · exact (dropFor_base_leaves (s := u) he).1
    · exact dropFor_base_aborts_single (s := u) he hm
    · exact congrArg State.distance (dropFor_of_wait u hw hr)
    · exact (congrArg State.distance (dropFor_of_none u hn) : (dropFor u).distance = u.distance)
  · exact dropFor_round_of_no_base (s := u) hr hn
  · exact dropFor_round_of_busy (s := u) he hb
  · exact dropFor_due_examined (s := u) hr he hm hf ha
  · exact dropFor_of_running (s := u) hr hown

end Sys2Proof.Proofs
end

