-- ==== Sys2Proof/Proofs/Following.lean ====
section
/-! The follower (chapter 4): the request that sets the follow-pending mark. -/

namespace Sys2Proof.Machine

/-! ### A request that changes one block -/

/-- R173: a request accepted with a change to the one block `p`, arriving at a ready port. -/
theorem requestArrive_changes_part {q : Taking} {r : Request} {s v : State} {p : Part} {data : List Datum}
    (hr : r ≠ .restart) (h : portReady s) (hp : p ∉ [Part.station, .events]) (ht : taken q r s = accept v data)
    (hkeep : keepsOthers [p] (takingState q (.named q.tag r) s) v) :
    acceptsWithin q (requestCode r) .ok data [p] [] s (requestArrive q r s) ∧ samePart p v (requestArrive q r s) := by
  have hstate : (taken q r s).state = v := congrArg Answer.state ht
  have hne : p ≠ .events := fun e => hp (by simp [e])
  have hevents : v.events = s.events := hkeep .events (by simpa using hne.symm)
  refine ⟨requestArrive_accepts q r s hr h _ _ _ _ (by rw [ht]; rfl) (by rw [ht]; rfl) ?_ ?_, ?_⟩
  · exact hstate ▸ keeps_mono hkeep (by simp)
  · exact hstate ▸ sources_of_events hevents
  · exact hstate ▸ requestArrive_part q r s hr h hp

/-! ### FOLLOW (R68) -/

/-- R68: the follower's items after an accepted FOLLOW. -/
def Follower.followed (u : Follower) : Follower :=
  match u.state with
  | .parked | .lost => { u with followPending := true }
  | .aiming => { u with followPending := true, aim := none, arrivalRun := 0 }
  | .following | .holding | .searching => u

section Followed

variable {u : Follower}

theorem Follower.followed_of_parked_or_lost (h : u.state = .parked ∨ u.state = .lost) :
    u.followed = { u with followPending := true } := by
  rcases h with h | h <;> simp only [followed, h]

theorem Follower.followed_of_aiming (h : u.state = .aiming) :
    u.followed = { u with followPending := true, aim := none, arrivalRun := 0 } := by
  simp only [followed, h]

theorem Follower.followed_eq_self (h : u.state = .following ∨ u.state = .holding ∨ u.state = .searching) :
    u.followed = u := by
  rcases h with h | h | h <;> simp only [followed, h]

end Followed

section Follow

variable {s : State}

theorem follow_of_running (hr : s.round.state.isRunning = true) : follow s = refuse s .busy := by
  rw [follow, if_pos hr]

theorem follow_of_disabled (hr : s.round.state.isRunning = false) (hd : s.head.driveState = .disabled) :
    follow s = refuse s .state := by
  rw [follow, if_neg (by simp [hr]), if_pos hd]

theorem follow_of_enabled (hr : s.round.state.isRunning = false) (hd : s.head.driveState = .enabled) :
    follow s = accept (s.setFollower s.follower.followed) [] := by
  rw [follow, if_neg (by simp [hr]), if_neg (by simp [hd])]
  cases hf : s.follower.state with
  | parked => rw [Follower.followed_of_parked_or_lost (.inl hf)]
  | lost => rw [Follower.followed_of_parked_or_lost (.inr hf)]
  | aiming => rw [Follower.followed_of_aiming hf]
  | following => rw [Follower.followed_eq_self (.inl hf)]; rfl
  | holding => rw [Follower.followed_eq_self (.inr (.inl hf))]; rfl
  | searching => rw [Follower.followed_eq_self (.inr (.inr hf))]; rfl

end Follow

end Sys2Proof.Machine

/-! ### The statement -/

namespace Sys2Proof.Proofs

open Sys2Proof Sys2Proof.Machine

/-- Settles O48: R68's two refusals in their order, and `Follower.followed` in the six states. -/
theorem followRequest : Obligations.FollowRequest := by
  intro q s h
  have hreq : Request.follow ≠ .restart := by simp
  refine ⟨_, rfl, fun hr => ?_, fun hr hd => ?_, fun hr hd => ?_⟩
  · exact requestArrive_refuses q _ s hreq h _ (follow_of_running hr)
  · exact requestArrive_refuses q _ s hreq h _ (follow_of_disabled hr hd)
  · obtain ⟨haccept, hfollower⟩ := requestArrive_changes_part (p := .follower) hreq h (by simp)
      (follow_of_enabled (s := takingState q (.named q.tag .follow) s) hr hd) (keeps_setFollower _ _)
    have hleft : (requestArrive q .follow s).follower = s.follower.followed := hfollower
    exact ⟨haccept, fun hf => hleft.trans (Follower.followed_of_parked_or_lost hf),
      fun hf => hleft.trans (Follower.followed_of_aiming hf), fun hf => hleft.trans (Follower.followed_eq_self hf)⟩

end Sys2Proof.Proofs
end

