-- ==== Sys2Proof/Proofs/Searching.lean ====
section
/-! The search unit (chapter 5): the requests that store steps and descriptors, and the reset of the ring. -/

namespace Sys2Proof.Machine

/-! ### WRITE_STEPS (R93) -/

section WriteSteps

variable {start : Half} {steps : List StepField} {s : State}

theorem writeSteps_of_invalid
    (h : steps = [] ∨ 16 < steps.length ∨ 384 < start.toNat + steps.length ∨ steps.all stepInRange = false) :
    writeSteps start steps s = refuse s .range := by
  unfold writeSteps
  split
  · rfl
  · next hrun =>
    obtain ⟨hne, hmax, hend⟩ : steps ≠ [] ∧ ¬ 16 < steps.length ∧ ¬ 384 < start.toNat + steps.length := by
      simpa only [not_or, List.length_eq_zero_iff] using hrun
    rw [if_pos (((h.resolve_left hne).resolve_left hmax).resolve_left hend)]

/-- R93: a run that passes the checks is refused BUSY while the active search plays a part of it, and stored otherwise. -/
theorem writeSteps_of_valid (h1 : 1 ≤ steps.length) (hmax : steps.length ≤ 16) (hend : start.toNat + steps.length ≤ 384)
    (hall : steps.all stepInRange = true) :
    writeSteps start steps s =
      if s.search.covers start.toNat steps.length then refuse s .busy
      else
        accept (s.setSearch { s.search with store := writeRun s.search.store start.toNat (steps.map stepOf) })
          [d2 start.toNat, d1 steps.length] := by
  rw [writeSteps, if_neg (by omega), if_neg (by simp only [hall, Bool.true_eq_false, not_false_eq_true])]

end WriteSteps

/-! ### WRITE_SEARCH (R94) -/

theorem index8_eq_some {b : Byte} {i : Fin 8} (h : b.toNat = i.val) : index8 b = some i := by
  rw [index8, dif_pos (by omega)]
  exact congrArg some (Fin.ext h)

theorem index8_eq_none {b : Byte} (h : 8 ≤ b.toNat) : index8 b = none := by
  rw [index8, dif_neg (by omega)]

theorem readyOf_of_lt {b : Byte} (h : b.toNat < 2) : readyOf b = some (decide (b = 1)) := by
  have hb : b = 0 ∨ b = 1 := by bv_omega
  rcases hb with rfl | rfl <;> rfl

theorem readyOf_of_ge {b : Byte} (h : 2 ≤ b.toNat) : readyOf b = none := by
  unfold readyOf
  split
  · omega
  · omega
  · rfl

theorem searchModeOf_of_ge {b : Byte} (h : 2 ≤ b.toNat) : searchModeOf b = none := by
  unfold searchModeOf
  split
  · omega
  · omega
  · rfl

/-- The state field of a reply repeats the code that the request gave. -/
theorem codeBool_ready {b : Byte} (h : b.toNat < 2) : codeBool (decide (b = 1)) = b.toNat := by
  have hb : b = 0 ∨ b = 1 := by bv_omega
  rcases hb with rfl | rfl <;> rfl

section WriteSearch

variable {index state mode repeats : Byte} {start length : Half} {s : State} {i : Fin 8}

/-- R94 check 3, for a BLOCK descriptor. -/
theorem descriptorOf_block (hst : state.toNat < 2) (hm : mode = 0) (h1 : 1 ≤ length.toNat) (hrep : repeats.toNat ≤ 7)
    (hend : start.toNat + length.toNat ≤ 384) :
    descriptorOf state mode start length repeats =
      some
        { ready := decide (state = 1), mode := .block, start := start.toNat, length := length.toNat
          repeats := repeats.toNat } := by
  have hmode : searchModeOf mode = some .block := by rw [hm]; rfl
  simp only [descriptorOf, readyOf_of_lt hst, hmode]
  rw [if_pos (by omega)]

/-- R94 check 3: the run and the repeats of a STREAM descriptor are not looked at. -/
theorem descriptorOf_stream (hst : state.toNat < 2) (hm : mode = 1) :
    descriptorOf state mode start length repeats =
      some { ready := decide (state = 1), mode := .stream, start := 0, length := 1, repeats := 0 } := by
  have hmode : searchModeOf mode = some .stream := by rw [hm]; rfl
  simp only [descriptorOf, readyOf_of_lt hst, hmode]

theorem descriptorOf_of_invalid
    (h : 2 ≤ state.toNat ∨ 2 ≤ mode.toNat ∨
      (mode = 0 ∧ (length.toNat = 0 ∨ 7 < repeats.toNat ∨ 384 < start.toNat + length.toNat))) :
    descriptorOf state mode start length repeats = none := by
  rcases h with hst | hm | ⟨hm, hrun⟩
  · simp only [descriptorOf, readyOf_of_ge hst]
  · simp only [descriptorOf, searchModeOf_of_ge hm]
    cases readyOf state <;> rfl
  · have hmode : searchModeOf mode = some .block := by rw [hm]; rfl
    simp only [descriptorOf, hmode]
    cases readyOf state with
    | none => rfl
    | some r => exact if_neg (by omega)

theorem writeSearch_of_no_index (hi : 8 ≤ index.toNat) :
    writeSearch index state mode start length repeats s = refuse s .range := by
  simp only [writeSearch, index8_eq_none hi]

theorem writeSearch_of_played (hi : index.toNat = i.val) (hp : s.search.plays i = true) :
    writeSearch index state mode start length repeats s = refuse s .busy := by
  simp only [writeSearch, index8_eq_some hi, hp, if_true]

theorem writeSearch_of_invalid (hi : index.toNat = i.val) (hp : s.search.plays i = false)
    (hd : descriptorOf state mode start length repeats = none) :
    writeSearch index state mode start length repeats s = refuse s .range := by
  simp only [writeSearch, index8_eq_some hi, hp, Bool.false_eq_true, if_false, hd]

theorem writeSearch_of_valid {d : Descriptor} (hi : index.toNat = i.val) (hp : s.search.plays i = false)
    (hd : descriptorOf state mode start length repeats = some d) :
    writeSearch index state mode start length repeats s =
      accept (s.setSearch { s.search with descriptors := s.search.descriptors.set i.val d i.isLt }) d.data := by
  simp only [writeSearch, index8_eq_some hi, hp, Bool.false_eq_true, if_false, hd]

/-- R94: a descriptor that arrives at a ready port and passes the checks is stored, and the reply repeats it. -/
theorem requestArrive_writeSearch_of_valid {q : Taking} {d : Descriptor} (h : portReady s) (hi : index.toNat = i.val)
    (hp : s.search.plays i = false) (hd : descriptorOf state mode start length repeats = some d) :
    acceptsWithin q 0x10 .ok d.data [.search] [] s
        (requestArrive q (.writeSearch index state mode start length repeats) s) ∧
      (requestArrive q (.writeSearch index state mode start length repeats) s).search =
        { s.search with descriptors := s.search.descriptors.set i.val d i.isLt } :=
  requestArrive_changes_part (p := .search) (r := .writeSearch index state mode start length repeats) (by simp) h (by simp)
    (writeSearch_of_valid (s := takingState q (.named q.tag (.writeSearch index state mode start length repeats)) s) hi hp hd)
    (keeps_setSearch _ _)

end WriteSearch

/-! ### The ring (R91, R96) -/

namespace SearchUnit

variable (u : SearchUnit) (st : Step) (l : List Step)

@[simp] theorem append_ringRead : (u.append st).ringRead = u.ringRead := rfl

@[simp] theorem append_ringFill : (u.append st).ringFill = u.ringFill + 1 := rfl

/-- An append writes the write position of the ring and no other of the store. -/
theorem append_store (i : Nat) :
    (u.append st).store[i]? =
      if i = 384 + (u.ringRead + u.ringFill) % 128 then some st else u.store[i]? := by
  rw [append, Vector.getElem?_setIfInBounds]
  split
  · next he => rw [if_pos he.symm, if_pos (by omega)]
  · next he => rw [if_neg (Ne.symm he)]

variable {u}

theorem appendAll_of_full (h : 128 ≤ u.ringFill) : u.appendAll l = u := by
  cases l with
  | nil => rfl
  | cons st rest => rw [appendAll, if_neg (by omega)]

theorem appendAll_cons_of_room (h : u.ringFill < 128) : u.appendAll (st :: l) = (u.append st).appendAll l := by
  rw [appendAll, if_pos h]

/-- R96: the number taken is the smaller of the number offered and the room, and nothing but the store changes with the fill. -/
theorem appendAll_eq (h : u.ringFill ≤ 128) :
    u.appendAll l =
      { u with store := (u.appendAll l).store, ringFill := u.ringFill + min l.length (128 - u.ringFill) } := by
  induction l generalizing u with
  | nil => simp [appendAll]
  | cons st rest ih =>
    rcases h.lt_or_eq with hroom | hfull
    · have hfill : u.ringFill + 1 + min rest.length (128 - (u.ringFill + 1)) =
          u.ringFill + min (rest.length + 1) (128 - u.ringFill) := by omega
      rw [appendAll_cons_of_room st rest hroom, ih (u := u.append st) hroom, append_ringFill, hfill]
      rfl
    · rw [appendAll_of_full _ hfull.ge, hfull, Nat.sub_self, Nat.min_zero, Nat.add_zero, ← hfull]

/-- R96: every place of the store outside the free part of the ring keeps its step. -/
theorem appendAll_store_of_not_free {i : Nat}
    (h : ∀ j, u.ringFill ≤ j → j < 128 → i ≠ 384 + (u.ringRead + j) % 128) :
    (u.appendAll l).store[i]? = u.store[i]? := by
  induction l generalizing u with
  | nil => rfl
  | cons st rest ih =>
    rcases Nat.lt_or_ge u.ringFill 128 with hroom | hfull
    · have hrest : ∀ j, (u.append st).ringFill ≤ j → j < 128 → i ≠ 384 + ((u.append st).ringRead + j) % 128 :=
        fun j hj => h j (Nat.le_of_succ_le hj)
      rw [appendAll_cons_of_room st rest hroom, ih hrest, append_store, if_neg (h _ le_rfl hroom)]
    · rw [appendAll_of_full _ hfull]

/-- R96: the steps that fit stand in the order given from the write position on, round the end of the ring. -/
theorem appendAll_store_of_fits {k : Nat} (hk : k < l.length) (hfit : u.ringFill + k < 128) :
    (u.appendAll l).store[384 + (u.ringRead + u.ringFill + k) % 128]? = l[k]? := by
  induction l generalizing u k with
  | nil => simp at hk
  | cons st rest ih =>
    rw [appendAll_cons_of_room st rest (by omega)]
    cases k with
    | zero =>
      rw [appendAll_store_of_not_free]
      · simp [append_store]
      · intro j hj hlt
        rw [append_ringFill] at hj
        rw [append_ringRead]
        omega
    | succ k =>
      have hrest := ih (u := u.append st) (k := k) (by simpa using hk) (by rw [append_ringFill]; omega)
      rw [append_ringRead, append_ringFill] at hrest
      rw [show u.ringRead + u.ringFill + (k + 1) = u.ringRead + (u.ringFill + 1) + k by omega, hrest,
        List.getElem?_cons_succ]

/-- R91: the 384 places of the BLOCK store lie outside the ring. -/
theorem appendAll_store_of_block {i : Nat} (h : i < 384) : (u.appendAll l).store[i] = u.store[i] := by
  have hkept : (u.appendAll l).store[i]? = u.store[i]? := appendAll_store_of_not_free l fun j _ _ => by omega
  simpa only [Vector.getElem?_eq_getElem (show i < 512 by omega), Option.some_inj] using hkept

end SearchUnit

/-! ### APPEND_STEPS (R96) -/

section AppendSteps

variable {steps : List StepField} {s : State} {n : Nat}

theorem appendSteps_of_invalid (h : steps = [] ∨ 16 < steps.length ∨ steps.all stepInRange = false) :
    appendSteps steps s = refuse s .range := by
  rw [appendSteps, if_pos (by simpa only [List.length_eq_zero_iff] using h)]

/-- R96: with `n` steps taken, the reply gives `n` and the new fill, and is OK_CLAMPED when a step was left out. -/
theorem appendSteps_of_valid (h1 : 1 ≤ steps.length) (hmax : steps.length ≤ 16) (hall : steps.all stepInRange = true)
    (hfill : s.search.ringFill ≤ 128) (hn : n = min steps.length (128 - s.search.ringFill)) :
    appendSteps steps s =
      ⟨storeSearch (s.search.appendAll (steps.map stepOf)) s, if n = steps.length then .ok else .okClamped,
        [d1 n, d1 (s.search.ringFill + n)]⟩ := by
  have hring : (s.search.appendAll (steps.map stepOf)).ringFill = s.search.ringFill + n := by
    rw [SearchUnit.appendAll_eq _ hfill, List.length_map, ← hn]
  have hvalid : ¬ (steps.length = 0 ∨ 16 < steps.length ∨ steps.all stepInRange = false) := by
    simp only [hall, Bool.true_eq_false, or_false]
    omega
  rw [appendSteps, if_neg hvalid]
  simp only [hring, acceptClamped, Nat.add_sub_cancel_left]
  rcases (show n ≤ steps.length by omega).lt_or_eq with hless | heq
  · simp [hless, hless.ne]
  · simp [heq]

/-- R96 and R107: an append that passes the checks, arriving at a ready port; PATTERN_LOW is evaluated on the new fill. -/
theorem requestArrive_appendSteps_of_valid {q : Taking} (h : portReady s) (h1 : 1 ≤ steps.length)
    (hmax : steps.length ≤ 16) (hall : steps.all stepInRange = true) (hfill : s.search.ringFill ≤ 128)
    (hn : n = min steps.length (128 - s.search.ringFill)) :
    acceptsWithin q 0x11 (if n = steps.length then .ok else .okClamped) [⟨1, n⟩, ⟨1, s.search.ringFill + n⟩] [.search]
        [.patternLow] s (requestArrive q (.appendSteps steps) s) ∧
      (requestArrive q (.appendSteps steps) s).search = s.search.appendAll (steps.map stepOf) ∧
      ((requestArrive q (.appendSteps steps) s).events.get .patternLow).genuine =
        genuineOf (requestArrive q (.appendSteps steps) s) .patternLow := by
  have hr : Request.appendSteps steps ≠ .restart := by simp
  have htaken : taken q (.appendSteps steps) s = _ :=
    appendSteps_of_valid (s := takingState q (.named q.tag (.appendSteps steps)) s) h1 hmax hall hfill hn
  have hsearch : (requestArrive q (.appendSteps steps) s).search = s.search.appendAll (steps.map stepOf) := by
    rw [requestArrive_part q _ s hr h (p := .search) (by simp), htaken]
    rfl
  refine ⟨requestArrive_accepts q _ s hr h _ _ _ _ (by rw [htaken]) (by rw [htaken]; rfl) ?_ ?_, hsearch, ?_⟩
  · rw [htaken]
    exact keeps_mono (keeps_storeSearch _ _) (by simp)
  · rw [htaken]
    exact sources_mono (sources_storeSearch _ _) (by simp)
  · rw [requestArrive_source q _ s hr h (by simp), htaken, genuineOf, hsearch]
    simp only [storeSearch, reportLevel_get_self, SourceState.level_genuine]
    rfl

end AppendSteps

/-! ### RESET_STREAM (R97) -/

theorem SearchUnit.streaming_iff (u : SearchUnit) :
    u.streaming = true ↔ ∃ a, u.active = some a ∧ a.play = .stream := by
  unfold streaming
  cases u.active <;> simp

theorem resetStream_of_streaming {s : State} (h : s.search.streaming = true) : resetStream s = refuse s .busy := by
  rw [resetStream, if_pos h]

theorem resetStream_of_not_streaming {s : State} (h : ¬ s.search.streaming = true) :
    resetStream s = accept (s.setSearch { s.search with ringRead := 0, ringFill := 0 }) [⟨1, 0⟩] := by
  rw [resetStream, if_neg h]
  rfl

end Sys2Proof.Machine

/-! ### The statements -/

namespace Sys2Proof.Proofs

open Sys2Proof Sys2Proof.Machine

/-- R93: WRITE_STEPS at a ready port, by its checks in their order. -/
theorem writeSteps_arrives (q : Taking) (start : Half) (steps : List StepField) (s : State) (h : portReady s) :
    ∃ t, exec (.writeSteps q start steps) s = .next t ∧
      (steps = [] ∨ 16 < steps.length ∨ 384 < start.toNat + steps.length ∨ steps.all stepInRange = false →
        refuses q 0x0F .range s t) ∧
      (1 ≤ steps.length → steps.length ≤ 16 → start.toNat + steps.length ≤ 384 → steps.all stepInRange = true →
        s.search.covers start.toNat steps.length = true → refuses q 0x0F .busy s t) ∧
      (1 ≤ steps.length → steps.length ≤ 16 → start.toNat + steps.length ≤ 384 → steps.all stepInRange = true →
        s.search.covers start.toNat steps.length = false →
        acceptsWithin q 0x0F .ok [⟨2, start.toNat⟩, ⟨1, steps.length⟩] [.search] [] s t ∧
        t.search = { s.search with store := t.search.store } ∧
        ∀ i : Fin 512,
          t.search.store[i] =
            (if start.toNat ≤ i.val then ((steps[i.val - start.toNat]?).map stepOf).getD s.search.store[i]
             else s.search.store[i])) := by
  have hreq : Request.writeSteps start steps ≠ .restart := by simp
  let u : State := takingState q (.named q.tag (.writeSteps start steps)) s
  refine ⟨_, rfl, fun hbad => ?_, fun h1 hmax hend hall hc => ?_, fun h1 hmax hend hall hc => ?_⟩
  · exact requestArrive_refuses q _ s hreq h _ (writeSteps_of_invalid hbad)
  · exact requestArrive_refuses q _ s hreq h _ ((writeSteps_of_valid (s := u) h1 hmax hend hall).trans (if_pos hc))
  · have hfree : ¬ u.search.covers start.toNat steps.length = true := by simpa [u] using hc
    obtain ⟨haccept, hleft⟩ := requestArrive_changes_part (p := .search) hreq h (by simp)
      ((writeSteps_of_valid (s := u) h1 hmax hend hall).trans (if_neg hfree)) (keeps_setSearch _ _)
    have hsearch : (requestArrive q (.writeSteps start steps) s).search =
        { s.search with store := writeRun s.search.store start.toNat (steps.map stepOf) } := hleft
    refine ⟨haccept, by rw [hsearch], fun i => ?_⟩
    rw [hsearch, ← List.getElem?_map]
    exact writeRun_get _ _ _ _ i.isLt

/-- R94: WRITE_SEARCH at a ready port, by its checks in their order. -/
theorem writeSearch_arrives (q : Taking) (index state mode : Byte) (start length : Half) (repeats : Byte) (s : State)
    (h : portReady s) :
    ∃ t, exec (.writeSearch q index state mode start length repeats) s = .next t ∧
      (8 ≤ index.toNat → refuses q 0x10 .range s t) ∧
      ∀ i : Fin 8, index.toNat = i.val →
        (s.search.plays i = true → refuses q 0x10 .busy s t) ∧
        (s.search.plays i = false →
          2 ≤ state.toNat ∨ 2 ≤ mode.toNat ∨
            (mode = 0 ∧ (length.toNat = 0 ∨ 7 < repeats.toNat ∨ 384 < start.toNat + length.toNat)) →
          refuses q 0x10 .range s t) ∧
        (s.search.plays i = false → state.toNat < 2 → mode = 0 → 1 ≤ length.toNat → repeats.toNat ≤ 7 →
          start.toNat + length.toNat ≤ 384 →
          acceptsWithin q 0x10 .ok
            [⟨1, state.toNat⟩, ⟨1, 0⟩, ⟨2, start.toNat⟩, ⟨2, length.toNat⟩, ⟨1, repeats.toNat⟩] [.search] [] s t ∧
          t.search =
            { s.search with
              descriptors := s.search.descriptors.set i.val
                { ready := decide (state = 1), mode := .block, start := start.toNat, length := length.toNat
                  repeats := repeats.toNat } i.isLt }) ∧
        (s.search.plays i = false → state.toNat < 2 → mode = 1 →
          acceptsWithin q 0x10 .ok [⟨1, state.toNat⟩, ⟨1, 1⟩, ⟨2, 0⟩, ⟨2, 1⟩, ⟨1, 0⟩] [.search] [] s t ∧
          t.search =
            { s.search with
              descriptors := s.search.descriptors.set i.val
                { ready := decide (state = 1), mode := .stream, start := 0, length := 1, repeats := 0 } i.isLt }) := by
  have hreq : Request.writeSearch index state mode start length repeats ≠ .restart := by simp
  refine ⟨_, rfl, fun hi => ?_, fun i hi => ⟨fun hp => ?_, fun hp hbad => ?_, fun hp hst hm h1 hrep hend => ?_,
    fun hp hst hm => ?_⟩⟩
  · exact requestArrive_refuses q _ s hreq h _ (writeSearch_of_no_index hi)
  · exact requestArrive_refuses q _ s hreq h _ (writeSearch_of_played hi hp)
  · exact requestArrive_refuses q _ s hreq h _ (writeSearch_of_invalid hi hp (descriptorOf_of_invalid hbad))
  · rw [← codeBool_ready hst]
    exact requestArrive_writeSearch_of_valid h hi hp (descriptorOf_block hst hm h1 hrep hend)
  · rw [← codeBool_ready hst]
    exact requestArrive_writeSearch_of_valid h hi hp (descriptorOf_stream hst hm)

/-- Settles O51: each of the three requests by its checks; an append by what `appendAll` leaves at each place of the store. -/
theorem storeRequests : Obligations.StoreRequests := by
  refine ⟨writeSteps_arrives, writeSearch_arrives, fun q steps s h => ⟨_, rfl, fun hbad => ?_,
    fun n h1 hmax hall hfill hn => ?_⟩⟩
  · exact requestArrive_refuses q _ s (by simp) h _ (appendSteps_of_invalid hbad)
  · obtain ⟨haccept, hsearch, hgenuine⟩ := requestArrive_appendSteps_of_valid (q := q) h h1 hmax hall hfill hn
    refine ⟨haccept, ?_, hgenuine, fun i => ?_, fun k hk => ?_⟩
    · rw [hsearch, hn]
      simpa only [List.length_map] using SearchUnit.appendAll_eq (steps.map stepOf) hfill
    · simpa only [hsearch] using SearchUnit.appendAll_store_of_block (steps.map stepOf) i.isLt
    · rw [hsearch, ← List.getElem?_map]
      exact SearchUnit.appendAll_store_of_fits _ (by rw [List.length_map]; omega) (by omega)

/-- Settles O52: R97's refusal while a STREAM search is active, and the emptied ring otherwise. -/
theorem resetStream : Obligations.ResetStream := by
  intro q s h
  have hreq : Request.resetStream ≠ .restart := by simp
  refine ⟨_, rfl, fun hactive => ?_, fun hnone => ?_⟩
  · have hrefuses := requestArrive_refuses q _ s hreq h _ (resetStream_of_streaming (s.search.streaming_iff.mpr hactive))
    exact ⟨hrefuses, hrefuses.2.1 .search (by simp)⟩
  · have hidle : ¬ s.search.streaming = true := fun hs => by
      obtain ⟨a, ha, hplay⟩ := s.search.streaming_iff.mp hs
      exact hnone a ha hplay
    obtain ⟨haccept, hleft⟩ := requestArrive_changes_part (p := .search) hreq h (by simp)
      (resetStream_of_not_streaming (s := takingState q (.named q.tag .resetStream) s) hidle) (keeps_setSearch _ _)
    have hsearch : (requestArrive q .resetStream s).search = { s.search with ringRead := 0, ringFill := 0 } := hleft
    exact ⟨haccept, hsearch, by rw [hsearch]⟩

end Sys2Proof.Proofs
end

