-- ==== Sys2Proof/Proofs/Rounds.lean ====
section
/-! The round unit (chapter 7): the requests that start and stop a round. -/

namespace Sys2Proof.Machine

/-! ### The checks of START_ROUND (R138) -/

/-- R138 check 6: the three busy conditions. -/
theorem roundBusy_iff (s : State) :
    roundBusy s = true ↔ s.emitter.mode ≠ .idle ∨ s.search.active ≠ none ∨ s.follower.state = .aiming := by
  simp [roundBusy, Option.isSome_iff_ne_none, or_assoc]

theorem roundBusy_eq_false_iff (s : State) :
    roundBusy s = false ↔ s.emitter.mode = .idle ∧ s.search.active = none ∧ s.follower.state ≠ .aiming := by
  simp [← Bool.not_eq_true, roundBusy_iff]

section Checks

variable {s : State}

theorem roundCondition_of_no_pose (hp : s.poses.active = none) : roundCondition s = some .noPose := if_pos hp

theorem roundCondition_of_no_adm (hp : s.poses.active ≠ none) (ha : s.head.hasAdm = false) :
    roundCondition s = some .noAdm := by
  rw [roundCondition, if_neg hp, if_pos ha]

theorem roundCondition_of_adm (hp : s.poses.active ≠ none) (ha : s.head.hasAdm = true) :
    roundCondition s = if s.round.enabledSlots = [] ∨ s.head.driveState = .disabled then some .state else none := by
  rw [roundCondition, if_neg hp, if_neg (by simp [ha]), ite_or]

theorem startRound_of_running (hr : s.round.state.isRunning = true) : startRound s = refuse s .busy := if_pos hr

theorem startRound_of_condition (hr : s.round.state.isRunning = false) {reason : RefuseReason}
    (hc : roundCondition s = some reason) : startRound s = refuse s reason := by
  rw [startRound, if_neg (by simp [hr]), hc]

theorem startRound_of_busy (hr : s.round.state.isRunning = false) (hc : roundCondition s = none)
    (hb : roundBusy s = true) : startRound s = refuse s .busy := by
  rw [startRound, if_neg (by simp [hr]), hc]
  exact if_pos hb

theorem startRound_of_free (hr : s.round.state.isRunning = false) (hc : roundCondition s = none)
    (hb : roundBusy s = false) :
    startRound s =
      accept (startRoundNow s) [d1 s.round.enabledSlots.length, d4 (nextRoundNumber s.round.roundNumber)] := by
  rw [startRound, if_neg (by simp [hr]), hc]
  exact if_neg (by simp [hb])

end Checks

/-- R150: a round number counts to its cap and holds there. -/
theorem nextRoundNumber_eq (n : Nat) : nextRoundNumber n = min 4294967295 (n + 1) := by
  unfold nextRoundNumber countUp
  split <;> omega

/-! ### The start of a round (R141, R142) -/

/-- R141: a RUNNING round that has not begun its first slot. -/
def RunningRound.ofSlots (first : Fin 16) (more : List (Fin 16)) : RunningRound :=
  { slots := first :: more, current := first, phase := .aim, slotTimer := 0, avgCount := 0, sums := zero3, results := [] }

/-- R141: the round unit with the RUNNING round `r`, its period timer loaded and its return angles kept. -/
def RoundUnit.started (u : RoundUnit) (r : RunningRound) (angles : Option Angles) : RoundUnit :=
  { u with state := .running r, periodTimer := u.period * 60000, returnAngles := angles }

/-- R141: the state in which the first slot of a started round begins. -/
def startedRound (r : RunningRound) (s : State) : State :=
  releaseDistance (reportLevel .roundDue (s.setRound (s.round.started r (returnAnglesOf s.follower))))

section Start

variable {s : State} {first : Fin 16} {more : List (Fin 16)}

theorem startRoundNow_of_slots (h : s.round.enabledSlots = first :: more) :
    startRoundNow s = beginSlot (.ofSlots first more) first (startedRound (.ofSlots first more) s) := by
  rw [startRoundNow, h]
  rfl

theorem keeps_startedRound (r : RunningRound) (s : State) : keepsOthers [.round, .events, .distance] s (startedRound r s) :=
  keeps_then (keeps_then (keeps_mono (keeps_setRound s _) (by simp)) (keeps_reportLevel _ _) (by simp))
    (keeps_releaseDistance _) (by simp)

@[simp] theorem startedRound_round (r : RunningRound) (s : State) :
    (startedRound r s).round = s.round.started r (returnAnglesOf s.follower) := by
  simp [startedRound]

/-- R139: ROUND_DUE is false from the start on. -/
theorem startedRound_roundDue (r : RunningRound) (s : State) :
    ((startedRound r s).events.get .roundDue).genuine = false := by
  simp [startedRound, genuineOf, RoundUnit.started]

/-- R142: a slot's beginning is the round unit's write and an entry to AIMING, so the head port is left alone. -/
theorem keeps_beginSlot_head (r : RunningRound) (e : Fin 16) (s : State) :
    keepsOthers [.round, .search, .events, .follower, .distance] s (beginSlot r e s) :=
  keeps_then (keeps_mono (keeps_setRoundState _ s) (by simp)) (keeps_enterAiming _ _ _ _) (by simp)

@[simp] theorem beginSlot_round (r : RunningRound) (e : Fin 16) (s : State) :
    (beginSlot r e s).round =
      { s.round with
        state := .running { r with current := e, phase := .aim, slotTimer := 10000, avgCount := 0, sums := zero3 } } := by
  simp [beginSlot]

@[simp] theorem beginSlot_aim (r : RunningRound) (e : Fin 16) (s : State) :
    (beginSlot r e s).follower.aim =
      some
        { az := s.round.table[e].aim.az, el := s.round.table[e].aim.el, thenAction := .hold, owner := .round
          timer := 3000 } := by
  simp [beginSlot]

/-- R141: a start does not touch the head port. -/
theorem keeps_startRoundNow_head (h : s.round.enabledSlots = first :: more) :
    keepsOthers [.round, .search, .events, .follower, .distance] s (startRoundNow s) := by
  rw [startRoundNow_of_slots h]
  exact keeps_trans (keeps_mono (keeps_startedRound _ s) (by simp)) (keeps_beginSlot_head _ _ _)

theorem startRoundNow_round (h : s.round.enabledSlots = first :: more) :
    (startRoundNow s).round =
      s.round.started { RunningRound.ofSlots first more with slotTimer := 10000 } (returnAnglesOf s.follower) := by
  rw [startRoundNow_of_slots h, beginSlot_round, startedRound_round]
  rfl

theorem startRoundNow_aim (h : s.round.enabledSlots = first :: more) :
    (startRoundNow s).follower.aim =
      some
        { az := s.round.table[first].aim.az, el := s.round.table[first].aim.el, thenAction := .hold, owner := .round
          timer := 3000 } := by
  rw [startRoundNow_of_slots h, beginSlot_aim, startedRound_round]
  rfl

theorem startRoundNow_roundDue (h : s.round.enabledSlots = first :: more) :
    ((startRoundNow s).events.get .roundDue).genuine = false := by
  rw [startRoundNow_of_slots h, (sources_beginSlot _ _ _).2 .roundDue (by simp [slotSources]), startedRound_roundDue]

end Start

/-! ### STOP_ROUND (R152) -/

section Stop

variable {s : State}

theorem stopRound_of_idle (h : s.round.state = .idle) : stopRound s = refuse s .state := by
  rw [stopRound, h]

theorem stopRound_of_due (h : s.round.state = .due) : stopRound s = accept (abandonRound .stopped s) [] := by
  simp only [stopRound, stopRoundFor, h]

theorem stopRound_of_running (h : s.round.state.isRunning = true) :
    stopRound s = accept (enterParked (discardRound .stopped (releaseDistance s))) [] := by
  cases hs : s.round.state with
  | idle | due => simp [hs, RoundState.isRunning] at h
  | running r => simp only [stopRound, stopRoundFor, hs]

/-- With no distance, an entry to PARKED reports no loss. -/
theorem sources_enterParked_of_none (h : s.distance.state = .none) :
    keepsSources [.patternLow, .beamAbsent] s (enterParked s) := by
  unfold enterParked
  dsimp only
  rw [leaveDistance_of_none _ _ (by simpa using h)]
  exact sources_then
    (sources_trans (sources_mono (sources_abortSearch s) (by simp)) (sources_mono (sources_storeFollower _ _) (by simp)))
    (sources_writeSteer _ _) (by simp)

/-- R88: the entry to PARKED writes one HOLD frame, whatever the frame in transmission. -/
theorem steerWritten_enterParked (s : State) : steerWritten .hold s (enterParked s) := by
  have hsteer := steerWritten_writeSteer
    (leaveDistance .follower (storeFollower (abortSearch s).follower.parkedAs (abortSearch s))) .hold
  simpa [steerWritten, enterParked] using hsteer

/-- R152: a discarded RUNNING round latches ROUND_ABORTED. -/
theorem discardRound_event (a : AbortReason) (s : State) :
    (discardRound a s).events.get .roundAborted = (s.events.get .roundAborted).occurred s.localTime :=
  abandonRound_event _ a

theorem sources_discardRound (a : AbortReason) (s : State) : keepsSources [.roundDue, .roundAborted] s (discardRound a s) :=
  sources_trans (sources_of_events rfl) (sources_abandonRound _ a)

end Stop

/-! ### Their arrival at a ready port -/

/-- R138 and R141: a START_ROUND that passes every check: its reply, and what it leaves in each block. -/
theorem requestArrive_startRound_of_free {q : Taking} {s : State} {first : Fin 16} {more : List (Fin 16)} (h : portReady s)
    (hr : s.round.state.isRunning = false) (hc : roundCondition s = none) (hb : roundBusy s = false)
    (hslots : s.round.enabledSlots = first :: more) {t : State} (ht : t = requestArrive q .startRound s) :
    answers q 0x1D .ok [⟨1, more.length + 1⟩, ⟨4, min 4294967295 (s.round.roundNumber + 1)⟩] s t ∧
      t.round = s.round.started { RunningRound.ofSlots first more with slotTimer := 10000 } (returnAnglesOf s.follower) ∧
      t.follower.state = .aiming ∧
      t.follower.aim =
        some
          { az := s.round.table[first].aim.az, el := s.round.table[first].aim.el, thenAction := .hold, owner := .round
            timer := 3000 } ∧
      t.distance.state = .none ∧ t.events.get .distanceLost = s.events.get .distanceLost ∧
      (t.events.get .roundDue).genuine = false ∧
      keepsOthers [.station, .service, .events, .round, .follower, .distance, .search] s t := by
  subst ht
  -- The round unit answers in `u`, which has the fields of `s` outside the station port and the SERVICE level.
  let u : State := takingState q (.named q.tag .startRound) s
  have htaken : taken q .startRound s = _ := startRound_of_free (s := u) hr hc hb
  obtain ⟨hans, hkeep, hsrc⟩ := requestArrive_taken q .startRound s (by simp) h
  obtain ⟨-, haiming, hreleased, -, -, hevents⟩ := startRoundNow_leaves (s := u) hc
  rw [htaken] at hans hkeep hsrc
  have hround : (requestArrive q .startRound s).round = (startRoundNow u).round := hkeep .round (by simp)
  have hfollower : (requestArrive q .startRound s).follower = (startRoundNow u).follower := hkeep .follower (by simp)
  have hdistance : (requestArrive q .startRound s).distance = (startRoundNow u).distance := hkeep .distance (by simp)
  have hkept : keepsOthers [.round, .search, .events, .follower, .distance] u (startRoundNow u) :=
    keeps_startRoundNow_head hslots
  rw [hround, hfollower, hdistance, hreleased, hsrc.2 .distanceLost (by simp), hsrc.2 .roundDue (by simp)]
  refine ⟨?_, startRoundNow_round (s := u) hslots, haiming, startRoundNow_aim (s := u) hslots,
    (releaseDistance_state u).1, hevents.2 .distanceLost (by simp), startRoundNow_roundDue (s := u) hslots, ?_⟩
  · simpa [accept, d1, d4, u, hslots, nextRoundNumber_eq, requestCode] using hans
  · exact keeps_then (keeps_then (keeps_mono (keeps_takingState q _ s) (by simp)) hkept (by simp)) hkeep (by simp)

/-- R140: a STOP_ROUND of a DUE round abandons it and changes nothing else. -/
theorem requestArrive_stopRound_of_due {q : Taking} {s : State} (h : portReady s) (hr : s.round.state = .due) :
    acceptsWithin q 0x1E .ok [] [.round] [.roundDue, .roundAborted] s (requestArrive q .stopRound s) ∧
      (requestArrive q .stopRound s).round = { s.round with state := .idle, summary := .aborted .stopped } ∧
      (requestArrive q .stopRound s).events.get .roundAborted =
        (s.events.get .roundAborted).occurred s.localTime := by
  have hreq : Request.stopRound ≠ .restart := by simp
  let u : State := takingState q (.named q.tag .stopRound) s
  have htaken : taken q .stopRound s = _ := stopRound_of_due (s := u) hr
  have hstate : (taken q .stopRound s).state = abandonRound .stopped u := congrArg Answer.state htaken
  rw [requestArrive_part q _ s hreq h (p := .round) (by simp), requestArrive_source q _ s hreq h (by simp), hstate]
  refine ⟨requestArrive_accepts q _ s hreq h _ _ _ _ (by rw [htaken]; rfl) (by rw [htaken]; rfl) ?_ ?_,
    abandonRound_round u _, abandonRound_event u _⟩
  · exact hstate ▸ keeps_mono (keeps_abandonRound _ u) (by simp)
  · exact hstate ▸ sources_mono (sources_abandonRound u _) (by simp)

/-- R152: a STOP_ROUND of a RUNNING round discards it, releases the distance without a loss and parks the follower. -/
theorem requestArrive_stopRound_of_running {q : Taking} {s : State} (h : portReady s)
    (hr : s.round.state.isRunning = true) {t : State} (ht : t = requestArrive q .stopRound s) :
    answers q 0x1E .ok [] s t ∧
      t.round = { s.round with state := .idle, returnAngles := none, summary := .aborted .stopped } ∧
      t.follower.state = .parked ∧ t.search.active = none ∧ t.distance.state = .none ∧
      t.events.get .distanceLost = s.events.get .distanceLost ∧
      t.events.get .roundAborted = (s.events.get .roundAborted).occurred s.localTime ∧ steerWritten .hold s t := by
  subst ht
  let u : State := takingState q (.named q.tag .stopRound) s
  -- `v` is IDLE and has no distance; the follower then enters PARKED from it.
  let v : State := discardRound .stopped (releaseDistance u)
  have htaken : taken q .stopRound s = accept (enterParked v) [] := stopRound_of_running (s := u) hr
  obtain ⟨hans, hkeep, hsrc⟩ := requestArrive_taken q .stopRound s (by simp) h
  rw [htaken] at hans hkeep hsrc
  have hround : (requestArrive q .stopRound s).round = (enterParked v).round := hkeep .round (by simp)
  have hfollower : (requestArrive q .stopRound s).follower = (enterParked v).follower := hkeep .follower (by simp)
  have hsearch : (requestArrive q .stopRound s).search = (enterParked v).search := hkeep .search (by simp)
  have hdistance : (requestArrive q .stopRound s).distance = (enterParked v).distance := hkeep .distance (by simp)
  have hhead : (requestArrive q .stopRound s).head = (enterParked v).head := hkeep .head (by simp)
  have hparked : keepsSources [.patternLow, .beamAbsent] v (enterParked v) := sources_enterParked_of_none (by simp [v])
  have hlost : v.events.get .distanceLost = s.events.get .distanceLost :=
    ((sources_discardRound _ _).2 .distanceLost (by simp)).trans (by simp [u])
  have haborted : v.events.get .roundAborted = (s.events.get .roundAborted).occurred s.localTime :=
    (discardRound_event _ _).trans (by simp [u])
  rw [hround, hfollower, hsearch, hdistance, hsrc.2 .distanceLost (by simp), hsrc.2 .roundAborted (by simp)]
  refine ⟨hans, by simp [v, u], by simp [Follower.parkedAs], by simp, enterParked_distance v,
    (hparked.2 .distanceLost (by simp)).trans hlost, (hparked.2 .roundAborted (by simp)).trans haborted, ?_⟩
  have hsteer := steerWritten_enterParked v
  simpa [steerWritten, hhead, v, u] using hsteer

end Sys2Proof.Machine

/-! ### The statement -/

namespace Sys2Proof.Proofs

open Sys2Proof Sys2Proof.Machine

/-- Settles O56: the refusals by R138's checks in their order, and a start or a stop by what it leaves in each block. -/
theorem roundRequests : Obligations.RoundRequests := by
  refine ⟨fun q s h => ⟨_, rfl, ?_⟩, fun q s h => ⟨_, rfl, fun hr => ?_, requestArrive_stopRound_of_due h,
    fun hr => requestArrive_stopRound_of_running h hr rfl⟩⟩
  · have hreq : Request.startRound ≠ .restart := by simp
    let u : State := takingState q (.named q.tag .startRound) s
    have hpossible : s.poses.active ≠ none → s.head.hasAdm = true → s.round.enabledSlots ≠ [] →
        s.head.driveState = .enabled → roundCondition s = none := fun hp ha hne hd =>
      (roundCondition_of_adm hp ha).trans (if_neg (by simp [hne, hd]))
    refine ⟨fun hr => ?_, fun hr hp => ?_, fun hr hp ha => ?_, fun hr hp ha hbad => ?_, fun hr hp ha hne hd hbusy => ?_,
      fun first more hr hp ha hd hm hs hf hslots => ?_⟩
    · exact requestArrive_refuses q _ s hreq h _ (startRound_of_running hr)
    · exact requestArrive_refuses q _ s hreq h _ (startRound_of_condition (s := u) hr (roundCondition_of_no_pose hp))
    · exact requestArrive_refuses q _ s hreq h _ (startRound_of_condition (s := u) hr (roundCondition_of_no_adm hp ha))
    · have hstate : roundCondition u = some .state := (roundCondition_of_adm (s := u) hp ha).trans (if_pos hbad)
      exact requestArrive_refuses q _ s hreq h _ (startRound_of_condition (s := u) hr hstate)
    · exact requestArrive_refuses q _ s hreq h _
        (startRound_of_busy (s := u) hr (hpossible hp ha hne hd) ((roundBusy_iff u).mpr hbusy))
    · exact requestArrive_startRound_of_free h hr (hpossible hp ha (by simp [hslots]) hd)
        ((roundBusy_eq_false_iff s).mpr ⟨hm, hs, hf⟩) hslots rfl
  · exact requestArrive_refuses q _ s (by simp) h _ (stopRound_of_idle hr)

end Sys2Proof.Proofs
end

