-- ==== Sys2Proof/Proofs/Keeping.lean ====
section
/-! What every handling keeps: the bounds and agreements of Safety.lean that hold inside a step as well as at its end, as one
relation between the state before and the state after. -/

namespace Sys2Proof.Machine

/-! ### The bounds, block by block -/

/-- R167 and R170: the head port's queues hold no more than their places. -/
def HeadPort.bounded (p : HeadPort) : Prop := p.rx.length ≤ 8 ∧ p.forward.length ≤ 4

/-- R172 and R177: the station port's queues hold no more than their places. -/
def StationPort.bounded (p : StationPort) : Prop := p.rx.length ≤ 8 ∧ p.out.length ≤ 64

/-- R9: both tables, when LOADED, have every index written. -/
def CorrectionUnit.complete (c : CorrectionUnit) : Prop := c.azc.complete = true ∧ c.elc.complete = true

/-- R27: the active pose is VALID. -/
def PoseTable.activeValid (p : PoseTable) : Prop := ∀ i, p.active = some i → p.entries[i].state = .valid

/-- R19. -/
def CorrectionUnit.inRange (c : CorrectionUnit) : Prop := 150000 ≤ c.refraction ∧ c.refraction ≤ 400000

/-- R59. -/
def DistanceUnit.inRange (u : DistanceUnit) : Prop := u.admQualityMin ≤ 255 ∧ u.homeDistance ≤ 10000000

/-- R62 and R84: the follower's parameters. -/
def Follower.settingsInRange (u : Follower) : Prop :=
  (0 ≤ u.kpAz ∧ u.kpAz ≤ 4095) ∧ (0 ≤ u.kpEl ∧ u.kpEl ≤ 4095) ∧ (0 ≤ u.kiAz ∧ u.kiAz ≤ 1023) ∧
    (0 ≤ u.kiEl ∧ u.kiEl ≤ 1023) ∧ (50 ≤ u.tOn ∧ u.tOn ≤ 4095) ∧ (20 ≤ u.tOff ∧ u.tOff + 20 ≤ u.tOn) ∧ u.graceParam ≤ 255

/-- R86. -/
def Follower.integratorsInRange (u : Follower) : Prop :=
  (-16384 ≤ u.iAz ∧ u.iAz ≤ 16384) ∧ (-16384 ≤ u.iEl ∧ u.iEl ≤ 16384)

def Follower.inRange (u : Follower) : Prop := u.settingsInRange ∧ u.integratorsInRange

/-- R91, R92, R94, R96 and R107. -/
def SearchUnit.inRange (u : SearchUnit) : Prop :=
  u.ringRead < 128 ∧ u.ringFill ≤ 128 ∧ u.margin ≤ 64 ∧ ∀ i : Fin 8, u.descriptors[i].inRegion = true

/-- R137. -/
def RoundUnit.inRange (u : RoundUnit) : Prop := u.period ≤ 240

/-- R160. -/
def EventUnit.inRange (e : EventUnit) : Prop := e.floor ≤ 14

/-- N, the parameters, the integrators, the ring and the descriptors are in range. -/
def State.inRange (s : State) : Prop :=
  s.correction.inRange ∧ s.distance.inRange ∧ s.follower.inRange ∧ s.search.inRange ∧ s.round.inRange ∧ s.events.inRange

theorem queuesBounded_iff (s : State) : s.queuesBounded = true ↔ s.head.bounded ∧ s.station.bounded := by
  simp [State.queuesBounded, HeadPort.bounded, StationPort.bounded, and_assoc]

theorem poseActiveValid_iff (s : State) : s.poseActiveValid = true ↔ s.poses.activeValid := by
  simp [State.poseActiveValid, PoseTable.activeValid, Option.all_eq_true]

theorem tablesComplete_iff (s : State) : s.tablesComplete = true ↔ s.correction.complete := by
  simp [State.tablesComplete, CorrectionUnit.complete]

theorem inRange_state_iff (s : State) :
    s.inRange ↔
      s.parametersInRange = true ∧ s.integratorsBounded = true ∧ s.ringBounded = true ∧ s.descriptorsInRegion = true := by
  have hall : s.descriptorsInRegion = true ↔ ∀ i : Fin 8, s.search.descriptors[i].inRegion = true := by
    simp only [State.descriptorsInRegion, List.all_eq_true, Vector.mem_toList_iff, Vector.mem_iff_getElem]
    exact ⟨fun h i => h _ ⟨i, i.isLt, rfl⟩, fun h _ ⟨i, hi, hx⟩ => hx ▸ h ⟨i, hi⟩⟩
  rw [hall]
  simp only [State.inRange, CorrectionUnit.inRange, DistanceUnit.inRange, Follower.inRange, Follower.settingsInRange,
    Follower.integratorsInRange, SearchUnit.inRange, RoundUnit.inRange, EventUnit.inRange, State.parametersInRange,
    State.integratorsBounded, State.ringBounded, inRange_iff, Bool.and_eq_true, decide_eq_true_eq]
  tauto

/-! ### The genuine conditions (R156) -/

/-- The event unit holds for `src` the condition that the owner holds. -/
def State.conditionAgrees (s : State) (src : Source) : Prop := (s.events.get src).genuine = genuineOf s src

theorem conditionsTrue_iff (s : State) :
    s.conditionsTrue = true ↔ ∀ src, src.isLevel = true → s.conditionAgrees src := by
  simp only [State.conditionsTrue, List.all_eq_true, Bool.or_eq_true, Bool.not_eq_true', beq_iff_eq, State.conditionAgrees]
  exact ⟨fun h src hl => (h src src.mem_all).resolve_left (by simp [hl]), fun h src _ => by
    cases hl : src.isLevel
    · exact .inl rfl
    · exact .inr (h src hl)⟩

@[simp] theorem genuineOf_setEvents (s : State) (e : EventUnit) (src : Source) : genuineOf (s.setEvents e) src = genuineOf s src := by
  cases src <;> rfl

@[simp] theorem genuineOf_reportLevel (a : Source) (s : State) (src : Source) : genuineOf (reportLevel a s) src = genuineOf s src :=
  genuineOf_setEvents s _ src

@[simp] theorem genuineOf_occur (a : Source) (s : State) (src : Source) : genuineOf (occur a s) src = genuineOf s src :=
  genuineOf_setEvents s _ src

theorem conditionAgrees_report (a : Source) (s : State) : (reportLevel a s).conditionAgrees a := by
  simp [State.conditionAgrees]

/-- A report of `a` after a change that other sources' owners do not see. -/
theorem conditionAgrees_then_report {a : Source} {s u : State} (he : u.events = s.events)
    (hg : ∀ src, src ≠ a → genuineOf u src = genuineOf s src) (src : Source) (h : s.conditionAgrees src) :
    (reportLevel a u).conditionAgrees src := by
  by_cases hs : src = a
  · subst hs
    exact conditionAgrees_report src u
  · rw [State.conditionAgrees, reportLevel_get_other u hs, genuineOf_reportLevel, he, hg src hs]
    exact h

theorem conditionAgrees_of_same {s t : State} (he : t.events = s.events) {src : Source}
    (hg : genuineOf t src = genuineOf s src) (h : s.conditionAgrees src) : t.conditionAgrees src := by
  rw [State.conditionAgrees, he, hg]
  exact h

/-! ### The relation -/

/-- From `s` to `t` the queue of commands is left alone and the bounds and agreements are kept, the genuine conditions outside
`off` among them. -/
structure Kept (off : List Source) (s t : State) : Prop where
  pending : t.pending = s.pending
  head : s.head.bounded → t.head.bounded
  station : s.station.bounded → t.station.bounded
  conditions : ∀ src, src.isLevel = true → src ∉ off → s.conditionAgrees src → t.conditionAgrees src
  slots : s.roundAgrees = true → t.roundAgrees = true
  silence : s.head.silenceTimer ≤ 20 → t.head.silenceTimer ≤ 20
  poses : s.poses.activeValid → t.poses.activeValid
  tables : s.correction.complete → t.correction.complete
  ranges : s.inRange → t.inRange

section

variable {off : List Source} {s t u : State}

theorem kept_refl (off : List Source) (s : State) : Kept off s s := ⟨rfl, id, id, fun _ _ _ h => h, id, id, id, id, id⟩

theorem kept_trans (h : Kept off s t) (k : Kept off t u) : Kept off s u :=
  ⟨k.pending.trans h.pending, k.head ∘ h.head, k.station ∘ h.station,
    fun src hl ho ha => k.conditions src hl ho (h.conditions src hl ho ha), k.slots ∘ h.slots, k.silence ∘ h.silence,
    k.poses ∘ h.poses, k.tables ∘ h.tables, k.ranges ∘ h.ranges⟩

theorem kept_mono {more : List Source} (h : Kept off s t) (hm : off ⊆ more) : Kept more s t :=
  { h with conditions := fun src hl ho => h.conditions src hl fun hs => ho (hm hs) }

end

/-! ### Changes of one block -/

section Blocks

variable (s : State)

theorem kept_useFree : Kept [] s (useFree s) := ⟨rfl, id, id, fun src _ _ => conditionAgrees_of_same (s := s) (by rfl) (by cases src <;> rfl),
  id, id, id, id, id⟩

theorem kept_setService (b : Bool) : Kept [] s (s.setService b) :=
  ⟨rfl, id, id, fun src _ _ => conditionAgrees_of_same (s := s) (by rfl) (by cases src <;> rfl), id, id, id, id, id⟩

theorem kept_setEmitter (e : Emitter) : Kept [] s (s.setEmitter e) :=
  ⟨rfl, id, id, fun src _ _ => conditionAgrees_of_same (s := s) (by rfl) (by cases src <;> rfl), id, id, id, id, id⟩

/-- A source's new items keep its genuine condition, and the report floor is left. -/
theorem kept_put {src : Source} {x : SourceState} (h : (s.events.get src).genuine = x.genuine) :
    Kept [] s (s.setEvents (s.events.put src x)) := by
  refine ⟨rfl, id, id, fun a _ _ ha => ?_, id, id, id, id, id⟩
  rw [State.conditionAgrees, genuineOf_setEvents]
  by_cases he : a = src
  · subst he
    simpa [State.conditionAgrees, ← h] using ha
  · simpa [State.conditionAgrees, EventUnit.get_put_other _ _ he] using ha

theorem kept_occur (src : Source) : Kept [] s (occur src s) := kept_put s (by simp)

theorem kept_reportLevel (src : Source) : Kept [] s (reportLevel src s) :=
  ⟨rfl, id, id, fun a _ _ h => conditionAgrees_then_report (s := s) (by rfl) (fun _ _ => rfl) a h, id, id, id, id, id⟩

theorem kept_setFloor {n : Nat} (h : n ≤ 14) : Kept [] s (s.setEvents { s.events with floor := n }) := by
  refine ⟨rfl, id, id, fun src _ _ ha => ?_, id, id, id, id, fun ⟨h1, h2, h3, h4, h5, _⟩ => ⟨h1, h2, h3, h4, h5, h⟩⟩
  rw [State.conditionAgrees, genuineOf_setEvents]
  exact ha

theorem kept_setDistance {u : DistanceUnit} (h : s.distance.inRange → u.inRange) : Kept [] s (s.setDistance u) :=
  ⟨rfl, id, id, fun src _ _ => conditionAgrees_of_same (s := s) (by rfl) (by cases src <;> rfl), id, id, id, id,
    fun ⟨h1, h2, h3, h4, h5, h6⟩ => ⟨h1, h h2, h3, h4, h5, h6⟩⟩

theorem kept_setPoses {p : PoseTable} (h : s.poses.activeValid → p.activeValid) : Kept [] s (s.setPoses p) :=
  ⟨rfl, id, id, fun src _ _ => conditionAgrees_of_same (s := s) (by rfl) (by cases src <;> rfl), id, id, h, id, id⟩

/-- The tables and the age are left. -/
theorem kept_setCorrection {c : CorrectionUnit} (hs : c.stale = s.correction.stale)
    (hu : c.uncompensated = s.correction.uncompensated) (hc : s.correction.complete → c.complete)
    (hr : s.correction.inRange → c.inRange) : Kept [] s (s.setCorrection c) :=
  ⟨rfl, id, id, fun src _ _ => conditionAgrees_of_same (s := s) (by rfl) (by cases src <;> simp_all [genuineOf] <;> rfl), id, id, id, hc,
    fun ⟨h1, h2, h3, h4, h5, h6⟩ => ⟨hr h1, h2, h3, h4, h5, h6⟩⟩

theorem kept_storeTable {a : Axis} {t : CompTable} (h : t.complete = true) : Kept [] s (storeTable a t s) := by
  refine ⟨rfl, id, id, fun src _ _ => conditionAgrees_then_report (s := s) (by rfl) (fun x hx => ?_) src, id, id, id, ?_,
    fun ⟨h1, h2, h3, h4, h5, h6⟩ => ⟨?_, h2, h3, h4, h5, h6⟩⟩
  · cases x <;> cases a <;> simp_all [genuineOf] <;> rfl
  · cases a
    · exact fun hc => ⟨h, hc.2⟩
    · exact fun hc => ⟨hc.1, h⟩
  · cases a <;> exact h1

theorem kept_storeRefraction {n : Int} {age : Nat} (h : 150000 ≤ n ∧ n ≤ 400000) :
    Kept [] s (reportLevel .refractionStale (s.setCorrection { s.correction with refraction := n, age := age })) := by
  refine ⟨rfl, id, id, fun src _ _ => conditionAgrees_then_report (s := s) (by rfl) (fun x hx => ?_) src, id, id, id, id,
    fun ⟨_, h2, h3, h4, h5, h6⟩ => ⟨h, h2, h3, h4, h5, h6⟩⟩
  cases x <;> simp_all [genuineOf] <;> rfl

theorem kept_setFollower {u : Follower} (hb : u.state.beamAbsent = s.follower.state.beamAbsent)
    (hr : s.follower.inRange → u.inRange) : Kept [] s (s.setFollower u) :=
  ⟨rfl, id, id, fun src _ _ => conditionAgrees_of_same (s := s) (by rfl) (by cases src <;> simp_all [genuineOf] <;> rfl), id, id, id, id,
    fun ⟨h1, h2, h3, h4, h5, h6⟩ => ⟨h1, h2, hr h3, h4, h5, h6⟩⟩

theorem kept_storeFollower {u : Follower} (hr : s.follower.inRange → u.inRange) : Kept [] s (storeFollower u s) := by
  refine ⟨rfl, id, id, fun src _ _ => conditionAgrees_then_report (s := s) (by rfl) (fun x hx => ?_) src, id, id, id, id,
    fun ⟨h1, h2, h3, h4, h5, h6⟩ => ⟨h1, h2, hr h3, h4, h5, h6⟩⟩
  cases x <;> simp_all [genuineOf] <;> rfl

theorem kept_setSearch {u : SearchUnit} (hp : u.patternLow = s.search.patternLow) (hr : s.search.inRange → u.inRange) :
    Kept [] s (s.setSearch u) :=
  ⟨rfl, id, id, fun src _ _ => conditionAgrees_of_same (s := s) (by rfl) (by cases src <;> simp_all [genuineOf] <;> rfl), id, id, id, id,
    fun ⟨h1, h2, h3, h4, h5, h6⟩ => ⟨h1, h2, h3, hr h4, h5, h6⟩⟩

theorem kept_storeSearch {u : SearchUnit} (hr : s.search.inRange → u.inRange) : Kept [] s (storeSearch u s) := by
  refine ⟨rfl, id, id, fun src _ _ => conditionAgrees_then_report (s := s) (by rfl) (fun x hx => ?_) src, id, id, id, id,
    fun ⟨h1, h2, h3, h4, h5, h6⟩ => ⟨h1, h2, h3, hr h4, h5, h6⟩⟩
  cases x <;> simp_all [genuineOf] <;> rfl

/-- The fiducial table is left, and the round is DUE when it was. -/
theorem kept_setRound {x : RoundUnit} (ht : x.table = s.round.table) (hd : x.state = .due ↔ s.round.state = .due)
    (hp : s.round.inRange → x.inRange) (ha : s.roundAgrees = true → (s.setRound x).roundAgrees = true) :
    Kept [] s (s.setRound x) := by
  refine ⟨rfl, id, id, fun src _ _ => conditionAgrees_of_same (s := s) (by rfl) ?_, ha, id, id, id,
    fun ⟨h1, h2, h3, h4, h5, h6⟩ => ⟨h1, h2, h3, h4, hp h5, h6⟩⟩
  cases src <;> simp_all [genuineOf] <;> rfl

/-- The fiducial table is left, and ROUND_DUE is reported. -/
theorem kept_storeRound {x : RoundUnit} (ht : x.table = s.round.table) (hp : s.round.inRange → x.inRange)
    (ha : s.roundAgrees = true → (s.setRound x).roundAgrees = true) : Kept [] s (reportLevel .roundDue (s.setRound x)) := by
  refine ⟨rfl, id, id, fun src _ _ => conditionAgrees_then_report (s := s) (by rfl) (fun y hy => ?_) src, ha, id, id, id,
    fun ⟨h1, h2, h3, h4, h5, h6⟩ => ⟨h1, h2, h3, h4, hp h5, h6⟩⟩
  cases y <;> simp_all [genuineOf] <;> rfl

theorem kept_setHead {x : HeadPort} (hq : s.head.bounded → x.bounded) (ht : x.silenceTimer = s.head.silenceTimer)
    (hd : x.driveState = s.head.driveState) : Kept [] s (s.setHead x) := by
  refine ⟨rfl, hq, id, fun src _ _ => conditionAgrees_of_same (s := s) (by rfl) ?_, id, fun h => ht.trans_le h, id, id, id⟩
  cases src <;> simp_all [genuineOf] <;> rfl

theorem kept_storeFacts (h : HeadStatus) : Kept [] s (storeFacts h s) := by
  refine ⟨rfl, id, id, fun src _ _ => conditionAgrees_then_report (s := s) (by rfl) (fun y hy => ?_) src, id, id, id, id, id⟩
  cases y <;> simp_all [genuineOf] <;> rfl

theorem kept_restartSilence : Kept [] s (restartSilence s) := by
  refine ⟨rfl, id, id, fun src _ _ => conditionAgrees_then_report (s := s) (by rfl) (fun y hy => ?_) src, id, fun _ => le_rfl, id, id, id⟩
  cases y <;> simp_all [genuineOf] <;> rfl

/-- The output queue is left. -/
theorem kept_setStation {x : StationPort} (hq : s.station.bounded → x.bounded) (ho : x.out = s.station.out) :
    Kept [] s (s.setStation x) := by
  refine ⟨rfl, id, hq, fun src _ _ => conditionAgrees_of_same (s := s) (by rfl) ?_, id, id, id, id, id⟩
  cases src <;> simp_all [genuineOf] <;> rfl

theorem kept_storeStation {x : StationPort} (hq : s.station.bounded → x.bounded) :
    Kept [] s (reportLevel .queueCongested (s.setStation x)) := by
  refine ⟨rfl, id, hq, fun src _ _ => conditionAgrees_then_report (s := s) (by rfl) (fun y hy => ?_) src, id, id, id, id, id⟩
  cases y <;> simp_all [genuineOf] <;> rfl

end Blocks

end Sys2Proof.Machine
end

