-- ==== Sys2Proof/Proofs/KeptByBlocks.lean ====
section
/-! The bounds and agreements are kept by every shared operation of the blocks, from the events up to the handling of a sample. -/

namespace Sys2Proof.Machine

variable (s : State)

/-! ### The output queue and the head transmitter -/

theorem kept_admitRecord (r : Record) (h : s.station.out.length < 64) : Kept [] s (admitRecord r s) :=
  kept_storeStation s fun ⟨hrx, _⟩ => ⟨hrx, by simpa using h⟩

theorem kept_depart : Kept [] s (depart s) := by
  unfold depart
  split
  · exact kept_refl _ s
  · exact kept_setStation s (by exact id) (by rfl)
  · exact kept_storeStation s fun ⟨hrx, hout⟩ => ⟨hrx, by simp only [List.length_tail]; omega⟩

theorem kept_beginRecord : Kept [] s (beginRecord s) := by
  unfold beginRecord
  split
  · exact kept_setStation s (by exact id) (by rfl)
  · exact kept_refl _ s

theorem kept_offerPoint (p : PointRecord) : Kept [] s (offerPoint p s) := by
  unfold offerPoint
  split
  · exact kept_trans (kept_admitRecord s _ (by omega)) (kept_setEmitter _ _)
  · exact kept_setStation s (by exact id) (by rfl)

theorem kept_offerStatus (h : HeadStatus) : Kept [] s (offerStatus h s) := by
  unfold offerStatus
  split
  · exact kept_admitRecord s _ (by omega)
  · exact kept_setStation s (by exact id) (by rfl)

/-- R155 and R156: an admission leaves the genuine condition. -/
theorem SourceState.admitted_genuine (src : Source) (x : SourceState) : (x.admitted src).genuine = x.genuine := by
  unfold SourceState.admitted
  split
  · rfl
  · split <;> rfl

theorem kept_arbitrate : Kept [] s (arbitrate s) := by
  unfold arbitrate
  split
  · split
    · exact kept_trans (kept_put s (SourceState.admitted_genuine _ _).symm) (kept_admitRecord _ _ (by assumption))
    · exact kept_refl _ s
  · exact kept_refl _ s

theorem kept_headBegin : Kept [] s (headBegin s) := by
  unfold headBegin
  split
  · exact kept_refl _ s
  · split
    · exact kept_setHead s (by exact id) (by rfl) (by rfl)
    · split
      · next hf =>
        refine kept_setHead s (fun ⟨hrx, hfw⟩ => ⟨hrx, ?_⟩) rfl rfl
        rw [hf, List.length_cons] at hfw
        exact Nat.le_of_succ_le hfw
      · exact kept_refl _ s

theorem kept_writeSteer (f : Steer) : Kept [] s (writeSteer f s) :=
  kept_trans (kept_setHead s (by exact id) (by rfl) (by rfl)) (kept_headBegin _)

theorem kept_headDone : Kept [] s (headDone s) := by
  unfold headDone
  split
  · exact kept_refl _ s
  · exact kept_trans (kept_setHead s (by exact id) (by rfl) (by rfl)) (kept_headBegin _)

theorem kept_passForward (f : ForwardFrame) : Kept [] s (passForward f s) := by
  unfold passForward
  split
  · refine kept_trans (kept_setHead s ?_ (by rfl) (by rfl)) (kept_headBegin _)
    exact fun ⟨hrx, _⟩ => ⟨hrx, by simpa⟩
  · exact kept_trans (kept_setHead s (by exact id) (by rfl) (by rfl)) (kept_occur _ _)

/-! ### The distance unit -/

theorem kept_cancelWait : Kept [] s (cancelWait s) := by
  unfold cancelWait
  split
  case h_1 | h_2 => exact kept_setDistance s (by exact id)
  case h_3 | h_4 => exact kept_refl _ s

theorem kept_dropBase (c : LossCause) : Kept [] s (dropBase c s) := by
  unfold dropBase
  split
  · exact kept_trans (kept_setDistance s (by exact id)) (kept_occur _ _)
  case h_2 | h_3 | h_4 => exact kept_refl _ s

theorem kept_leaveDistance (c : LossCause) : Kept [] s (leaveDistance c s) :=
  kept_trans (kept_cancelWait s) (kept_dropBase _ c)

theorem kept_dropFault : Kept [] s (dropFault s) :=
  kept_trans (kept_trans (kept_setDistance s (by exact id)) (kept_occur _ _)) (kept_occur _ _)

theorem kept_releaseDistance : Kept [] s (releaseDistance s) := by
  unfold releaseDistance
  split
  · exact kept_setDistance s (by exact id)
  · exact kept_refl _ s
  case h_3 | h_4 => exact kept_cancelWait s

theorem kept_autoAdmWait : Kept [] s (autoAdmWait s) := by
  unfold autoAdmWait
  split
  · exact kept_setDistance s (by exact id)
  · exact kept_refl _ s

theorem kept_askRoundWait : Kept [] s (askRoundWait s).1 := by
  unfold askRoundWait
  split
  · exact kept_setDistance s (by exact id)
  · exact kept_refl _ s

theorem kept_decideDistance (f : Sample) (b : Bool) : Kept [] s (decideDistance f b s) := by
  unfold decideDistance
  split
  · exact kept_refl _ s
  · split
    · exact kept_refl _ s
    · exact kept_dropBase s _
  · split
    · split
      · exact kept_setDistance s (by exact id)
      · exact kept_refl _ s
    · exact kept_refl _ s
  · split
    · exact kept_setDistance s (by exact id)
    · exact kept_refl _ s

theorem kept_measure (f : Sample) (a : CorrectedAngles) : Kept [] s (measure f a s).1 := by
  unfold measure
  split
  · split
    · exact kept_refl _ s
    · exact kept_dropFault s
  case h_2 | h_3 | h_4 => exact kept_refl _ s

theorem kept_timeOutWait (k : DistanceSource) : Kept [] s (timeOutWait k s) :=
  kept_trans (kept_setDistance s (by exact id)) (kept_occur _ _)

/-! ### The follower's entries and the search unit -/

theorem kept_enterLost : Kept [] s (enterLost s) := kept_storeFollower s (by exact id)

theorem kept_enterSearching : Kept [] s (enterSearching s) := kept_storeFollower s (by exact id)

theorem kept_enterFollowing (k : Bool) : Kept [] s (enterFollowing k s) := by
  refine kept_trans (kept_storeFollower s ?_) (kept_autoAdmWait _)
  rintro ⟨hset, hint⟩
  refine ⟨hset, ?_⟩
  cases k
  · simp [Follower.integratorsInRange]
  · exact hint

theorem kept_removeSearch : Kept [] s (removeSearch s) := kept_storeSearch s (by exact id)

theorem kept_abortSearch : Kept [] s (abortSearch s) := by
  unfold abortSearch
  split
  · exact kept_removeSearch s
  · exact kept_refl _ s

theorem kept_endSearch (src : Source) : Kept [] s (endSearch src s) :=
  kept_trans (kept_trans (kept_removeSearch s) (kept_occur _ _)) (kept_enterLost _)

/-- R91: taking a step leaves the ring in range. -/
theorem SearchUnit.ringTaken_inRange {u : SearchUnit} (h : u.inRange) (a : Option ActiveSearch) :
    ({ u.ringTaken with active := a } : SearchUnit).inRange := by
  obtain ⟨-, hfill, hrest⟩ := h
  exact ⟨Nat.mod_lt _ (by decide), (Nat.sub_le _ _).trans hfill, hrest⟩

theorem kept_startSearch (i : Fin 8) (c : Angles) (o : SearchOwner) : Kept [] s (startSearch i c o s).1 := by
  unfold startSearch
  dsimp only
  split
  · exact kept_trans (kept_storeSearch s (by exact id)) (kept_enterSearching _)
  · split
    · exact kept_trans (kept_trans (kept_storeSearch s (by exact id)) (kept_enterSearching _)) (kept_endSearch _ _)
    · exact kept_trans (kept_storeSearch s fun h => SearchUnit.ringTaken_inRange h _) (kept_enterSearching _)

theorem kept_askSearch (d : Option (Fin 8)) (c : Angles) (o : SearchOwner) : Kept [] s (askSearch d c o s).1 := by
  unfold askSearch
  split
  · exact kept_refl _ s
  · split
    · exact kept_startSearch s _ c o
    · exact kept_refl _ s

theorem kept_nextStep (a : ActiveSearch) : Kept [] s (nextStep a s).1 := by
  unfold nextStep
  split
  · dsimp only
    split
    · exact kept_storeSearch s (by exact id)
    · split
      · exact kept_storeSearch s (by exact id)
      · exact kept_endSearch s _
  · split
    · exact kept_endSearch s _
    · exact kept_storeSearch s fun h => SearchUnit.ringTaken_inRange h _

theorem kept_searchSample : Kept [] s (searchSample s).1 := by
  unfold searchSample
  split
  · exact kept_refl _ s
  · next a ha =>
    split
    · exact kept_setSearch s (by simp [SearchUnit.patternLow, ha]) id
    · exact kept_nextStep s a

/-! ### Entries to AIMING and PARKED -/

theorem kept_enterAiming (t : Angles) (a : ThenAction) (o : AimOwner) : Kept [] s (enterAiming t a o s) :=
  kept_trans (kept_trans (kept_abortSearch s) (kept_storeFollower _ (by exact id))) (kept_leaveDistance _ _)

/-- R70: an entry to PARKED clears the integrators. -/
theorem Follower.parkedAs_inRange {u : Follower} (h : u.inRange) : u.parkedAs.inRange :=
  ⟨h.1, by simp [Follower.integratorsInRange, Follower.parkedAs]⟩

theorem kept_enterParked : Kept [] s (enterParked s) :=
  kept_trans
    (kept_trans (kept_trans (kept_abortSearch s) (kept_storeFollower _ Follower.parkedAs_inRange)) (kept_leaveDistance _ _))
    (kept_writeSteer _ _)

/-! ### The follower's handling of a sample -/

/-- R86: an axis of the loop leaves its integrator within ±16,384. -/
theorem steerAxis_integrator (kp ki e : Int) {i : Int} (h : -16384 ≤ i ∧ i ≤ 16384) :
    -16384 ≤ (steerAxis kp ki i e).2 ∧ (steerAxis kp ki i e).2 ≤ 16384 := by
  unfold steerAxis
  dsimp only
  split
  · rw [clamp_eq_max_min _ (by decide)]
    omega
  · exact h

theorem kept_steer (c : Corrected) : Kept [] s (steer c s).1 :=
  kept_setFollower s rfl fun ⟨hset, haz, hel⟩ => ⟨hset, steerAxis_integrator _ _ _ haz, steerAxis_integrator _ _ _ hel⟩

theorem kept_closeLoop (k : Bool) (r : FollowerReport) (c : Corrected) : Kept [] s (closeLoop k r c s).state :=
  kept_trans (kept_enterFollowing s k) (kept_steer _ c)

theorem kept_autoSearch (c : Angles) : Kept [] s (autoSearch c s).state := by
  have hask := kept_askSearch s s.follower.autoSearch c .follower
  unfold autoSearch
  split
  · next heq => rw [heq] at hask; exact hask
  · next heq => rw [heq] at hask; exact hask
  · next heq => rw [heq] at hask; exact kept_trans hask (kept_enterLost _)

theorem kept_expireGrace : Kept [] s (expireGrace s).state := by
  unfold expireGrace
  split
  · exact kept_enterLost s
  · exact kept_autoSearch s _

theorem kept_playSample (o : SearchOwner) : Kept [] s (playSample o s).state := by
  have hplay := kept_searchSample s
  unfold playSample
  split
  · next heq => rw [heq] at hplay; exact hplay
  · next heq => rw [heq] at hplay; exact hplay

theorem kept_decidePending (c : Corrected) : Kept [] s (decidePending c s).state := by
  unfold decidePending
  dsimp only
  split
  · exact kept_trans (kept_setFollower s (by rfl) (by exact id)) (kept_closeLoop _ _ _ _)
  · exact kept_trans (kept_setFollower s (by rfl) (by exact id)) (kept_autoSearch _ _)

theorem kept_aimSample (a : Aim) (c : Corrected) : Kept [] s (aimSample a c s).state := by
  unfold aimSample
  split
  · exact kept_setFollower s (by rfl) (by exact id)
  · split
    · exact kept_setFollower s (by rfl) (by exact id)
    · split
      · exact kept_closeLoop s _ _ c
      · exact kept_enterLost s
      · exact kept_enterLost s

theorem kept_enterHolding : Kept [] s (enterHolding s).state := by
  unfold enterHolding
  dsimp only
  split
  · exact kept_trans (kept_storeFollower s (by exact id)) (kept_expireGrace _)
  · exact kept_storeFollower s (by exact id)

theorem kept_countGrace : Kept [] s (countGrace s).state := by
  unfold countGrace
  dsimp only
  split
  · exact kept_trans (kept_setFollower s (by rfl) (by exact id)) (kept_expireGrace _)
  · exact kept_setFollower s (by rfl) (by exact id)

theorem kept_searchingSample (c : Corrected) : Kept [] s (searchingSample c s).state := by
  unfold searchingSample
  dsimp only
  split
  · split
    · exact kept_trans (kept_setFollower s (by rfl) (by exact id)) (kept_playSample _ _)
    · exact kept_trans (kept_trans (kept_removeSearch s) (kept_occur _ _)) (kept_closeLoop _ _ _ c)
  · exact kept_trans (kept_setFollower s (by rfl) (by exact id)) (kept_playSample _ _)

theorem kept_lostSample (c : Corrected) : Kept [] s (lostSample c s).state := by
  unfold lostSample
  split
  · split
    · split
      · exact kept_setFollower s (by rfl) (by exact id)
      · exact kept_closeLoop s _ _ c
    · exact kept_setFollower s (by rfl) (by exact id)
  · exact kept_refl _ s

theorem kept_followerTransition (c : Corrected) : Kept [] s (followerTransition c s).state := by
  unfold followerTransition
  split
  · exact kept_decidePending s c
  · split
    · exact kept_refl _ s
    · split
      · exact kept_aimSample s _ c
      · exact kept_refl _ s
    · split
      · exact kept_steer s c
      · exact kept_enterHolding s
    · split
      · exact kept_closeLoop s _ _ c
      · exact kept_countGrace s
    · exact kept_searchingSample s c
    · exact kept_lostSample s c

theorem kept_followerSample (c : Corrected) : Kept [] s (followerSample c s).state :=
  kept_trans (kept_setFollower s (by rfl) (by exact id)) (kept_followerTransition (notePresence c s) c)

/-! ### The emitter -/

theorem kept_setMode (m : EmissionMode) : Kept [] s (setMode m s) := kept_setEmitter s _

theorem kept_abortSingle : Kept [] s (abortSingle s) := by
  unfold abortSingle
  split
  · exact kept_trans (kept_setMode s _) (kept_occur _ _)
  · exact kept_refl _ s

theorem kept_abortIfBroken (b : State) : Kept [] s (abortIfBroken b s) := by
  unfold abortIfBroken
  split
  · exact kept_abortSingle s
  · exact kept_refl _ s

theorem kept_singleSample (m : SingleMeasure) (c : Corrected) (d : CorrectedDistance) : Kept [] s (singleSample m c d s) := by
  unfold singleSample
  split
  · exact kept_setMode s _
  · split
    · dsimp only
      split
      · exact kept_trans (kept_setMode s _) (kept_offerPoint _ _)
      · exact kept_setMode s _
    · exact kept_setMode s _

theorem kept_modeSample (c : Corrected) (d : CorrectedDistance) : Kept [] s (modeSample c d s) := by
  unfold modeSample
  split
  · exact kept_refl _ s
  · exact kept_singleSample s _ c d
  · unfold streamSample
    split
    · exact kept_trans (kept_setMode s _) (kept_offerPoint _ _)
    · exact kept_setMode s _
  · unfold spacedSample
    split
    · exact kept_trans (kept_setMode s _) (kept_offerPoint _ _)
    · exact kept_refl _ s
  · unfold triggeredSample
    split
    · exact kept_refl _ s
    · exact kept_trans (kept_setMode s _) (kept_offerPoint _ _)

theorem kept_emitterSample (c : Corrected) : Kept [] s (emitterSample c s) := by
  unfold emitterSample
  dsimp only
  split
  · exact kept_trans (kept_setEmitter s _) (kept_abortSingle _)
  · exact kept_trans (kept_trans (kept_setEmitter s _) (kept_setEmitter _ _)) (kept_modeSample _ c _)

end Sys2Proof.Machine
end

