-- ==== Sys2Proof/Proofs/KeptByRounds.lean ====
section
/-! The bounds and agreements are kept by the round unit and by the taking of a sample. -/

namespace Sys2Proof.Machine

variable (s : State)

/-! ### The round state -/

theorem roundAgrees_of_not_running {s : State} (h : s.round.state.isRunning = false) : s.roundAgrees = true := by
  unfold State.roundAgrees
  cases hr : s.round.state <;> simp_all [RoundState.isRunning]

theorem roundAgrees_running_iff {s : State} {r : RunningRound} (h : s.round.state = .running r) :
    s.roundAgrees = true ↔ r.slots[r.results.length]? = some r.current := by
  rw [State.roundAgrees, h, decide_eq_true_eq]

theorem kept_running {r x : RunningRound} (h : s.round.state = .running r)
    (hx : r.slots[r.results.length]? = some r.current → x.slots[x.results.length]? = some x.current) :
    Kept [] s (setRoundState (.running x) s) := by
  refine kept_setRound s (by rfl) (by simp [h]) (by exact id) fun ha => ?_
  rw [roundAgrees_running_iff h] at ha
  exact (roundAgrees_running_iff (s := setRoundState (.running x) s) rfl).2 (hx ha)

theorem kept_storeRoundState {st : RoundState} (h : st.isRunning = false) : Kept [] s (storeRoundState st s) :=
  kept_storeRound s (by rfl) (by exact id) fun _ => roundAgrees_of_not_running h

/-- A change of the fiducial table, with DRIFT reported. -/
theorem kept_storeTableOfRound {x : RoundUnit} (hd : x.state = .due ↔ s.round.state = .due)
    (hp : s.round.inRange → x.inRange) (ha : s.roundAgrees = true → (s.setRound x).roundAgrees = true) :
    Kept [] s (reportLevel .drift (s.setRound x)) := by
  refine ⟨rfl, id, id, fun src _ _ => conditionAgrees_then_report (s := s) (by rfl) (fun y hy => ?_) src, ha, id, id, id,
    fun ⟨h1, h2, h3, h4, h5, h6⟩ => ⟨h1, h2, h3, h4, hp h5, h6⟩⟩
  cases y <;> simp_all [genuineOf] <;> rfl

theorem kept_storeFiducial (i : Fin 16) (e : FiducialEntry) : Kept [] s (storeFiducial i e s) :=
  kept_storeTableOfRound s (by exact Iff.rfl) (by exact id) (by exact id)

/-! ### Slots -/

theorem kept_beginSlot {r₀ : RunningRound} (h : s.round.state = .running r₀) {r : RunningRound} {e : Fin 16}
    (he : r.slots[r.results.length]? = some e) : Kept [] s (beginSlot r e s) :=
  kept_trans (kept_running s h fun _ => he) (kept_enterAiming _ _ _ _)

theorem kept_returnRound : Kept [] s (returnRound s) := by
  unfold returnRound
  split
  · exact kept_enterAiming s _ _ _
  case h_2 | h_3 => exact kept_enterParked s

theorem kept_completeRound {r : RunningRound} (h : s.round.state = .running r) (l : List PendingResult) :
    Kept [] s (completeRound l s) := by
  have hcommit : Kept [] (occur .roundDone s) (reportLevel .drift ((occur .roundDone s).setRound (s.round.committed l))) :=
    kept_storeTableOfRound _ (by simp [h, RoundUnit.committed]) (by simp [RoundUnit.inRange, RoundUnit.committed])
      fun _ => roundAgrees_of_not_running rfl
  exact kept_trans (kept_trans (kept_occur s .roundDone) hcommit) (kept_returnRound _)

theorem kept_endSlot (res : FiducialResult) (aim : Option Angles) : Kept [] s (endSlot res aim s) := by
  unfold endSlot
  split
  · next r hr =>
    have hr' : (releaseDistance s).round.state = .running r := by simpa using hr
    dsimp only
    split
    · next e he => exact kept_trans (kept_releaseDistance s) (kept_beginSlot _ hr' he)
    · exact kept_trans (kept_releaseDistance s) (kept_completeRound _ hr' _)
  case h_2 | h_3 => exact kept_refl _ s

/-! ### Starts and ends of a round -/

theorem kept_startRoundNow : Kept [] s (startRoundNow s) := by
  unfold startRoundNow
  split
  · exact kept_refl _ s
  · refine kept_trans (kept_trans (kept_storeRound s (by rfl) (by exact id) fun _ => ?_) (kept_releaseDistance _))
      (kept_beginSlot _ (by simp [loadPeriod]; rfl) rfl)
    exact (roundAgrees_running_iff rfl).2 rfl

theorem kept_abandonRound (a : AbortReason) : Kept [] s (abandonRound a s) :=
  kept_trans (kept_storeRound s (by rfl) (by exact id) fun _ => roundAgrees_of_not_running rfl) (kept_occur _ _)

theorem kept_tryRound : Kept [] s (tryRound s) := by
  unfold tryRound
  split
  · exact kept_startRoundNow s
  · exact kept_abandonRound s _

theorem kept_examineDue : Kept [] s (examineDue s) := by
  unfold examineDue
  split
  · exact kept_tryRound s
  · exact kept_refl _ s

theorem kept_expirePeriod : Kept [] s (expirePeriod s) := by
  have hload : Kept [] s (s.setRound (loadPeriod s.round)) :=
    kept_setRound s (by rfl) (by exact Iff.rfl) (by exact id) (by exact id)
  unfold expirePeriod
  dsimp only
  split
  · exact hload
  · exact hload
  · split
    · exact kept_trans hload (kept_storeRoundState _ rfl)
    · exact kept_trans hload (kept_tryRound _)

theorem kept_discardRound (a : AbortReason) : Kept [] s (discardRound a s) :=
  kept_trans (kept_setRound s (by rfl) (by exact Iff.rfl) (by exact id) (by exact id)) (kept_abandonRound _ a)

theorem kept_stopRoundFor (a : AbortReason) : Kept [] s (stopRoundFor a s) := by
  unfold stopRoundFor
  split
  · exact kept_trans (kept_releaseDistance s) (kept_discardRound _ a)
  · exact kept_abandonRound s a
  · exact kept_refl _ s

theorem kept_endDue (a : AbortReason) : Kept [] s (endDue a s) := by
  unfold endDue
  split
  · exact kept_abandonRound s a
  · exact kept_refl _ s

/-! ### The round unit on a sample -/

/-- A change of phase, averages or timer of the running round. -/
theorem kept_phase {r x : RunningRound} (h : s.round.state = .running r) (hs : x.slots = r.slots) (hn : x.results = r.results)
    (hc : x.current = r.current) : Kept [] s (setRoundState (.running x) s) :=
  kept_running s h fun ha => by rwa [hs, hn, hc]

theorem askSearch_round (d : Option (Fin 8)) (c : Angles) (o : SearchOwner) : (askSearch d c o s).1.round = s.round :=
  keeps_askSearch d c o s .round (by decide)

theorem kept_askRoundSearch {r : RunningRound} (h : s.round.state = .running r) : Kept [] s (askRoundSearch r s).state := by
  have hask := kept_askSearch s (s.round.entry r).descriptor (s.round.entry r).aim .round
  have hround := askSearch_round s (s.round.entry r).descriptor (s.round.entry r).aim .round
  unfold askRoundSearch
  split
  · next t target heq =>
    rw [heq] at hask hround
    exact kept_trans hask (kept_phase t (r := r) (hround ▸ h) rfl rfl rfl)
  case h_2 | h_3 => next heq => rw [heq] at hask; exact hask

theorem kept_roundSearch (c : Corrected) (h : Handled) : Kept [] h.state (roundSearch c h).state := by
  unfold roundSearch
  split
  · next r hr =>
    split
    · split
      · exact kept_refl _ _
      · exact kept_askRoundSearch _ hr
    · exact kept_askRoundSearch _ hr
    · exact kept_trans (kept_releaseDistance _) (kept_askRoundSearch _ (by simpa using hr))
    · exact kept_refl _ _
  case h_2 | h_3 => exact kept_refl _ _

theorem kept_centreSample {r : RunningRound} (h : s.round.state = .running r) (c : Corrected) :
    Kept [] s (centreSample r c s) := by
  have hask := kept_askRoundWait s
  have hround : (askRoundWait s).1.round = s.round := keeps_askRoundWait s .round (by decide)
  unfold centreSample
  split
  · split
    · next t heq =>
      rw [heq] at hask hround
      exact kept_trans hask (kept_phase t (r := r) (hround ▸ h) rfl rfl rfl)
    · next t heq =>
      rw [heq] at hask
      exact kept_trans hask (kept_endSlot t _ _)
  · exact kept_phase s h rfl rfl rfl

theorem kept_averageSample {r : RunningRound} (h : s.round.state = .running r) (c : Corrected) :
    Kept [] s (averageSample r c s) := by
  unfold averageSample
  split
  · exact kept_endSlot s _ _
  · dsimp only
    split
    · exact kept_phase s h rfl rfl rfl
    · exact kept_endSlot s _ _

theorem kept_roundSample (rep : FollowerReport) (c : Corrected) : Kept [] s (roundSample rep c s) := by
  unfold roundSample
  split
  · next r hr =>
    split
    · exact kept_endSlot s _ _
    · exact kept_phase s hr rfl rfl rfl
    · exact kept_centreSample s hr c
    · exact kept_centreSample s hr c
    · exact kept_centreSample s hr c
    · exact kept_averageSample s hr c
    · exact kept_refl _ s
  case h_2 | h_3 => exact kept_refl _ s

theorem kept_roundEstablished : Kept [] s (roundEstablished s) := by
  unfold roundEstablished
  split
  · next r hr =>
    split
    · exact kept_phase s hr rfl rfl rfl
    · exact kept_refl _ s
  case h_2 | h_3 => exact kept_refl _ s

theorem kept_roundWaitFailed : Kept [] s (roundWaitFailed s) := by
  unfold roundWaitFailed
  split
  · split
    · exact kept_endSlot s _ _
    · exact kept_refl _ s
  case h_2 | h_3 => exact kept_refl _ s

/-! ### The taking of a sample -/

theorem kept_decideStep (f : Sample) (b : Bool) : Kept [] s (decideStep f b s) := by
  refine kept_trans (kept_decideDistance s f b) ?_
  unfold decideStep noteEstablished
  split
  · exact kept_roundEstablished _
  · exact kept_refl _ _

theorem kept_correctSample (f : Sample) : Kept [] s (correctSample f s).1 := by
  unfold correctSample
  split
  · exact kept_trans (kept_setCorrection s (by rfl) (by rfl) (by exact id) (by exact id)) (kept_decideStep _ f false)
  · exact kept_trans (kept_trans (kept_decideStep s f _) (kept_measure _ f _))
      (kept_setCorrection _ (by rfl) (by rfl) (by exact id) (by exact id))

theorem kept_writeFrame (o : Option Steer) : Kept [] s (writeFrame o s) := by
  unfold writeFrame
  split
  · exact kept_writeSteer s _
  · exact kept_refl _ s

theorem kept_handOver (c : Corrected) : Kept [] s (handOver c s) := by
  have hsearch := kept_trans (kept_followerSample s c) (kept_roundSearch c (followerSample c s))
  have hpoint := kept_trans (kept_writeFrame (roundSearch c (followerSample c s)).state (roundSearch c (followerSample c s)).frame) (kept_emitterSample _ c)
  exact kept_trans (kept_trans hsearch hpoint) (kept_trans (kept_roundSample _ _ c) (kept_examineDue _))

theorem kept_takeOldest : Kept [] s (takeOldest s) := by
  unfold takeOldest
  split
  · exact kept_refl _ s
  · next f rest hrx =>
    have htake : Kept [] s (s.setHead { s.head with rx := rest }) := by
      refine kept_setHead s (fun ⟨hb, hf⟩ => ⟨?_, hf⟩) (by rfl) (by rfl)
      rw [hrx, List.length_cons] at hb
      exact Nat.le_of_succ_le hb
    unfold processSample
    exact kept_trans htake (kept_trans (kept_correctSample _ f) (kept_handOver _ _))

end Sys2Proof.Machine
end

