-- ==== Sys2Proof/Proofs/KeptByTicks.lean ====
section
/-! The bounds and agreements are kept by a tick. The counting alone can make the owner's HEAD_SILENT condition true; the
assertion, handled on the same tick, reports it. -/

namespace Sys2Proof.Machine

variable (s : State)

/-! ### The expiries -/

theorem kept_silenceFollower : Kept [] s (silenceFollower s) := by
  have hsilenced : Kept [] s (silenceFollower.silenced s) :=
    kept_trans (kept_trans (kept_abortSearch s) (kept_setFollower _ (by rfl) (by exact id))) (kept_enterLost _)
  unfold silenceFollower
  split
  case h_1 | h_2 => exact kept_setFollower s (by rfl) (by exact id)
  case h_3 | h_4 | h_5 | h_6 => exact hsilenced

theorem kept_silenceRelease : Kept [] s (silenceRelease s) := by
  unfold silenceRelease
  split
  · split
    · exact kept_trans (kept_useFree s) (kept_releaseDistance _)
    · exact kept_useFree s
  · exact kept_refl _ s

theorem kept_silenceRound : Kept [] s (silenceRound s) := by
  unfold silenceRound
  split
  · exact kept_discardRound s _
  · exact kept_refl _ s

/-- What follows the report of an assertion. -/
theorem kept_afterSilence :
    Kept [] s (examineDue (silenceRound (abortSingle (silenceFollower (leaveDistance .silence (silenceRelease s)))))) := by
  have hdistance := kept_trans (kept_silenceRelease s) (kept_leaveDistance _ .silence)
  have hblocks := kept_trans (kept_trans hdistance (kept_silenceFollower _)) (kept_abortSingle _)
  exact kept_trans (kept_trans hblocks (kept_silenceRound _)) (kept_examineDue _)

theorem kept_assertSilence : Kept [] s (assertSilence s) :=
  kept_trans (kept_reportLevel s .headSilent) (kept_afterSilence _)

/-- R168: after an assertion the event unit holds the port's condition, whatever it held before. -/
theorem assertSilence_agrees : (assertSilence s).conditionAgrees .headSilent :=
  (kept_afterSilence (reportLevel .headSilent s)).conditions _ rfl List.not_mem_nil (conditionAgrees_report _ s)

theorem kept_expireWait : Kept [] s (expireWait s) := by
  unfold expireWait
  split
  · split
    · exact kept_trans (kept_timeOutWait s _) (kept_roundWaitFailed _)
    · exact kept_timeOutWait s _
  · exact kept_refl _ s

theorem kept_roundAimTimeout : Kept [] s (roundAimTimeout s) := by
  unfold roundAimTimeout
  split
  · split
    · exact kept_endSlot s _ _
    · exact kept_refl _ s
  case h_2 | h_3 => exact kept_refl _ s

theorem kept_expireAim : Kept [] s (expireAim s) := by
  have hlost := kept_trans (kept_enterLost s) (kept_occur _ .aimTimeout)
  unfold expireAim
  split
  · split
    · dsimp only
      split
      · exact kept_trans (kept_trans hlost (kept_roundAimTimeout _)) (kept_examineDue _)
      · exact kept_trans hlost (kept_examineDue _)
    · exact kept_refl _ s
  · exact kept_refl _ s

theorem kept_expireMeasure : Kept [] s (expireMeasure s) := by
  unfold expireMeasure
  split
  · split
    · exact kept_trans (kept_trans (kept_setMode s _) (kept_occur _ _)) (kept_examineDue _)
    · exact kept_refl _ s
  case h_2 | h_3 | h_4 | h_5 => exact kept_refl _ s

theorem kept_expireSlot : Kept [] s (expireSlot s) := by
  unfold expireSlot
  split
  · split
    · exact kept_endSlot s _ _
    · exact kept_refl _ s
  case h_2 | h_3 => exact kept_refl _ s

theorem kept_expireRoundPeriod : Kept [] s (expireRoundPeriod s) := by
  unfold expireRoundPeriod
  split
  · exact kept_expirePeriod s
  · exact kept_refl _ s

theorem kept_expire (silent : Bool) (e : Expiry) : Kept [] s (expire silent s e) := by
  cases e with
  | silence =>
    simp only [expire]
    split
    · exact kept_assertSilence s
    · exact kept_refl _ s
  | establish => exact kept_expireWait s
  | aim => exact kept_expireAim s
  | measure => exact kept_expireMeasure s
  | slot => exact kept_expireSlot s
  | period => exact kept_expireRoundPeriod s

theorem kept_expireAll (silent : Bool) (order : List Expiry) : Kept [] s (order.foldl (expire silent) s) := by
  induction order generalizing s with
  | nil => exact kept_refl _ s
  | cons e rest ih => exact kept_trans (kept_expire s silent e) (ih _)

/-- However many timers come before and after it, the assertion leaves HEAD_SILENT agreeing. -/
theorem expireAll_agrees {order : List Expiry} (h : .silence ∈ order) :
    (order.foldl (expire true) s).conditionAgrees .headSilent := by
  obtain ⟨before, after, rfl⟩ := List.append_of_mem h
  rw [List.foldl_append, List.foldl_cons]
  exact (kept_expireAll _ true after).conditions _ rfl List.not_mem_nil (assertSilence_agrees _)

/-! ### The counting -/

theorem RoundState.tick_due (x : RoundState) : x.tick = .due ↔ x = .due := by cases x <;> simp [RoundState.tick]

/-- The counting changes no owner's condition but those of HEAD_SILENT and REFRACTION_STALE, and reports the second. -/
theorem genuineOf_countTick {src : Source} (h : src ≠ .headSilent) (h' : src ≠ .refractionStale) :
    genuineOf (countTick s) src = genuineOf s src := by
  cases src <;> simp_all [genuineOf, countTick, RoundUnit.tick, RoundState.tick_due, CorrectionUnit.uncompensated]

theorem genuineOf_countTick_headSilent :
    genuineOf (countTick s) .headSilent = decide (s.head.silenceTimer - 1 = 0) := by
  simp [genuineOf, countTick]

theorem countTick_events_get {src : Source} (h : src ≠ .refractionStale) :
    (countTick s).events.get src = s.events.get src :=
  (sources_countTick s).2 src (by simpa using h)

theorem roundAgrees_countTick (h : s.roundAgrees = true) : (countTick s).roundAgrees = true := by
  cases hr : s.round.state with
  | running r =>
    rw [roundAgrees_running_iff hr] at h
    exact (roundAgrees_running_iff (countTick_running hr)).2 h
  | idle | due => exact roundAgrees_of_not_running (by simp [countTick, RoundUnit.tick, hr, RoundState.tick, RoundState.isRunning])

theorem kept_countTick : Kept [.headSilent] s (countTick s) := by
  refine ⟨rfl, id, id, fun src _ ho ha => ?_, roundAgrees_countTick s, fun h => (Nat.sub_le _ _).trans h, id, id, id⟩
  by_cases hs : src = .refractionStale
  · subst hs
    exact conditionAgrees_report _ _
  · rw [State.conditionAgrees, countTick_events_get s hs, genuineOf_countTick s (by simpa using ho) hs]
    exact ha

/-! ### The tick -/

theorem kept_tickIn {order : List Expiry} (h : .silence ∈ order) : Kept [] s (tickIn order s) := by
  have hall : Kept [.headSilent] s (tickIn order s) :=
    kept_trans (kept_countTick s) (kept_mono (kept_expireAll _ _ order) (List.nil_subset _))
  refine { hall with conditions := fun src hl _ ha => ?_ }
  by_cases hs : src = .headSilent
  · subst hs
    unfold tickIn
    by_cases ht : s.head.silenceTimer = 1
    · rw [decide_eq_true ht]
      exact expireAll_agrees _ h
    · refine (kept_expireAll _ _ order).conditions _ rfl List.not_mem_nil ?_
      rw [State.conditionAgrees, genuineOf_countTick_headSilent, countTick_events_get s (by decide), ha]
      simp only [genuineOf, decide_eq_decide]
      omega
  · exact hall.conditions src hl (by simpa using hs) ha

theorem kept_baseTick : Kept [] s (baseTick s) := by
  unfold baseTick
  split
  · exact kept_trans (kept_useFree s) (kept_tickIn _ (mem_freeOrder _ _))
  · exact kept_tickIn s (by decide)

theorem kept_namedTick (e : Expiry) : Kept [] s (namedTick e s) := by
  unfold namedTick
  split
  · split
    · refine kept_trans (kept_useFree s) (kept_tickIn _ ?_)
      by_cases he : Expiry.silence = e
      · exact he ▸ List.mem_cons_self
      · exact List.mem_cons_of_mem _ (List.mem_filter.2 ⟨mem_freeOrder _ _, by simpa using he⟩)
    · exact kept_tickIn s (by decide)
  · exact kept_refl _ s

end Sys2Proof.Machine
end

