-- ==== Sys2Proof/Proofs/KeptByRequests.lean ====
section
/-! The bounds and agreements are kept by every request that the owning blocks answer, RESTART apart. -/

namespace Sys2Proof.Machine

variable (s : State)

theorem clamp_mem (lo hi x : Int) (h : lo ≤ hi) : lo ≤ clamp lo hi x ∧ clamp lo hi x ≤ hi := by
  rw [clamp_eq_max_min x h]
  omega

/-! ### The correction unit and the pose table -/

theorem kept_loadRequest (b : Byte) (act : Axis → Answer) (h : ∀ a, Kept [] s (act a).state) :
    Kept [] s (loadRequest b s act).state :=
  loadRequest_cases (motive := fun x => Kept [] s x.state) (fun _ _ => kept_refl _ s) h

theorem kept_writeEntries {a : Axis} (h : (s.correction.table a).load = .loading) (start : Nat) (l : List Half) :
    Kept [] s (s.setCorrection (s.correction.setTable a ((s.correction.table a).writeEntries start l))) := by
  have hcomplete : ((s.correction.table a).writeEntries start l).complete = true := by
    simp [CompTable.complete, h]
  cases a
  · refine kept_setCorrection s (by rfl) (by rfl) ?_ (by exact id)
    exact fun hc => ⟨hcomplete, hc.2⟩
  · refine kept_setCorrection s (by rfl) (by rfl) ?_ (by exact id)
    exact fun hc => ⟨hc.1, hcomplete⟩

theorem kept_loadData (b c : Byte) (l : List Half) : Kept [] s (loadData b c l s).state :=
  kept_loadRequest s b _ fun a => by
    split
    · exact kept_refl _ s
    · next h =>
      split
      · exact kept_refl _ s
      · exact kept_writeEntries s (not_not.1 h) _ l

theorem kept_endLoad (b c : Byte) : Kept [] s (endLoad b c s).state :=
  kept_loadRequest s b _ fun a => by
    dsimp only
    split
    · exact kept_refl _ s
    · split
      · next h => exact kept_storeTable s (by simpa [CompTable.complete, CompTable.writtenCount] using h.2)
      · exact kept_storeTable s (by simp [CompTable.complete, CompTable.blank])

theorem kept_storePose_valid (i : Fin 8) {e : PoseEntry} (h : e.state = .valid) : Kept [] s (storePose i e s) := by
  refine kept_setPoses s fun hv j hj => ?_
  simp only [Fin.getElem_fin, Vector.getElem_set]
  split
  · exact h
  · exact hv j hj

theorem kept_storePose_inactive {i : Fin 8} (h : s.poses.active ≠ some i) (e : PoseEntry) : Kept [] s (storePose i e s) := by
  refine kept_setPoses s fun hv j hj => ?_
  simp only [Fin.getElem_fin, Vector.getElem_set]
  split
  · next hij => exact absurd (by rw [show s.poses.active = some j from hj, Fin.ext hij]) h
  · exact hv j hj

theorem kept_writePose (i : Byte) (p : PoseField) (l : Half) : Kept [] s (writePose i p l s).state := by
  unfold writePose
  split
  · exact kept_refl _ s
  · split
    · exact kept_refl _ s
    · split
      · exact kept_refl _ s
      · exact kept_storePose_valid s _ rfl

theorem kept_clearPose (i : Byte) : Kept [] s (clearPose i s).state := by
  unfold clearPose
  split
  · exact kept_refl _ s
  · split
    · exact kept_refl _ s
    · next h => exact kept_storePose_inactive s h _

theorem kept_selectPose (i : Byte) : Kept [] s (selectPose i s).state := by
  unfold selectPose
  split
  · exact kept_refl _ s
  · split
    · exact kept_refl _ s
    · split
      · exact kept_refl _ s
      · next o _ _ hvalid =>
        refine kept_trans (kept_setPoses s fun _ i hi => ?_) (kept_setEmitter _ _)
        rw [show o = some i from hi, Option.any_some, decide_eq_true_eq] at hvalid
        cases hs : s.poses.entries[i].state
        · exact absurd hs hvalid
        · rfl

/-! ### The distance unit and the follower -/

theorem kept_establishAdm : Kept [] s (establishAdm s).state := by
  unfold establishAdm
  split_ifs
  case pos | pos | pos => exact kept_refl _ s
  case neg => exact kept_setDistance s (by exact id)

theorem kept_establishHome : Kept [] s (establishHome s).state := by
  unfold establishHome
  split_ifs
  case pos | pos | pos => exact kept_refl _ s
  case neg => exact kept_setDistance s (by exact id)

theorem kept_dropFor : Kept [] s (dropFor s) := by
  have h := kept_trans (kept_releaseDistance s) (kept_abortIfBroken _ s)
  unfold dropFor
  dsimp only
  split
  · exact kept_trans h (kept_roundWaitFailed _)
  case h_2 | h_3 | h_4 | h_5 => exact h
  · exact kept_trans h (kept_examineDue _)

theorem kept_follow : Kept [] s (follow s).state := by
  unfold follow
  split
  · exact kept_refl _ s
  · split
    · exact kept_refl _ s
    · split
      case h_1 | h_2 | h_3 => exact kept_setFollower s (by rfl) (by exact id)
      case h_4 | h_5 | h_6 => exact kept_refl _ s

theorem kept_parkFor (a : AbortReason) : Kept [] s (parkFor a s) := by
  unfold parkFor
  split
  · exact kept_trans (kept_setFollower s (by rfl) (by exact id)) (kept_endDue _ a)
  · exact kept_trans (kept_trans (kept_stopRoundFor s a) (kept_enterParked _)) (kept_abortIfBroken _ s)

theorem kept_goTo (az el : Word) (b : Byte) : Kept [] s (goTo az el b s).state := by
  unfold goTo
  split
  · exact kept_refl _ s
  · split
    · exact kept_refl _ s
    · split
      · exact kept_refl _ s
      · split
        · exact kept_refl _ s
        · exact kept_trans (kept_enterAiming s _ _ _) (kept_abortIfBroken _ s)

/-! ### The search unit -/

theorem kept_writeSteps (i : Half) (l : List StepField) : Kept [] s (writeSteps i l s).state := by
  unfold writeSteps
  split_ifs
  case pos | pos | pos => exact kept_refl _ s
  case neg => exact kept_setSearch s (by rfl) (by exact id)

/-- R92: a descriptor that passes check 3 lies in the block region. -/
theorem descriptorOf_inRegion {st m : Byte} {a b : Half} {r : Byte} {d : Descriptor} (h : descriptorOf st m a b r = some d) :
    d.inRegion = true := by
  unfold descriptorOf at h
  split at h
  · cases h
    rfl
  · split at h
    · next hr =>
      cases h
      simp only [Descriptor.inRegion, Bool.and_eq_true, decide_eq_true_eq]
      exact ⟨⟨hr.2.1, hr.2.2.2.2⟩, hr.2.2.2.1⟩
    · cases h
  · cases h
  · cases h

theorem kept_writeSearch (i st m : Byte) (a b : Half) (r : Byte) : Kept [] s (writeSearch i st m a b r s).state := by
  unfold writeSearch
  split
  · exact kept_refl _ s
  · split
    · exact kept_refl _ s
    · split
      · exact kept_refl _ s
      · next d hd =>
        refine kept_setSearch s (by rfl) fun ⟨hread, hfill, hmargin, hdesc⟩ => ⟨hread, hfill, hmargin, fun j => ?_⟩
        simp only [Fin.getElem_fin, Vector.getElem_set]
        split
        · exact descriptorOf_inRegion hd
        · exact hdesc j

/-- R96: appending stops at a full ring. -/
theorem SearchUnit.appendAll_inRange {u : SearchUnit} (h : u.inRange) (l : List Step) : (u.appendAll l).inRange := by
  induction l generalizing u with
  | nil => exact h
  | cons st rest ih =>
    unfold SearchUnit.appendAll
    split
    · next hroom => exact ih ⟨h.1, hroom, h.2.2⟩
    · exact h

theorem kept_appendSteps (l : List StepField) : Kept [] s (appendSteps l s).state := by
  unfold appendSteps
  split
  · exact kept_refl _ s
  · exact kept_storeSearch s fun h => SearchUnit.appendAll_inRange h _

/-- R97: no STREAM search is active, so that the empty ring makes no PATTERN_LOW. -/
theorem kept_resetStream : Kept [] s (resetStream s).state := by
  unfold resetStream
  split
  · exact kept_refl _ s
  · next hs =>
    refine kept_setSearch s ?_ fun h => ⟨Nat.zero_lt_succ _, Nat.zero_le _, h.2.2⟩
    cases ha : s.search.active with
    | none => simp [SearchUnit.patternLow, ha]
    | some a => simp_all [SearchUnit.patternLow, SearchUnit.streaming]

theorem kept_writeStart (r : State × SearchStart) : Kept [] r.1 (writeStart r) := by
  unfold writeStart
  split
  · exact kept_writeSteer _ _
  · exact kept_trans (kept_writeSteer _ _) (kept_examineDue _)
  · exact kept_refl _ _

theorem kept_stationSearch (i : Byte) : Kept [] s (stationSearch i s).state := by
  unfold stationSearch
  split
  · exact kept_refl _ s
  · split_ifs
    case pos | pos | pos | pos => exact kept_refl _ s
    case neg =>
      have hmark : Kept [] s (s.setFollower { s.follower with followPending := false }) :=
        kept_setFollower s (by rfl) (by exact id)
      exact kept_trans hmark (kept_trans (kept_startSearch _ _ _ _) (kept_writeStart _))

/-! ### The emitter and the round unit -/

theorem kept_startMeasure (m k : Byte) (a b c : Word) : Kept [] s (startMeasure m k a b c s).state := by
  unfold startMeasure
  split
  · exact kept_refl _ s
  · split_ifs
    case pos | pos => exact kept_refl _ s
    case neg => exact kept_setMode s _

theorem kept_writeFiducial (i : Byte) (f : FiducialField) : Kept [] s (writeFiducial i f s).state := by
  unfold writeFiducial
  split
  · exact kept_refl _ s
  · split
    · exact kept_refl _ s
    · split
      · exact kept_refl _ s
      · exact kept_storeFiducial s _ _

theorem kept_changeFiducial (st : FiducialState) (i : Byte) : Kept [] s (changeFiducial st i s).state := by
  unfold changeFiducial
  split
  · exact kept_refl _ s
  · split_ifs
    case pos | pos => exact kept_refl _ s
    case neg => exact kept_storeFiducial s _ _

theorem kept_startRound : Kept [] s (startRound s).state := by
  unfold startRound
  split
  · exact kept_refl _ s
  · split
    · exact kept_refl _ s
    · split
      · exact kept_refl _ s
      · exact kept_startRoundNow s

theorem kept_stopRound : Kept [] s (stopRound s).state := by
  unfold stopRound
  split
  · exact kept_trans (kept_stopRoundFor s _) (kept_enterParked _)
  · exact kept_stopRoundFor s _
  · exact kept_refl _ s

/-! ### Events and parameters -/

theorem kept_ackEvent (n : Byte) : Kept [] s (ackEvent n s).state := by
  unfold ackEvent
  dsimp only
  split
  · exact kept_refl _ s
  · split
    · exact kept_put s (by simp)
    · exact kept_put s (by rfl)

theorem kept_raiseTest (n : Byte) : Kept [] s (raiseTest n s).state := by
  unfold raiseTest
  dsimp only
  split
  · exact kept_refl _ s
  · split_ifs
    case pos => exact kept_refl _ s
    case neg => exact kept_put s (by simp)
    case neg => exact kept_put s (by simp)

theorem kept_setEnumerated {α : Type} (i : Byte) (v : Word) (o : Option α) (f : α → State) (h : ∀ x, Kept [] s (f x)) :
    Kept [] s (setEnumerated i v o s f).state := by
  unfold setEnumerated
  split
  · exact kept_refl _ s
  · exact h _

/-- R62: T_off is lowered when it exceeds T_on - 20. -/
theorem kept_setThresholds (i : Byte) {on off : Nat} (b : Bool) (hon : s.follower.inRange → 50 ≤ on ∧ on ≤ 4095)
    (hoff : s.follower.inRange → 20 ≤ off) : Kept [] s (setThresholds i on off b s).state := by
  refine kept_setFollower s (by rfl) fun h => ?_
  have hon := hon h
  have hoff := hoff h
  obtain ⟨⟨h1, h2, h3, h4, -, -, h5⟩, hint⟩ := h
  exact ⟨⟨h1, h2, h3, h4, hon, by dsimp only; omega, h5⟩, hint⟩

/-- The value that a numeric parameter stores. -/
theorem clamp_toNat_mem {hi : Int} (x : Int) (h : 0 ≤ hi) : ((clamp 0 hi x).toNat : Int) ≤ hi := by
  have := clamp_mem 0 hi x h
  omega

theorem clamp_toNat_range {hi : Int} (x : Int) (h : 0 ≤ hi) :
    (0 : Int) ≤ ((clamp 0 hi x).toNat : Int) ∧ ((clamp 0 hi x).toNat : Int) ≤ hi :=
  ⟨Int.natCast_nonneg _, clamp_toNat_mem x h⟩

theorem kept_setGain {u : Follower} (hb : u.state.beamAbsent = s.follower.state.beamAbsent)
    (hint : s.follower.integratorsInRange → u.integratorsInRange)
    (hset : s.follower.settingsInRange → u.settingsInRange) : Kept [] s (s.setFollower u) :=
  kept_setFollower s hb fun h => ⟨hset h.1, hint h.2⟩

theorem kept_storeParam (p : Param) (i : Byte) (v : Word) : Kept [] s (storeParam p i v s).state := by
  cases p with
  | admQualityMin =>
    refine kept_setDistance s fun h => ⟨?_, h.2⟩
    exact Int.ofNat_le.1 (clamp_toNat_mem _ (by decide))
  | homeDistance =>
    refine kept_setDistance s fun h => ⟨h.1, ?_⟩
    exact Int.ofNat_le.1 (clamp_toNat_mem _ (by decide))
  | autoAdm => exact kept_setEnumerated s _ _ _ _ fun x => kept_setDistance s (by exact id)
  | kpAz => exact kept_setGain s (by rfl) (by exact id) fun h => ⟨clamp_toNat_range _ (by decide), h.2⟩
  | kpEl => exact kept_setGain s (by rfl) (by exact id) fun h => ⟨h.1, clamp_toNat_range _ (by decide), h.2.2⟩
  | kiAz =>
    exact kept_setGain s (by rfl) (by exact id) fun h => ⟨h.1, h.2.1, clamp_toNat_range _ (by decide), h.2.2.2⟩
  | kiEl =>
    exact kept_setGain s (by rfl) (by exact id)
      fun h => ⟨h.1, h.2.1, h.2.2.1, clamp_toNat_range _ (by decide), h.2.2.2.2⟩
  | tOn =>
    have hon := clamp_mem 50 4095 v.toInt (by decide)
    exact kept_setThresholds s _ _ (fun _ => by omega) fun ⟨⟨_, _, _, _, _, hoff, _⟩, _⟩ => hoff.1
  | tOff =>
    have hoff := clamp_mem 20 4095 v.toInt (by decide)
    exact kept_setThresholds s _ _ (fun ⟨⟨_, _, _, _, hon, _⟩, _⟩ => hon) fun _ => by omega
  | grace =>
    refine kept_setGain s (by rfl) (by exact id) fun ⟨h1, h2, h3, h4, h5, h6, _⟩ => ⟨h1, h2, h3, h4, h5, h6, ?_⟩
    exact Int.ofNat_le.1 (clamp_toNat_mem _ (by decide))
  | autoSearch => exact kept_setEnumerated s _ _ _ _ fun x => kept_setFollower s (by rfl) (by exact id)
  | margin =>
    refine kept_storeSearch s fun h => ⟨h.1, h.2.1, ?_, h.2.2.2⟩
    exact Int.ofNat_le.1 (clamp_toNat_mem _ (by decide))
  | polarity => exact kept_setEnumerated s _ _ _ _ fun x => kept_setEmitter s _
  | period =>
    refine kept_setRound s (by rfl) (by exact Iff.rfl) (fun _ => ?_) (by exact id)
    exact Int.ofNat_le.1 (clamp_toNat_mem _ (by decide))
  | returnSetting =>
    exact kept_setEnumerated s _ _ _ _ fun x => kept_setRound s (by rfl) (by exact Iff.rfl) (by exact id) (by exact id)

theorem kept_setParam (i : Byte) (v : Word) : Kept [] s (setParam i v s).state := by
  unfold setParam
  split
  · exact kept_refl _ s
  · split
    · exact kept_refl _ s
    · exact kept_storeParam s _ i v

/-! ### Reads (R33, R95, R134, R176) -/

theorem readPose_state (i : Byte) : (readPose i s).state = s := by
  unfold readPose
  split <;> rfl

theorem readSearch_state (i : Byte) : (readSearch i s).state = s := by
  unfold readSearch
  split <;> rfl

theorem readSteps_state (a : Half) (b : Byte) : (readSteps a b s).state = s := by
  unfold readSteps
  split <;> rfl

theorem readFiducial_state (i : Byte) : (readFiducial i s).state = s := by
  unfold readFiducial
  split <;> rfl

theorem readStatus_state (c : Byte) : (readStatus c s).state = s := by
  unfold readStatus
  split <;> rfl

theorem kept_of_eq {s t : State} (h : t = s) : Kept [] s t := h ▸ kept_refl _ t

/-! ### Every request -/

theorem kept_perform {r : Request} (hr : r ≠ .restart) : Kept [] s (perform r s).state := by
  cases r with
  | loadCompBegin a => exact kept_loadRequest s a _ fun _ => kept_storeTable s (by decide)
  | loadCompData a b c => exact kept_loadData s a b c
  | loadCompEnd a b => exact kept_endLoad s a b
  | setRefraction n => exact kept_storeRefraction s (clamp_mem _ _ _ (by decide))
  | writePose a b c => exact kept_writePose s a b c
  | clearPose a => exact kept_clearPose s a
  | readPose a => exact kept_of_eq (readPose_state s a)
  | selectPose a => exact kept_selectPose s a
  | establishAdm => exact kept_establishAdm s
  | establishHome => exact kept_establishHome s
  | dropDistance => exact kept_dropFor s
  | follow => exact kept_follow s
  | park => exact kept_parkFor s _
  | goto a b c => exact kept_goTo s a b c
  | writeSteps a b => exact kept_writeSteps s a b
  | writeSearch a b c d e f => exact kept_writeSearch s a b c d e f
  | appendSteps a => exact kept_appendSteps s a
  | resetStream => exact kept_resetStream s
  | readSearch a => exact kept_of_eq (readSearch_state s a)
  | readSteps a b => exact kept_of_eq (readSteps_state s a b)
  | startSearch a => exact kept_stationSearch s a
  | startMeasure a b c d e => exact kept_startMeasure s a b c d e
  | stopMeasure => exact kept_trans (kept_setMode s _) (kept_examineDue _)
  | readLatest => exact kept_setEmitter s _
  | writeFiducial a b => exact kept_writeFiducial s a b
  | enableFiducial a => exact kept_changeFiducial s _ a
  | disableFiducial a => exact kept_changeFiducial s _ a
  | readFiducial a => exact kept_of_eq (readFiducial_state s a)
  | startRound => exact kept_startRound s
  | stopRound => exact kept_stopRound s
  | ackEvent a => exact kept_ackEvent s a
  | raiseTest a => exact kept_raiseTest s a
  | setFloor a =>
    refine kept_setFloor s (Int.ofNat_le.1 (clamp_toNat_mem _ (by decide)))
  | setParam a b => exact kept_setParam s a b
  | readStatus a => exact kept_of_eq (readStatus_state s a)
  | restart => exact absurd rfl hr

end Sys2Proof.Machine
end

