-- ==== Sys2Proof/Proofs/KeptBySteps.lean ====
section
/-! The bounds and agreements are kept by the ports, by a restart, and so by every command; the statements that follow. -/

namespace Sys2Proof.Machine

section Ports

variable (s : State)

/-! ### The restart and the power-on reset (R180, R181) -/

/-- R163: after the re-evaluation each source holds its owner's condition. -/
theorem reevaluate_get (src : Source) : (reevaluate s).events.get src = .afterRestart s src := by
  cases src <;> simp [reevaluate, EventUnit.get, Source.idx, Source.all]

theorem genuineOf_reevaluate (src : Source) : genuineOf (reevaluate s) src = genuineOf s src := genuineOf_setEvents s _ src

theorem reevaluate_agrees (src : Source) : (reevaluate s).conditionAgrees src := by
  rw [State.conditionAgrees, reevaluate_get, genuineOf_reevaluate]
  rfl

theorem kept_setEvents {e : EventUnit} (hf : e.inRange) (ha : ∀ src, (s.setEvents e).conditionAgrees src) :
    Kept [] s (s.setEvents e) :=
  ⟨rfl, id, id, fun src _ _ _ => ha src, id, id, id, id, fun ⟨h1, h2, h3, h4, h5, _⟩ => ⟨h1, h2, h3, h4, h5, hf⟩⟩

theorem kept_reevaluate : Kept [] s (reevaluate s) := kept_setEvents s (Nat.zero_le 14) (reevaluate_agrees s)

theorem restarted_station_bounded : s.station.restarted.bounded := ⟨Nat.zero_le _, Nat.zero_le _⟩

/-- The blocks' restart values keep every bound; what the event unit holds is then stale until the re-evaluation. -/
theorem kept_restartBlocks : Kept Source.all s (restartBlocks s) := by
  refine ⟨rfl, fun _ => ⟨Nat.zero_le _, Nat.zero_le _⟩, fun _ => restarted_station_bounded s,
    fun src _ ho => absurd src.mem_all ho, fun _ => roundAgrees_of_not_running rfl, id, id, id, ?_⟩
  rintro ⟨h1, h2, h3, ⟨-, -, hmargin, hdesc⟩, h5, h6⟩
  exact ⟨h1, h2, Follower.parkedAs_inRange (u := s.follower) h3, ⟨Nat.zero_lt_succ _, Nat.zero_le _, hmargin, hdesc⟩, h5, h6⟩

theorem kept_restartPart : Kept [] s (restartPart s) := by
  have hblocks := kept_trans (kept_restartBlocks s) (kept_mono (kept_writeSteer _ .hold) (List.nil_subset _))
  have hall := kept_trans hblocks (kept_mono (kept_reevaluate _) (List.nil_subset _))
  exact { hall with conditions := fun src _ _ _ => reevaluate_agrees _ src }

theorem powerOn_agrees (src : Source) : (powerOn s).conditionAgrees src := by
  cases src <;> rfl

theorem kept_powerOn : Kept [] s (powerOn s) := by
  refine ⟨rfl, fun _ => ⟨Nat.zero_le _, Nat.zero_le _⟩, fun _ => ⟨Nat.zero_le _, Nat.zero_le _⟩,
    fun src _ _ _ => powerOn_agrees s src, fun _ => rfl, fun _ => le_rfl, fun _ => ?_, fun _ => ⟨rfl, rfl⟩, fun _ => ?_⟩
  · exact fun i hi => absurd hi (by simp [powerOn, State.reset, PoseTable.reset])
  · exact (inRange_state_iff _).2 ⟨rfl, rfl, rfl, rfl⟩

/-! ### The taking of a request (R173) -/

theorem perform_restart : (perform .restart s).state = restartPart s := rfl

theorem kept_answerFrame (f : RequestFrame) : Kept [] s (answerFrame f s).state := by
  cases f with
  | unnamed _ _ => exact kept_refl _ s
  | named _ r =>
    by_cases hr : r = .restart
    · subst hr
      exact kept_restartPart s
    · exact kept_perform s hr

/-- R173: the owning block admits nothing, so that the place found before is there for the reply. -/
theorem answerFrame_out (f : RequestFrame) (h : s.station.out.length < 64) :
    (answerFrame f s).state.station.out.length < 64 := by
  cases f with
  | unnamed _ _ => exact h
  | named _ r =>
    by_cases hr : r = .restart
    · subst hr
      have hout : (restartPart s).station.out = [] := by
        simp [restartPart, reevaluate, restartBlocks, StationPort.restarted]
      exact hout ▸ Nat.zero_lt_succ _
    · exact (perform_station r hr s).symm ▸ h

theorem kept_serve (f : RequestFrame) (h : s.station.out.length < 64) : Kept [] s (serve f s) := by
  have hadmit := kept_admitRecord _ (.reply (replyTo f (answerFrame f s))) (answerFrame_out s f h)
  exact kept_trans (kept_trans (kept_answerFrame s f) hadmit) (kept_setStation _ (by exact id) (by rfl))

theorem kept_passFront {t : State} (h : portMove.passFront s = some t) : Kept [] s t := by
  unfold portMove.passFront at h
  split at h
  · next f rest hrx =>
    cases h
    refine kept_trans (kept_setStation s ?_ (by rfl)) (kept_passForward _ f)
    rintro ⟨hb, ho⟩
    rw [hrx, List.length_cons] at hb
    exact ⟨Nat.le_of_succ_le hb, ho⟩
  · cases h
  · cases h

theorem kept_portMove {t : State} (h : portMove s = some t) : Kept [] s t := by
  unfold portMove at h
  split at h
  · split at h
    · next hout => cases h; exact kept_serve s _ hout
    · exact kept_passFront s h
  · split at h
    · next f rest hrx =>
      cases h
      refine kept_setStation s (fun ⟨hb, ho⟩ => ⟨?_, ho⟩) (by rfl)
      rw [hrx, List.length_cons] at hb
      exact Nat.le_of_succ_le hb
    · exact kept_passFront s h
    · cases h

theorem kept_portMoves (fuel : Nat) : Kept [] s (portMoves fuel s) := by
  induction fuel generalizing s with
  | zero => exact kept_refl _ s
  | succ fuel ih =>
    unfold portMoves
    split
    · next t ht => exact kept_trans (kept_portMove s ht) (ih t)
    · exact kept_refl _ s

theorem kept_portAdvance : Kept [] s (portAdvance s) := kept_portMoves s _

theorem kept_armBreak : Kept [] s (armBreak s) := kept_setStation s (by exact id) (by rfl)

theorem kept_joinQueue (f : StationFrame) : Kept [] s (joinQueue f s) := by
  unfold joinQueue
  split
  · next h =>
    refine kept_trans (kept_setStation s ?_ (by rfl)) (kept_portAdvance _)
    exact fun ⟨_, ho⟩ => ⟨by simpa using h, ho⟩
  · exact kept_trans (kept_setStation s (by exact id) (by rfl)) (kept_occur _ _)

theorem kept_stationArrive (f : StationFrame) : Kept [] s (stationArrive f s) := by
  unfold stationArrive
  split
  · exact kept_refl _ s
  · exact kept_trans (kept_armBreak s) (kept_joinQueue _ f)

theorem kept_requestArrive (q : Taking) (r : Request) : Kept [] s (requestArrive q r s) :=
  kept_trans (kept_setService s _) (kept_stationArrive _ _)

/-! ### The links (R165 to R170, R178, R179) -/

theorem kept_sampleArrive (f : Sample) : Kept [] s (sampleArrive f s) := by
  refine kept_trans (kept_restartSilence s) ?_
  unfold sampleArrive queueSample
  split
  · next h =>
    refine kept_setHead _ (fun ⟨_, hf⟩ => ⟨?_, hf⟩) (by rfl) (by rfl)
    rw [List.length_append]
    exact h
  · exact kept_trans (kept_setHead _ (by exact id) (by rfl) (by rfl)) (kept_occur _ _)

theorem kept_discardFrame (p : Port) : Kept [] s (discardFrame p s) := by
  cases p with
  | head => exact kept_trans (kept_setHead _ (by exact id) (by rfl) (by rfl)) (kept_occur _ _)
  | station =>
    simp only [discardFrame]
    split
    · exact kept_refl _ s
    · exact kept_trans (kept_setStation s (by exact id) (by rfl)) (kept_occur _ _)

theorem kept_readHeadStatus (h : HeadStatus) : Kept [] s (readHeadStatus h s) := by
  unfold readHeadStatus
  split
  · refine kept_trans (kept_trans (kept_storeFacts s h) ?_) (kept_offerStatus _ h)
    unfold actOnDrives
    split
    · exact kept_parkFor _ _
    · exact kept_refl _ _
  · exact kept_discardFrame s _

theorem kept_forwardArrive (f : ForwardFrame) : Kept [] s (forwardArrive f s) := by
  unfold forwardArrive
  split
  · exact kept_stationArrive s _
  · exact kept_discardFrame s _

theorem kept_givePlace : Kept [] s (givePlace s) := by
  unfold givePlace
  split
  · split
    · exact kept_trans (kept_useFree s) (kept_portAdvance _)
    · exact kept_trans (kept_trans (kept_useFree s) (kept_arbitrate _)) (kept_portAdvance _)
  · exact kept_portAdvance s

theorem kept_recordSent : Kept [] s (recordSent s) :=
  kept_trans (kept_trans (kept_depart s) (kept_givePlace _)) (kept_beginRecord _)

theorem kept_linkBreak : Kept [] s (linkBreak s) := by
  unfold linkBreak
  split
  · exact kept_trans (kept_restartPart s) (kept_setStation _ (by exact id) (by rfl))
  · exact kept_setStation s (by exact id) (by rfl)

theorem kept_triggerEdge (e : Edge) : Kept [] s (triggerEdge e s) := by
  unfold triggerEdge
  split
  · exact kept_refl _ s
  · split
    · exact kept_setMode s _
    · exact kept_occur s _
    case h_3 | h_4 | h_5 | h_6 => exact kept_refl _ s

end Ports

/-! ### Every command -/

/-- A command answers a next state and keeps the bounds and agreements. -/
def Completes (c : Instr) (s : State) : Prop := ∃ t, exec c s = .next t ∧ Kept [] s t

theorem exec_requestInstr (q : Taking) (r : Request) (s : State) :
    exec (requestInstr q r) s = .next (requestArrive q r s) := by
  cases r <;> rfl

theorem exec_completes (c : Instr) (s : State) : Completes c s := by
  have request (q : Taking) (r : Request) : Completes (requestInstr q r) s :=
    ⟨_, exec_requestInstr q r s, kept_requestArrive s q r⟩
  have guarded {p : Prop} [Decidable p] {t : State} (h : Kept [] s t) : Kept [] s (if p then t else s) := by
    split
    · exact h
    · exact kept_refl _ s
  cases c with
  | sample f => exact ⟨_, rfl, kept_sampleArrive s f⟩
  | headStatus h => exact ⟨_, rfl, kept_readHeadStatus s h⟩
  | requestFrame b r => exact ⟨_, rfl, kept_trans (kept_setService s b) (kept_stationArrive _ _)⟩
  | forwardFrame f => exact ⟨_, rfl, kept_forwardArrive s f⟩
  | discardedFrame p => exact ⟨_, rfl, kept_discardFrame s p⟩
  | takeSample => exact ⟨_, rfl, kept_takeOldest s⟩
  | headFrameSent => exact ⟨_, rfl, kept_headDone s⟩
  | stationRecordSent b => exact ⟨_, rfl, kept_trans (kept_setService s b) (kept_recordSent _)⟩
  | eventAdmission => exact ⟨_, rfl, kept_arbitrate s⟩
  | headSilent => exact ⟨_, rfl, kept_namedTick s _⟩
  | establishTimerExpiry => exact ⟨_, rfl, kept_namedTick s _⟩
  | aimTimerExpiry => exact ⟨_, rfl, kept_namedTick s _⟩
  | measureTimerExpiry => exact ⟨_, rfl, kept_namedTick s _⟩
  | slotTimerExpiry => exact ⟨_, rfl, kept_namedTick s _⟩
  | roundPeriodExpiry => exact ⟨_, rfl, kept_namedTick s _⟩
  | refractionStale => exact ⟨_, rfl, guarded (kept_baseTick s)⟩
  | graceExpiry => exact ⟨_, rfl, guarded (kept_takeOldest s)⟩
  | dwellExpiry => exact ⟨_, rfl, guarded (kept_takeOldest s)⟩
  | dueRoundStart => exact ⟨_, rfl, kept_examineDue s⟩
  | trigEdge e => exact ⟨_, rfl, kept_triggerEdge s e⟩
  | linkBreak => exact ⟨_, rfl, kept_linkBreak s⟩
  | powerOnReset => exact ⟨_, rfl, kept_powerOn s⟩
  | loadCompBegin q a => exact request q (.loadCompBegin a)
  | loadCompData q a b l => exact request q (.loadCompData a b l)
  | loadCompEnd q a b => exact request q (.loadCompEnd a b)
  | setRefraction q n => exact request q (.setRefraction n)
  | writePose q i p l => exact request q (.writePose i p l)
  | clearPose q i => exact request q (.clearPose i)
  | readPose q i => exact request q (.readPose i)
  | selectPose q i => exact request q (.selectPose i)
  | establishAdm q => exact request q .establishAdm
  | establishHome q => exact request q .establishHome
  | dropDistance q => exact request q .dropDistance
  | follow q => exact request q .follow
  | park q => exact request q .park
  | goto q az el t => exact request q (.goto az el t)
  | writeSteps q i l => exact request q (.writeSteps i l)
  | writeSearch q i a b c d e => exact request q (.writeSearch i a b c d e)
  | appendSteps q l => exact request q (.appendSteps l)
  | resetStream q => exact request q .resetStream
  | readSearch q i => exact request q (.readSearch i)
  | readSteps q a b => exact request q (.readSteps a b)
  | startSearch q i => exact request q (.startSearch i)
  | startMeasure q a b c d e => exact request q (.startMeasure a b c d e)
  | stopMeasure q => exact request q .stopMeasure
  | readLatest q => exact request q .readLatest
  | writeFiducial q i f => exact request q (.writeFiducial i f)
  | enableFiducial q i => exact request q (.enableFiducial i)
  | disableFiducial q i => exact request q (.disableFiducial i)
  | readFiducial q i => exact request q (.readFiducial i)
  | startRound q => exact request q .startRound
  | stopRound q => exact request q .stopRound
  | ackEvent q n => exact request q (.ackEvent n)
  | raiseTest q n => exact request q (.raiseTest n)
  | setFloor q n => exact request q (.setFloor n)
  | setParam q i v => exact request q (.setParam i v)
  | readStatus q c => exact request q (.readStatus c)
  | restart q => exact request q .restart
  | unknownRequest q code => exact ⟨_, rfl, kept_trans (kept_setService s _) (kept_stationArrive _ _)⟩
  | timeBaseTick => exact ⟨_, rfl, kept_baseTick s⟩
  | srxReturnsHigh => exact ⟨_, rfl, kept_setStation s (by exact id) (by rfl)⟩

/-- A step keeps every bound and agreement, the queue of commands apart. -/
theorem step_kept {s t : State} (h : step s = .next t) :
    t = s ∨ ∃ c rest, s.pending = c :: rest ∧ Kept [] (s.setPending rest) t := by
  unfold step at h
  split at h
  · cases h
    exact .inl rfl
  · next c rest hp =>
    obtain ⟨u, hu, hk⟩ := exec_completes c (s.setPending rest)
    rw [hu] at h
    cases h
    exact .inr ⟨c, rest, hp, hk⟩

/-- What every command keeps of a property that the queue of commands does not enter, every step keeps. -/
theorem step_keeps {P : State → Prop} (hqueue : ∀ s rest, P s → P (s.setPending rest))
    (hkept : ∀ s t, Kept [] s t → P s → P t) {s t : State} (h : step s = .next t) (hs : P s) : P t := by
  rcases step_kept h with rfl | ⟨c, rest, -, hk⟩
  · exact hs
  · exact hkept _ _ hk (hqueue s rest hs)

theorem genuineOf_setPending (s : State) (l : List Instr) (src : Source) : genuineOf (s.setPending l) src = genuineOf s src := by
  cases src <;> rfl

theorem conditionsTrue_setPending {s : State} (l : List Instr) (h : s.conditionsTrue = true) :
    (s.setPending l).conditionsTrue = true := by
  rw [conditionsTrue_iff] at h ⊢
  intro src hl
  rw [State.conditionAgrees, genuineOf_setPending]
  exact h src hl

theorem kept_conditionsTrue {s t : State} (h : Kept [] s t) (hs : s.conditionsTrue = true) : t.conditionsTrue = true := by
  rw [conditionsTrue_iff] at hs ⊢
  exact fun src hl => h.conditions src hl List.not_mem_nil (hs src hl)

/-! ### The owners' conditions, spelled out (R156) -/

theorem FiducialEntry.drifts_iff (e : FiducialEntry) :
    e.drifts = true ↔ e.state = .enabled ∧ ((∃ m, e.result = .outTol m) ∨ e.result = .notFound) := by
  unfold FiducialEntry.drifts
  cases e.result <;> simp

theorem genuineOf_drift (s : State) : genuineOf s .drift = true ↔ ∃ i : Fin 16, s.round.table[i].drifts = true := by
  simp only [genuineOf, List.any_eq_true, Vector.mem_toList_iff, Vector.mem_iff_getElem]
  exact ⟨fun ⟨_, ⟨i, hi, hx⟩, hd⟩ => ⟨⟨i, hi⟩, hx ▸ hd⟩, fun ⟨i, hd⟩ => ⟨_, ⟨i, i.isLt, rfl⟩, hd⟩⟩

theorem SearchUnit.patternLow_iff (u : SearchUnit) :
    u.patternLow = true ↔ (∃ a, u.active = some a ∧ a.play = .stream) ∧ u.margin ≠ 0 ∧ u.ringFill ≤ u.margin := by
  unfold SearchUnit.patternLow
  cases u.active <;> simp

theorem FollowerState.beamAbsent_iff (x : FollowerState) : x.beamAbsent = true ↔ x = .searching ∨ x = .lost := by
  cases x <;> simp [FollowerState.beamAbsent]

end Sys2Proof.Machine

/-! ### The statements -/

namespace Sys2Proof.Proofs

open Sys2Proof Sys2Proof.Machine

/-- Settles O2. -/
theorem everyCommandCompletes : Obligations.EveryCommandCompletes := fun c s =>
  let ⟨t, ht, hk⟩ := exec_completes c s
  ⟨t, ht, hk.pending⟩

/-- Settles O5, with the bounds of both ports kept by every handling. -/
theorem stepKeepsQueueBounds : Obligations.StepKeepsQueueBounds := fun _ _ hs ht =>
  step_keeps (P := fun s => s.queuesBounded = true) (fun _ _ h => h)
    (fun s t hk h => by
      rw [queuesBounded_iff] at h ⊢
      exact ⟨hk.head h.1, hk.station h.2⟩) ht hs

/-- Settles O6: each owner reports its condition with the change that may alter it. -/
theorem stepKeepsConditionsTrue : Obligations.StepKeepsConditionsTrue := by
  intro s t hs ht
  have htrue : t.conditionsTrue = true :=
    step_keeps (P := fun s => s.conditionsTrue = true) (fun _ rest h => conditionsTrue_setPending rest h)
      (fun _ _ => kept_conditionsTrue) ht hs
  have hget (src : Source) (hl : src.isLevel = true) : (t.events.get src).genuine = genuineOf t src :=
    (conditionsTrue_iff t).1 htrue src hl
  refine ⟨htrue, ?_, ?_, ?_, ?_, ?_, ?_, ?_, ?_, ?_⟩
  · simp [hget .headSilent rfl, genuineOf]
  · rw [hget .beamAbsent rfl, genuineOf, FollowerState.beamAbsent_iff]
  · simp only [hget .drift rfl, genuineOf_drift, FiducialEntry.drifts_iff]
  · rw [hget .patternLow rfl, genuineOf, SearchUnit.patternLow_iff]
  · simp [hget .drivesDisabled rfl, genuineOf]
  · simp [hget .queueCongested rfl, genuineOf]
  · simp [hget .refractionStale rfl, genuineOf, CorrectionUnit.stale]
  · simp [hget .uncompensated rfl, genuineOf, CorrectionUnit.uncompensated]
  · simp [hget .roundDue rfl, genuineOf]

/-- Settles O9. -/
theorem stepKeepsTablesAndPose : Obligations.StepKeepsTablesAndPose := fun _ _ hs ht =>
  step_keeps (P := fun s => s.poseActiveValid = true ∧ s.tablesComplete = true) (fun _ _ h => h)
    (fun s t hk h => by
      rw [poseActiveValid_iff, tablesComplete_iff] at h ⊢
      exact ⟨hk.poses h.1, hk.tables h.2⟩) ht hs

/-- Settles O10. -/
theorem stepKeepsRanges : Obligations.StepKeepsRanges := fun _ _ hs ht =>
  (inRange_state_iff _).1
    (step_keeps (P := State.inRange) (fun _ _ h => h) (fun _ _ hk => hk.ranges) ht ((inRange_state_iff _).2 hs))

end Sys2Proof.Proofs
end

