-- ==== Sys2Proof/Proofs/Coherence.lean ====
section
/-! R65, R68, R80 and R98: a search is active exactly in SEARCHING and the follower's items stand only in their states. The
follower's entries establish this whatever held before; the handling of a sample leaves each state to such an entry. -/

namespace Sys2Proof.Machine

/-! ### The agreement -/

/-- The follower's items stand in their states, where `searching` says that a search is active and `running` that a round is
RUNNING. -/
structure Follower.Agrees (u : Follower) (searching running : Bool) : Prop where
  search : u.state = .searching ↔ searching = true
  grace : u.state = .holding ↔ u.grace.isSome = true
  aim : u.aim.isSome = true → u.state = .aiming
  pending : u.followPending = true → u.state.mayPend = true
  aiming : u.state = .aiming → u.aim.isSome = true ∨ u.followPending = true
  lost : u.state = .lost → running = true ∨ u.acqRun = 0

/-- The follower and the search unit of `s` agree. -/
def State.coherent (s : State) : Prop := s.follower.Agrees s.search.active.isSome s.round.state.isRunning

theorem not_true_or_iff (a : Bool) (p : Prop) : ((!a) = true ∨ p) ↔ (a = true → p) := by cases a <;> simp

theorem coherent_iff (s : State) : s.coherent ↔ s.searchAgrees = true ∧ s.followerItems = true := by
  have hsearch : s.searchAgrees = true ↔ (s.follower.state = .searching ↔ s.search.active.isSome = true) := by
    rw [State.searchAgrees, beq_iff_eq, Bool.eq_iff_iff, decide_eq_true_eq]
  have hgrace :
      (decide (s.follower.state = .holding) == s.follower.grace.isSome) = true ↔
        (s.follower.state = .holding ↔ s.follower.grace.isSome = true) := by
    rw [beq_iff_eq, Bool.eq_iff_iff, decide_eq_true_eq]
  simp only [State.followerItems, Bool.and_eq_true, hsearch, hgrace, Bool.or_assoc, not_true_or_iff, Bool.or_eq_true,
    decide_eq_true_eq]
  exact ⟨fun ⟨h1, h2, h3, h4, h5, h6⟩ => ⟨h1, ⟨⟨⟨h2, h3⟩, h4⟩, h5⟩, h6⟩,
    fun ⟨h1, ⟨⟨⟨h2, h3⟩, h4⟩, h5⟩, h6⟩ => ⟨h1, h2, h3, h4, h5, h6⟩⟩

section

variable {s t : State}

theorem coherent_congr (hf : t.follower = s.follower) (hs : t.search.active.isSome = s.search.active.isSome)
    (hr : t.round.state.isRunning = s.round.state.isRunning) : t.coherent ↔ s.coherent := by
  rw [State.coherent, hf, hs, hr, State.coherent]

/-- Nothing that the agreement reads is among the changed fields. -/
theorem coherent_of_keeps {l : List Part} (h : keepsOthers l s t) (hf : .follower ∉ l) (hs : .search ∉ l) (hr : .round ∉ l)
    (hc : s.coherent) : t.coherent := by
  have hfollower : t.follower = s.follower := h _ hf
  have hsearch : t.search = s.search := h _ hs
  have hround : t.round = s.round := h _ hr
  exact (coherent_congr hfollower (by rw [hsearch]) (by rw [hround])).2 hc

/-- A RUNNING round excuses more than no round. -/
theorem coherent_of_running (hf : t.follower = s.follower) (hs : t.search.active.isSome = s.search.active.isSome)
    (hr : t.round.state.isRunning = true) (hc : s.coherent) : t.coherent := by
  obtain ⟨h1, h2, h3, h4, h5, -⟩ := hc
  unfold State.coherent
  rw [hf, hs, hr]
  exact ⟨h1, h2, h3, h4, h5, fun _ => .inl rfl⟩

theorem Follower.Agrees.no_search {u : Follower} {b r : Bool} (h : u.Agrees b r) (hs : u.state ≠ .searching) : b = false := by
  cases b
  · rfl
  · exact absurd (h.search.2 rfl) hs

theorem State.coherent.no_search (h : s.coherent) (hs : s.follower.state ≠ .searching) : s.search.active = none := by
  simpa using Follower.Agrees.no_search h hs

theorem Follower.Agrees.not_pending {u : Follower} {b r : Bool} (h : u.Agrees b r) (hs : u.state.mayPend = false) :
    u.followPending = false := by
  cases hp : u.followPending
  · rfl
  · exact absurd (h.pending hp) (by simp [hs])

end

/-! ### The entries -/

section Entries

variable (s : State)

theorem enterLost_coherent (h : s.search.active = none) : (enterLost s).coherent := by
  refine ⟨?_, ?_, ?_, ?_, ?_, ?_⟩ <;> simp [h, FollowerState.mayPend]

@[simp] theorem enterFollowing_follower (k : Bool) :
    (enterFollowing k s).follower =
      { s.follower with
        state := .following, grace := none, aim := none, arrivalRun := 0, acqRun := 0
        iAz := if k then s.follower.iAz else 0
        iEl := if k then s.follower.iEl else 0 } := by
  simp [enterFollowing]

theorem enterFollowing_coherent (k : Bool) (h : s.search.active = none) (hp : s.follower.followPending = false) :
    (enterFollowing k s).coherent := by
  refine ⟨?_, ?_, ?_, ?_, ?_, ?_⟩ <;> simp [h, hp]

theorem enterSearching_coherent (h : s.search.active.isSome = true) : (enterSearching s).coherent := by
  refine ⟨?_, ?_, ?_, ?_, ?_, ?_⟩ <;> simp [h]

theorem enterAiming_coherent (t : Angles) (a : ThenAction) (o : AimOwner) : (enterAiming t a o s).coherent := by
  refine ⟨?_, ?_, ?_, ?_, ?_, ?_⟩ <;> simp

theorem enterParked_coherent : (enterParked s).coherent := by
  refine ⟨?_, ?_, ?_, ?_, ?_, ?_⟩ <;> simp [Follower.parkedAs]

theorem endSearch_coherent (src : Source) : (endSearch src s).coherent := enterLost_coherent _ (by simp)

theorem startSearch_coherent (i : Fin 8) (c : Angles) (o : SearchOwner) : (startSearch i c o s).1.coherent := by
  unfold startSearch
  dsimp only
  split
  · exact enterSearching_coherent _ (by simp)
  · split
    · exact endSearch_coherent _ _
    · exact enterSearching_coherent _ (by simp)

theorem startSearch_answer (i : Fin 8) (c : Angles) (o : SearchOwner) : (startSearch i c o s).2 ≠ .unusable := by
  unfold startSearch
  dsimp only
  split
  · simp
  · split <;> simp

/-- R99: a request that no READY descriptor answers leaves the state as it was. -/
theorem askSearch_unusable {d : Option (Fin 8)} {c : Angles} {o : SearchOwner} {t : State}
    (h : askSearch d c o s = (t, .unusable)) : t = s := by
  unfold askSearch at h
  split at h
  · exact (congrArg Prod.fst h).symm
  · split at h
    · exact absurd (congrArg Prod.snd h) (startSearch_answer s _ c o)
    · exact (congrArg Prod.fst h).symm

theorem askSearch_answered {d : Option (Fin 8)} {c : Angles} {o : SearchOwner} {t : State} {x : SearchStart}
    (h : askSearch d c o s = (t, x)) (hx : x ≠ .unusable) : t.coherent := by
  unfold askSearch at h
  split at h
  · exact absurd (congrArg Prod.snd h).symm hx
  · split at h
    · rw [show t = (startSearch _ c o s).1 from (congrArg Prod.fst h).symm]
      exact startSearch_coherent s _ c o
    · exact absurd (congrArg Prod.snd h).symm hx

theorem askSearch_coherent (d : Option (Fin 8)) (c : Angles) (o : SearchOwner) (h : s.coherent) :
    (askSearch d c o s).1.coherent := by
  unfold askSearch
  split
  · exact h
  · split
    · exact startSearch_coherent s _ c o
    · exact h

theorem nextStep_coherent {a : ActiveSearch} (ha : s.search.active = some a) (h : s.coherent) : (nextStep a s).1.coherent := by
  have hstore (u : SearchUnit) (hu : u.active.isSome = true) : (storeSearch u s).coherent :=
    (coherent_congr (by simp) (by simp [hu, ha]) (by simp)).2 h
  unfold nextStep
  split
  · dsimp only
    split
    · exact hstore _ rfl
    · split
      · exact hstore _ rfl
      · exact endSearch_coherent s _
  · split
    · exact endSearch_coherent s _
    · exact hstore _ rfl

theorem searchSample_coherent (h : s.coherent) : (searchSample s).1.coherent := by
  unfold searchSample
  split
  · exact h
  · next a ha =>
    split
    · exact (coherent_congr (by simp) (by simp [ha]) (by simp)).2 h
    · exact nextStep_coherent s ha h

end Entries

/-! ### The handling of a sample by the follower -/

section Sample

variable (s : State)

theorem steer_coherent (c : Corrected) (h : s.coherent) : (steer c s).1.coherent :=
  ⟨h.search, h.grace, h.aim, h.pending, h.aiming, h.lost⟩

theorem closeLoop_coherent (k : Bool) (rep : FollowerReport) (c : Corrected) (h : s.search.active = none)
    (hp : s.follower.followPending = false) : (closeLoop k rep c s).state.coherent :=
  steer_coherent _ c (enterFollowing_coherent s k h hp)

/-- R69 and R77: whatever state the follower's own search is asked for in, with no search active. -/
theorem autoSearch_coherent (c : Angles) (h : s.search.active = none) : (autoSearch c s).state.coherent := by
  unfold autoSearch
  split
  · next heq => exact askSearch_answered s heq (by simp)
  · next heq => exact askSearch_answered s heq (by simp)
  · next heq => exact enterLost_coherent _ (askSearch_unusable s heq ▸ h)

theorem expireGrace_coherent (h : s.search.active = none) : (expireGrace s).state.coherent := by
  unfold expireGrace
  split
  · exact enterLost_coherent s h
  · exact autoSearch_coherent s _ h

theorem playSample_coherent (o : SearchOwner) (h : s.coherent) : (playSample o s).state.coherent := by
  have hs := searchSample_coherent s h
  unfold playSample
  split
  case h_1 | h_2 => next heq => rw [heq] at hs; exact hs

theorem decidePending_coherent (c : Corrected) (h : s.search.active = none) : (decidePending c s).state.coherent := by
  unfold decidePending
  dsimp only
  split
  · exact closeLoop_coherent _ _ _ _ (by simp [h]) rfl
  · exact autoSearch_coherent _ _ (by simp [h])

theorem aimSample_coherent {a : Aim} (c : Corrected) (hst : s.follower.state = .aiming)
    (hp : s.follower.followPending = false) (h : s.coherent) : (aimSample a c s).state.coherent := by
  have hactive := h.no_search (by simp [hst])
  unfold aimSample
  split
  · exact ⟨h.search, h.grace, h.aim, h.pending, h.aiming, h.lost⟩
  · split
    · exact ⟨h.search, h.grace, h.aim, h.pending, h.aiming, h.lost⟩
    · split
      · exact closeLoop_coherent s _ _ c hactive hp
      case h_2 | h_3 => exact enterLost_coherent s hactive

theorem enterHolding_coherent (h : s.search.active = none) (ha : s.follower.aim = none)
    (hp : s.follower.followPending = false) : (enterHolding s).state.coherent := by
  unfold enterHolding
  dsimp only
  split
  · exact expireGrace_coherent _ (by simp [h])
  · refine ⟨?_, ?_, ?_, ?_, ?_, ?_⟩ <;> simp [h, ha, hp]

theorem countGrace_coherent (hst : s.follower.state = .holding) (h : s.coherent) : (countGrace s).state.coherent := by
  unfold countGrace
  dsimp only
  split
  · exact expireGrace_coherent _ (by simpa using h.no_search (by simp [hst]))
  · exact ⟨h.search, by simp [hst], h.aim, h.pending, h.aiming, h.lost⟩

theorem searchingSample_coherent (c : Corrected) (hst : s.follower.state = .searching) (h : s.coherent) :
    (searchingSample c s).state.coherent := by
  have hrun (n : Nat) : (s.setFollower { s.follower with acqRun := n }).coherent :=
    ⟨h.search, h.grace, h.aim, h.pending, h.aiming, by simp [hst]⟩
  unfold searchingSample
  dsimp only
  split
  · split
    · exact playSample_coherent _ _ (hrun _)
    · exact closeLoop_coherent _ _ _ _ (by simp) (by simpa using h.not_pending (by simp [hst, FollowerState.mayPend]))
  · exact playSample_coherent _ _ (hrun _)

theorem lostSample_coherent (c : Corrected) (hst : s.follower.state = .lost) (hp : s.follower.followPending = false)
    (h : s.coherent) : (lostSample c s).state.coherent := by
  unfold lostSample
  split
  · next hr =>
    have hrun (n : Nat) : (s.setFollower { s.follower with acqRun := n }).coherent :=
      ⟨h.search, h.grace, h.aim, h.pending, h.aiming, fun _ => .inl hr⟩
    split
    · split
      · exact hrun _
      · exact closeLoop_coherent s _ _ c (h.no_search (by simp [hst])) hp
    · exact hrun _
  · exact h

theorem followerTransition_coherent (c : Corrected) (h : s.coherent) : (followerTransition c s).state.coherent := by
  unfold followerTransition
  split
  · next hp =>
    refine decidePending_coherent s c (h.no_search fun hst => ?_)
    simpa [hst, FollowerState.mayPend] using h.pending hp
  · next hp =>
    rw [Bool.not_eq_true] at hp
    split
    · exact h
    · next hst =>
      split
      · exact aimSample_coherent s c hst hp h
      · exact h
    · next hst =>
      split
      · exact steer_coherent s c h
      · refine enterHolding_coherent s (h.no_search (by simp [hst])) ?_ hp
        cases ha : s.follower.aim
        · rfl
        · exact absurd (h.aim (by simp [ha])) (by simp [hst])
    · next hst =>
      split
      · exact closeLoop_coherent s _ _ c (h.no_search (by simp [hst])) hp
      · exact countGrace_coherent s hst h
    · next hst => exact searchingSample_coherent s c hst h
    · next hst => exact lostSample_coherent s c hst hp h

theorem followerSample_coherent (c : Corrected) (h : s.coherent) : (followerSample c s).state.coherent :=
  followerTransition_coherent _ c ⟨h.search, h.grace, h.aim, h.pending, h.aiming, h.lost⟩

end Sample

/-! ### The round unit -/

section Round

variable (s : State)

theorem returnRound_coherent : (returnRound s).coherent := by
  unfold returnRound
  split
  · exact enterAiming_coherent _ _ _ _
  case h_2 | h_3 => exact enterParked_coherent _

theorem endSlot_coherent (res : FiducialResult) (aim : Option Angles) (h : s.coherent) : (endSlot res aim s).coherent := by
  unfold endSlot
  split
  · dsimp only
    split
    · exact enterAiming_coherent _ _ _ _
    · exact returnRound_coherent _
  case h_2 | h_3 => exact h

theorem startRoundNow_coherent (h : s.coherent) : (startRoundNow s).coherent := by
  unfold startRoundNow
  split
  · exact h
  · exact enterAiming_coherent _ _ _ _

theorem abandonRound_coherent (a : AbortReason) (hr : s.round.state.isRunning = false) (h : s.coherent) :
    (abandonRound a s).coherent :=
  (coherent_congr (by simp) (by simp) (by rw [abandonRound_round, hr]; rfl)).2 h

theorem tryRound_coherent (hr : s.round.state.isRunning = false) (h : s.coherent) : (tryRound s).coherent := by
  unfold tryRound
  split
  · exact startRoundNow_coherent s h
  · exact abandonRound_coherent s _ hr h

theorem examineDue_coherent (h : s.coherent) : (examineDue s).coherent := by
  unfold examineDue
  split
  · next hd => exact tryRound_coherent s (by simp [hd.1, RoundState.isRunning]) h
  · exact h

theorem setRunning_coherent (r : RunningRound) (h : s.coherent) : (setRoundState (.running r) s).coherent :=
  coherent_of_running (by simp) (by simp) rfl h

theorem expirePeriod_coherent (h : s.coherent) : (expirePeriod s).coherent := by
  have hload : (s.setRound (loadPeriod s.round)).coherent := h
  unfold expirePeriod
  dsimp only
  split
  · exact hload
  · exact hload
  · next hr =>
    have hidle : (s.setRound (loadPeriod s.round)).round.state.isRunning = false := by rw [hr]; rfl
    split
    · exact (coherent_congr (by simp) (by simp) (by rw [hidle]; rfl)).2 hload
    · exact tryRound_coherent _ hidle hload

theorem roundEstablished_coherent (h : s.coherent) : (roundEstablished s).coherent := by
  unfold roundEstablished
  split
  · split
    · exact setRunning_coherent s _ h
    · exact h
  case h_2 | h_3 => exact h

theorem roundWaitFailed_coherent (h : s.coherent) : (roundWaitFailed s).coherent := by
  unfold roundWaitFailed
  split
  · split
    · exact endSlot_coherent s _ _ h
    · exact h
  case h_2 | h_3 => exact h

theorem releaseDistance_coherent (h : s.coherent) : (releaseDistance s).coherent :=
  coherent_of_keeps (keeps_releaseDistance s) (by decide) (by decide) (by decide) h

theorem askRoundSearch_coherent (r : RunningRound) (h : s.coherent) : (askRoundSearch r s).state.coherent := by
  have hask := askSearch_coherent s (s.round.entry r).descriptor (s.round.entry r).aim .round h
  unfold askRoundSearch
  split
  · next heq => rw [heq] at hask; exact setRunning_coherent _ _ hask
  case h_2 | h_3 => next heq => rw [heq] at hask; exact hask

theorem roundSearch_coherent (c : Corrected) {h : Handled} (hs : h.state.coherent) : (roundSearch c h).state.coherent := by
  unfold roundSearch
  split
  · split
    · split
      · exact hs
      · exact askRoundSearch_coherent _ _ hs
    · exact askRoundSearch_coherent _ _ hs
    · exact askRoundSearch_coherent _ _ (releaseDistance_coherent _ hs)
    · exact hs
  case h_2 | h_3 => exact hs

theorem centreSample_coherent (r : RunningRound) (c : Corrected) (h : s.coherent) : (centreSample r c s).coherent := by
  have hask : (askRoundWait s).1.coherent := coherent_of_keeps (keeps_askRoundWait s) (by decide) (by decide) (by decide) h
  unfold centreSample
  split
  · split
    · next heq => rw [heq] at hask; exact setRunning_coherent _ _ hask
    · next heq => rw [heq] at hask; exact endSlot_coherent _ _ _ hask
  · exact setRunning_coherent s _ h

theorem averageSample_coherent (r : RunningRound) (c : Corrected) (h : s.coherent) : (averageSample r c s).coherent := by
  unfold averageSample
  split
  · exact endSlot_coherent s _ _ h
  · dsimp only
    split
    · exact setRunning_coherent s _ h
    · exact endSlot_coherent s _ _ h

theorem roundSample_coherent (rep : FollowerReport) (c : Corrected) (h : s.coherent) : (roundSample rep c s).coherent := by
  unfold roundSample
  split
  · split
    · exact endSlot_coherent s _ _ h
    · exact setRunning_coherent s _ h
    · exact centreSample_coherent s _ c h
    · exact centreSample_coherent s _ c h
    · exact centreSample_coherent s _ c h
    · exact averageSample_coherent s _ c h
    · exact h
  case h_2 | h_3 => exact h

/-! ### The taking of a sample -/

theorem decideStep_coherent (f : Sample) (b : Bool) (h : s.coherent) : (decideStep f b s).coherent := by
  have hd : (decideDistance f b s).coherent :=
    coherent_of_keeps (keeps_decideDistance f b s) (by decide) (by decide) (by decide) h
  unfold decideStep noteEstablished
  split
  · exact roundEstablished_coherent _ hd
  · exact hd

theorem correctSample_coherent (f : Sample) (h : s.coherent) : (correctSample f s).1.coherent := by
  unfold correctSample
  split
  · exact decideStep_coherent _ f false h
  · have hm := keeps_measure f (correctAngles s.correction f) (decideStep f (decidePresence s.follower f) s)
    have hmeasured := coherent_of_keeps hm (by decide) (by decide) (by decide) (decideStep_coherent s f _ h)
    exact hmeasured

theorem handOver_coherent (c : Corrected) (h : s.coherent) : (handOver c s).coherent := by
  have hsearch := roundSearch_coherent c (followerSample_coherent s c h)
  have hwrite := coherent_of_keeps (writeFrame_keeps (roundSearch c (followerSample c s)).frame _) (by decide) (by decide)
    (by decide) hsearch
  have hpoint := coherent_of_keeps (keeps_emitterSample c _) (by decide) (by decide) (by decide) hwrite
  exact examineDue_coherent _ (roundSample_coherent _ _ c hpoint)

theorem takeOldest_coherent (h : s.coherent) : (takeOldest s).coherent := by
  unfold takeOldest
  split
  · exact h
  · exact handOver_coherent _ _ (correctSample_coherent _ _ h)

end Round

end Sys2Proof.Machine
end

