-- ==== Sys2Proof/Proofs/CoherentSteps.lean ====
section
/-! R98 and R65 between the follower and the search unit, and R140's waiting of a DUE round, are kept by every command: a round is
DUE only while a busy condition holds, since whatever ends the last one examines it. -/

namespace Sys2Proof.Machine

/-- From `s` to `t` the agreement of follower and search unit is kept, and a DUE round goes on waiting for something. -/
structure Coheres (s t : State) : Prop where
  follower : s.coherent → t.coherent
  due : s.dueIsBusy = true → t.dueIsBusy = true

section

variable {s t u : State}

theorem coheres_refl (s : State) : Coheres s s := ⟨id, id⟩

theorem coheres_trans (h : Coheres s t) (k : Coheres t u) : Coheres s u := ⟨k.follower ∘ h.follower, k.due ∘ h.due⟩

theorem coheres_of_eq (h : t = s) : Coheres s t := h ▸ coheres_refl t

theorem dueIsBusy_iff (s : State) : s.dueIsBusy = true ↔ (s.round.state = .due → roundBusy s = true) := by
  rw [State.dueIsBusy, Bool.or_eq_true, not_true_or_iff, decide_eq_true_eq]

theorem dueIsBusy_of_not_due (h : t.round.state ≠ .due) : t.dueIsBusy = true :=
  (dueIsBusy_iff t).2 fun hd => absurd hd h

theorem dueIsBusy_of_busy (h : roundBusy t = true) : t.dueIsBusy = true := (dueIsBusy_iff t).2 fun _ => h

/-- The busy conditions read the mode, the active search and the follower's state only. -/
theorem roundBusy_congr (hm : t.emitter.mode = .idle ↔ s.emitter.mode = .idle)
    (hs : t.search.active.isSome = s.search.active.isSome) (hf : t.follower.state = s.follower.state) :
    roundBusy t = roundBusy s := by
  simp only [roundBusy, hs, hf, ne_eq, decide_not, hm]

/-- A change that both agreements read nothing of. -/
theorem coheres_of_views (hf : t.follower = s.follower) (hs : t.search.active.isSome = s.search.active.isSome)
    (hr : t.round.state = s.round.state) (hm : t.emitter.mode = .idle ↔ s.emitter.mode = .idle) : Coheres s t := by
  refine ⟨(coherent_congr hf hs (by rw [hr])).2, fun h => ?_⟩
  rw [dueIsBusy_iff] at h ⊢
  rwa [hr, roundBusy_congr hm hs (by rw [hf])]

theorem coheres_of_keeps {l : List Part} (h : keepsOthers l s t) (hf : .follower ∉ l) (hs : .search ∉ l) (hr : .round ∉ l)
    (hm : .emitter ∉ l) : Coheres s t := by
  have hfollower : t.follower = s.follower := h _ hf
  have hsearch : t.search = s.search := h _ hs
  have hround : t.round = s.round := h _ hr
  have hmode : t.emitter = s.emitter := h _ hm
  exact coheres_of_views hfollower (by rw [hsearch]) (by rw [hround]) (by rw [hmode])

/-- A change of the follower's items that leaves its state. -/
theorem coheres_setFollower {x : Follower} (hst : x.state = s.follower.state)
    (h : s.follower.Agrees s.search.active.isSome s.round.state.isRunning →
      x.Agrees s.search.active.isSome s.round.state.isRunning) : Coheres s (s.setFollower x) := by
  refine ⟨h, fun hd => ?_⟩
  rw [dueIsBusy_iff] at hd ⊢
  rwa [roundBusy_congr (s := s) (t := s.setFollower x) Iff.rfl rfl hst]

theorem coheres_examineDue (h : s.coherent → t.coherent) : Coheres s (examineDue t) :=
  ⟨fun hs => examineDue_coherent t (h hs), fun _ => examineDue_dueIsBusy t⟩

end

/-! ### The shared operations -/

section Operations

variable (s : State)

theorem coheres_occur (src : Source) : Coheres s (occur src s) :=
  coheres_of_keeps (keeps_occur src s) (by decide) (by decide) (by decide) (by decide)

theorem coheres_reportLevel (src : Source) : Coheres s (reportLevel src s) :=
  coheres_of_keeps (keeps_reportLevel src s) (by decide) (by decide) (by decide) (by decide)

theorem coheres_useFree : Coheres s (useFree s) :=
  coheres_of_keeps (keeps_useFree s) (by decide) (by decide) (by decide) (by decide)

theorem coheres_setStation (x : StationPort) : Coheres s (s.setStation x) :=
  coheres_of_keeps (keeps_setStation s x) (by decide) (by decide) (by decide) (by decide)

theorem coheres_setHead (x : HeadPort) : Coheres s (s.setHead x) :=
  coheres_of_keeps (keeps_setHead s x) (by decide) (by decide) (by decide) (by decide)

theorem coheres_setService (b : Bool) : Coheres s (s.setService b) :=
  coheres_of_keeps (keeps_setService s b) (by decide) (by decide) (by decide) (by decide)

theorem coheres_setEvents (e : EventUnit) : Coheres s (s.setEvents e) :=
  coheres_of_keeps (keeps_setEvents s e) (by decide) (by decide) (by decide) (by decide)

theorem coheres_setDistance (u : DistanceUnit) : Coheres s (s.setDistance u) :=
  coheres_of_keeps (keeps_setDistance s u) (by decide) (by decide) (by decide) (by decide)

theorem coheres_setCorrection (c : CorrectionUnit) : Coheres s (s.setCorrection c) :=
  coheres_of_keeps (keeps_setCorrection s c) (by decide) (by decide) (by decide) (by decide)

theorem coheres_setPoses (p : PoseTable) : Coheres s (s.setPoses p) :=
  coheres_of_keeps (keeps_setPoses s p) (by decide) (by decide) (by decide) (by decide)

theorem coheres_admit (r : Record) : Coheres s (admitRecord r s) :=
  coheres_of_keeps (keeps_admit r s) (by decide) (by decide) (by decide) (by decide)

theorem coheres_offerStatus (h : HeadStatus) : Coheres s (offerStatus h s) :=
  coheres_of_keeps (keeps_offerStatus h s) (by decide) (by decide) (by decide) (by decide)

theorem coheres_arbitrate : Coheres s (arbitrate s) :=
  coheres_of_keeps (keeps_arbitrate s) (by decide) (by decide) (by decide) (by decide)

theorem coheres_passForward (f : ForwardFrame) : Coheres s (passForward f s) :=
  coheres_of_keeps (keeps_passForward f s) (by decide) (by decide) (by decide) (by decide)

theorem coheres_setSearch {u : SearchUnit} (h : u.active = s.search.active) : Coheres s (s.setSearch u) :=
  coheres_of_views (by simp) (by simp [h]) (by simp) (by simp)

theorem coheres_storeSearch {u : SearchUnit} (h : u.active = s.search.active) : Coheres s (storeSearch u s) :=
  coheres_of_views (by simp) (by simp [h]) (by simp) (by simp)

theorem coheres_setEmitter {e : Emitter} (h : e.mode = .idle ↔ s.emitter.mode = .idle) : Coheres s (s.setEmitter e) :=
  coheres_of_views (by simp) (by simp) (by simp) (by simpa using h)

theorem coheres_setRound {x : RoundUnit} (h : x.state = s.round.state) : Coheres s (s.setRound x) :=
  coheres_of_views (by simp) (by simp) (by simpa using h) (by simp)

/-- The end of a slot leaves no round DUE. -/
theorem coheres_endSlot (res : FiducialResult) (aim : Option Angles) : Coheres s (endSlot res aim s) := by
  refine ⟨endSlot_coherent s res aim, fun h => ?_⟩
  cases hr : s.round.state with
  | running r => exact dueIsBusy_of_not_due (endSlot_leaves res aim hr).2.2.2.2.2.2.2.2
  | idle | due => simpa [endSlot, hr] using h

theorem coheres_roundWaitFailed : Coheres s (roundWaitFailed s) := by
  unfold roundWaitFailed
  split
  · split
    · exact coheres_endSlot s _ _
    · exact coheres_refl s
  case h_2 | h_3 => exact coheres_refl s

theorem tryRound_not_due : (tryRound s).round.state ≠ .due := by
  unfold tryRound
  split
  · next hc =>
    intro hd
    have := (startRoundNow_leaves hc).1
    simp [hd, RoundState.isRunning] at this
  · simp

theorem coheres_expirePeriod : Coheres s (expirePeriod s) := by
  refine ⟨expirePeriod_coherent s, fun h => ?_⟩
  have hload := (coheres_setRound s (x := loadPeriod s.round) rfl).due h
  unfold expirePeriod
  dsimp only
  split
  · exact hload
  · exact hload
  · split
    · next hb =>
      refine dueIsBusy_of_busy ?_
      rwa [roundBusy_congr (s := s.setRound (loadPeriod s.round)) (by simp) (by simp) (by simp)]
    · exact dueIsBusy_of_not_due (tryRound_not_due _)

end Operations

/-! ### The ticks -/

section Ticks

variable (s : State)

/-- R82: the follower's items after an assertion stand without a round, too. -/
theorem silenceFollower_agrees (h : s.coherent) :
    (silenceFollower s).follower.Agrees (silenceFollower s).search.active.isSome false := by
  have hsilenced :
      (silenceFollower.silenced s).follower.Agrees (silenceFollower.silenced s).search.active.isSome false := by
    refine ⟨?_, ?_, ?_, ?_, ?_, ?_⟩ <;> simp [silenceFollower.silenced]
  unfold silenceFollower
  split
  · next hst => exact ⟨h.search, h.grace, h.aim, by simp, by simp [hst], by simp [hst]⟩
  · next hst => exact ⟨h.search, h.grace, h.aim, by simp, by simp [hst], fun _ => .inr rfl⟩
  case h_3 | h_4 | h_5 | h_6 => exact hsilenced

theorem silenceRound_coherent (h : s.follower.Agrees s.search.active.isSome false) : (silenceRound s).coherent := by
  unfold silenceRound State.coherent
  split
  · simpa [RoundState.isRunning] using h
  · next hr => rwa [Bool.eq_false_iff.2 hr]

theorem coheres_assertSilence : Coheres s (assertSilence s) := by
  refine coheres_examineDue fun h => silenceRound_coherent _ ?_
  have hrelease : (silenceRelease (reportLevel .headSilent s)).coherent := by
    have hreport := (coheres_reportLevel s .headSilent).follower h
    unfold silenceRelease
    split
    · split
      · exact releaseDistance_coherent _ ((coheres_useFree _).follower hreport)
      · exact (coheres_useFree _).follower hreport
    · exact hreport
  have hleave := coherent_of_keeps (keeps_leaveDistance .silence _) (by decide) (by decide) (by decide) hrelease
  have hfollower := silenceFollower_agrees _ hleave
  simpa using hfollower

theorem coheres_expireWait : Coheres s (expireWait s) := by
  have htime (k : DistanceSource) : Coheres s (timeOutWait k s) :=
    coheres_of_keeps (keeps_timeOutWait k s) (by decide) (by decide) (by decide) (by decide)
  unfold expireWait
  split
  · split
    · exact coheres_trans (htime _) (coheres_roundWaitFailed _)
    · exact htime _
  · exact coheres_refl s

theorem coheres_expireAim : Coheres s (expireAim s) := by
  unfold expireAim
  split
  · next a ha =>
    have hlost (h : s.coherent) : (occur .aimTimeout (enterLost s)).coherent := by
      have hst : s.follower.state = .aiming := h.aim (by simp [ha])
      exact (coheres_occur _ _).follower (enterLost_coherent s (h.no_search (by simp [hst])))
    split
    · dsimp only
      split
      · refine coheres_examineDue fun h => ?_
        unfold roundAimTimeout
        split
        · split
          · exact endSlot_coherent _ _ _ (hlost h)
          · exact hlost h
        case h_2 | h_3 => exact hlost h
      · exact coheres_examineDue hlost
    · exact coheres_refl s
  · exact coheres_refl s

theorem setMode_coherent (m : EmissionMode) (h : s.coherent) : (setMode m s).coherent :=
  coherent_of_keeps (keeps_setMode m s) (by decide) (by decide) (by decide) h

theorem coheres_expireMeasure : Coheres s (expireMeasure s) := by
  unfold expireMeasure
  split
  · split
    · exact coheres_examineDue fun h => (coheres_occur _ _).follower (setMode_coherent s _ h)
    · exact coheres_refl s
  case h_2 | h_3 | h_4 | h_5 => exact coheres_refl s

theorem coheres_expire (silent : Bool) (e : Expiry) : Coheres s (expire silent s e) := by
  cases e with
  | silence =>
    simp only [expire]
    split
    · exact coheres_assertSilence s
    · exact coheres_refl s
  | establish => exact coheres_expireWait s
  | aim => exact coheres_expireAim s
  | measure => exact coheres_expireMeasure s
  | slot =>
    simp only [expire, expireSlot]
    split
    · split
      · exact coheres_endSlot s _ _
      · exact coheres_refl s
    case h_2 | h_3 => exact coheres_refl s
  | period =>
    simp only [expire, expireRoundPeriod]
    split
    · exact coheres_expirePeriod s
    · exact coheres_refl s

theorem RoundState.tick_running (x : RoundState) : x.tick.isRunning = x.isRunning := by cases x <;> rfl

theorem EmissionMode.tick_idle (m : EmissionMode) : m.tick = .idle ↔ m = .idle := by cases m <;> simp [EmissionMode.tick]

theorem coheres_countTick : Coheres s (countTick s) := by
  obtain ⟨-, -, hfollower, hemitter, hround, hsearch, -⟩ := countTick_fields s
  refine ⟨fun h => ?_, fun h => ?_⟩
  · unfold State.coherent
    rw [hfollower, hsearch, hround]
    have hlost := h.lost
    rw [← RoundState.tick_running] at hlost
    exact ⟨h.search, h.grace, fun ha => h.aim (by simpa using ha), h.pending, fun ha => by simpa using h.aiming ha, hlost⟩
  · rw [dueIsBusy_iff] at h ⊢
    rw [hround, RoundUnit.tick, RoundState.tick_due,
      roundBusy_congr (s := s) (by rw [hemitter]; exact EmissionMode.tick_idle _) (by rw [hsearch]) (by rw [hfollower])]
    exact h

theorem coheres_tickIn (order : List Expiry) : Coheres s (tickIn order s) := by
  have hall (silent : Bool) (u : State) : Coheres u (order.foldl (expire silent) u) := by
    induction order generalizing u with
    | nil => exact coheres_refl u
    | cons e rest ih => exact coheres_trans (coheres_expire u silent e) (ih _)
  exact coheres_trans (coheres_countTick s) (hall _ _)

theorem coheres_baseTick : Coheres s (baseTick s) := by
  unfold baseTick
  split
  · exact coheres_trans (coheres_useFree s) (coheres_tickIn _ _)
  · exact coheres_tickIn s _

theorem coheres_namedTick (e : Expiry) : Coheres s (namedTick e s) := by
  unfold namedTick
  split
  · split
    · exact coheres_trans (coheres_useFree s) (coheres_tickIn _ _)
    · exact coheres_tickIn s _
  · exact coheres_refl s

theorem coheres_takeOldest : Coheres s (takeOldest s) := by
  refine ⟨takeOldest_coherent s, fun h => ?_⟩
  unfold takeOldest
  split
  · exact h
  · exact examineDue_dueIsBusy _

end Ticks

/-! ### The requests -/

section Requests

variable (s : State)

theorem coheres_storeTable (a : Axis) (t : CompTable) : Coheres s (storeTable a t s) :=
  coheres_of_keeps (keeps_storeTable_correction a t s) (by decide) (by decide) (by decide) (by decide)

theorem coheres_loadRequest (b : Byte) (act : Axis → Answer) (h : ∀ a, Coheres s (act a).state) :
    Coheres s (loadRequest b s act).state :=
  loadRequest_cases (motive := fun x => Coheres s x.state) (fun _ _ => coheres_refl s) h

theorem coheres_loadData (b c : Byte) (l : List Half) : Coheres s (loadData b c l s).state :=
  coheres_loadRequest s b _ fun a => by
    split
    · exact coheres_refl s
    · split
      · exact coheres_refl s
      · exact coheres_setCorrection s _

theorem coheres_endLoad (b c : Byte) : Coheres s (endLoad b c s).state :=
  coheres_loadRequest s b _ fun a => by
    dsimp only
    split
    · exact coheres_refl s
    · split
      case isTrue | isFalse => exact coheres_storeTable s a _

theorem coheres_writePose (i : Byte) (p : PoseField) (l : Half) : Coheres s (writePose i p l s).state := by
  unfold writePose
  split
  · exact coheres_refl s
  · split
    · exact coheres_refl s
    · split
      · exact coheres_refl s
      · exact coheres_setPoses s _

theorem coheres_clearPose (i : Byte) : Coheres s (clearPose i s).state := by
  unfold clearPose
  split
  · exact coheres_refl s
  · split
    · exact coheres_refl s
    · exact coheres_setPoses s _

theorem Emitter.clearAnchor_idle (e : Emitter) : e.clearAnchor.mode = .idle ↔ e.mode = .idle := by
  unfold Emitter.clearAnchor
  split <;> simp_all

theorem coheres_selectPose (i : Byte) : Coheres s (selectPose i s).state := by
  unfold selectPose
  split
  · exact coheres_refl s
  · split
    · exact coheres_refl s
    · split
      · exact coheres_refl s
      · exact coheres_trans (coheres_setPoses s _) (coheres_setEmitter _ (Emitter.clearAnchor_idle _))

theorem coheres_establishAdm : Coheres s (establishAdm s).state := by
  unfold establishAdm
  split_ifs
  case pos | pos | pos => exact coheres_refl s
  case neg => exact coheres_setDistance s _

theorem coheres_establishHome : Coheres s (establishHome s).state := by
  unfold establishHome
  split_ifs
  case pos | pos | pos => exact coheres_refl s
  case neg => exact coheres_setDistance s _

/-- R57: only the drop of a base can end a SINGLE, and that examines a DUE round. -/
theorem coheres_dropFor : Coheres s (dropFor s) := by
  have hdrop (h : s.coherent) : (abortIfBroken s (releaseDistance s)).coherent :=
    coherent_of_keeps (keeps_abortIfBroken s _) (by decide) (by decide) (by decide) (releaseDistance_coherent s h)
  have hquiet (he : s.distance.state.isEstablished = false) : Coheres s (abortIfBroken s (releaseDistance s)) := by
    rw [abortIfBroken_of_same _ s (by simp [he]) (by simp)]
    exact coheres_of_keeps (keeps_releaseDistance s) (by decide) (by decide) (by decide) (by decide)
  unfold dropFor
  dsimp only
  split
  · next hs => exact coheres_trans (hquiet (by rw [hs]; rfl)) (coheres_roundWaitFailed _)
  case h_2 | h_3 | h_4 | h_5 => next hs => exact hquiet (by rw [hs]; rfl)
  · exact coheres_examineDue hdrop

theorem coheres_follow : Coheres s (follow s).state := by
  unfold follow
  split
  · exact coheres_refl s
  · split
    · exact coheres_refl s
    · split
      · next hst =>
        exact coheres_setFollower rfl fun h => ⟨h.search, h.grace, h.aim, by simp [hst, FollowerState.mayPend], by simp, h.lost⟩
      · next hst =>
        exact coheres_setFollower rfl fun h => ⟨h.search, h.grace, h.aim, by simp [hst, FollowerState.mayPend], by simp, h.lost⟩
      · next hst =>
        exact coheres_setFollower rfl
          fun h => ⟨h.search, h.grace, by simp, by simp [hst, FollowerState.mayPend], by simp, by simp [hst]⟩
      case h_4 | h_5 | h_6 => exact coheres_refl s

theorem stopRoundFor_idle (a : AbortReason) : (stopRoundFor a s).round.state = .idle := by
  unfold stopRoundFor
  split
  · simp
  · simp
  · assumption

theorem endDue_not_due (a : AbortReason) : (endDue a s).round.state ≠ .due := by
  unfold endDue
  split
  · simp
  · assumption

theorem coheres_parkFor (a : AbortReason) : Coheres s (parkFor a s) := by
  unfold parkFor
  split
  · next hst =>
    refine ⟨fun h => ?_, fun _ => dueIsBusy_of_not_due (endDue_not_due _ a)⟩
    have hmark : (s.setFollower { s.follower with followPending := false }).coherent :=
      ⟨h.search, h.grace, h.aim, by simp, by simp [hst], h.lost⟩
    unfold endDue
    split
    · next hd => exact abandonRound_coherent _ a (by rw [hd]; rfl) hmark
    · exact hmark
  · have hround : (abortIfBroken s (enterParked (stopRoundFor a s))).round.state = .idle := by
      have hk : (abortIfBroken s (enterParked (stopRoundFor a s))).round = (enterParked (stopRoundFor a s)).round :=
        keeps_abortIfBroken s _ .round (by decide)
      rw [hk]
      simpa using stopRoundFor_idle s a
    refine ⟨fun _ => ?_, fun _ => dueIsBusy_of_not_due (by simp [hround])⟩
    exact coherent_of_keeps (keeps_abortIfBroken s _) (by decide) (by decide) (by decide) (enterParked_coherent _)

/-- R71: AIMING is itself a busy condition. -/
theorem coheres_goTo (az el : Word) (b : Byte) : Coheres s (goTo az el b s).state := by
  have haim (t : Angles) (x : ThenAction) : Coheres s (abortIfBroken s (enterAiming t x .station s)) := by
    have hk : (abortIfBroken s (enterAiming t x .station s)).follower = (enterAiming t x .station s).follower :=
      keeps_abortIfBroken s _ .follower (by decide)
    refine ⟨fun _ => ?_, fun _ => dueIsBusy_of_busy ?_⟩
    · exact coherent_of_keeps (keeps_abortIfBroken s _) (by decide) (by decide) (by decide) (enterAiming_coherent s _ _ _)
    · simp [roundBusy, hk]
  unfold goTo
  split
  · exact coheres_refl s
  · split
    · exact coheres_refl s
    · split
      · exact coheres_refl s
      · split
        · exact coheres_refl s
        · exact haim _ _

theorem coheres_writeSteps (i : Half) (l : List StepField) : Coheres s (writeSteps i l s).state := by
  unfold writeSteps
  split_ifs
  case pos | pos | pos => exact coheres_refl s
  case neg => exact coheres_setSearch s rfl

theorem coheres_writeSearch (i st m : Byte) (a b : Half) (r : Byte) : Coheres s (writeSearch i st m a b r s).state := by
  unfold writeSearch
  split
  · exact coheres_refl s
  · split
    · exact coheres_refl s
    · split
      · exact coheres_refl s
      · exact coheres_setSearch s rfl

theorem SearchUnit.appendAll_active (u : SearchUnit) (l : List Step) : (u.appendAll l).active = u.active := by
  induction l generalizing u with
  | nil => rfl
  | cons st rest ih =>
    unfold SearchUnit.appendAll
    split
    · exact ih _
    · rfl

theorem coheres_appendSteps (l : List StepField) : Coheres s (appendSteps l s).state := by
  unfold appendSteps
  split
  · exact coheres_refl s
  · exact coheres_storeSearch s (SearchUnit.appendAll_active _ _)

theorem coheres_resetStream : Coheres s (resetStream s).state := by
  unfold resetStream
  split
  · exact coheres_refl s
  · exact coheres_setSearch s rfl

/-- R99: a search that starts is active. -/
theorem startSearch_active {i : Fin 8} {c : Angles} {o : SearchOwner} {g : Angles}
    (h : (startSearch i c o s).2 = .started g) : (startSearch i c o s).1.search.active.isSome = true := by
  unfold startSearch at h ⊢
  dsimp only at h ⊢
  split at h
  · simp
  · split at h
    · cases h
    · next hf => simp [hf]

/-- A started search keeps a DUE round waiting; a starved one examines it. -/
theorem coheres_writeStart {i : Fin 8} {c : Angles} {o : SearchOwner} : Coheres s (writeStart (startSearch i c o s)) := by
  have hsteer (f : Steer) : (writeSteer f (startSearch i c o s).1).coherent :=
    coherent_of_keeps (keeps_writeSteer f _) (by decide) (by decide) (by decide) (startSearch_coherent s i c o)
  unfold writeStart
  split
  · next heq => exact ⟨fun _ => hsteer _, fun _ => dueIsBusy_of_busy (by simp [roundBusy, startSearch_active s heq])⟩
  · exact coheres_examineDue fun _ => hsteer _
  · next heq => exact absurd heq (startSearch_answer s i c o)

theorem coheres_stationSearch (i : Byte) : Coheres s (stationSearch i s).state := by
  unfold stationSearch
  split
  · exact coheres_refl s
  · split_ifs
    case pos | pos | pos | pos => exact coheres_refl s
    case neg _ _ hst _ =>
      refine coheres_trans (coheres_setFollower (by rfl) fun h => ?_) (coheres_writeStart _)
      refine ⟨h.search, h.grace, h.aim, by simp, fun ha => ?_, h.lost⟩
      have ha' : s.follower.state = .aiming := ha
      simp [ha', FollowerState.maySearch] at hst

/-- R114: the mode that a START_MEASURE asks for is not IDLE. -/
theorem requestedMode_not_idle {m k : Byte} {a b c : Word} {x : EmissionMode × Bool} (h : requestedMode m k a b c = some x) :
    x.1 ≠ .idle := by
  unfold requestedMode at h
  split at h
  case h_5 => cases h
  all_goals cases h; simp

theorem coheres_startMeasure (m k : Byte) (a b c : Word) : Coheres s (startMeasure m k a b c s).state := by
  unfold startMeasure
  split
  · exact coheres_refl s
  · next x clamped hx =>
    split_ifs
    case pos | pos => exact coheres_refl s
    case neg =>
      refine ⟨setMode_coherent s _, fun _ => dueIsBusy_of_busy ?_⟩
      simp [roundBusy, acceptClamped, requestedMode_not_idle hx]

theorem coheres_storeFiducial (i : Fin 16) (e : FiducialEntry) : Coheres s (storeFiducial i e s) :=
  coheres_trans (coheres_setRound s (by rfl)) (coheres_reportLevel _ _)

theorem coheres_writeFiducial (i : Byte) (f : FiducialField) : Coheres s (writeFiducial i f s).state := by
  unfold writeFiducial
  split
  · exact coheres_refl s
  · split
    · exact coheres_refl s
    · split
      · exact coheres_refl s
      · exact coheres_storeFiducial s _ _

theorem coheres_changeFiducial (st : FiducialState) (i : Byte) : Coheres s (changeFiducial st i s).state := by
  unfold changeFiducial
  split
  · exact coheres_refl s
  · split_ifs
    case pos | pos => exact coheres_refl s
    case neg => exact coheres_storeFiducial s _ _

theorem coheres_startRound : Coheres s (startRound s).state := by
  unfold startRound
  split
  · exact coheres_refl s
  · split
    · exact coheres_refl s
    · next hc =>
      split
      · exact coheres_refl s
      · refine ⟨startRoundNow_coherent s, fun _ => dueIsBusy_of_not_due fun hd => ?_⟩
        have hrun := (startRoundNow_leaves hc).1
        simp only [accept] at hd
        rw [hd] at hrun
        cases hrun

theorem coheres_stopRound : Coheres s (stopRound s).state := by
  have hidle := stopRoundFor_idle s .stopped
  unfold stopRound
  split
  · exact ⟨fun _ => enterParked_coherent _, fun _ => dueIsBusy_of_not_due (by simp [accept, hidle])⟩
  · next hd =>
    refine ⟨fun h => ?_, fun _ => dueIsBusy_of_not_due (by simp [accept, hidle])⟩
    simp only [accept, stopRoundFor, hd]
    exact abandonRound_coherent s _ (by rw [hd]; rfl) h
  · exact coheres_refl s

theorem coheres_ackEvent (n : Byte) : Coheres s (ackEvent n s).state := by
  unfold ackEvent
  dsimp only
  split
  · exact coheres_refl s
  · split
    case isTrue | isFalse => exact coheres_setEvents s _

theorem coheres_raiseTest (n : Byte) : Coheres s (raiseTest n s).state := by
  unfold raiseTest
  dsimp only
  split
  · exact coheres_refl s
  · split_ifs
    case pos => exact coheres_refl s
    case neg | neg => exact coheres_setEvents s _

theorem coheres_setEnumerated {α : Type} (i : Byte) (v : Word) (o : Option α) (f : α → State) (h : ∀ x, Coheres s (f x)) :
    Coheres s (setEnumerated i v o s f).state := by
  unfold setEnumerated
  split
  · exact coheres_refl s
  · exact h _

theorem coheres_storeParam (p : Param) (i : Byte) (v : Word) : Coheres s (storeParam p i v s).state := by
  have hf {x : Follower} (hst : x.state = s.follower.state) (hg : x.grace = s.follower.grace) (ha : x.aim = s.follower.aim)
      (hp : x.followPending = s.follower.followPending) (hn : x.acqRun = s.follower.acqRun) :
      Coheres s (s.setFollower x) :=
    coheres_setFollower hst fun h =>
      ⟨hst ▸ h.search, hst ▸ hg ▸ h.grace, hst ▸ ha ▸ h.aim, hst ▸ hp ▸ h.pending, hst ▸ ha ▸ hp ▸ h.aiming, hst ▸ hn ▸ h.lost⟩
  cases p with
  | admQualityMin | homeDistance => exact coheres_setDistance s _
  | autoAdm => exact coheres_setEnumerated s _ _ _ _ fun _ => coheres_setDistance s _
  | kpAz | kpEl | kiAz | kiEl | tOn | tOff | grace => exact hf rfl rfl rfl rfl rfl
  | autoSearch => exact coheres_setEnumerated s _ _ _ _ fun _ => hf rfl rfl rfl rfl rfl
  | margin => exact coheres_storeSearch s rfl
  | polarity => exact coheres_setEnumerated s _ _ _ _ fun _ => coheres_setEmitter s Iff.rfl
  | period => exact coheres_setRound s rfl
  | returnSetting => exact coheres_setEnumerated s _ _ _ _ fun _ => coheres_setRound s rfl

theorem coheres_setParam (i : Byte) (v : Word) : Coheres s (setParam i v s).state := by
  unfold setParam
  split
  · exact coheres_refl s
  · split
    · exact coheres_refl s
    · exact coheres_storeParam s _ i v

theorem restartBlocks_coherent : (restartBlocks s).coherent := by
  refine ⟨?_, ?_, ?_, ?_, ?_, ?_⟩ <;>
    simp [restartBlocks, Follower.restarted, Follower.parkedAs, SearchUnit.restarted]

theorem coheres_restartPart : Coheres s (restartPart s) := by
  have hsteer := keeps_writeSteer .hold (restartBlocks s)
  have hall := keeps_trans (keeps_mono (m := [.head, .events]) hsteer (by decide))
    (keeps_mono (keeps_reevaluate _) (by decide))
  refine ⟨fun _ => coherent_of_keeps hall (by decide) (by decide) (by decide) (restartBlocks_coherent s), fun _ => ?_⟩
  refine dueIsBusy_of_not_due ?_
  rw [show (restartPart s).round = (restartBlocks s).round from hall .round (by decide)]
  simp [restartBlocks, RoundUnit.restarted, loadPeriod]

theorem coheres_perform (r : Request) : Coheres s (perform r s).state := by
  cases r with
  | loadCompBegin a => exact coheres_loadRequest s a _ fun _ => coheres_storeTable s _ _
  | loadCompData a b c => exact coheres_loadData s a b c
  | loadCompEnd a b => exact coheres_endLoad s a b
  | setRefraction n => exact coheres_trans (coheres_setCorrection s _) (coheres_reportLevel _ _)
  | writePose a b c => exact coheres_writePose s a b c
  | clearPose a => exact coheres_clearPose s a
  | readPose a => exact coheres_of_eq (readPose_state s a)
  | selectPose a => exact coheres_selectPose s a
  | establishAdm => exact coheres_establishAdm s
  | establishHome => exact coheres_establishHome s
  | dropDistance => exact coheres_dropFor s
  | follow => exact coheres_follow s
  | park => exact coheres_parkFor s _
  | goto a b c => exact coheres_goTo s a b c
  | writeSteps a b => exact coheres_writeSteps s a b
  | writeSearch a b c d e f => exact coheres_writeSearch s a b c d e f
  | appendSteps a => exact coheres_appendSteps s a
  | resetStream => exact coheres_resetStream s
  | readSearch a => exact coheres_of_eq (readSearch_state s a)
  | readSteps a b => exact coheres_of_eq (readSteps_state s a b)
  | startSearch a => exact coheres_stationSearch s a
  | startMeasure a b c d e => exact coheres_startMeasure s a b c d e
  | stopMeasure => exact coheres_examineDue (setMode_coherent s _)
  | readLatest => exact coheres_setEmitter s Iff.rfl
  | writeFiducial a b => exact coheres_writeFiducial s a b
  | enableFiducial a => exact coheres_changeFiducial s _ a
  | disableFiducial a => exact coheres_changeFiducial s _ a
  | readFiducial a => exact coheres_of_eq (readFiducial_state s a)
  | startRound => exact coheres_startRound s
  | stopRound => exact coheres_stopRound s
  | ackEvent a => exact coheres_ackEvent s a
  | raiseTest a => exact coheres_raiseTest s a
  | setFloor a => exact coheres_setEvents s _
  | setParam a b => exact coheres_setParam s a b
  | readStatus a => exact coheres_of_eq (readStatus_state s a)
  | restart => exact coheres_restartPart s

end Requests

/-! ### The ports and the links -/

section Ports

variable (s : State)

theorem coheres_serve (f : RequestFrame) : Coheres s (serve f s) := by
  have hanswer : Coheres s (answerFrame f s).state := by
    cases f with
    | named _ r => exact coheres_perform s r
    | unnamed _ _ => exact coheres_refl s
  exact coheres_trans (coheres_trans hanswer (coheres_admit _ _)) (coheres_setStation _ _)

theorem coheres_passFront {t : State} (h : portMove.passFront s = some t) : Coheres s t := by
  unfold portMove.passFront at h
  split at h
  · cases h
    exact coheres_trans (coheres_setStation s _) (coheres_passForward _ _)
  case h_2 | h_3 => cases h

theorem coheres_portMove {t : State} (h : portMove s = some t) : Coheres s t := by
  unfold portMove at h
  split at h
  · split at h
    · cases h
      exact coheres_serve s _
    · exact coheres_passFront s h
  · split at h
    · cases h
      exact coheres_setStation s _
    · exact coheres_passFront s h
    · cases h

theorem coheres_portMoves (fuel : Nat) : Coheres s (portMoves fuel s) := by
  induction fuel generalizing s with
  | zero => exact coheres_refl s
  | succ fuel ih =>
    unfold portMoves
    split
    · next t ht => exact coheres_trans (coheres_portMove s ht) (ih t)
    · exact coheres_refl s

theorem coheres_stationArrive (f : StationFrame) : Coheres s (stationArrive f s) := by
  unfold stationArrive
  split
  · exact coheres_refl s
  · have harm : Coheres s (armBreak s) := coheres_setStation s _
    refine coheres_trans harm ?_
    unfold joinQueue
    split
    · exact coheres_trans (coheres_setStation _ _) (coheres_portMoves _ _)
    · exact coheres_trans (coheres_setStation _ _) (coheres_occur _ _)

theorem coheres_requestArrive (q : Taking) (r : Request) : Coheres s (requestArrive q r s) :=
  coheres_trans (coheres_setService s _) (coheres_stationArrive _ _)

theorem coheres_sampleArrive (f : Sample) : Coheres s (sampleArrive f s) := by
  have hrestart : Coheres s (restartSilence s) := coheres_trans (coheres_setHead s _) (coheres_reportLevel _ _)
  refine coheres_trans hrestart ?_
  unfold sampleArrive queueSample
  split
  · exact coheres_setHead _ _
  · exact coheres_trans (coheres_setHead _ _) (coheres_occur _ _)

theorem coheres_discardFrame (p : Port) : Coheres s (discardFrame p s) := by
  cases p with
  | head => exact coheres_trans (coheres_setHead s _) (coheres_occur _ _)
  | station =>
    simp only [discardFrame]
    split
    · exact coheres_refl s
    · exact coheres_trans (coheres_setStation s _) (coheres_occur _ _)

theorem coheres_readHeadStatus (h : HeadStatus) : Coheres s (readHeadStatus h s) := by
  unfold readHeadStatus
  split
  · have hfacts : Coheres s (storeFacts h s) := coheres_trans (coheres_setHead s _) (coheres_reportLevel _ _)
    refine coheres_trans (coheres_trans hfacts ?_) (coheres_offerStatus _ h)
    unfold actOnDrives
    split
    · exact coheres_parkFor _ _
    · exact coheres_refl _
  · exact coheres_discardFrame s _

theorem coheres_forwardArrive (f : ForwardFrame) : Coheres s (forwardArrive f s) := by
  unfold forwardArrive
  split
  · exact coheres_stationArrive s _
  · exact coheres_discardFrame s _

theorem coheres_recordSent : Coheres s (recordSent s) := by
  have hdepart : Coheres s (depart s) :=
    coheres_of_keeps (keeps_depart s) (by decide) (by decide) (by decide) (by decide)
  have hplace (u : State) : Coheres u (givePlace u) := by
    unfold givePlace
    split
    · split
      · exact coheres_trans (coheres_useFree u) (coheres_portMoves _ _)
      · exact coheres_trans (coheres_trans (coheres_useFree u) (coheres_arbitrate _)) (coheres_portMoves _ _)
    · exact coheres_portMoves u _
  have hbegin (u : State) : Coheres u (beginRecord u) :=
    coheres_of_keeps (keeps_beginRecord u) (by decide) (by decide) (by decide) (by decide)
  exact coheres_trans (coheres_trans hdepart (hplace _)) (hbegin _)

theorem coheres_linkBreak : Coheres s (linkBreak s) := by
  unfold linkBreak
  split
  · exact coheres_trans (coheres_restartPart s) (coheres_setStation _ _)
  · exact coheres_setStation s _

theorem coheres_triggerEdge (e : Edge) : Coheres s (triggerEdge e s) := by
  unfold triggerEdge
  split
  · exact coheres_refl s
  · split
    · next hm => exact coheres_setEmitter s (by simp [hm])
    · exact coheres_occur s _
    case h_3 | h_4 | h_5 | h_6 => exact coheres_refl s

theorem coheres_powerOn : Coheres s (powerOn s) :=
  ⟨fun _ => (coherent_iff _).2 ⟨rfl, rfl⟩, fun _ => rfl⟩

end Ports

/-! ### Every command -/

theorem exec_coheres (c : Instr) (s : State) : ∃ t, exec c s = .next t ∧ Coheres s t := by
  have request (q : Taking) (r : Request) : ∃ t, exec (requestInstr q r) s = .next t ∧ Coheres s t :=
    ⟨_, exec_requestInstr q r s, coheres_requestArrive s q r⟩
  have guarded {p : Prop} [Decidable p] {t : State} (h : Coheres s t) : Coheres s (if p then t else s) := by
    split
    · exact h
    · exact coheres_refl s
  cases c with
  | sample f => exact ⟨_, rfl, coheres_sampleArrive s f⟩
  | headStatus h => exact ⟨_, rfl, coheres_readHeadStatus s h⟩
  | requestFrame b r => exact ⟨_, rfl, coheres_trans (coheres_setService s b) (coheres_stationArrive _ _)⟩
  | forwardFrame f => exact ⟨_, rfl, coheres_forwardArrive s f⟩
  | discardedFrame p => exact ⟨_, rfl, coheres_discardFrame s p⟩
  | takeSample => exact ⟨_, rfl, coheres_takeOldest s⟩
  | headFrameSent =>
    exact ⟨_, rfl, coheres_of_keeps (keeps_headDone s) (by decide) (by decide) (by decide) (by decide)⟩
  | stationRecordSent b => exact ⟨_, rfl, coheres_trans (coheres_setService s b) (coheres_recordSent _)⟩
  | eventAdmission => exact ⟨_, rfl, coheres_arbitrate s⟩
  | headSilent | establishTimerExpiry | aimTimerExpiry | measureTimerExpiry | slotTimerExpiry | roundPeriodExpiry =>
    exact ⟨_, rfl, coheres_namedTick s _⟩
  | refractionStale => exact ⟨_, rfl, guarded (coheres_baseTick s)⟩
  | graceExpiry | dwellExpiry => exact ⟨_, rfl, guarded (coheres_takeOldest s)⟩
  | dueRoundStart => exact ⟨_, rfl, coheres_examineDue id⟩
  | trigEdge e => exact ⟨_, rfl, coheres_triggerEdge s e⟩
  | linkBreak => exact ⟨_, rfl, coheres_linkBreak s⟩
  | powerOnReset => exact ⟨_, rfl, coheres_powerOn s⟩
  | unknownRequest q code => exact ⟨_, rfl, coheres_trans (coheres_setService s _) (coheres_stationArrive _ _)⟩
  | timeBaseTick => exact ⟨_, rfl, coheres_baseTick s⟩
  | srxReturnsHigh => exact ⟨_, rfl, coheres_setStation s _⟩
  | loadCompBegin q a => exact request q (.loadCompBegin a)
  | loadCompData q a b l => exact request q (.loadCompData a b l)
  | loadCompEnd q a b => exact request q (.loadCompEnd a b)
  | setRefraction q n => exact request q (.setRefraction n)
  | writePose q i p l => exact request q (.writePose i p l)
  | clearPose q i => exact request q (.clearPose i)
  | readPose q i => exact request q (.readPose i)
  | selectPose q i => exact request q (.selectPose i)
  | establishAdm q => exact request q .establishAdm
  | establishHome q => exact request q .establishHome
  | dropDistance q => exact request q .dropDistance
  | follow q => exact request q .follow
  | park q => exact request q .park
  | goto q az el t => exact request q (.goto az el t)
  | writeSteps q i l => exact request q (.writeSteps i l)
  | writeSearch q i a b c d e => exact request q (.writeSearch i a b c d e)
  | appendSteps q l => exact request q (.appendSteps l)
  | resetStream q => exact request q .resetStream
  | readSearch q i => exact request q (.readSearch i)
  | readSteps q a b => exact request q (.readSteps a b)
  | startSearch q i => exact request q (.startSearch i)
  | startMeasure q a b c d e => exact request q (.startMeasure a b c d e)
  | stopMeasure q => exact request q .stopMeasure
  | readLatest q => exact request q .readLatest
  | writeFiducial q i f => exact request q (.writeFiducial i f)
  | enableFiducial q i => exact request q (.enableFiducial i)
  | disableFiducial q i => exact request q (.disableFiducial i)
  | readFiducial q i => exact request q (.readFiducial i)
  | startRound q => exact request q .startRound
  | stopRound q => exact request q .stopRound
  | ackEvent q n => exact request q (.ackEvent n)
  | raiseTest q n => exact request q (.raiseTest n)
  | setFloor q n => exact request q (.setFloor n)
  | setParam q i v => exact request q (.setParam i v)
  | readStatus q c => exact request q (.readStatus c)
  | restart q => exact request q .restart

theorem step_coheres {s t : State} (h : step s = .next t) : Coheres s t := by
  unfold step at h
  split at h
  · cases h
    exact coheres_refl s
  · next c rest _ =>
    obtain ⟨u, hu, hk⟩ := exec_coheres c (s.setPending rest)
    rw [hu] at h
    cases h
    exact coheres_trans (coheres_of_keeps (keeps_setPending s rest) (by decide) (by decide) (by decide) (by decide)) hk

end Sys2Proof.Machine

/-! ### The statements -/

namespace Sys2Proof.Proofs

open Sys2Proof Sys2Proof.Machine

/-- Settles O7. -/
theorem stepKeepsFollowerAndSearch : Obligations.StepKeepsFollowerAndSearch := fun s t hs ht =>
  (coherent_iff t).1 ((step_coheres ht).follower ((coherent_iff s).2 hs))

/-- Settles O8, with the slot list and the silence timer kept by every handling. -/
theorem stepKeepsRoundAndSilence : Obligations.StepKeepsRoundAndSilence := by
  rintro s t ⟨hslots, hdue, hsilence⟩ ht
  have hkept : t.roundAgrees = true ∧ t.silenceBounded = true :=
    step_keeps (P := fun s => s.roundAgrees = true ∧ s.silenceBounded = true) (fun _ _ h => h)
      (fun s t hk h => ⟨hk.slots h.1, decide_eq_true (hk.silence (of_decide_eq_true h.2))⟩) ht ⟨hslots, hsilence⟩
  exact ⟨hkept.1, (step_coheres ht).due hdue, hkept.2⟩

end Sys2Proof.Proofs
end

