-- ==== Sys2Proof/Proofs/Events.lean ====
section
/-! The queue of commands, the power-on reset, and the event unit: occurrences, the arbiter's choice and the admission (chapter 8). -/

namespace Sys2Proof.Machine

/-! ### Counters -/

theorem countUp_eq_min (cap n : Nat) : countUp cap n = min cap (n + 1) := by
  unfold countUp
  split <;> omega

theorem count16_eq_min (n : Nat) : count16 n = min 65535 (n + 1) := countUp_eq_min _ n

/-! ### Occurrences (R155) -/

theorem SourceState.occurred_of_clear {x : SourceState} (h : x.latch = false) (t : Word) :
    x.occurred t = { x with latch := true, count := 1, latchTime := t, reported := false } := by
  simp [SourceState.occurred, h]

theorem SourceState.occurred_of_set {x : SourceState} (h : x.latch = true) (t : Word) :
    x.occurred t = { x with count := min 255 (x.count + 1) } := by
  simp [SourceState.occurred, h, countUp_eq_min]

/-! ### Eligible records (R156, R160) -/

theorem EventUnit.eligible_edge (e : EventUnit) {src : Source} (h : src.isLevel = false) :
    e.eligible src = true ↔ (e.get src).latch = true ∧ (e.get src).reported = false ∧ e.floor < src.level := by
  simp [EventUnit.eligible, EventUnit.pendingRecord, h, and_assoc]

theorem EventUnit.eligible_level (e : EventUnit) {src : Source} (h : src.isLevel = true) :
    e.eligible src = true ↔
      (((e.get src).genuine = true ∨ (e.get src).testMark = true) ↔ (e.get src).reported = false) ∧ e.floor < src.level := by
  have hdiffer (a b : Bool) : (a != b) = true ↔ (a = true ↔ b = false) := by cases a <;> cases b <;> simp
  simp only [EventUnit.eligible, EventUnit.pendingRecord, h, if_true, SourceState.effective, Bool.and_eq_true,
    decide_eq_true_eq, hdiffer, Bool.or_eq_true]

/-! ### The arbiter's choice (R161) -/

theorem Source.number_injective {a b : Source} (h : a.number = b.number) : a = b :=
  Source.idx_injective (Fin.ext (Nat.succ.inj h))

/-- `a` is served before `b`, or is `b`. -/
def Source.precedes (a b : Source) : Prop := b.level < a.level ∨ b.level = a.level ∧ a.number ≤ b.number

theorem Source.precedes_refl (a : Source) : a.precedes a := .inr ⟨rfl, le_rfl⟩

theorem Source.precedes_antisymm {a b : Source} (h : a.precedes b) (k : b.precedes a) : a = b := by
  rcases h with h | ⟨h, h'⟩ <;> rcases k with k | ⟨k, k'⟩
  · omega
  · omega
  · omega
  · exact Source.number_injective (by omega)

theorem Source.precedes_trans {a b c : Source} (h : a.precedes b) (k : b.precedes c) : a.precedes c := by
  unfold Source.precedes at *
  omega

/-- `o` is the first of the eligible sources of `l`. -/
def EventUnit.firstOf (e : EventUnit) (l : List Source) : Option Source → Prop
  | none => ∀ x ∈ l, e.eligible x = false
  | some a => a ∈ l ∧ e.eligible a = true ∧ ∀ x ∈ l, e.eligible x = true → a.precedes x

/-- The arbiter's walk meets the sources in order of number, so that of equal levels the one met first stays. -/
theorem EventUnit.firstOf_betterSource (e : EventUnit) {l : List Source} {best : Option Source} (h : e.firstOf l best)
    {src : Source} (hn : ∀ x ∈ l, x.number < src.number) : e.firstOf (l ++ [src]) (betterSource e best src) := by
  unfold betterSource
  split
  · next he =>
    cases best with
    | none =>
      refine ⟨by simp, he, fun x hx hex => ?_⟩
      rcases List.mem_append.1 hx with hl | hl
      · exact absurd hex (by simp [h x hl])
      · rw [List.mem_singleton.1 hl]
        exact Source.precedes_refl src
    | some b =>
      obtain ⟨hb, heb, hfirst⟩ := h
      dsimp only
      split
      · next hlt =>
        refine ⟨by simp, he, fun x hx hex => ?_⟩
        rcases List.mem_append.1 hx with hl | hl
        · exact Source.precedes_trans (.inl hlt) (hfirst x hl hex)
        · rw [List.mem_singleton.1 hl]
          exact Source.precedes_refl src
      · next hge =>
        refine ⟨List.mem_append_left _ hb, heb, fun x hx hex => ?_⟩
        rcases List.mem_append.1 hx with hl | hl
        · exact hfirst x hl hex
        · rw [List.mem_singleton.1 hl]
          have := hn b hb
          unfold Source.precedes
          omega
  · next he =>
    have hskip {x : Source} (hx : x ∈ l ++ [src]) (hex : e.eligible x = true) : x ∈ l := by
      rcases List.mem_append.1 hx with hl | hl
      · exact hl
      · exact absurd (List.mem_singleton.1 hl ▸ hex) he
    cases best with
    | none =>
      intro x hx
      cases hex : e.eligible x
      · rfl
      · exact absurd hex (by simp [h x (hskip hx hex)])
    | some b => exact ⟨List.mem_append_left _ h.1, h.2.1, fun x hx hex => h.2.2 x (hskip hx hex) hex⟩

theorem EventUnit.firstOf_foldl (e : EventUnit) {l : List Source} (h : l.Pairwise fun a b => a.number < b.number) :
    e.firstOf l (l.foldl (betterSource e) none) := by
  induction l using List.reverseRecOn with
  | nil => simp [EventUnit.firstOf]
  | append_singleton l src ih =>
    rw [List.pairwise_append] at h
    rw [List.foldl_append]
    exact e.firstOf_betterSource (ih h.1) fun x hx => h.2.2 x hx src (by simp)

theorem chooseSource_firstOf (e : EventUnit) : e.firstOf Source.all (chooseSource e) := e.firstOf_foldl (by decide)

theorem chooseSource_eq_some_iff (e : EventUnit) (src : Source) :
    chooseSource e = some src ↔ e.eligible src = true ∧ ∀ o, e.eligible o = true → src.precedes o := by
  have hfirst := chooseSource_firstOf e
  constructor
  · intro h
    rw [h] at hfirst
    exact ⟨hfirst.2.1, fun o => hfirst.2.2 o o.mem_all⟩
  · rintro ⟨he, hall⟩
    cases hc : chooseSource e with
    | none =>
      rw [hc] at hfirst
      exact absurd he (by simp [hfirst src src.mem_all])
    | some b =>
      rw [hc] at hfirst
      rw [Source.precedes_antisymm (hall b hfirst.2.1) (hfirst.2.2 src src.mem_all he)]

theorem chooseSource_eq_none_iff (e : EventUnit) : chooseSource e = none ↔ ∀ src, e.eligible src = false := by
  have hfirst := chooseSource_firstOf e
  cases hc : chooseSource e with
  | none => exact ⟨fun _ src => (hc ▸ hfirst) src src.mem_all, fun _ => rfl⟩
  | some b =>
    rw [hc] at hfirst
    exact ⟨fun h => absurd h (by simp), fun h => absurd hfirst.2.1 (by simp [h b])⟩

/-! ### The admission (R159, R161) -/

theorem SourceState.admitted_reported (src : Source) (x : SourceState) :
    (x.admitted src).reported = if src.isLevel then x.effective else decide (src ≠ .distanceLost) := by
  unfold SourceState.admitted
  split
  · rfl
  · split
    · next h => simp [h]
    · next h => simp [h]

theorem admitRecord_reported (r : Record) (s : State) (src : Source) :
    ((admitRecord r s).events.get src).reported = (s.events.get src).reported := by
  by_cases h : src = .queueCongested
  · subst h
    rw [admitRecord, reportLevel_get_self]
    rfl
  · rw [(sources_admit r s).2 src (by simpa using h)]

theorem arbitrate_of_choice {s : State} {src : Source} (hout : s.station.out.length < 64)
    (h : chooseSource s.events = some src) : arbitrate s = admitEvent src s := by
  simp [arbitrate, hout, h]

theorem arbitrate_of_none {s : State} (h : 64 ≤ s.station.out.length ∨ chooseSource s.events = none) : arbitrate s = s := by
  unfold arbitrate
  split
  · next hout =>
    rw [h.resolve_left (by omega)]
  · rfl

theorem sources_admitEvent (src : Source) (s : State) : keepsSources [src, .queueCongested] s (admitEvent src s) :=
  sources_trans (sources_mono (sources_put s _) (by simp)) (sources_mono (sources_admit _ _) (by simp))

end Sys2Proof.Machine

/-! ### The statements -/

namespace Sys2Proof.Proofs

open Sys2Proof Sys2Proof.Machine

/-- Settles O1. -/
theorem stepRunsFrontCommand : Obligations.StepRunsFrontCommand := by
  refine ⟨fun c rest s h => ?_, fun s h => ?_⟩
  · rw [step, h]
  · rw [step, h]

/-- Settles O3. -/
theorem powerOnReset : Obligations.PowerOnReset := by
  intro s
  refine ⟨powerOn s, rfl, rfl, rfl, rfl, rfl, rfl, rfl, rfl, rfl, fun i => ?_, rfl, rfl, rfl, rfl, rfl, rfl, rfl, rfl, rfl,
    fun src => ?_, rfl, rfl, rfl⟩
  · simp only [powerOn, State.reset, PoseTable.reset, Fin.getElem_fin, Vector.getElem_replicate]
    rfl
  · cases src <;> rfl

/-- Settles O4. -/
theorem resetIsSafe : Obligations.ResetIsSafe := by
  have hqueues : State.reset.queuesBounded = true := rfl
  have hconditions : State.reset.conditionsTrue = true := (conditionsTrue_iff _).2 fun src _ => by cases src <;> rfl
  have hcoherent : State.reset.searchAgrees = true ∧ State.reset.followerItems = true := ⟨rfl, rfl⟩
  have hranges : State.reset.parametersInRange = true ∧ State.reset.integratorsBounded = true ∧
      State.reset.ringBounded = true ∧ State.reset.descriptorsInRegion = true := ⟨rfl, rfl, rfl, rfl⟩
  unfold Obligations.ResetIsSafe State.safe
  rw [hqueues, hconditions, hcoherent.1, hcoherent.2, hranges.1, hranges.2.1, hranges.2.2.1, hranges.2.2.2]
  rfl

/-- Settles O11. -/
theorem occurrenceLatches : Obligations.OccurrenceLatches := by
  intro src s
  refine ⟨keeps_occur src s, sources_occur src s, fun h => ?_, fun h => ?_⟩
  · rw [occur_get_self, SourceState.occurred_of_clear h]
  · rw [occur_get_self, SourceState.occurred_of_set h]

/-- Settles O12: the arbiter walks the sources in order of number and keeps the first of the highest level. -/
theorem arbiterChoosesHighest : Obligations.ArbiterChoosesHighest := fun e =>
  ⟨fun _ => e.eligible_edge, fun _ => e.eligible_level, fun src => chooseSource_eq_some_iff e src, chooseSource_eq_none_iff e⟩

/-- Settles O13. -/
theorem eventAdmission : Obligations.EventAdmission := by
  intro s
  refine ⟨arbitrate s, rfl, fun hout src hsrc => ?_, arbitrate_of_none⟩
  rw [arbitrate_of_choice hout hsrc]
  refine ⟨rfl, ?_, ?_, keeps_admitEvent src s, sources_admitEvent src s⟩
  · rw [admitEvent, admitRecord_reported]
    simpa using SourceState.admitted_reported src (s.events.get src)
  · rintro rfl
    rw [admitEvent, (sources_admit _ _).2 .distanceLost (by decide)]
    exact EventUnit.get_put_self _ _ _

end Sys2Proof.Proofs
end

