-- ==== Sys2Proof/Proofs/Links.lean ====
section
/-! The links and the ports: arrivals, discarded frames, the two transmitters, the freed place, and the restart (chapter 9); the
trigger edge (section 6.6). -/

namespace Sys2Proof.Machine

/-! ### Reports that find the condition as it is -/

theorem SourceState.level_self (x : SourceState) (t : Word) : x.level x.genuine x.testMark t = x := by
  simp [SourceState.level, SourceState.effective]

theorem EventUnit.put_get (e : EventUnit) (src : Source) : e.put src (e.get src) = e := by
  simp [EventUnit.put, EventUnit.get]

/-- R156: a report of the condition that the event unit already holds changes nothing. -/
theorem reportLevel_of_agrees {src : Source} {s : State} (h : s.conditionAgrees src) : reportLevel src s = s := by
  unfold reportLevel
  rw [← h, SourceState.level_self, EventUnit.put_get]
  rfl

/-! ### Samples and discarded frames (R165 to R168) -/

theorem sources_restartSilence (s : State) : keepsSources [.headSilent] s (restartSilence s) :=
  sources_then_report (sources_of_events (s := s) rfl) (by simp)

theorem keeps_sampleArrive (f : Sample) (s : State) : keepsOthers [.head, .events] s (sampleArrive f s) := by
  have hrestart : keepsOthers [.head, .events] s (restartSilence s) :=
    keeps_then (keeps_mono (keeps_setHead s _) (by simp)) (keeps_reportLevel _ _) (by simp)
  unfold sampleArrive queueSample
  split
  · exact keeps_then hrestart (keeps_setHead _ _) (by simp)
  · exact keeps_then (keeps_then hrestart (keeps_setHead _ _) (by simp)) (keeps_occur _ _) (by simp)

theorem sampleArrive_genuine (f : Sample) (s : State) : ((sampleArrive f s).events.get .headSilent).genuine = false := by
  have hrestart : ((restartSilence s).events.get .headSilent).genuine = false := by
    rw [restartSilence, reportLevel_get_self]
    rfl
  unfold sampleArrive queueSample
  split
  · exact hrestart
  · rw [occur_get_other _ (by decide)]
    exact hrestart

theorem sampleArrive_of_room {s : State} (f : Sample) (h : s.head.rx.length < 8) :
    sampleArrive f s = (restartSilence s).setHead { s.head with rx := s.head.rx ++ [f], silenceTimer := 20 } := by
  have hr : (restartSilence s).head.rx.length < 8 := h
  rw [sampleArrive, queueSample, if_pos hr]
  rfl

theorem sampleArrive_of_full {s : State} (f : Sample) (h : 8 ≤ s.head.rx.length) :
    sampleArrive f s =
      occur .headOverrun
        ((restartSilence s).setHead { s.head with silenceTimer := 20, overruns := count16 s.head.overruns }) := by
  have hr : ¬ (restartSilence s).head.rx.length < 8 := Nat.not_lt.2 h
  rw [sampleArrive, queueSample, if_neg hr]
  rfl

/-! ### The head transmitter (R170, R171) -/

theorem headBegin_of_busy {s : State} (h : s.head.tx ≠ none) : headBegin s = s := by
  unfold headBegin
  cases ht : s.head.tx <;> simp_all

theorem headBegin_of_slot {s : State} {f : Steer} (ht : s.head.tx = none) (h : s.head.slot = some f) :
    headBegin s = s.setHead { s.head with slot := none, tx := some (.steer f) } := by
  simp [headBegin, ht, h]

theorem headBegin_of_forward {s : State} {f : ForwardFrame} {rest : List ForwardFrame} (ht : s.head.tx = none)
    (hs : s.head.slot = none) (h : s.head.forward = f :: rest) :
    headBegin s = s.setHead { s.head with forward := rest, tx := some (.forward f) } := by
  simp [headBegin, ht, hs, h]

theorem headBegin_of_idle {s : State} (ht : s.head.tx = none) (hs : s.head.slot = none) (h : s.head.forward = []) :
    headBegin s = s := by
  simp [headBegin, ht, hs, h]

theorem headDone_of_idle {s : State} (h : s.head.tx = none) : headDone s = s := by simp [headDone, h]

theorem headDone_of_busy {s : State} (h : s.head.tx ≠ none) :
    headDone s = headBegin (s.setHead { s.head with tx := none }) := by
  unfold headDone
  cases ht : s.head.tx <;> simp_all

theorem passForward_of_room {s : State} (f : ForwardFrame) (h : s.head.forward.length < 4) :
    passForward f s = headBegin (s.setHead { s.head with forward := s.head.forward ++ [f] }) := by
  rw [passForward, if_pos h]

theorem passForward_of_full {s : State} (f : ForwardFrame) (h : 4 ≤ s.head.forward.length) :
    passForward f s = occur .stationOverrun (s.setHead { s.head with forwardDrops := count16 s.head.forwardDrops }) := by
  rw [passForward, if_neg (Nat.not_lt.2 h)]

/-! ### The movement of the station's receive queue (R172, R173) -/

/-- The request slot is empty, or its request cannot be taken. -/
def State.slotHolds (s : State) : Prop := s.station.slot = none ∨ 64 ≤ s.station.out.length

theorem portMove_of_forward {s : State} (hs : s.slotHolds) {f : ForwardFrame} {rest : List StationFrame}
    (h : s.station.rx = .forward f :: rest) :
    portMove s = some (passForward f (s.setStation { s.station with rx := rest })) := by
  rcases hs with hs | hs
  · simp [portMove, portMove.passFront, hs, h]
  · cases hg : s.station.slot <;> simp [portMove, portMove.passFront, hg, h, Nat.not_lt.2 hs]

theorem portMove_of_empty {s : State} (hs : s.slotHolds) (h : s.station.rx = []) : portMove s = none := by
  rcases hs with hs | hs
  · simp [portMove, hs, h]
  · cases hg : s.station.slot <;> simp [portMove, portMove.passFront, hg, h, Nat.not_lt.2 hs]

/-- R173: behind a held request that cannot be taken a request waits. -/
theorem portMove_of_held {s : State} {g r : RequestFrame} {rest : List StationFrame} (hg : s.station.slot = some g)
    (hout : 64 ≤ s.station.out.length) (h : s.station.rx = .request r :: rest) : portMove s = none := by
  simp [portMove, portMove.passFront, hg, h, Nat.not_lt.2 hout]

theorem portMove_of_request {s : State} {r : RequestFrame} {rest : List StationFrame} (hs : s.station.slot = none)
    (h : s.station.rx = .request r :: rest) :
    portMove s = some (s.setStation { s.station with rx := rest, slot := some r }) := by
  simp [portMove, hs, h]

theorem portMove_of_taken {s : State} {g : RequestFrame} (hg : s.station.slot = some g)
    (hout : s.station.out.length < 64) : portMove s = some (serve g s) := by
  simp [portMove, hg, hout]

theorem portMoves_of_none {s : State} (h : portMove s = none) (n : Nat) : portMoves n s = s := by
  cases n with
  | zero => rfl
  | succ n => rw [portMoves, h]

theorem portMoves_of_some {s t : State} (h : portMove s = some t) (n : Nat) : portMoves (n + 1) s = portMoves n t := by
  rw [portMoves, h]

/-! ### Arrivals at the station port (R172) -/

theorem stationArrive_of_low {s : State} (h : s.station.srxLow = true) (f : StationFrame) : stationArrive f s = s := by
  simp [stationArrive, h]

/-- A frame that finds a place joins the queue, and what can move moves. -/
theorem stationArrive_of_room {s : State} (hl : s.station.srxLow = false) (h : s.station.rx.length < 8) (f : StationFrame) :
    stationArrive f s =
      portAdvance (s.setStation { s.station with breakArmed := true, rx := s.station.rx ++ [f] }) := by
  have hr : (armBreak s).station.rx.length < 8 := h
  rw [stationArrive, if_neg (by simp [hl]), joinQueue, if_pos hr]
  rfl

theorem stationArrive_of_full {s : State} (hl : s.station.srxLow = false) (h : 8 ≤ s.station.rx.length) (f : StationFrame) :
    stationArrive f s =
      occur .stationOverrun
        (s.setStation { s.station with breakArmed := true, overruns := count16 s.station.overruns }) := by
  have hr : ¬ (armBreak s).station.rx.length < 8 := Nat.not_lt.2 h
  rw [stationArrive, if_neg (by simp [hl]), joinQueue, if_neg hr]
  rfl

/-- R172: a FORWARD frame with nothing before it is passed on at once. -/
theorem stationArrive_forward {s : State} (hl : s.station.srxLow = false) (hrx : s.station.rx = []) (hs : s.slotHolds)
    (f : ForwardFrame) :
    stationArrive (.forward f) s = passForward f (s.setStation { s.station with breakArmed := true }) := by
  rw [stationArrive_of_room hl (by simp [hrx])]
  have hmove :
      portMove (s.setStation { s.station with breakArmed := true, rx := s.station.rx ++ [.forward f] }) =
        some (passForward f (s.setStation { s.station with breakArmed := true })) := by
    rw [portMove_of_forward (f := f) (rest := []) (by exact hs) (by simp [hrx])]
    simp only [State.setStation, hrx]
  have hpassed : (passForward f (s.setStation { s.station with breakArmed := true })).station =
      { s.station with breakArmed := true } := by
    simp
  rw [portAdvance, portMoves_of_some hmove, portMoves_of_none (portMove_of_empty ?_ ?_)]
  · rw [State.slotHolds, hpassed]
    exact hs
  · rw [hpassed]
    exact hrx

/-- R173: a frame that arrives behind a request that waits for a held one waits too. -/
theorem stationArrive_behind {s : State} (hl : s.station.srxLow = false) {g r : RequestFrame} {rest : List StationFrame}
    (hg : s.station.slot = some g) (hout : 64 ≤ s.station.out.length) (h : s.station.rx.length < 8) (f : StationFrame)
    (hrx : s.station.rx ++ [f] = .request r :: rest) :
    stationArrive f s = s.setStation { s.station with breakArmed := true, rx := s.station.rx ++ [f] } := by
  rw [stationArrive_of_room hl h, portAdvance,
    portMoves_of_none (portMove_of_held (g := g) (r := r) (rest := rest) (by exact hg) (by exact hout) (by exact hrx))]

/-- R173: while the output queue is full a request moves into the empty slot and is held there. -/
theorem stationArrive_held {s : State} (hl : s.station.srxLow = false) (hs : s.station.slot = none)
    (hrx : s.station.rx = []) (hout : 64 ≤ s.station.out.length) (f : RequestFrame) :
    stationArrive (.request f) s = s.setStation { s.station with breakArmed := true, slot := some f } := by
  rw [stationArrive_of_room hl (by simp [hrx])]
  have hmove :
      portMove (s.setStation { s.station with breakArmed := true, rx := s.station.rx ++ [.request f] }) =
        some (s.setStation { s.station with breakArmed := true, slot := some f }) := by
    rw [portMove_of_request (r := f) (rest := []) (by exact hs) (by simp [hrx])]
    simp only [State.setStation, hrx]
  have hend : portMove (s.setStation { s.station with breakArmed := true, slot := some f }) = none :=
    portMove_of_empty (.inr hout) hrx
  rw [portAdvance, portMoves_of_some hmove, portMoves_of_none hend]

/-! ### The station transmitter and the freed place (R161, R173, R178) -/

theorem depart_of_front {s : State} {r : Record} {rest : List Record} (ht : s.station.tx = some .front)
    (ho : s.station.out = r :: rest) :
    depart s = reportLevel .queueCongested (s.setStation { s.station with out := rest, tx := none }) := by
  simp [depart, ht, ho]

theorem placeContended_eq (s : State) :
    placeContended s = true ↔
      s.station.slot.isSome = true ∧ (chooseSource s.events).isSome = true ∧ s.station.out.length < 64 := by
  simp [placeContended, and_assoc]

/-- R173: a held request with a place free is taken. -/
theorem portAdvance_of_held {s : State} {g : RequestFrame} (hg : s.station.slot = some g) (hrx : s.station.rx = [])
    (hout : s.station.out.length < 64) : portAdvance s = serve g s := by
  rw [portAdvance, hrx, List.length_nil, portMoves_of_some (portMove_of_taken hg hout)]
  rfl

theorem portAdvance_of_empty {s : State} (hs : s.slotHolds) (hrx : s.station.rx = []) : portAdvance s = s :=
  portMoves_of_none (portMove_of_empty hs hrx) _

/-- What a departure from a full queue leaves, in the place that it frees: the event unit is as it was, since 63 records are
congestion as well. -/
theorem depart_of_full {s : State} (hc : s.conditionsTrue = true) {r : Record} {rest : List Record}
    (ht : s.station.tx = some .front) (ho : s.station.out = r :: rest) (hn : rest.length = 63) :
    depart s = s.setStation { s.station with out := rest, tx := none } := by
  rw [depart_of_front ht ho, reportLevel_of_agrees]
  have hq := (conditionsTrue_iff s).1 hc .queueCongested rfl
  rw [State.conditionAgrees] at hq ⊢
  simpa [genuineOf, ho, hn] using hq

/-! ### The restart (R179, R180) -/

theorem restartPart_keeps (s : State) : keepsOthers [.head, .events] (restartBlocks s) (restartPart s) :=
  keeps_trans (keeps_mono (keeps_writeSteer _ _) (by simp)) (keeps_mono (keeps_reevaluate _) (by simp))

theorem restartPart_station (s : State) : (restartPart s).station = s.station.restarted :=
  restartPart_keeps s .station (by decide)

theorem restartPart_service (s : State) : (restartPart s).service = s.service := restartPart_keeps s .service (by decide)

theorem restartPart_blocks (s : State) : restartedBlocks s (restartPart s) := by
  have hk := restartPart_keeps s
  refine ⟨hk .correction (by decide), hk .poses (by decide), hk .distance (by decide), hk .follower (by decide),
    hk .search (by decide), hk .emitter (by decide), hk .round (by decide), ?_, hk .localTime (by decide),
    hk .freeCount (by decide), hk .pending (by decide)⟩
  have hhead : (restartPart s).head = (writeSteer .hold (restartBlocks s)).head := keeps_reevaluate _ .head (by decide)
  rw [hhead, writeSteer_head]
  cases htx : s.head.tx <;> simp [restartBlocks, HeadPort.restarted, htx]

theorem restartPart_reevaluated (s : State) : reevaluated s (restartPart s) := by
  refine ⟨rfl, fun src => ?_⟩
  have htime : (writeSteer .hold (restartBlocks s)).localTime = s.localTime := by simp [restartBlocks]
  rw [restartPart, genuineOf_reevaluate, reevaluate_get, SourceState.afterRestart, htime]
  rfl

theorem genuineOf_setStation {s : State} {x : StationPort}
    (h : decide (56 ≤ x.out.length) = decide (56 ≤ s.station.out.length)) (src : Source) :
    genuineOf (s.setStation x) src = genuineOf s src := by
  cases src with
  | queueCongested => exact h
  | _ => rfl

/-- A restarted part goes on being one when the station port changes, its congestion apart. -/
theorem restarted_setStation {s w : State} {x : StationPort}
    (hx : decide (56 ≤ x.out.length) = decide (56 ≤ w.station.out.length)) (hb : restartedBlocks s w)
    (h : reevaluated s w) : restartedBlocks s (w.setStation x) ∧ reevaluated s (w.setStation x) := by
  refine ⟨hb, h.1, fun src => ?_⟩
  rw [genuineOf_setStation hx]
  exact h.2 src

/-- R177: one record in an emptied queue is no congestion, so that its admission leaves the event unit. -/
theorem admitRecord_of_emptied {w : State} (h : w.conditionAgrees .queueCongested) (ho : w.station.out = []) (r : Record) :
    admitRecord r w = w.setStation { w.station with out := [r], tx := some (w.station.tx.getD .front) } := by
  rw [admitRecord, ho, List.nil_append, reportLevel_of_agrees]
  rw [State.conditionAgrees, genuineOf_setStation (by rw [ho]; rfl)]
  exact h

/-- R180: a RESTART that is taken. -/
theorem serve_restart (tag : Half) (s : State) :
    serve (.named tag .restart) s =
      (restartPart s).setStation
        { s.station.restarted with
          out := [.reply { tag := tag, code := 0x24, result := .ok, data := [] }]
          tx := some (s.station.restarted.tx.getD .front) } := by
  have hst := restartPart_station s
  have hagrees : (restartPart s).conditionAgrees .queueCongested := reevaluate_agrees _ _
  have hanswer : answerFrame (.named tag .restart) s = accept (restartPart s) [] := rfl
  unfold serve
  rw [hanswer]
  generalize restartPart s = w at hst hagrees
  rw [← hst]
  simp only [accept]
  rw [admitRecord_of_emptied hagrees (by rw [hst]; rfl)]
  simp only [setSlot, State.setStation_station]
  rw [hst]
  rfl

/-- R173: a request other than RESTART that is taken leaves its reply at the back of the queue. -/
theorem serve_station {tag : Half} {r : Request} (hr : r ≠ .restart) (s : State) :
    ∃ res data, (serve (.named tag r) s).station =
      { s.station with
        slot := none
        out := s.station.out ++ [.reply { tag := tag, code := requestCode r, result := res, data := data }]
        tx := some (s.station.tx.getD .front) } := by
  refine ⟨(perform r s).result, (perform r s).data, ?_⟩
  have hst := perform_station r hr s
  simp only [serve, setSlot, answerFrame, State.setStation_station, admit_station, hst]
  rfl

/-- R173: what a held request leaves that is taken while STX is idle. -/
def heldTaken (tag : Half) (req : Request) (out : List Record) (t : State) : Prop :=
  ∃ res data, (req = .restart → res = .ok ∧ data = []) ∧ t.station.slot = none ∧
    t.station.out =
      (if req = .restart then [] else out) ++ [.reply { tag := tag, code := requestCode req, result := res, data := data }]

theorem serve_held (tag : Half) (req : Request) {s : State} (ht : s.station.tx = none) :
    heldTaken tag req s.station.out (serve (.named tag req) s) ∧
      (serve (.named tag req) s).station.tx = some .front := by
  by_cases hr : req = .restart
  · subst hr
    rw [serve_restart]
    refine ⟨⟨.ok, [], fun _ => ⟨rfl, rfl⟩, ?_, ?_⟩, ?_⟩
    · simp [StationPort.restarted]
    · simp [requestCode]
    · simp [StationPort.restarted, ht]
  · obtain ⟨res, data, hst⟩ := serve_station (tag := tag) hr s
    unfold heldTaken
    rw [hst]
    exact ⟨⟨res, data, fun h => absurd h hr, rfl, by simp [hr]⟩, by simp [ht]⟩

/-- R161 and R173: the one free place goes to the held request, or to the record that the arbiter chooses. -/
theorem givePlace_of_held {s : State} {g : RequestFrame} (hg : s.station.slot = some g) (hrx : s.station.rx = [])
    (hout : s.station.out.length = 63) :
    (chooseSource s.events = none → givePlace s = serve g s) ∧
      ∀ src, chooseSource s.events = some src →
        givePlace s = serve g (useFree s) ∨ givePlace s = admitEvent src (useFree s) := by
  refine ⟨fun hc => ?_, fun src hc => ?_⟩
  · rw [givePlace, if_neg (by simp [placeContended_eq, hc]), portAdvance_of_held hg hrx (by omega)]
  · rw [givePlace, if_pos ((placeContended_eq s).2 ⟨by simp [hg], by simp [hc], by omega⟩)]
    split
    · exact .inl (portAdvance_of_held (by exact hg) (by exact hrx) (show s.station.out.length < 64 by omega))
    · right
      have harb : arbitrate (useFree s) = admitEvent src (useFree s) :=
        arbitrate_of_choice (show s.station.out.length < 64 by omega) hc
      have hfull : 64 ≤ (admitEvent src (useFree s)).station.out.length := by
        rw [admitEvent, admit_station]
        simp [hout]
      rw [harb, portAdvance_of_empty (.inr hfull) hrx]

theorem beginRecord_of_sending {s : State} (h : s.station.tx ≠ none) : beginRecord s = s := by
  rw [beginRecord, if_neg (by simp [h])]

end Sys2Proof.Machine

/-! ### The statements -/

namespace Sys2Proof.Proofs

open Sys2Proof Sys2Proof.Machine

/-- Settles O14. -/
theorem sampleArrives : Obligations.SampleArrives := by
  intro f s
  refine ⟨_, rfl, sampleArrive_genuine f s, keeps_sampleArrive f s, fun h => ?_, fun h => ?_⟩
  · rw [sampleArrive_of_room f h]
    exact ⟨rfl, sources_then_same (sources_restartSilence s) rfl⟩
  · rw [sampleArrive_of_full f h]
    refine ⟨by simp [count16_eq_min], ?_, ?_⟩
    · rw [occur_get_self, State.setHead_events, (sources_restartSilence s).2 _ (by decide)]
      rfl
    · exact sources_then_occur (sources_then_same (sources_mono (sources_restartSilence s) (by simp)) rfl) (by simp)

/-- Settles O16. -/
theorem discardedFrameCounted : Obligations.DiscardedFrameCounted := by
  refine ⟨fun s => ⟨_, rfl, by simp [discardFrame, count16_eq_min], by simp [discardFrame], ?_, ?_⟩, fun s hl => ?_,
    fun s hl => ?_⟩
  · exact keeps_then (keeps_mono (keeps_setHead s _) (by simp)) (keeps_occur _ _) (by simp)
  · exact sources_then_occur (sources_of_events rfl) (by simp)
  · have hd : discardFrame .station s =
        occur .frameError
          (s.setStation { s.station with breakArmed := true, frameErrors := count16 s.station.frameErrors }) := by
      simp [discardFrame, hl]
    refine ⟨_, rfl, ?_⟩
    rw [hd]
    refine ⟨by simp [count16_eq_min], by simp, ?_, sources_then_occur (sources_of_events rfl) (by simp)⟩
    exact keeps_then (keeps_mono (keeps_setStation s _) (by simp)) (keeps_occur _ _) (by simp)
  · simp [exec, execDiscardedFrame, discardFrame, hl]

/-- Settles O17. -/
theorem stationFrameArrives : Obligations.StationFrameArrives := by
  refine ⟨fun f s hf hl hrx hs => ?_, fun f s g r rest hf hl hout hg hrx => ?_, fun s hl => ⟨fun f => ?_, fun v f => ?_⟩,
    fun v f s hl hout => ⟨fun hs hrx => ?_, fun g hg hrx => ?_⟩⟩
  · refine ⟨_, rfl, ?_⟩
    rw [forwardArrive, if_pos hf, stationArrive_forward hl hrx hs]
    refine ⟨by simp, ?_, fun h => ?_, fun h => ?_⟩
    · exact keeps_trans (keeps_mono (keeps_setStation s _) (by simp)) (keeps_mono (keeps_passForward f _) (by simp))
    · rw [passForward_of_room f (by exact h)]
      refine ⟨?_, fun ht => ?_, fun ht hslot hfw => ?_⟩
      · exact sources_trans (sources_of_events rfl) (sources_headBegin _)
      · rw [headBegin_of_busy (by exact ht)]
        rfl
      · rw [headBegin_of_forward (f := f) (rest := []) (by exact ht) (by exact hslot) (by simp [hfw])]
        simp [hfw]
    · rw [passForward_of_full f (by exact h)]
      exact ⟨by simp [count16_eq_min], by simp, sources_then_occur (sources_of_events rfl) (by simp)⟩
  · refine ⟨_, rfl, ?_⟩
    rw [forwardArrive, if_pos hf]
    by_cases hroom : s.station.rx.length < 8
    · rw [stationArrive_behind (r := r) (rest := rest ++ [.forward f]) hl hg hout hroom _ (by simp [hrx])]
      exact ⟨keeps_mono (keeps_setStation s _) (by simp), fun _ => ⟨rfl, sources_of_events rfl⟩,
        fun h => absurd hroom (Nat.not_lt.2 h)⟩
    · rw [stationArrive_of_full hl (Nat.not_lt.1 hroom)]
      refine ⟨keeps_then (keeps_mono (keeps_setStation s _) (by simp)) (keeps_occur _ _) (by simp),
        fun h => absurd h hroom, fun _ => ⟨by simp [count16_eq_min], by simp, ?_⟩⟩
      exact sources_then_occur (sources_of_events rfl) (by simp)
  · simp only [exec, execForwardFrame, forwardArrive, discardFrame, hl, if_true, stationArrive_of_low hl, ite_self]
  · simp only [exec, execRequestFrame]
    rw [stationArrive_of_low (by exact hl)]
  · refine ⟨_, rfl, ?_⟩
    rw [stationArrive_held (by exact hl) (by exact hs) (by exact hrx) (by exact hout)]
    exact ⟨rfl, rfl, keeps_trans (keeps_mono (keeps_setService s v) (by simp)) (keeps_mono (keeps_setStation _ _) (by simp))⟩
  · refine ⟨_, rfl, ?_⟩
    have hservice := keeps_mono (m := [.station, .service, .events]) (keeps_setService s v) (by simp)
    by_cases hroom : s.station.rx.length < 8
    · have hfront : ∃ r rest, s.station.rx ++ [.request f] = .request r :: rest := by
        rcases hrx with h | ⟨r, rest, h⟩
        · exact ⟨f, [], by simp [h]⟩
        · exact ⟨r, rest ++ [.request f], by simp [h]⟩
      obtain ⟨r, rest, hfront⟩ := hfront
      rw [stationArrive_behind (s := s.setService v) (by exact hl) (by exact hg) (by exact hout) (by exact hroom) _
        (by exact hfront)]
      exact ⟨rfl, keeps_then hservice (keeps_setStation _ _) (by simp), fun _ => ⟨rfl, sources_of_events rfl⟩,
        fun h => absurd hroom (Nat.not_lt.2 h)⟩
    · rw [stationArrive_of_full (s := s.setService v) (by exact hl) (by exact Nat.not_lt.1 hroom)]
      refine ⟨by simp, keeps_then (keeps_then hservice (keeps_setStation _ _) (by simp)) (keeps_occur _ _) (by simp),
        fun h => absurd h hroom, fun _ => ⟨by simp [count16_eq_min], by simp, ?_⟩⟩
      exact sources_then_occur (sources_of_events rfl) (by simp)

/-- A request that the port refuses itself (R174). -/
theorem unnamed_refused (q : Taking) (code : Byte) (s : State) (h : portReady s) :
    refuses q code (if codeNamed code then .range else .unknown) s
      (stationArrive (.request (.unnamed q.tag code)) (s.setService q.service)) := by
  rw [stationArrive_taken q _ (by simp) s h]
  refine ⟨serve_answers q _ (by simp) rfl s h, ?_, ?_⟩
  · exact keeps_trans (keeps_mono (keeps_takingState q _ s) (by simp)) (keeps_mono (keeps_serve _ _) (by simp))
  · exact sources_trans (sources_of_events rfl) (sources_serve _ _)

/-- Settles O19. -/
theorem requestFrameActsAsRequest : Obligations.RequestFrameActsAsRequest := by
  refine ⟨fun q r s => (exec_requestInstr q r s).symm, fun q code s h hc => ⟨_, rfl, ?_⟩, fun q code s h hc => ⟨_, rfl, ?_⟩⟩
  · simpa [hc] using unnamed_refused q code s h
  · simpa [hc] using unnamed_refused q code s h

/-- Settles O20. -/
theorem transmitterFrameSent : Obligations.TransmitterFrameSent := by
  refine ⟨fun s => ⟨_, rfl, keeps_headDone s, headDone_of_idle, fun h => ?_⟩, fun v s r rest ht ho hs hrx => ⟨_, rfl, ?_⟩⟩
  · rw [headDone_of_busy h]
    refine ⟨fun f hf => ?_, fun f rest hs hf => ?_, fun hs hf => ?_⟩
    · rw [headBegin_of_slot rfl (by exact hf)]
      rfl
    · rw [headBegin_of_forward rfl (by exact hs) (by exact hf)]
      rfl
    · rw [headBegin_of_idle rfl (by exact hs) (by exact hf)]
      rfl
  · have hdepart := depart_of_front (s := s.setService v) (by exact ht) (by exact ho)
    have hplace : givePlace (depart (s.setService v)) = depart (s.setService v) := by
      rw [hdepart, givePlace, if_neg (by simp [placeContended_eq, hs]), portAdvance_of_empty (.inl (by simpa using hs)) (by simpa using hrx)]
    rw [recordSent, hplace, hdepart]
    refine ⟨?_, by simp, ?_, ?_, ?_⟩
    · rw [beginRecord_station]
      cases rest <;> simp
    · rw [show (beginRecord _).events = _ from keeps_beginRecord _ .events (by decide), reportLevel_get_self]
      rfl
    · have hservice := keeps_mono (m := [.station, .service, .events]) (keeps_setService s v) (by simp)
      exact keeps_then (keeps_then (keeps_then hservice (keeps_setStation _ _) (by simp)) (keeps_reportLevel _ _) (by simp))
        (keeps_beginRecord _) (by simp)
    · have hreport : keepsSources [.queueCongested] s (depart (s.setService v)) := by
        rw [hdepart]
        exact sources_trans (sources_of_events rfl) (sources_reportLevel _ _)
      rw [← hdepart]
      exact sources_then_same hreport (keeps_beginRecord _ .events (by decide))

/-- Settles O22: the departure leaves the event unit as it was, so that the arbiter's choice before it is the one after it. -/
theorem freedPlaceIsGiven : Obligations.FreedPlaceIsGiven := by
  intro v s tag req r rest hc ht ho hn hslot hrx
  have htrue : (s.setService v).conditionsTrue = true :=
    kept_conditionsTrue (kept_setService s v) hc
  have hdepart := depart_of_full htrue (by exact ht) (by exact ho) hn
  let u := (s.setService v).setStation { s.station with out := rest, tx := none }
  obtain ⟨hnone, hsome⟩ := givePlace_of_held (s := u) (by exact hslot) (by exact hrx) (by exact hn)
  have hout {x : State} (h : heldTaken tag req rest x) (hr : req ≠ .restart) : x.station.out.length = 64 := by
    obtain ⟨res, data, -, -, h⟩ := h
    simp [h, hr, hn]
  refine ⟨beginRecord (givePlace u), congrArg (fun x => Host.Outcome.next (beginRecord (givePlace x))) hdepart, ?_⟩
  cases hchoice : chooseSource s.events with
  | none =>
    obtain ⟨hheld, htx⟩ := serve_held tag req (s := u) rfl
    rw [hnone hchoice, beginRecord_of_sending (by simp [htx])]
    exact ⟨htx, hout hheld, fun _ => hheld, fun _ h => by cases h⟩
  | some src =>
    have heligible : s.events.eligible src = true := ((chooseSource_eq_some_iff _ _).1 hchoice).1
    rcases hsome src hchoice with hgive | hgive
    · obtain ⟨hheld, htx⟩ := serve_held tag req (s := useFree u) rfl
      rw [hgive, beginRecord_of_sending (by simp [htx])]
      exact ⟨htx, hout hheld, fun h => absurd heligible (by simp [h src]), fun _ _ => .inl hheld⟩
    · rw [hgive, beginRecord_of_sending (by simp [admitEvent])]
      refine ⟨rfl, fun _ => ?_, fun h => absurd heligible (by simp [h src]), fun x hx => ?_⟩
      · show (rest ++ [_]).length = 64
        simp [hn]
      · cases hx
        exact .inr ⟨rfl, rfl⟩

/-- Settles O23. -/
theorem triggerEdge : Obligations.TriggerEdge := by
  intro e s
  refine ⟨_, rfl, fun h => by simp [Machine.triggerEdge, h], fun h => ?_, fun he hm => ?_, fun k he hm => ?_⟩
  · unfold Machine.triggerEdge
    split
    · rfl
    · split
      · next hm => exact absurd hm (h _)
      · next hm => exact absurd hm (h _)
      case h_3 | h_4 | h_5 | h_6 => rfl
  · have ht : Machine.triggerEdge e s =
        setMode (.triggered (some { timeMs := s.localTime, timestamp := s.emitter.latestTimestamp.getD 0 })) s := by
      simp [Machine.triggerEdge, he, hm]
    rw [ht]
    exact ⟨rfl, keeps_setMode _ s⟩
  · have ht : Machine.triggerEdge e s = occur .triggerLost s := by simp [Machine.triggerEdge, he, hm]
    rw [ht]
    exact ⟨by simp, keeps_occur _ s, sources_occur _ s⟩

/-- Settles O24. -/
theorem linkBreakRestarts : Obligations.LinkBreakRestarts := by
  refine ⟨fun s h => ⟨_, rfl, ?_⟩, fun s h => ⟨_, rfl, ?_⟩, fun s => ⟨_, rfl, rfl, keeps_setStation s _⟩⟩
  · rw [linkBreak, if_pos h]
    have hst := restartPart_station s
    have hservice := restartPart_service s
    have hblocks := restartPart_blocks s
    have hevents := restartPart_reevaluated s
    dsimp only
    generalize restartPart s = w at hst hservice hblocks hevents ⊢
    obtain ⟨hblocks, hevents⟩ :=
      restarted_setStation (x := { w.station with breakArmed := false, srxLow := true }) rfl hblocks hevents
    refine ⟨hblocks, hevents, hservice, ?_⟩
    dsimp only [State.setStation_station]
    rw [hst]
    cases htx : s.station.tx with
    | none => simp [StationPort.restarted, htx]
    | some x => cases x <;> simp [StationPort.restarted, htx, Sending.orphaned]
  · rw [linkBreak, if_neg (by simp [h])]
    exact ⟨rfl, keeps_setStation s _⟩

/-- Settles O25. -/
theorem restartRequest : Obligations.RestartRequest := by
  intro q s h
  have harrive : requestArrive q .restart s = serve (.named q.tag .restart) (takingState q (.named q.tag .restart) s) :=
    stationArrive_ready q _ s h (by
      show (restartPart _).station.rx = []
      rw [restartPart_station]
      rfl)
  refine ⟨_, exec_requestInstr q .restart s, ?_⟩
  rw [harrive, serve_restart]
  have hst := restartPart_station (takingState q (.named q.tag .restart) s)
  have hservice := restartPart_service (takingState q (.named q.tag .restart) s)
  have hblocks := restartPart_blocks (takingState q (.named q.tag .restart) s)
  have hevents := restartPart_reevaluated (takingState q (.named q.tag .restart) s)
  generalize restartPart (takingState q (.named q.tag .restart) s) = w at hst hservice hblocks hevents ⊢
  have hall (x : StationPort) (hx : x.out.length = 1) :
      restartedBlocks s (w.setStation x) ∧ reevaluated s (w.setStation x) :=
    restarted_setStation (by rw [hst, hx]; rfl) hblocks hevents
  refine ⟨(hall _ rfl).1, (hall _ rfl).2, hservice, ?_⟩
  obtain ⟨hl, -, -, -⟩ := h
  cases htx : s.station.tx with
  | none => simp [StationPort.restarted, htx, hl]
  | some x => cases x <;> simp [StationPort.restarted, htx, Sending.orphaned, hl]

end Sys2Proof.Proofs
end

