-- ==== Sys2Proof/Proofs/Settings.lean ====
section
/-! Requests that store a setting (chapters 1, 8 and 9): the end of a table's loading, the refraction value, the report floor
and the parameters. -/

namespace Sys2Proof.Machine

/-! ### A request with a given answer -/

/-- R173: a request that arrives at a ready port and is answered from the state `v`: the reply, the blocks and the sources. -/
theorem requestArrive_answered {q : Taking} {r : Request} {s v : State} {result : ReplyResult} {data : List Datum}
    {parts : List Part} {sources : List Source} (hr : r ≠ .restart) (h : portReady s) (ht : taken q r s = ⟨v, result, data⟩)
    (hp : keepsOthers (.station :: .service :: .events :: parts) (takingState q (.named q.tag r) s) v)
    (hs : keepsSources (.queueCongested :: sources) (takingState q (.named q.tag r) s) v) :
    acceptsWithin q (requestCode r) result data parts sources s (requestArrive q r s) ∧
      (∀ p, p ∉ [Part.station, .events] → samePart p v (requestArrive q r s)) ∧
      ∀ src, src ≠ .queueCongested → (requestArrive q r s).events.get src = v.events.get src := by
  have hv : (taken q r s).state = v := congrArg Answer.state ht
  refine ⟨requestArrive_accepts q r s hr h _ _ _ _ (by rw [ht]) (by rw [ht]) (hv ▸ hp) (hv ▸ hs), fun p hpart => ?_,
    fun src hsrc => ?_⟩
  · exact hv ▸ requestArrive_part q r s hr h hpart
  · exact hv ▸ requestArrive_source q r s hr h hsrc

/-! ### LOAD_COMP_END (R13) -/

section EndLoad

variable {table count : Byte} {s : State} {a : Axis}

theorem endLoad_of_not_loading (hv : s.service = true) (ha : axisOf table = some a)
    (hl : (s.correction.table a).load ≠ .loading) : endLoad table count s = refuseLoad s (some a) .state := by
  rw [endLoad, loadRequest_of_table hv ha, if_pos hl]

theorem endLoad_of_complete (hv : s.service = true) (ha : axisOf table = some a)
    (hl : (s.correction.table a).load = .loading) (hc : count = 240) (hw : (s.correction.table a).writtenCount = 240) :
    endLoad table count s =
      ⟨storeTable a { s.correction.table a with load := .loaded } s, .ok, [⟨1, 2⟩, ⟨1, 240⟩]⟩ := by
  have hcount : count.toNat = 240 := by rw [hc]; rfl
  rw [endLoad, loadRequest_of_table hv ha, if_neg (not_not_intro hl), if_pos ⟨hcount, hw⟩, accept, CompTable.data,
    show ({ s.correction.table a with load := .loaded } : CompTable).writtenCount = 240 from hw]
  rfl

theorem endLoad_of_incomplete (hv : s.service = true) (ha : axisOf table = some a)
    (hl : (s.correction.table a).load = .loading) (hc : count ≠ 240 ∨ (s.correction.table a).writtenCount ≠ 240) :
    endLoad table count s = ⟨storeTable a .blank s, .refused .incomplete, [⟨1, 0⟩, ⟨1, 0⟩]⟩ := by
  have hno : ¬ (count.toNat = 240 ∧ (s.correction.table a).writtenCount = 240) := fun ⟨h1, h2⟩ =>
    hc.elim (fun h => h (BitVec.eq_of_toNat_eq h1)) (fun h => h h2)
  have hblank : CompTable.blank.data = [⟨1, 0⟩, ⟨1, 0⟩] := by decide +kernel
  rw [endLoad, loadRequest_of_table hv ha, if_neg (not_not_intro hl), if_neg hno, hblank]

end EndLoad

/-- R13: an end changes the correction unit and reports UNCOMPENSATED at most, whatever it is answered. -/
theorem endLoad_leaves (table count : Byte) (s : State) :
    keepsOthers [.correction, .events] s (endLoad table count s).state ∧
      keepsSources [.uncompensated] s (endLoad table count s).state := by
  refine loadRequest_cases
    (motive := fun x => keepsOthers [.correction, .events] s x.state ∧ keepsSources [.uncompensated] s x.state)
    (fun _ _ => ⟨keeps_refl _ s, sources_of_events rfl⟩) fun a => ?_
  split
  · exact ⟨keeps_refl _ s, sources_of_events rfl⟩
  · split
    · exact ⟨keeps_storeTable_correction _ _ s, sources_storeTable _ _ s⟩
    · exact ⟨keeps_storeTable_correction _ _ s, sources_storeTable _ _ s⟩

/-! ### Clamped values (R20, R160, R175) -/

/-- A clamp changes a value exactly when the value is outside the range. -/
theorem clampedResult_eq {lo hi : Int} (x : Int) (h : lo ≤ hi) :
    (if (clamp lo hi x != x) = true then ReplyResult.okClamped else .ok) = if lo ≤ x ∧ x ≤ hi then .ok else .okClamped := by
  by_cases hx : lo ≤ x ∧ x ≤ hi
  · simp [hx, (clamp_eq_self_iff x h).mpr hx]
  · rw [if_neg hx, if_pos (by simpa using fun e => hx ((clamp_eq_self_iff x h).mp e))]

theorem clamp_bne_eq_false_iff {lo hi : Int} (x : Int) (h : lo ≤ hi) : (clamp lo hi x != x) = false ↔ lo ≤ x ∧ x ≤ hi := by
  rw [← clamp_eq_self_iff x h, bne_eq_false_iff_eq]

theorem acceptClamped_clamp {lo hi : Int} (x : Int) (h : lo ≤ hi) (v : State) (data : List Datum) :
    acceptClamped (clamp lo hi x != x) v data = ⟨v, if lo ≤ x ∧ x ≤ hi then .ok else .okClamped, data⟩ := by
  rw [acceptClamped, clampedResult_eq x h]

/-! ### A request that stores a clamped value -/

section Clamped

variable {q : Taking} {r : Request} {s v : State} {lo hi : Int}

/-- A request that changes the one block `p`, with any result. -/
theorem requestArrive_changes {result : ReplyResult} {data : List Datum} {p : Part} (hr : r ≠ .restart) (h : portReady s)
    (hp : p ∉ [Part.station, .events]) (ht : taken q r s = ⟨v, result, data⟩)
    (hkeep : keepsOthers [p] (takingState q (.named q.tag r) s) v) :
    acceptsWithin q (requestCode r) result data [p] [] s (requestArrive q r s) ∧ samePart p v (requestArrive q r s) := by
  have hne : p ≠ .events := fun e => hp (by simp [e])
  obtain ⟨hacc, hpart, -⟩ := requestArrive_answered hr h ht (parts := [p]) (sources := []) (keeps_mono hkeep (by simp))
    (sources_of_events (hkeep .events (by simpa using hne.symm)))
  exact ⟨hacc, hpart p hp⟩

end Clamped

/-! ### SET_PARAM (R175) -/

section SetParam

variable {q : Taking} {id : Byte} {v : Word} {s : State} {p : Param}

theorem setParam_of_no_param (h : Param.ofId id = none) : setParam id v s = refuse s .range := by simp [setParam, h]

theorem setParam_of_no_authority (h : Param.ofId id = some .homeDistance) (hv : s.service = false) :
    setParam id v s = refuse s .authority := by simp [setParam, h, hv]

theorem setParam_of_param (h : Param.ofId id = some p) (hp : p = .homeDistance → s.service = true) :
    setParam id v s = storeParam p id v s := by
  have hno : ¬ (p = .homeDistance ∧ s.service = false) := fun ⟨e, hf⟩ => by simp [hp e] at hf
  simp [setParam, h, hno]

theorem setNumeric_eq {lo hi : Int} (h : lo ≤ hi) (store : Nat → State) :
    setNumeric id lo hi v store =
      ⟨store (max lo (min hi v.toInt)).toNat, if lo ≤ v.toInt ∧ v.toInt ≤ hi then .ok else .okClamped,
        [⟨1, id.toNat⟩, ⟨4, max lo (min hi v.toInt)⟩]⟩ := by
  rw [setNumeric, acceptClamped_clamp _ h, clamp_eq_max_min _ h]
  rfl

/-- R175: a numeric parameter of the one block `part` is stored clamped. -/
theorem requestArrive_setNumeric {lo hi : Int} (store : Nat → State → State) {part : Part} (h : portReady s) (hle : lo ≤ hi)
    (hid : Param.ofId id = some p) (hp : p = .homeDistance → q.service = true)
    (hstore : ∀ w, storeParam p id v w = setNumeric id lo hi v fun n => store n w)
    (hpart : part ∉ [Part.station, .events]) (hkeep : ∀ n w, keepsOthers [part] w (store n w)) :
    acceptsWithin q 0x22 (if lo ≤ v.toInt ∧ v.toInt ≤ hi then .ok else .okClamped)
        [⟨1, id.toNat⟩, ⟨4, max lo (min hi v.toInt)⟩] [part] [] s (requestArrive q (.setParam id v) s) ∧
      samePart part (store (max lo (min hi v.toInt)).toNat (takingState q (.named q.tag (.setParam id v)) s))
        (requestArrive q (.setParam id v) s) :=
  requestArrive_changes (r := .setParam id v) (by simp) h hpart
    ((setParam_of_param hid hp).trans ((hstore _).trans (setNumeric_eq hle _))) (hkeep _ _)

/-- R175: an enumerated parameter of the one block `part` is stored when its value is in its set. -/
theorem requestArrive_setEnumerated {α : Type} {o : Option α} {x : α} (store : α → State → State) {part : Part}
    (h : portReady s) (hid : Param.ofId id = some p) (hp : p ≠ .homeDistance)
    (hstore : ∀ w, storeParam p id v w = setEnumerated id v o w fun x => store x w)
    (ho : o = some x) (hpart : part ∉ [Part.station, .events]) (hkeep : ∀ w, keepsOthers [part] w (store x w)) :
    acceptsWithin q 0x22 .ok [⟨1, id.toNat⟩, ⟨4, v.toInt⟩] [part] [] s (requestArrive q (.setParam id v) s) ∧
      samePart part (store x (takingState q (.named q.tag (.setParam id v)) s)) (requestArrive q (.setParam id v) s) :=
  requestArrive_changes (r := .setParam id v) (by simp) h hpart
    ((setParam_of_param hid (fun e => absurd e hp)).trans ((hstore _).trans (by rw [ho]; rfl))) (hkeep _)

/-- R175: a value outside the set of an enumerated parameter is refused. -/
theorem requestArrive_setEnumerated_range {α : Type} {o : Option α} (store : α → State → State) (h : portReady s)
    (hid : Param.ofId id = some p) (hp : p ≠ .homeDistance)
    (hstore : ∀ w, storeParam p id v w = setEnumerated id v o w fun x => store x w) (ho : o = none) :
    refuses q 0x22 .range s (requestArrive q (.setParam id v) s) :=
  requestArrive_refuses q (.setParam id v) s (by simp) h .range
    ((setParam_of_param hid (fun e => absurd e hp)).trans ((hstore _).trans (by rw [ho]; rfl)))

/-- R62: a threshold request stores the pair, T_off kept at least 20 below T_on. -/
theorem requestArrive_setThresholds {on off : Nat} {clamped : Bool} {inside : Prop} [Decidable inside] (h : portReady s)
    (hid : Param.ofId id = some p) (hp : p ≠ .homeDistance) (hinside : clamped = false ↔ inside)
    (hstore : storeParam p id v (takingState q (.named q.tag (.setParam id v)) s) =
      setThresholds id on off clamped (takingState q (.named q.tag (.setParam id v)) s)) :
    acceptsWithin q 0x22 (if inside ∧ off + 20 ≤ on then .ok else .okClamped)
        [⟨1, id.toNat⟩, ⟨4, on⟩, ⟨4, (min off (on - 20) : Nat)⟩] [.follower] [] s (requestArrive q (.setParam id v) s) ∧
      (requestArrive q (.setParam id v) s).follower = { s.follower with tOn := on, tOff := min off (on - 20) } := by
  have hresult : (if (clamped || decide (on < off + 20)) = true then ReplyResult.okClamped else .ok) =
      if inside ∧ off + 20 ≤ on then .ok else .okClamped := by
    simp only [← hinside, ← Nat.not_lt]
    cases clamped <;> by_cases hlt : on < off + 20 <;> simp [hlt]
  exact requestArrive_changes (r := .setParam id v) (p := .follower) (by simp) h (by simp)
    ((setParam_of_param hid (fun e => absurd e hp)).trans (hstore.trans (by rw [setThresholds, acceptClamped, hresult]; rfl)))
    (keeps_setFollower _ _)

theorem onOffOf_eq_none {x : Int} (h0 : x ≠ 0) (h1 : x ≠ 1) : onOffOf x = none := by simp [onOffOf, h0, h1]

theorem edgeOf_eq_none {x : Int} (h0 : x ≠ 0) (h1 : x ≠ 1) : edgeOf x = none := by simp [edgeOf, h0, h1]

theorem onOffOf_of_bit (h : v = 0 ∨ v = 1) : onOffOf v.toInt = some (decide (v = 1)) := by
  rcases h with rfl | rfl <;> rfl

theorem edgeOf_of_bit (h : v = 0 ∨ v = 1) : edgeOf v.toInt = some (if v = 0 then .rising else .falling) := by
  rcases h with rfl | rfl <;> rfl

theorem descriptorParamOf_eq_none {x : Int} (h : x < 0 ∨ (8 ≤ x ∧ x ≠ 255)) : descriptorParamOf x = none := by
  rw [descriptorParamOf, if_neg (by omega), dif_neg (by omega)]

theorem descriptorParamOf_eq_some {x : Int} {o : Option (Fin 8)}
    (h : x = 255 ∧ o = none ∨ ∃ i : Fin 8, x = i.val ∧ o = some i) : descriptorParamOf x = some o := by
  obtain ⟨rfl, rfl⟩ | ⟨i, rfl, rfl⟩ := h
  · rfl
  · rw [descriptorParamOf, if_neg (by omega), dif_pos (by omega)]
    rfl

theorem ofId_eq_none (h : 15 ≤ id.toNat) : Param.ofId id = none := List.getElem?_eq_none h

end SetParam

end Sys2Proof.Machine

/-! ### The statements -/

namespace Sys2Proof.Proofs

open Sys2Proof Sys2Proof.Machine

/-- Settles O41, by R10's checks in their order and the two outcomes of R13. -/
theorem loadCompEnd : Obligations.LoadCompEnd := by
  intro q table count s a h ha
  have hr : Request.loadCompEnd table count ≠ .restart := by simp
  obtain ⟨hleaves, hsources⟩ := endLoad_leaves table count (takingState q (.named q.tag (.loadCompEnd table count)) s)
  obtain ⟨-, hkeep, hsrc⟩ := requestArrive_accepts q _ s hr h _ _ [.correction] [.uncompensated] rfl rfl
    (keeps_mono hleaves (by simp)) (sources_mono hsources (by simp))
  obtain ⟨hans, hpart, -⟩ := requestArrive_taken q (.loadCompEnd table count) s hr h
  have hcorrection := hpart .correction (by simp)
  refine ⟨_, rfl, hkeep, hsrc, fun hv => ?_, fun hv hl => ?_, fun hv hl hc hw => ?_, fun hv hl hbad => ?_⟩
  · exact requestArrive_refuseLoad hr h (ha ▸ loadRequest_of_no_service hv)
  · exact requestArrive_refuseLoad hr h (endLoad_of_not_loading hv ha hl)
  · have htaken : taken q (.loadCompEnd table count) s = _ :=
      endLoad_of_complete (s := takingState q (.named q.tag (.loadCompEnd table count)) s) hv ha hl hc hw
    rw [htaken] at hans hcorrection
    exact ⟨hans, hcorrection⟩
  · have htaken : taken q (.loadCompEnd table count) s = _ :=
      endLoad_of_incomplete (s := takingState q (.named q.tag (.loadCompEnd table count)) s) hv ha hl hbad
    rw [htaken] at hans hcorrection
    exact ⟨hans, hcorrection⟩

/-- Settles O42: the value clamped is stored and answered. -/
theorem clampedSettings : Obligations.ClampedSettings := by
  refine ⟨fun q n s h => ?_, fun q f s h => ?_⟩
  · have ht : taken q (.setRefraction n) s = ⟨_, _, _⟩ := acceptClamped_clamp n.toInt (by decide) _ _
    rw [clamp_eq_max_min _ (by decide)] at ht
    obtain ⟨hacc, hpart, hsrc⟩ := requestArrive_answered (parts := [.correction]) (sources := [.refractionStale])
      (by simp) h ht (keeps_then (keeps_mono (keeps_setCorrection _ _) (by simp)) (keeps_reportLevel _ _) (by simp))
      (sources_then (sources_of_events rfl) (sources_reportLevel _ _) (by simp))
    refine ⟨_, rfl, hacc, hpart .correction (by simp), ?_⟩
    rw [hsrc .refractionStale (by simp), reportLevel_get_self]
    rfl
  · have ht : taken q (.setFloor f) s = ⟨_, _, _⟩ := acceptClamped_clamp f.toInt (by decide) _ _
    obtain ⟨hans, hkeep, hfloor, hsrc⟩ := requestArrive_taken q (.setFloor f) s (by simp) h
    rw [ht] at hans hkeep hfloor hsrc
    have hclamp : clamp 0 14 f.toInt = max 0 (min 14 f.toInt) := clamp_eq_max_min _ (by decide)
    refine ⟨_, rfl, ?_, ?_, ?_, fun src hne => ?_⟩
    · rw [← hclamp]
      exact hans
    · rw [hfloor, ← hclamp]
      exact Int.toNat_of_nonneg (hclamp ▸ le_max_left _ _)
    · exact keeps_then (keeps_trans (keeps_mono (keeps_takingState q _ s) (by simp))
        (keeps_mono (keeps_setEvents _ _) (by simp))) hkeep (by simp)
    · exact hsrc src (by simpa using hne)

/-- Settles O43, one parameter after the other. -/
theorem setParam : Obligations.SetParam := by
  intro q id v s h
  refine ⟨_, rfl, ?_, ?_, ?_, ?_, ?_, ?_, ?_, ?_, ?_, ?_, ?_, ?_, ?_, ?_, ?_, ?_, ?_, ?_, ?_, ?_⟩
  case _ =>
    exact fun hid => requestArrive_refuses q (.setParam id v) s (by simp) h .range (setParam_of_no_param (ofId_eq_none hid))
  case _ =>
    rintro rfl
    have hset := requestArrive_setNumeric (fun x w => w.setDistance { w.distance with admQualityMin := x }) (q := q) (id := 0) (v := v) (p := .admQualityMin) (part := .distance) h (by decide) rfl
      (by simp) (fun _ => rfl) (by simp) fun n w => keeps_setDistance _ _
    exact hset
  case _ =>
    rintro rfl hv
    exact requestArrive_refuses q (.setParam 1 v) s (by simp) h .authority
      (setParam_of_no_authority (id := 1) (s := takingState q (.named q.tag (.setParam 1 v)) s) rfl hv)
  case _ =>
    rintro rfl hv
    have hset := requestArrive_setNumeric (fun x w => w.setDistance { w.distance with homeDistance := x }) (q := q) (id := 1) (v := v) (p := .homeDistance) (part := .distance) h (by decide) rfl
      (fun _ => hv) (fun _ => rfl) (by simp) fun n w => keeps_setDistance _ _
    exact hset
  case _ =>
    rintro rfl h0 h1
    exact requestArrive_setEnumerated_range (fun x w => w.setDistance { w.distance with autoAdm := x }) (p := .autoAdm) h rfl (by simp) (fun _ => rfl) (onOffOf_eq_none h0 h1)
  case _ =>
    rintro rfl hv
    have hset := requestArrive_setEnumerated (fun x w => w.setDistance { w.distance with autoAdm := x }) (q := q) (id := 2) (v := v) (p := .autoAdm) (part := .distance) h rfl (by simp) (fun _ => rfl)
      (onOffOf_of_bit hv) (by simp) (fun w => keeps_setDistance _ _)
    exact hset
  case _ =>
    rintro rfl
    obtain ⟨hacc, hu⟩ := requestArrive_setNumeric (fun x w => w.setFollower { w.follower with kpAz := x }) (q := q) (id := 3) (v := v) (p := .kpAz) (part := .follower) h (by decide) rfl
      (by simp) (fun _ => rfl) (by simp) fun n w => keeps_setFollower _ _
    exact ⟨hacc, by simpa [samePart] using hu⟩
  case _ =>
    rintro rfl
    obtain ⟨hacc, hu⟩ := requestArrive_setNumeric (fun x w => w.setFollower { w.follower with kpEl := x }) (q := q) (id := 4) (v := v) (p := .kpEl) (part := .follower) h (by decide) rfl
      (by simp) (fun _ => rfl) (by simp) fun n w => keeps_setFollower _ _
    exact ⟨hacc, by simpa [samePart] using hu⟩
  case _ =>
    rintro rfl
    obtain ⟨hacc, hu⟩ := requestArrive_setNumeric (fun x w => w.setFollower { w.follower with kiAz := x }) (q := q) (id := 5) (v := v) (p := .kiAz) (part := .follower) h (by decide) rfl
      (by simp) (fun _ => rfl) (by simp) fun n w => keeps_setFollower _ _
    exact ⟨hacc, by simpa [samePart] using hu⟩
  case _ =>
    rintro rfl
    obtain ⟨hacc, hu⟩ := requestArrive_setNumeric (fun x w => w.setFollower { w.follower with kiEl := x }) (q := q) (id := 6) (v := v) (p := .kiEl) (part := .follower) h (by decide) rfl
      (by simp) (fun _ => rfl) (by simp) fun n w => keeps_setFollower _ _
    exact ⟨hacc, by simpa [samePart] using hu⟩
  case _ =>
    rintro on off rfl hon rfl
    have hset := requestArrive_setThresholds (q := q) (id := 7) (v := v) (p := .tOn) h rfl (by simp)
      (clamp_bne_eq_false_iff v.toInt (by decide)) rfl
    simp only [clamp_eq_max_min v.toInt (show (50 : Int) ≤ 4095 by decide), ← hon, and_assoc] at hset
    exact hset
  case _ =>
    rintro off rfl hoff h50
    have hset := requestArrive_setThresholds (q := q) (id := 8) (v := v) (p := .tOff) h rfl (by simp)
      (clamp_bne_eq_false_iff v.toInt (by decide)) rfl
    have hkept : (20 ≤ v.toInt ∧ v.toInt ≤ 4095) ∧ (max 20 (min 4095 v.toInt)).toNat + 20 ≤ s.follower.tOn ↔
        v.toInt = off := by omega
    simp only [clamp_eq_max_min v.toInt (show (20 : Int) ≤ 4095 by decide), takingState_follower, hkept, ← hoff] at hset
    exact hset
  case _ =>
    rintro rfl
    have hset := requestArrive_setNumeric (fun x w => w.setFollower { w.follower with graceParam := x }) (q := q) (id := 9) (v := v) (p := .grace) (part := .follower) h (by decide) rfl
      (by simp) (fun _ => rfl) (by simp) fun n w => keeps_setFollower _ _
    exact hset
  case _ =>
    rintro rfl hv
    exact requestArrive_setEnumerated_range (fun x w => w.setFollower { w.follower with autoSearch := x }) (p := .autoSearch) h rfl (by simp) (fun _ => rfl) (descriptorParamOf_eq_none hv)
  case _ =>
    rintro o rfl hv
    have hset := requestArrive_setEnumerated (fun x w => w.setFollower { w.follower with autoSearch := x }) (q := q) (id := 10) (v := v) (p := .autoSearch) (part := .follower) h rfl (by simp) (fun _ => rfl)
      (descriptorParamOf_eq_some hv) (by simp) (fun w => keeps_setFollower _ _)
    exact hset
  case _ =>
    rintro rfl
    have hstore : taken q (.setParam 11 v) s =
        setNumeric 11 0 64 v fun n => storeMargin n (takingState q (.named q.tag (.setParam 11 v)) s) :=
      setParam_of_param (id := 11) (p := .margin) rfl (by simp)
    have ht := hstore.trans (setNumeric_eq (by decide) _)
    obtain ⟨hacc, hpart, hsrc⟩ := requestArrive_answered (parts := [.search]) (sources := [.patternLow]) (by simp) h ht
      (keeps_mono (keeps_storeSearch _ _) (by simp)) (sources_mono (sources_storeSearch _ _) (by simp))
    have hsearch := hpart .search (by simp)
    refine ⟨hacc, hsearch, ?_⟩
    rw [hsrc .patternLow (by simp), storeMargin, storeSearch, reportLevel_get_self, genuineOf, genuineOf, hsearch]
    rfl
  case _ =>
    rintro (rfl | rfl) h0 h1
    · exact requestArrive_setEnumerated_range (fun x w => w.setEmitter { w.emitter with polarity := x }) (p := .polarity) h rfl (by simp) (fun _ => rfl) (edgeOf_eq_none h0 h1)
    · exact requestArrive_setEnumerated_range (fun x w => w.setRound { w.round with returnOn := x }) (p := .returnSetting) h rfl (by simp) (fun _ => rfl) (onOffOf_eq_none h0 h1)
  case _ =>
    rintro rfl hv
    have hset := requestArrive_setEnumerated (fun x w => w.setEmitter { w.emitter with polarity := x }) (q := q) (id := 12) (v := v) (p := .polarity) (part := .emitter) h rfl (by simp) (fun _ => rfl)
      (edgeOf_of_bit hv) (by simp) (fun w => keeps_setEmitter _ _)
    exact hset
  case _ =>
    rintro rfl
    have hset := requestArrive_setNumeric (fun n w => storePeriod n w) (q := q) (id := 13) (v := v) (p := .period) (part := .round) h (by decide) rfl
      (by simp) (fun _ => rfl) (by simp) fun n w => keeps_setRound _ _
    exact hset
  case _ =>
    rintro rfl hv
    have hset := requestArrive_setEnumerated (fun x w => w.setRound { w.round with returnOn := x }) (q := q) (id := 14) (v := v) (p := .returnSetting) (part := .round) h rfl (by simp) (fun _ => rfl)
      (onOffOf_of_bit hv) (by simp) (fun w => keeps_setRound _ _)
    exact hset

end Sys2Proof.Proofs
end

