-- ==== Sys2Proof/Proofs/Posing.lean ====
section
/-! The pose table (chapter 2) and the requests that only read: what is checked, what is stored and what is sent back. -/

namespace Sys2Proof.Machine

/-! ### The checks of a pose (R29 to R31) -/

theorem poseChecks_rowLength (r : Triple) : poseChecks.rowLength r = rowLengthOk r := by
  rw [Bool.eq_iff_iff, rowLengthOk, inRange_iff, poseChecks.rowLength, decide_eq_true_iff]
  norm_num [dot, poseUnit, poseTolerance, pow_two]

theorem poseChecks_rowProduct (a b : Triple) : poseChecks.rowProduct a b = rowProductOk a b := by
  rw [Bool.eq_iff_iff, rowProductOk, inRange_iff, poseChecks.rowProduct, decide_eq_true_iff]
  norm_num [dot, poseTolerance]

theorem poseChecks_component (x : Int) : poseChecks.component x = translationOk x := by
  simp [poseChecks.component, translationOk, inRange]

/-- The first failed check of a list is its head when that fails, and that of its tail otherwise. -/
theorem firstFailed_cons (x : PoseFault) (b : Bool) (l : List (PoseFault × Bool)) :
    (((x, b) :: l).find? fun c => !c.2).map (·.1) =
      if b = false then some x else (l.find? fun c => !c.2).map (·.1) := by
  cases b <;> rfl

theorem poseFault_eq_firstFailed (m : Rotation) (t : Triple) :
    poseFault m t = ((poseChecks m t).find? fun c => !c.2).map (·.1) := by
  simp only [poseChecks, firstFailed_cons, poseChecks_rowLength, poseChecks_rowProduct, poseChecks_component,
    decide_eq_false_iff_not, Int.not_lt]
  rfl

/-! ### The entries of the table (R28, R32) -/

theorem storePose_entry_self (i : Fin 8) (e : PoseEntry) (s : State) : (storePose i e s).poses.entries[i] = e := by
  simp [storePose]

theorem storePose_entry_other {i j : Fin 8} (e : PoseEntry) (s : State) (h : j ≠ i) :
    (storePose i e s).poses.entries[j] = s.poses.entries[j] := by
  have hne : i.val ≠ j.val := fun hv => h (Fin.ext hv.symm)
  simp [storePose, hne]

/-- R28 and R32: a request that stores the entry `e` at `i`, arriving at a ready port. -/
theorem requestArrive_storePose {q : Taking} {r : Request} {s : State} {i : Fin 8} {e : PoseEntry} {data : List Datum}
    (hr : r ≠ .restart) (h : portReady s)
    (ht : taken q r s = accept (storePose i e (takingState q (.named q.tag r) s)) data) :
    acceptsWithin q (requestCode r) .ok data [.poses] [] s (requestArrive q r s) ∧
      (requestArrive q r s).poses.active = s.poses.active ∧ (requestArrive q r s).poses.entries[i] = e ∧
      ∀ j : Fin 8, j ≠ i → (requestArrive q r s).poses.entries[j] = s.poses.entries[j] := by
  obtain ⟨hacc, hposes⟩ := requestArrive_changes_part (p := .poses) hr h (by simp) ht (keeps_setPoses _ _)
  rw [show (requestArrive q r s).poses = (storePose i e s).poses from hposes]
  exact ⟨hacc, rfl, storePose_entry_self i e s, fun j hj => storePose_entry_other e s hj⟩

section Requests

variable {index : Byte} {i : Fin 8} {p : PoseField} {label : Half} {s : State}

theorem writePose_of_no_entry (h : 8 ≤ index.toNat) : writePose index p label s = refuse s .range := by
  simp [writePose, index8_eq_none h]

theorem writePose_of_active (h : index.toNat = i.val) (ha : s.poses.active = some i) :
    writePose index p label s = refuse s .poseActive := by simp [writePose, index8_eq_some h, ha]

theorem writePose_of_fault {x : PoseFault} (h : index.toNat = i.val) (ha : s.poses.active ≠ some i)
    (hx : poseFault (poseRot p) (poseTrans p) = some x) :
    writePose index p label s = ⟨s, .refused .poseInvalid, x.data⟩ := by simp [writePose, index8_eq_some h, ha, hx]

theorem writePose_of_valid (h : index.toNat = i.val) (ha : s.poses.active ≠ some i)
    (hx : poseFault (poseRot p) (poseTrans p) = none) :
    writePose index p label s =
      accept (storePose i (s.poses.entries[i].written p label) s)
        [⟨1, i.val⟩, ⟨1, 1⟩, ⟨2, count16 s.poses.entries[i].writeCount⟩] := by
  simp only [writePose, index8_eq_some h, if_neg ha, hx]
  rfl

theorem clearPose_of_no_entry (h : 8 ≤ index.toNat) : clearPose index s = refuse s .range := by
  simp [clearPose, index8_eq_none h]

theorem clearPose_of_active (h : index.toNat = i.val) (ha : s.poses.active = some i) :
    clearPose index s = refuse s .poseActive := by simp [clearPose, index8_eq_some h, ha]

theorem clearPose_of_inactive (h : index.toNat = i.val) (ha : s.poses.active ≠ some i) :
    clearPose index s =
      accept (storePose i s.poses.entries[i].cleared s) [⟨1, i.val⟩, ⟨1, 0⟩, ⟨2, s.poses.entries[i].writeCount⟩] := by
  simp only [clearPose, index8_eq_some h, if_neg ha]
  rfl

/-! ### SELECT_POSE (R34 to R36) -/

theorem index8OrNone_eq_none (h : 8 ≤ index.toNat) (h' : index.toNat ≠ 255) : index8OrNone index = none := by
  simp [index8OrNone, h', index8_eq_none h]

theorem index8OrNone_eq_some (h : index.toNat = i.val) : index8OrNone index = some (some i) := by
  have hne : ¬ index.toNat = 255 := by omega
  simp [index8OrNone, hne, index8_eq_some h]

theorem index8OrNone_of_255 (h : index.toNat = 255) : index8OrNone index = some none := by simp [index8OrNone, h]

theorem selectPose_of_no_entry (h : 8 ≤ index.toNat) (h' : index.toNat ≠ 255) : selectPose index s = refuse s .range := by
  simp [selectPose, index8OrNone_eq_none h h']

theorem selectPose_of_busy {o : Option (Fin 8)} (h : index8OrNone index = some o)
    (hb : s.emitter.mode.isSingle = true ∨ s.round.state.isRunning = true) : selectPose index s = refuse s .busy := by
  simp [selectPose, h, hb]

theorem selectPose_of_empty (h : index.toNat = i.val) (hm : s.emitter.mode.isSingle = false)
    (hr : s.round.state.isRunning = false) (he : s.poses.entries[i].state = .empty) :
    selectPose index s = refuse s .state := by
  simp [selectPose, index8OrNone_eq_some h, hm, hr, show s.poses.entries[i.val].state = .empty from he]

/-- R35: a selection of a VALID entry or of NONE is applied. -/
theorem selectPose_of_valid {o : Option (Fin 8)} (h : index8OrNone index = some o) (hm : s.emitter.mode.isSingle = false)
    (hr : s.round.state.isRunning = false) (hv : ∀ i, o = some i → s.poses.entries[i].state = .valid) :
    selectPose index s = accept (applySelection o s) { s.poses with active := o }.activeData := by
  have hbusy : (s.emitter.mode.isSingle || s.round.state.isRunning) = false := by simp [hm, hr]
  have hempty : (o.any fun i => decide (s.poses.entries[i].state = .empty)) = false := by
    cases o with
    | none => rfl
    | some i => simp [show s.poses.entries[i.val].state = .valid from hv i rfl]
  rw [selectPose, h]
  simp only [hbusy, hempty, Bool.false_eq_true, if_false]

end Requests

theorem Emitter.clearAnchor_of_spaced {e : Emitter} {g : Nat} {x : Option Anchor} (h : e.mode = .spaced g x) :
    e.clearAnchor = { e with mode := .spaced g none } := by simp [Emitter.clearAnchor, h]

theorem Emitter.clearAnchor_of_not_spaced {e : Emitter} (h : ∀ g x, e.mode ≠ .spaced g x) : e.clearAnchor = e := by
  cases hm : e.mode with
  | spaced g x => exact absurd hm (h g x)
  | idle | single _ | stream _ _ | triggered _ => simp [Emitter.clearAnchor, hm]

/-- R35 and R36: an accepted selection that arrives at a ready port sets the active index and clears the spacing anchor. -/
theorem requestArrive_selectPose_of_valid {q : Taking} {index : Byte} {s : State} {o : Option (Fin 8)} (h : portReady s)
    (ho : index8OrNone index = some o) (hm : s.emitter.mode.isSingle = false) (hr : s.round.state.isRunning = false)
    (hv : ∀ i, o = some i → s.poses.entries[i].state = .valid) :
    acceptsWithin q 0x08 .ok { s.poses with active := o }.activeData [.poses, .emitter] [] s
        (requestArrive q (.selectPose index) s) ∧
      (requestArrive q (.selectPose index) s).poses = { s.poses with active := o } ∧
      (requestArrive q (.selectPose index) s).emitter = s.emitter.clearAnchor ∧
      (requestArrive q (.selectPose index) s).correction = s.correction := by
  have ht : taken q (.selectPose index) s = _ :=
    selectPose_of_valid (s := takingState q (.named q.tag (.selectPose index)) s) ho hm hr hv
  have hkeep : keepsOthers [.poses, .emitter] (takingState q (.named q.tag (.selectPose index)) s)
      (applySelection o (takingState q (.named q.tag (.selectPose index)) s)) :=
    keeps_then (keeps_mono (keeps_setPoses _ _) (by simp)) (keeps_setEmitter _ _) (by simp)
  obtain ⟨hacc, hpart, -⟩ := requestArrive_answered (parts := [.poses, .emitter]) (sources := []) (by simp) h ht
    (keeps_mono hkeep (by simp)) (sources_of_events rfl)
  exact ⟨hacc, hpart .poses (by simp), hpart .emitter (by simp), hpart .correction (by simp)⟩

/-- R38 and R40: the frame of a distance is that of the active pose. -/
theorem correctDistance_at {s t : State} {o : Option (Fin 8)} (hp : t.poses = { s.poses with active := o })
    (hc : t.correction = s.correction) (src : DistanceSource) (a : CorrectedAngles) (dOpt : Int) :
    (correctDistance t src a dOpt).at_ =
      match o with
      | some i => ⟨.block i, stageD s.poses.entries[i] (correctDistance s src a dOpt).tracker⟩
      | none => ⟨.tracker, (correctDistance s src a dOpt).tracker⟩ := by
  simp only [correctDistance, frameCoordinates, hp, hc]
  cases o <;> rfl

/-! ### Requests that only read (R33, R95, R134, R176) -/

/-- A request that is accepted with the state as it is, arriving at a ready port, changes nothing. -/
theorem requestArrive_reads {q : Taking} {r : Request} {s : State} {data : List Datum} (hr : r ≠ .restart) (h : portReady s)
    (ht : taken q r s = accept (takingState q (.named q.tag r) s) data) :
    acceptsWithin q (requestCode r) .ok data [] [] s (requestArrive q r s) :=
  requestArrive_accepts q r s hr h _ _ _ _ (by rw [ht]; rfl) (by rw [ht]; rfl) (by rw [ht]; exact keeps_refl _ _)
    (by rw [ht]; exact sources_refl _ _)

theorem codeBool_decide (p : Prop) [Decidable p] : codeBool (decide p) = if p then 1 else 0 := by simp [codeBool]

theorem index16_eq_some {b : Byte} {i : Fin 16} (h : b.toNat = i.val) : index16 b = some i := by
  simp [index16, h]

theorem index16_eq_none {b : Byte} (h : 16 ≤ b.toNat) : index16 b = none := by simp [index16, h]

/-- READ_STATUS sees the state at the taking as the state before it, with the level of SERVICE. -/
theorem sectionData_takingState (sect : Byte) (q : Taking) (f : RequestFrame) {s : State} (h : portReady s) :
    sectionData sect (takingState q f s) = sectionData sect (s.setService q.service) := by
  obtain ⟨-, -, hrx, -⟩ := h
  have hports : portsData (takingState q f s) = portsData (s.setService q.service) := by
    simp only [portsData, takingState_station, State.setService_station, hrx]
    rfl
  simp only [sectionData, hports]
  rfl

/-- R176: READ_STATUS at a ready port answers the section as it stands. -/
theorem taken_readStatus {sect : Byte} {q : Taking} {s : State} {data : List Datum} (h : portReady s)
    (hd : sectionData sect (s.setService q.service) = some data) :
    taken q (.readStatus sect) s = accept (takingState q (.named q.tag (.readStatus sect)) s) data := by
  simp only [taken, perform, readStatus, sectionData_takingState sect q _ h, hd]

/-- R176: PORTS opens with the occupancies of the four queues, none waiting in the station receive queue. -/
theorem portsData_occupancies {s : State} (hrx : s.station.rx = []) :
    ∃ data, sectionData 1 s =
      some ([⟨1, s.head.rx.length⟩, ⟨1, s.head.forward.length⟩, ⟨1, 0⟩, ⟨1, s.station.out.length⟩] ++ data) := by
  refine ⟨[dBool s.head.slot.isSome] ++ (countersData s ++ (factsData s ++
    [dBool (decide (s.head.silenceTimer = 0)), d4 s.head.silenceTimer, dBool s.service, d4 s.localTime.toNat])), ?_⟩
  simp [sectionData, portsData, hrx, d1]

theorem sectionData_eq_none {sect : Byte} (h : 9 ≤ sect.toNat) (s : State) : sectionData sect s = none := by
  unfold sectionData
  split
  case h_10 => rfl
  all_goals omega

theorem sectionData_isSome {sect : Byte} (h : sect.toNat < 9) (s : State) : ∃ data, sectionData sect s = some data := by
  interval_cases hs : sect.toNat
  all_goals simp [sectionData, hs]

/-! ### The size of a section (R176, R182) -/

/-- The bytes that a run of values takes in a payload. -/
def dataSize (l : List Datum) : Nat := (l.map (·.width)).sum

@[simp] theorem dataSize_nil : dataSize [] = 0 := rfl
@[simp] theorem dataSize_cons (d : Datum) (l : List Datum) : dataSize (d :: l) = d.width + dataSize l := by simp [dataSize]
@[simp] theorem dataSize_append (l m : List Datum) : dataSize (l ++ m) = dataSize l + dataSize m := by simp [dataSize]

@[simp] theorem d1_width (v : Int) : (d1 v).width = 1 := rfl
@[simp] theorem d2_width (v : Int) : (d2 v).width = 2 := rfl
@[simp] theorem d4_width (v : Int) : (d4 v).width = 4 := rfl
@[simp] theorem dBool_width (b : Bool) : (dBool b).width = 1 := rfl

@[simp] theorem anglesData_size (o : Option Angles) : dataSize (anglesData o) = 9 := by cases o <;> rfl

@[simp] theorem waitData_size (st : DistanceState) : dataSize (waitData st) = 5 := by
  unfold waitData
  split <;> rfl

@[simp] theorem aimData_size (u : Follower) : dataSize (aimData u) = 16 := by
  unfold aimData
  split <;> rfl

@[simp] theorem activeData_size (p : PoseTable) : dataSize p.activeData = 5 := by
  unfold PoseTable.activeData
  split <;> rfl

@[simp] theorem activeSearchData_size (o : Option ActiveSearch) : dataSize (activeSearchData o) = 24 := by
  cases o with
  | none => rfl
  | some a => cases hp : a.play <;> simp [activeSearchData, SearchPlay.data, hp]

@[simp] theorem modeParams_size (m : EmissionMode) : dataSize (modeParams m) = 20 := by cases m <;> rfl
@[simp] theorem singleData_size (m : EmissionMode) : dataSize (singleData m) = 9 := by cases m <;> rfl
@[simp] theorem modeProgress_size (m : EmissionMode) : dataSize (modeProgress m) = 4 := by cases m <;> rfl
@[simp] theorem summary_size (x : RoundSummary) : dataSize x.data = 8 := by cases x <;> rfl

@[simp] theorem runningData_size (u : RoundUnit) : dataSize (runningData u) = 10 := by
  unfold runningData
  split <;> rfl

@[simp] theorem sourceData_size (e : EventUnit) (src : Source) : dataSize (sourceData e src) = 6 := by
  unfold sourceData
  split <;> rfl

theorem dataSize_sources (e : EventUnit) (l : List Source) : dataSize (l.flatMap (sourceData e)) = 6 * l.length := by
  induction l with
  | nil => rfl
  | cons src l ih => rw [List.flatMap_cons, dataSize_append, ih, sourceData_size, List.length_cons]; omega

@[simp] theorem eventsData_size (e : EventUnit) : dataSize (eventsData e) = 148 := by
  rw [eventsData, dataSize_cons, dataSize_sources]
  rfl

/-- R182: every section fits behind the five bytes that head a REPLY. -/
theorem sectionData_size {sect : Byte} {s : State} {data : List Datum} (h : sectionData sect s = some data) :
    dataSize data ≤ 235 := by
  unfold sectionData at h
  split at h
  case h_10 => cases h
  all_goals
    obtain rfl := Option.some.inj h
    simp [summaryData, portsData, correctionData, distanceData, followerData, searchData, emissionData, roundData, countersData,
      factsData, refractionData, CompTable.data]

end Sys2Proof.Machine

/-! ### The statements -/

namespace Sys2Proof.Proofs

open Sys2Proof Sys2Proof.Machine

/-- Settles O44: the ladder of checks is the first failed check of the list, and the request follows it. -/
theorem writePose : Obligations.WritePose := by
  refine ⟨poseFault_eq_firstFailed, fun q index p label s h => ?_⟩
  have hr : Request.writePose index p label ≠ .restart := by simp
  refine ⟨_, rfl, fun hi => ?_, fun i hi ha => ?_, fun i x hi ha hx => ?_, fun i hi ha hx => ?_⟩
  · exact requestArrive_refuses q _ s hr h .range (writePose_of_no_entry hi)
  · exact requestArrive_refuses q _ s hr h .poseActive (writePose_of_active hi ha)
  · have ht : taken q (.writePose index p label) s = _ :=
      writePose_of_fault (s := takingState q (.named q.tag (.writePose index p label)) s) hi ha hx
    obtain ⟨hacc, -⟩ := requestArrive_answered (parts := []) (sources := []) hr h ht (keeps_refl _ _) (sources_refl _ _)
    exact ⟨hacc.1, hacc.2.1⟩
  · have ht : taken q (.writePose index p label) s = _ :=
      writePose_of_valid (s := takingState q (.named q.tag (.writePose index p label)) s) hi ha hx
    have hstored := requestArrive_storePose hr h ht
    simp only [PoseEntry.written, takingState_poses, count16_eq_min] at hstored
    push_cast at hstored
    exact hstored

/-- Settles O46: each reading request is refused, or accepted with the state as it is. -/
theorem readsChangeNothing : Obligations.ReadsChangeNothing := by
  intro q s h
  refine ⟨fun index => ⟨_, rfl, fun hi => ?_, fun i hi => ?_⟩, fun index => ⟨_, rfl, fun hi => ?_, fun i hi => ?_⟩,
    fun start count => ⟨_, rfl, fun hc => ?_, fun h1 h2 h3 => ?_⟩, fun index => ⟨_, rfl, fun hi => ?_, fun i hi => ?_⟩,
    fun sect => ⟨_, rfl, fun hs => ?_, fun hs => ?_, fun data hd => ?_, ?_⟩⟩
  · exact requestArrive_refuses q (.readPose index) s (by simp) h .range (by
      simp [taken, perform, readPose, index8_eq_none hi])
  · refine requestArrive_reads (r := .readPose index) (by simp) h ?_
    simp only [taken, perform, readPose, index8_eq_some hi, codeBool_decide]
    rfl
  · exact requestArrive_refuses q (.readSearch index) s (by simp) h .range (by
      simp [taken, perform, readSearch, index8_eq_none hi])
  · refine requestArrive_reads (r := .readSearch index) (by simp) h ?_
    simp only [taken, perform, readSearch, index8_eq_some hi, codeBool_decide]
    rfl
  · exact requestArrive_refuses q (.readSteps start count) s (by simp) h .range (by
      simp [taken, perform, readSteps, hc])
  · refine requestArrive_reads (r := .readSteps start count) (by simp) h ?_
    rw [taken, perform, readSteps, if_neg (by omega)]
    rfl
  · exact requestArrive_refuses q (.readFiducial index) s (by simp) h .range (by
      simp [taken, perform, readFiducial, index16_eq_none hi])
  · refine requestArrive_reads (r := .readFiducial index) (by simp) h ?_
    simp only [taken, perform, readFiducial, index16_eq_some hi]
    rfl
  · exact requestArrive_refuses q (.readStatus sect) s (by simp) h .range (by
      simp [taken, perform, readStatus, sectionData_eq_none hs])
  · exact sectionData_isSome hs _
  · exact ⟨requestArrive_reads (r := .readStatus sect) (by simp) h (taken_readStatus h hd), sectionData_size hd⟩
  · rintro rfl
    obtain ⟨data, hports⟩ := portsData_occupancies (s := s.setService q.service) h.2.2.1
    exact ⟨data, requestArrive_reads (r := .readStatus 1) (by simp) h (taken_readStatus h hports)⟩

end Sys2Proof.Proofs
end

