-- ==== Sys2Proof/Proofs/Parking.lean ====
section
/-! The follower's entries to PARKED and AIMING (chapter 4): what PARK, GOTO and a DISABLED read leave of the search, the
distance, a SINGLE and a round. -/

namespace Sys2Proof.Machine

/-! ### The distance that is left (R52, R56) -/

theorem DistanceState.isEstablished_iff (d : DistanceState) :
    d.isEstablished = true ↔ ∃ src b c, d = .established src b c := by
  cases d <;> simp [DistanceState.isEstablished]

theorem DistanceState.isEstablished_eq_false_iff (d : DistanceState) :
    d.isEstablished = false ↔ ∀ src b c, d ≠ .established src b c := by
  cases d <;> simp [DistanceState.isEstablished]

/-- What becomes of the distance of `s` when the follower leaves it for `cause`: `t` is the state after. -/
structure DistanceLeft (cause : LossCause) (s t : State) : Prop where
  none : s.distance.state = .none → t.distance = s.distance
  wait : ∀ k o m, s.distance.state.wait = some (k, o, m) →
    t.distance = { s.distance with state := .none, lastWaitKind := k, lastWaitOutcome := .cancelled }
  base : ∀ d b c, s.distance.state = .established d b c →
    t.distance = { s.distance with state := .none, lastLoss := cause } ∧
      t.events.get .distanceLost = (s.events.get .distanceLost).occurred s.localTime
  unheld : s.distance.state.isEstablished = false → t.events.get .distanceLost = s.events.get .distanceLost

theorem leaveDistance_left (cause : LossCause) (s : State) : DistanceLeft cause s (leaveDistance cause s) where
  none h := by rw [leaveDistance_of_none s cause h]
  wait k o m h := by rw [leaveDistance_of_wait s cause h]; rfl
  base d b c h := by
    rw [leaveDistance_of_established s cause h, occur_get_self]
    exact ⟨rfl, rfl⟩
  unheld h := by
    rw [leaveDistance, dropBase_of_not _ _ (by cases hs : s.distance.state <;> simp_all [cancelWait, DistanceState.isEstablished])]
    rw [(keeps_cancelWait s .events (by simp) : (cancelWait s).events = s.events)]

/-- The relation sees the distance unit, DISTANCE_LOST and the local time only. -/
theorem DistanceLeft.congr {cause : LossCause} {s s' t t' : State} (h : DistanceLeft cause s t)
    (hd : s'.distance = s.distance) (he : s'.events.get .distanceLost = s.events.get .distanceLost)
    (hl : s'.localTime = s.localTime) (hd' : t'.distance = t.distance)
    (he' : t'.events.get .distanceLost = t.events.get .distanceLost) : DistanceLeft cause s' t' where
  none := by rw [hd, hd']; exact h.none
  wait := by rw [hd, hd']; exact h.wait
  base := by rw [hd, hd', he, he', hl]; exact h.base
  unheld := by rw [hd, he, he']; exact h.unheld

theorem DistanceLeft.state {cause : LossCause} {s t : State} (h : DistanceLeft cause s t) : t.distance.state = .none := by
  rcases s.distance.state.none_or_wait_or_base with hn | ⟨k, o, m, hw⟩ | ⟨d, b, c, he⟩
  · rw [h.none hn, hn]
  · rw [h.wait k o m hw]
  · rw [(h.base d b c he).1]

theorem enterParked_left (s : State) : DistanceLeft .follower s (enterParked s) := by
  refine (leaveDistance_left .follower (storeFollower (abortSearch s).follower.parkedAs (abortSearch s))).congr
    (by simp) ?_ (by simp) (by simp [enterParked]) ?_
  · exact (((sources_storeFollower _ _).2 .distanceLost (by simp)).trans ((sources_abortSearch s).2 .distanceLost (by simp))).symm
  · exact (sources_writeSteer _ _).2 .distanceLost (by simp)

theorem enterAiming_left (a : Angles) (act : ThenAction) (o : AimOwner) (s : State) :
    DistanceLeft .follower s (enterAiming a act o s) := by
  refine (leaveDistance_left .follower _).congr (by simp) ?_ (by simp) rfl rfl
  exact (((sources_storeFollower _ _).2 .distanceLost (by simp)).trans ((sources_abortSearch s).2 .distanceLost (by simp))).symm

theorem leaveDistance_beamAbsent (cause : LossCause) (s : State) :
    (leaveDistance cause s).events.get .beamAbsent = s.events.get .beamAbsent :=
  (sources_leaveDistance s cause).2 .beamAbsent (by simp)

/-- R83: BEAM_ABSENT is false after an entry to PARKED. -/
theorem enterParked_beamAbsent (s : State) : ((enterParked s).events.get .beamAbsent).genuine = false := by
  rw [enterParked, (sources_writeSteer _ _).2 .beamAbsent (by simp), leaveDistance_beamAbsent, storeFollower_beamAbsent]
  rfl

/-! ### The SINGLE that loses its beam or its distance (R120) -/

/-- What becomes of a SINGLE of `s` when the follower has left FOLLOWING and the distance in `t`. -/
structure SingleLeft (s t : State) : Prop where
  aborted : s.follower.state = .following ∨ (∃ d b c, s.distance.state = .established d b c) →
    s.emitter.mode.isSingle = true →
    t.emitter = { s.emitter with mode := .idle } ∧
      t.events.get .measureAborted = (s.events.get .measureAborted).occurred s.localTime
  kept : s.emitter.mode.isSingle = false ∨
      s.follower.state ≠ .following ∧ (∀ d b c, s.distance.state ≠ .established d b c) →
    t.emitter = s.emitter ∧ t.events.get .measureAborted = s.events.get .measureAborted

theorem abortIfBroken_left {s t : State} (hd : t.distance.state.isEstablished = false) (hf : t.follower.state ≠ .following)
    (hm : t.emitter = s.emitter) (he : t.events.get .measureAborted = s.events.get .measureAborted)
    (hl : t.localTime = s.localTime) : SingleLeft s (abortIfBroken s t) where
  aborted hb hs := by
    have hbroken : abortIfBroken s t = abortSingle t := by
      refine abortIfBroken_of_broken t s (hb.symm.imp (fun hx => ⟨(s.distance.state.isEstablished_iff).mpr hx, hd⟩) fun hx => ⟨hx, hf⟩)
    rw [hbroken, abortSingle_of_single _ (hm ▸ hs), occur_get_self]
    exact ⟨by simp [hm], by simp [he, hl]⟩
  kept hk := by
    have hwhole : abortIfBroken s t = t := by
      rcases hk with hs | ⟨hnf, hnb⟩
      · exact abortIfBroken_of_not t s (hm ▸ hs)
      · exact abortIfBroken_of_same t s
          (fun hx => by rw [(s.distance.state.isEstablished_eq_false_iff).mpr hnb] at hx; cases hx) (fun hx => absurd hx hnf)
    rw [hwhole]
    exact ⟨hm, he⟩

theorem SingleLeft.congr {s s' t t' : State} (h : SingleLeft s t) (hf : s'.follower = s.follower)
    (hd : s'.distance = s.distance) (hm : s'.emitter = s.emitter)
    (he : s'.events.get .measureAborted = s.events.get .measureAborted) (hl : s'.localTime = s.localTime)
    (hm' : t'.emitter = t.emitter) (he' : t'.events.get .measureAborted = t.events.get .measureAborted) :
    SingleLeft s' t' where
  aborted := by rw [hf, hd, hm, he, hl, hm', he']; exact h.aborted
  kept := by rw [hf, hd, hm, he, hm', he']; exact h.kept

/-! ### The end of a round by PARK or a DISABLED read (R152) -/

section StopRoundFor

variable (a : AbortReason) (s : State)

theorem stopRoundFor_of_running (h : s.round.state.isRunning = true) :
    stopRoundFor a s = discardRound a (releaseDistance s) := by
  cases hs : s.round.state with
  | idle | due => simp [hs, RoundState.isRunning] at h
  | running r => simp only [stopRoundFor, hs]

theorem stopRoundFor_of_due (h : s.round.state = .due) : stopRoundFor a s = abandonRound a s := by simp only [stopRoundFor, h]

theorem stopRoundFor_of_idle (h : s.round.state = .idle) : stopRoundFor a s = s := by simp only [stopRoundFor, h]

theorem keeps_stopRoundFor_parts : keepsOthers [.distance, .round, .events] s (stopRoundFor a s) := by
  unfold stopRoundFor
  split
  · exact keeps_then (keeps_mono (keeps_releaseDistance s) (by simp)) (keeps_discardRound a _) (by simp)
  · exact keeps_mono (keeps_abandonRound a s) (by simp)
  · exact keeps_refl _ s

theorem sources_stopRoundFor : keepsSources [.roundDue, .roundAborted] s (stopRoundFor a s) := by
  unfold stopRoundFor
  split
  · exact sources_trans (sources_of_events (releaseDistance_events s)) (sources_discardRound a _)
  · exact sources_abandonRound s a
  · exact sources_refl _ s

theorem stopRoundFor_distance (h : s.round.state.isRunning = false) : (stopRoundFor a s).distance = s.distance := by
  cases hs : s.round.state with
  | idle => rw [stopRoundFor_of_idle a s hs]
  | due => rw [stopRoundFor_of_due a s hs]; simp
  | running r => simp [hs, RoundState.isRunning] at h

theorem stopRoundFor_aborted (h : s.round.state ≠ .idle) :
    (stopRoundFor a s).events.get .roundAborted = (s.events.get .roundAborted).occurred s.localTime := by
  cases hs : s.round.state with
  | idle => exact absurd hs h
  | due => rw [stopRoundFor_of_due a s hs]; exact abandonRound_event s a
  | running r =>
    rw [stopRoundFor_of_running a s (by rw [hs]; rfl), discardRound_event, releaseDistance_events]
    simp

end StopRoundFor


/-! ### PARK and a DISABLED read outside PARKED (R70, R81) -/

/-- What an entry to PARKED for `a` leaves of the state `s`, which was not PARKED: `t` is the state after. -/
structure ParkedFrom (a : AbortReason) (s t : State) : Prop where
  follower : t.follower = s.follower.parkedAs
  search : t.search.active = none
  released : t.distance.state = .none
  beamAbsent : (t.events.get .beamAbsent).genuine = false
  steer : steerWritten .hold s t
  running : s.round.state.isRunning = true →
    t.round = { s.round with state := .idle, returnAngles := none, summary := .aborted a } ∧
      t.distance.lastLoss = s.distance.lastLoss ∧ t.events.get .distanceLost = s.events.get .distanceLost
  due : s.round.state = .due → t.round = { s.round with state := .idle, summary := .aborted a }
  idle : s.round.state = .idle → t.round = s.round
  aborted : s.round.state ≠ .idle → t.events.get .roundAborted = (s.events.get .roundAborted).occurred s.localTime
  base : ∀ d b c, s.distance.state = .established d b c → s.round.state.isRunning = false →
    t.distance = { s.distance with state := .none, lastLoss := .follower } ∧
      t.events.get .distanceLost = (s.events.get .distanceLost).occurred s.localTime
  wait : ∀ k o m, s.distance.state.wait = some (k, o, m) →
    t.distance = { s.distance with state := .none, lastWaitKind := k, lastWaitOutcome := .cancelled }
  single : SingleLeft s t

theorem parkFor_of_parked (a : AbortReason) {s : State} (h : s.follower.state = .parked) :
    parkFor a s = endDue a (s.setFollower { s.follower with followPending := false }) := if_pos h

theorem parkFor_parked_of_not_due (a : AbortReason) {s : State} (h : s.follower.state = .parked) (hd : s.round.state ≠ .due) :
    parkFor a s = s.setFollower { s.follower with followPending := false } := by
  exact (parkFor_of_parked a h).trans (if_neg hd)

theorem parkFor_parked_of_due (a : AbortReason) {s : State} (h : s.follower.state = .parked) (hd : s.round.state = .due) :
    parkFor a s = abandonRound a (s.setFollower { s.follower with followPending := false }) := by
  exact (parkFor_of_parked a h).trans (if_pos hd)

theorem parkFor_leaves (a : AbortReason) {s : State} (h : s.follower.state ≠ .parked) : ParkedFrom a s (parkFor a s) := by
  -- `p` has ended the round, `e` has entered PARKED, and a SINGLE may be aborted last.
  let p : State := stopRoundFor a s
  let e : State := enterParked p
  have hpark : parkFor a s = abortIfBroken s e := if_neg h
  have hkeep : keepsOthers [.emitter, .events] e (abortIfBroken s e) := keeps_abortIfBroken s e
  have hsrc : keepsSources [.measureAborted] e (abortIfBroken s e) := sources_abortIfBroken e s
  have hsrcE : keepsSources [.patternLow, .beamAbsent, .distanceLost] p e := sources_enterParked p
  have hkeepP : keepsOthers [.distance, .round, .events] s p := keeps_stopRoundFor_parts a s
  have hsrcP : keepsSources [.roundDue, .roundAborted] s p := sources_stopRoundFor a s
  have hfollower : (abortIfBroken s e).follower = s.follower.parkedAs :=
    (hkeep .follower (by simp) : _ = e.follower).trans
      ((enterParked_follower p).trans (by rw [(hkeepP .follower (by simp) : p.follower = s.follower)]))
  have hround : (abortIfBroken s e).round = p.round := (hkeep .round (by simp) : _ = e.round).trans (by simp [e])
  have hdistance : (abortIfBroken s e).distance = e.distance := hkeep .distance (by simp)
  have hlost : (abortIfBroken s e).events.get .distanceLost = e.events.get .distanceLost := hsrc.2 _ (by simp)
  have hlostP : p.events.get .distanceLost = s.events.get .distanceLost := hsrcP.2 _ (by simp)
  have hhead : (abortIfBroken s e).head = e.head := hkeep .head (by simp)
  have hheadP : p.head = s.head := hkeepP .head (by simp)
  have hleft : DistanceLeft .follower p e := enterParked_left p
  rw [hpark]
  refine ⟨hfollower, ?_, ?_, ?_, ?_, fun hr => ⟨?_, ?_, ?_⟩, fun hd => ?_, fun hi => ?_, fun hn => ?_, fun d b c hd hr => ?_,
    fun k o m hw => ?_, ?_⟩
  · rw [(hkeep .search (by simp) : (abortIfBroken s e).search = e.search)]
    simp [e]
  · rw [hdistance]
    exact hleft.state
  · rw [hsrc.2 .beamAbsent (by simp)]
    exact enterParked_beamAbsent p
  · have hsteer := steerWritten_enterParked p
    rw [steerWritten, hheadP] at hsteer
    rw [steerWritten, hhead]
    exact hsteer
  · rw [hround]
    simp [p, stopRoundFor_of_running a s hr]
  · rw [hdistance, hleft.none (by simp [p, stopRoundFor_of_running a s hr])]
    simp [p, stopRoundFor_of_running a s hr]
  · rw [hlost, hleft.unheld (by simp [p, stopRoundFor_of_running a s hr, DistanceState.isEstablished]), hlostP]
  · rw [hround]
    simp [p, stopRoundFor_of_due a s hd]
  · rw [hround]
    simp [p, stopRoundFor_of_idle a s hi]
  · rw [hsrc.2 .roundAborted (by simp), hsrcE.2 .roundAborted (by simp)]
    exact stopRoundFor_aborted a s hn
  · have hdp : p.distance = s.distance := stopRoundFor_distance a s hr
    obtain ⟨hnone, hevent⟩ := hleft.base d b c (by rw [hdp, hd])
    rw [hdistance, hlost, hnone, hevent, hdp, hlostP, (hkeepP .localTime (by simp) : p.localTime = s.localTime)]
    exact ⟨rfl, rfl⟩
  · rw [hdistance]
    cases hr : s.round.state.isRunning with
    | false =>
      have hdp : p.distance = s.distance := stopRoundFor_distance a s hr
      rw [hleft.wait k o m (by rw [hdp, hw]), hdp]
    | true => rw [hleft.none (by simp [p, stopRoundFor_of_running a s hr])]; simp [p, stopRoundFor_of_running a s hr, releaseDistance_of_wait s hw]
  · refine abortIfBroken_left ?_ ?_ ?_ ?_ ?_
    · rw [hleft.state]
      rfl
    · simp [e, Follower.parkedAs]
    · exact (by simp [e] : e.emitter = p.emitter).trans (hkeepP .emitter (by simp))
    · exact (hsrcE.2 .measureAborted (by simp)).trans (hsrcP.2 .measureAborted (by simp))
    · exact (by simp [e] : e.localTime = p.localTime).trans (hkeepP .localTime (by simp))

/-- The relation sees the follower, the search, the distance, the emitter, the round, the steering and five sources only. -/
theorem ParkedFrom.congr {a : AbortReason} {s s' t t' : State} (h : ParkedFrom a s t)
    (hs : keepsOthers [.station, .service, .events, .head] s s') (htx : s'.head.tx = s.head.tx)
    (hse : ∀ src ∈ [Source.roundAborted, .distanceLost, .measureAborted], s'.events.get src = s.events.get src)
    (ht : keepsOthers [.station, .service, .events] t t')
    (hte : ∀ src ∈ [Source.beamAbsent, .roundAborted, .distanceLost, .measureAborted],
      t'.events.get src = t.events.get src) : ParkedFrom a s' t' := by
  have hfollower : s'.follower = s.follower := hs .follower (by simp)
  have hdistance : s'.distance = s.distance := hs .distance (by simp)
  have hround : s'.round = s.round := hs .round (by simp)
  have htime : s'.localTime = s.localTime := hs .localTime (by simp)
  have hfollower' : t'.follower = t.follower := ht .follower (by simp)
  have hsearch' : t'.search = t.search := ht .search (by simp)
  have hdistance' : t'.distance = t.distance := ht .distance (by simp)
  have hround' : t'.round = t.round := ht .round (by simp)
  have hhead' : t'.head = t.head := ht .head (by simp)
  have hlost := hse .distanceLost (by simp)
  have hlost' := hte .distanceLost (by simp)
  refine ⟨?_, ?_, ?_, ?_, ?_, ?_, ?_, ?_, ?_, ?_, ?_, ?_⟩
  · rw [hfollower, hfollower']
    exact h.follower
  · rw [hsearch']
    exact h.search
  · rw [hdistance']
    exact h.released
  · rw [hte .beamAbsent (by simp)]
    exact h.beamAbsent
  · rw [steerWritten, htx, hhead']
    exact h.steer
  · rw [hround, hround', hdistance, hdistance', hlost, hlost']
    exact h.running
  · rw [hround, hround']
    exact h.due
  · rw [hround, hround']
    exact h.idle
  · rw [hround, htime, hse .roundAborted (by simp), hte .roundAborted (by simp)]
    exact h.aborted
  · rw [hround, hdistance, hdistance', hlost, hlost', htime]
    exact h.base
  · rw [hdistance, hdistance']
    exact h.wait
  · exact h.single.congr hfollower hdistance (hs .emitter (by simp)) (hse .measureAborted (by simp)) htime
      (ht .emitter (by simp)) (hte .measureAborted (by simp))

theorem sources_endDue (a : AbortReason) (s : State) : keepsSources [.roundDue, .roundAborted] s (endDue a s) := by
  unfold endDue
  split
  · exact sources_abandonRound s a
  · exact sources_refl _ s

/-- The events that an entry to PARKED can report. -/
def parkSources : List Source := [.patternLow, .beamAbsent, .distanceLost, .measureAborted, .roundDue, .roundAborted]

theorem sources_parkFor (a : AbortReason) (s : State) : keepsSources parkSources s (parkFor a s) := by
  unfold parkFor
  split
  · exact sources_trans (sources_of_events rfl) (sources_mono (sources_endDue a _) (by simp [parkSources]))
  · exact sources_trans
      (sources_trans (sources_mono (sources_stopRoundFor a s) (by simp [parkSources]))
        (sources_mono (sources_enterParked _) (by simp [parkSources])))
      (sources_mono (sources_abortIfBroken _ s) (by simp [parkSources]))

/-- R169: an entry to PARKED leaves the head facts. -/
theorem parkFor_facts (a : AbortReason) (s : State) :
    (parkFor a s).head.hasAdm = s.head.hasAdm ∧ (parkFor a s).head.driveState = s.head.driveState := by
  unfold parkFor
  split
  · simp
  · have hstop : (stopRoundFor a s).head = s.head := keeps_stopRoundFor_parts a s .head (by simp)
    have hsingle : (abortIfBroken s (enterParked (stopRoundFor a s))).head = (enterParked (stopRoundFor a s)).head :=
      keeps_abortIfBroken s _ .head (by simp)
    rw [hsingle, enterParked, writeSteer_head]
    split <;> simp [hstop]

/-- R139: ROUND_DUE is false once a round is abandoned. -/
theorem abandonRound_roundDue (a : AbortReason) (s : State) :
    ((abandonRound a s).events.get .roundDue).genuine = false := by
  rw [abandonRound, occur_get_other _ (by simp), reportLevel_get_self]
  rfl

/-! ### HEAD_STATUS (R169) -/

theorem sources_offerStatus (h : HeadStatus) (s : State) : keepsSources [.queueCongested] s (offerStatus h s) := by
  unfold offerStatus
  split
  · exact sources_admit _ s
  · exact sources_of_events rfl

theorem offerStatus_station (h : HeadStatus) (s : State) :
    (s.station.out.length < 56 →
      (offerStatus h s).station =
        { s.station with out := s.station.out ++ [.headStatus h], tx := some (s.station.tx.getD .front) }) ∧
      (56 ≤ s.station.out.length →
        (offerStatus h s).station = { s.station with droppedStatus := min 65535 (s.station.droppedStatus + 1) }) := by
  refine ⟨fun hlt => ?_, fun hge => ?_⟩
  · rw [offerStatus, if_pos hlt]
    rfl
  · rw [offerStatus, if_neg (Nat.not_lt.mpr hge), count16_eq_min]
    rfl

theorem keeps_storeFacts (h : HeadStatus) (s : State) : keepsOthers [.head, .events] s (storeFacts h s) :=
  keeps_then (keeps_mono (keeps_setHead s _) (by simp)) (keeps_reportLevel _ _) (by simp)

theorem sources_storeFacts (h : HeadStatus) (s : State) : keepsSources [.drivesDisabled] s (storeFacts h s) :=
  sources_then_report (sources_of_events rfl) (by simp)

theorem storeFacts_drivesDisabled (h : HeadStatus) (s : State) :
    ((storeFacts h s).events.get .drivesDisabled).genuine = decide (h.driveState = .disabled) := by
  rw [storeFacts, reportLevel_get_self]
  rfl

theorem keeps_actOnDrives (d : DriveState) (s : State) : keepsOthers answerParts s (actOnDrives d s) := by
  cases d with
  | disabled => exact keeps_parkFor .drives s
  | enabled => exact keeps_refl _ s

theorem sources_actOnDrives (d : DriveState) (s : State) : keepsSources parkSources s (actOnDrives d s) := by
  cases d with
  | disabled => exact sources_parkFor .drives s
  | enabled => exact sources_refl _ s

theorem actOnDrives_facts (d : DriveState) (s : State) :
    (actOnDrives d s).head.hasAdm = s.head.hasAdm ∧ (actOnDrives d s).head.driveState = s.head.driveState := by
  cases d with
  | disabled => exact parkFor_facts .drives s
  | enabled => exact ⟨rfl, rfl⟩

theorem readHeadStatus_of_fits {h : HeadStatus} (hlen : h.remainder.length ≤ 238) (s : State) :
    readHeadStatus h s = offerStatus h (actOnDrives h.driveState (storeFacts h s)) := if_pos hlen

/-! ### GOTO (R71) -/

section GoTo

variable {az el : Word} {action : Byte} {s : State}

theorem goTo_of_running (hr : s.round.state.isRunning = true) : goTo az el action s = refuse s .busy := if_pos hr

theorem goTo_of_disabled (hr : s.round.state.isRunning = false) (hd : s.head.driveState = .disabled) :
    goTo az el action s = refuse s .state := by
  rw [goTo, if_neg (by simp [hr]), if_pos hd]

theorem azInRange_iff (x : Int) : azInRange x = true ↔ 0 ≤ x ∧ x ≤ 4319999 := inRange_iff _ _ _

theorem elInRange_iff (x : Int) : elInRange x = true ↔ -720000 ≤ x ∧ x ≤ 960000 :=
  inRange_iff _ _ _

theorem goTo_of_range (hr : s.round.state.isRunning = false) (hd : s.head.driveState = .enabled)
    (hbad : thenOf action = none ∨ az.toInt < 0 ∨ 4319999 < az.toInt ∨ el.toInt < -720000 ∨ 960000 < el.toInt) :
    goTo az el action s = refuse s .range := by
  simp only [goTo, hr, hd, Bool.false_eq_true, if_false, reduceCtorEq]
  cases ha : thenOf action with
  | none => rfl
  | some t =>
    refine if_pos ?_
    rw [← Bool.not_eq_true, ← Bool.not_eq_true, azInRange_iff, elInRange_iff]
    simp only [ha, reduceCtorEq, false_or] at hbad
    omega

theorem goTo_of_valid {t : ThenAction} (hr : s.round.state.isRunning = false) (hd : s.head.driveState = .enabled)
    (ha : thenOf action = some t) (haz : 0 ≤ az.toInt ∧ az.toInt ≤ 4319999) (hel : -720000 ≤ el.toInt ∧ el.toInt ≤ 960000) :
    goTo az el action s = accept (abortIfBroken s (enterAiming ⟨az.toInt, el.toInt⟩ t .station s)) [] := by
  simp only [goTo, hr, hd, Bool.false_eq_true, if_false, reduceCtorEq, ha]
  exact if_neg (by simp [(azInRange_iff _).mpr haz, (elInRange_iff _).mpr hel])

end GoTo

end Sys2Proof.Machine

/-! ### The statements -/

namespace Sys2Proof.Proofs

open Sys2Proof Sys2Proof.Machine

/-- Settles O49: in PARKED a DUE round at most is ended, in any other state the follower is parked. -/
theorem parkRequest : Obligations.ParkRequest := by
  intro q s h
  obtain ⟨hans, hkeep, hsrc⟩ := requestArrive_taken q .park s (by simp) h
  -- The follower acts on `u`, which has the fields of `s` outside the station port and the SERVICE level.
  let u : State := takingState q (.named q.tag .park) s
  have hstate : (taken q .park s).state = parkFor .parked u := rfl
  rw [hstate] at hkeep hsrc
  have hround : (requestArrive q .park s).round = (parkFor .parked u).round := hkeep .round (by simp)
  have hfollower : (requestArrive q .park s).follower = (parkFor .parked u).follower := hkeep .follower (by simp)
  have hparked : s.follower.state ≠ .parked → ParkedFrom .parked s (requestArrive q .park s) := fun hf =>
    (parkFor_leaves .parked (s := u) hf).congr (fun p hp => by cases p <;> simp_all [samePart, u]) rfl (fun _ _ => rfl)
      (keeps_mono hkeep (by simp)) fun src hm => hsrc.2 src (by rintro hq; simp_all)
  refine ⟨_, rfl, hans, fun hn => ?_, fun hf hi => ?_, fun hf hd => ?_, fun hf => ?_⟩
  · by_cases hf : s.follower.state = .parked
    · cases hr : s.round.state with
      | idle => exact absurd hr hn
      | running r => exact .inr ⟨hf, rfl⟩
      | due => rw [hround, parkFor_parked_of_due _ (s := u) hf hr]; exact .inl (by simp)
    · refine .inl ?_
      cases hr : s.round.state with
      | idle => exact absurd hr hn
      | running r => rw [((hparked hf).running (by rw [hr]; rfl)).1]
      | due => rw [(hparked hf).due hr]
  · have hpark := parkFor_parked_of_not_due .parked (s := u) hf (by simp [u, hi])
    refine ⟨by rw [hfollower, hpark]; rfl, ?_, ?_⟩
    · rw [hpark] at hkeep
      exact keeps_then (keeps_trans (keeps_mono (keeps_takingState q _ s) (by simp)) (keeps_mono (keeps_setFollower _ _) (by simp)))
        hkeep (by simp)
    · rw [hpark] at hsrc
      exact sources_trans (sources_of_events rfl) hsrc
  · rw [hround, hsrc.2 .roundAborted (by simp), parkFor_parked_of_due _ (s := u) hf hd, abandonRound_event]
    exact ⟨by simp [u], rfl⟩
  · have hp := hparked hf
    exact ⟨hp.follower, hp.search, hp.released, hp.beamAbsent, hp.steer,
      fun hr => ⟨(hp.running hr).1, hp.aborted (by rintro hi; simp [hi, RoundState.isRunning] at hr), (hp.running hr).2⟩,
      fun hd => ⟨hp.due hd, hp.aborted (by simp [hd])⟩, hp.idle, hp.base, hp.wait, hp.single.aborted⟩

/-- Settles O15: the record is offered to the queue after the facts are stored and a DISABLED has parked the follower. -/
theorem headStatusRead : Obligations.HeadStatusRead := by
  intro h s hlen
  -- `w` has the new facts, `u` has acted on the drive state; the record is offered to `u`.
  let w : State := storeFacts h s
  let u : State := actOnDrives h.driveState w
  have hkeepW : keepsOthers [.head, .events] s w := keeps_storeFacts h s
  have hsrcW : keepsSources [.drivesDisabled] s w := sources_storeFacts h s
  have hkeepT : keepsOthers [.station, .events] u (offerStatus h u) := keeps_offerStatus h u
  have hsrcT : keepsSources [.queueCongested] u (offerStatus h u) := sources_offerStatus h u
  have hstation : u.station = s.station := keeps_actOnDrives h.driveState w .station (by simp [answerParts])
  have hhead : (offerStatus h u).head = u.head := hkeepT .head (by simp)
  have hfollower : (offerStatus h u).follower = u.follower := hkeepT .follower (by simp)
  have hround : (offerStatus h u).round = u.round := hkeepT .round (by simp)
  have hparked : h.driveState = .disabled → s.follower.state ≠ .parked → ParkedFrom .drives s (offerStatus h u) := fun hd hf =>
    (show ParkedFrom .drives w u by rw [show u = parkFor .drives w by simp only [u, hd, actOnDrives]]
                                    exact parkFor_leaves .drives (s := w) hf).congr
      (fun p hp => by cases p <;> simp_all [samePart, w, storeFacts]) rfl
      (fun src hm => (hsrcW.2 src (by rintro hq; simp_all)).symm) (keeps_mono hkeepT (by simp))
      fun src hm => hsrcT.2 src (by rintro hq; simp_all)
  obtain ⟨hadm, hdrive⟩ := actOnDrives_facts h.driveState w
  have hoffered := offerStatus_station h u
  rw [hstation] at hoffered
  have hread : exec (.headStatus h) s = .next (offerStatus h u) := congrArg _ (readHeadStatus_of_fits hlen s)
  refine ⟨_, hread, ?_, ?_, ?_, hoffered.1, hoffered.2, fun hd => ?_, fun hd hf hi => ?_, fun hd hf hdue => ?_, fun hd hf => ?_⟩
  · rw [hhead]
    exact hadm
  · rw [hhead]
    exact hdrive
  · rw [hsrcT.2 .drivesDisabled (by simp), (sources_actOnDrives _ w).2 .drivesDisabled (by simp [parkSources])]
    exact storeFacts_drivesDisabled h s
  · have hu : u = w := by simp only [u, hd, actOnDrives]
    rw [hhead, hu]
    rw [hu] at hkeepT hsrcT
    refine ⟨by simp [w, storeFacts, hd], keeps_then (keeps_mono hkeepW (by simp)) hkeepT (by simp), ?_⟩
    exact sources_then (sources_mono hsrcW (by simp)) hsrcT (by simp)
  · have hu : u = w.setFollower { w.follower with followPending := false } := by
      simp only [u, hd, actOnDrives]
      exact parkFor_parked_of_not_due .drives (s := w) hf (by simp [w, storeFacts, hi])
    rw [hfollower, hhead, hu]
    rw [hu] at hkeepT
    refine ⟨rfl, by simp [w, storeFacts, hd], ?_⟩
    exact keeps_then (keeps_then (keeps_mono hkeepW (by simp)) (keeps_setFollower _ _) (by simp)) hkeepT (by simp)
  · have hu : u = abandonRound .drives (w.setFollower { w.follower with followPending := false }) := by
      simp only [u, hd, actOnDrives]
      exact parkFor_parked_of_due .drives (s := w) hf hdue
    rw [hfollower, hround, hhead, hsrcT.2 .roundAborted (by simp), hsrcT.2 .roundDue (by simp), hu, abandonRound_event,
      abandonRound_roundDue]
    rw [hu] at hkeepT hsrcT
    refine ⟨by simp [w, storeFacts], by simp [w, storeFacts], ?_, rfl, by simp [w, storeFacts, hd], ?_, ?_⟩
    · exact congrArg (SourceState.occurred · s.localTime) (hsrcW.2 .roundAborted (by simp))
    · exact keeps_then
        (keeps_then (keeps_then (keeps_mono hkeepW (by simp)) (keeps_setFollower _ _) (by simp)) (keeps_abandonRound _ _) (by simp))
        hkeepT (by simp)
    · exact sources_then
        (sources_then (sources_trans (sources_mono hsrcW (by simp)) (sources_of_events rfl)) (sources_abandonRound _ _) (by simp))
        hsrcT (by simp)
  · have hp := hparked hd hf
    exact ⟨hp.follower, hp.search, hp.released, hp.steer, fun hr => (hp.running hr).1, hp.due, hp.aborted, hp.idle,
      fun ⟨d, b, c, he⟩ hr => hp.base d b c he hr, hp.wait, hp.single.aborted, hp.single.kept⟩

/-- Settles O50: the refusals by R71's checks in their order, and an accepted GOTO as an entry to AIMING. -/
theorem gotoRequest : Obligations.GotoRequest := by
  intro q az el action s h
  have hreq : Request.goto az el action ≠ .restart := by simp
  refine ⟨_, rfl, fun hr => ?_, fun hr hd => ?_, fun hr hd hbad => ?_, fun a hr hd ha haz haz' hel hel' => ?_⟩
  · exact requestArrive_refuses q _ s hreq h .busy (goTo_of_running hr)
  · exact requestArrive_refuses q _ s hreq h .state (goTo_of_disabled hr hd)
  · exact requestArrive_refuses q _ s hreq h .range (goTo_of_range hr hd hbad)
  · -- The follower acts on `u`, which has the fields of `s` outside the station port and the SERVICE level.
    let u : State := takingState q (.named q.tag (.goto az el action)) s
    let e : State := enterAiming ⟨az.toInt, el.toInt⟩ a .station u
    have htaken : taken q (.goto az el action) s = accept (abortIfBroken u e) [] :=
      goTo_of_valid (s := u) hr hd ha ⟨haz, haz'⟩ ⟨hel, hel'⟩
    obtain ⟨hans, hkeep, hsrc⟩ := requestArrive_taken q (.goto az el action) s hreq h
    rw [htaken] at hans hkeep hsrc
    have hkeepA : keepsOthers [.emitter, .events] e (abortIfBroken u e) := keeps_abortIfBroken u e
    have hsrcA : keepsSources [.measureAborted] e (abortIfBroken u e) := sources_abortIfBroken e u
    have hfollower : (requestArrive q (.goto az el action) s).follower = e.follower :=
      (hkeep .follower (by simp)).trans (hkeepA .follower (by simp))
    have hsearch : (requestArrive q (.goto az el action) s).search = e.search :=
      (hkeep .search (by simp)).trans (hkeepA .search (by simp))
    have hleft : DistanceLeft .follower s (requestArrive q (.goto az el action) s) :=
      (enterAiming_left ⟨az.toInt, el.toInt⟩ a .station u).congr rfl rfl rfl
        ((hkeep .distance (by simp)).trans (hkeepA .distance (by simp)))
        ((hsrc.2 .distanceLost (by simp)).trans (hsrcA.2 .distanceLost (by simp)))
    have hsingle : SingleLeft s (requestArrive q (.goto az el action) s) :=
      (abortIfBroken_left (s := u) (t := e) (by simp [e, DistanceState.isEstablished]) (by simp [e]) (by simp [e])
        ((sources_enterAiming _ _ _ u).2 .measureAborted (by simp)) (by simp [e])).congr rfl rfl rfl rfl rfl
        (hkeep .emitter (by simp)) (hsrc.2 .measureAborted (by simp))
    refine ⟨hans, hfollower.trans (enterAiming_follower u _ _ _), hsearch.trans (enterAiming_search u _ _ _), hleft.state,
      hleft.base, hleft.wait, hleft.none, ?_, hsingle.aborted, fun hf hb => (hsingle.kept (.inr ⟨hf, hb⟩)).1,
      fun hm => (hsingle.kept (.inl hm)).1⟩
    have hkeepE : keepsOthers [.search, .events, .follower, .distance] u e := keeps_enterAiming _ _ _ u
    exact keeps_then
      (keeps_then (keeps_trans (keeps_mono (keeps_takingState q _ s) (by simp)) (keeps_mono hkeepE (by simp))) hkeepA (by simp))
      hkeep (by simp)

end Sys2Proof.Proofs
end

