-- ==== Sys2Proof/Proofs/Measuring.lean ====
section
/-! The emitter's, the round unit's and the event unit's own requests (sections 6.2, 6.3, 7.1, 8.4): measuring modes, the
fiducial table, acknowledgement and test. -/

namespace Sys2Proof.Machine

/-! ### The examination of a DUE round (R140) -/

/-- R140: what an examination that finds no busy condition leaves. -/
theorem examineDue_leaves {s : State} (hd : s.round.state = .due) (hb : roundBusy s = false) :
    (∀ x, roundCondition s = some x →
      examineDue s = abandonRound x.abortReason s ∧
      (examineDue s).round = { s.round with state := .idle, summary := .aborted x.abortReason } ∧
      (examineDue s).events.get .roundAborted = (s.events.get .roundAborted).occurred s.localTime) ∧
    (roundCondition s = none →
      (examineDue s).round.state.isRunning = true ∧ (examineDue s).follower.state = .aiming ∧
      (examineDue s).distance.state = .none) := by
  obtain ⟨habandon, hstart⟩ := examineDue_of_free hd hb
  refine ⟨fun x hx => ?_, fun hn => ?_⟩
  · rw [habandon x hx]
    exact ⟨rfl, abandonRound_round s _, abandonRound_event s _⟩
  · obtain ⟨hrunning, haiming, hdistance, -⟩ := startRoundNow_leaves hn
    rw [hstart hn]
    exact ⟨hrunning, haiming, by rw [hdistance]; exact (releaseDistance_state s).1⟩

/-! ### START_MEASURE (R114) -/

section SlotParam

variable {mask : Byte} {bit : Nat} {v : Word} {lo hi dflt : Int}

theorem slotParam_value (h : lo ≤ hi) :
    (slotParam mask bit v lo hi dflt).1 = if mask.getLsbD bit then max lo (min hi v.toInt) else dflt := by
  cases hm : mask.getLsbD bit
  · simp [slotParam, hm]
  · simp [slotParam, hm, clamp_eq_max_min _ h]

/-- R114: a slot was clamped unless it is absent or its value was in range. -/
theorem slotParam_unclamped_iff :
    (slotParam mask bit v lo hi dflt).2 = false ↔ (mask.getLsbD bit = true → (slotParam mask bit v lo hi dflt).1 = v.toInt) := by
  cases hm : mask.getLsbD bit <;> simp [slotParam, hm]

theorem slotParam_toNat (h : lo ≤ hi) (hlo : 0 ≤ lo) (hd : 0 ≤ dflt) :
    (((slotParam mask bit v lo hi dflt).1.toNat : Nat) : Int) = (slotParam mask bit v lo hi dflt).1 := by
  refine Int.toNat_of_nonneg ?_
  rw [slotParam_value h]
  split <;> omega

end SlotParam

section StartMeasure

variable {mode mask : Byte} {p1 p2 p3 : Word} {s : State}

theorem requestedMode_eq_none (h : mode = 0 ∨ 5 ≤ mode.toNat) : requestedMode mode mask p1 p2 p3 = none := by
  unfold requestedMode
  split
  case h_5 => rfl
  all_goals
    rcases h with rfl | h
    · simp_all
    · omega

theorem requestedMode_isSome (h : 1 ≤ mode.toNat) (h' : mode.toNat ≤ 4) :
    ∃ r, requestedMode mode mask p1 p2 p3 = some r := by
  interval_cases hm : mode.toNat
  all_goals simp [requestedMode, hm]

theorem startMeasure_of_no_mode (h : mode = 0 ∨ 5 ≤ mode.toNat) :
    startMeasure mode mask p1 p2 p3 s = refuse s .range := by
  rw [startMeasure, requestedMode_eq_none h]

theorem startMeasure_of_busy (h : 1 ≤ mode.toNat) (h' : mode.toNat ≤ 4)
    (hb : s.round.state.isRunning = true ∨ s.emitter.mode.isSingle = true) :
    startMeasure mode mask p1 p2 p3 s = refuse s .busy := by
  obtain ⟨⟨m, clamped⟩, hr⟩ := requestedMode_isSome (mask := mask) (p1 := p1) (p2 := p2) (p3 := p3) h h'
  rw [startMeasure, hr]
  rcases hb with hb | hb <;> simp [hb]

theorem startMeasure_of_mode {m : EmissionMode} {clamped : Bool} (hm : requestedMode mode mask p1 p2 p3 = some (m, clamped))
    (hr : s.round.state.isRunning = false) (hs : s.emitter.mode.isSingle = false) :
    startMeasure mode mask p1 p2 p3 s = ⟨setMode m s, if clamped then .okClamped else .ok, m.data⟩ := by
  rw [startMeasure, hm]
  simp only [hr, hs, Bool.false_eq_true, if_false]
  rfl

/-- R114: an accepted START_MEASURE that arrives at a ready port changes the mode only. -/
theorem requestArrive_startMeasure_of_mode {q : Taking} {m : EmissionMode} {clamped : Bool} (h : portReady s)
    (hm : requestedMode mode mask p1 p2 p3 = some (m, clamped)) (hr : s.round.state.isRunning = false)
    (hs : s.emitter.mode.isSingle = false) :
    acceptsWithin q 0x16 (if clamped then .okClamped else .ok) m.data [.emitter] [] s
        (requestArrive q (.startMeasure mode mask p1 p2 p3) s) ∧
      (requestArrive q (.startMeasure mode mask p1 p2 p3) s).emitter = { s.emitter with mode := m } :=
  requestArrive_changes (r := .startMeasure mode mask p1 p2 p3) (p := .emitter) (by simp) h (by simp)
    (startMeasure_of_mode (s := takingState q (.named q.tag (.startMeasure mode mask p1 p2 p3)) s) hm hr hs) (keeps_setMode _ _)

/-- The result of an answer with clamps is OK exactly when none was applied. -/
theorem acceptsWithin_clamped {q : Taking} {code : Byte} {clamped : Bool} {data : List Datum} {parts : List Part}
    {sources : List Source} {s t : State} {inRange : Prop} (hiff : clamped = false ↔ inRange)
    (h : acceptsWithin q code (if clamped then .okClamped else .ok) data parts sources s t) :
    ∃ res, (res = .ok ∨ res = .okClamped) ∧ acceptsWithin q code res data parts sources s t ∧ (res = .ok ↔ inRange) := by
  refine ⟨_, ?_, h, ?_⟩
  · cases clamped <;> simp
  · rw [← hiff]
    cases clamped <;> simp

end StartMeasure

/-! ### STOP_MEASURE (R116) -/

theorem roundBusy_setMode_idle (s : State) :
    roundBusy (setMode .idle s) = true ↔ s.follower.state = .aiming ∨ s.search.active ≠ none := by
  rw [roundBusy_iff]
  simp [or_comm]

theorem roundCondition_setMode (m : EmissionMode) (s : State) : roundCondition (setMode m s) = roundCondition s := rfl

/-! ### The fiducial table (R132, R133, R135) -/

theorem Triple.within_iff (k : Int) (a : Triple) :
    a.within k = true ↔ (-k ≤ a.c1 ∧ a.c1 ≤ k) ∧ (-k ≤ a.c2 ∧ a.c2 ≤ k) ∧ -k ≤ a.c3 ∧ a.c3 ≤ k := by
  simp [Triple.within, inRange, and_assoc]

/-- R132 check 3: the ranges of the numeric fields. -/
def fiducialInRange (f : FiducialField) : Prop :=
  ((-1000000000 ≤ f.nomX.toInt ∧ f.nomX.toInt ≤ 1000000000) ∧ (-1000000000 ≤ f.nomY.toInt ∧ f.nomY.toInt ≤ 1000000000) ∧
    -1000000000 ≤ f.nomZ.toInt ∧ f.nomZ.toInt ≤ 1000000000) ∧
  (0 ≤ f.aimAz.toInt ∧ f.aimAz.toInt ≤ 4319999) ∧ (-720000 ≤ f.aimEl.toInt ∧ f.aimEl.toInt ≤ 960000) ∧
  10 ≤ f.tolerance.toNat ∧ f.tolerance.toNat ≤ 10000

/-- The entry of the numeric fields of `f` with the decoded ones. -/
def fiducialEntry (f : FiducialField) (st : FiducialState) (m : CheckMode) (d : Option (Fin 8)) : FiducialEntry :=
  { state := st, nominal := ⟨f.nomX.toInt, f.nomY.toInt, f.nomZ.toInt⟩, aim := ⟨f.aimAz.toInt, f.aimEl.toInt⟩
    tolerance := f.tolerance.toNat, checkMode := m, descriptor := d, result := .never, resultRound := none }

section Fiducial

variable {f : FiducialField} {st : FiducialState} {m : CheckMode} {d : Option (Fin 8)}

theorem fiducialOf_of_inRange (hst : fiducialStateOf f.state = some st) (hm : checkModeOf f.checkMode = some m)
    (hd : index8OrNone f.descriptor = some d) (h : fiducialInRange f) : fiducialOf f = some (fiducialEntry f st m d) := by
  obtain ⟨hnom, haz, hel, htol⟩ := h
  simp only [fiducialOf, hst, hm, hd]
  exact if_pos ⟨(Triple.within_iff _ _).mpr hnom, (azInRange_iff _).mpr haz, (elInRange_iff _).mpr hel, htol⟩

/-- R132 check 3: fields that stand for an entry decode and are in range. -/
theorem inRange_of_fiducialOf {e : FiducialEntry} (h : fiducialOf f = some e) :
    fiducialStateOf f.state ≠ none ∧ checkModeOf f.checkMode ≠ none ∧ index8OrNone f.descriptor ≠ none ∧ fiducialInRange f := by
  unfold fiducialOf at h
  split at h
  · next st m d hst hm hd =>
    split at h
    · next hr =>
      obtain ⟨hnom, haz, hel, htol⟩ := hr
      exact ⟨by simp [hst], by simp [hm], by simp [hd], (Triple.within_iff _ _).mp hnom, (azInRange_iff _).mp haz,
        (elInRange_iff _).mp hel, htol⟩
    · cases h
  · cases h

theorem fiducialStateOf_eq_none {b : Byte} (h : b = 0 ∨ 3 ≤ b.toNat) : fiducialStateOf b = none := by
  unfold fiducialStateOf
  split
  case h_3 => rfl
  all_goals
    rcases h with rfl | h
    · simp_all
    · omega

theorem checkModeOf_eq_none {b : Byte} (h : 2 ≤ b.toNat) : checkModeOf b = none := by
  unfold checkModeOf
  split
  case h_3 => rfl
  all_goals omega

theorem fiducialOf_eq_none
    (h : f.state = 0 ∨ 3 ≤ f.state.toNat ∨ 2 ≤ f.checkMode.toNat ∨ (8 ≤ f.descriptor.toNat ∧ f.descriptor ≠ 255) ∨
      ¬ fiducialInRange f) : fiducialOf f = none := by
  by_contra hne
  obtain ⟨e, he⟩ := Option.ne_none_iff_exists'.mp hne
  obtain ⟨hst, hm, hd, hr⟩ := inRange_of_fiducialOf he
  rcases h with h | h | h | ⟨h, h'⟩ | h
  · exact hst (fiducialStateOf_eq_none (.inl h))
  · exact hst (fiducialStateOf_eq_none (.inr h))
  · exact hm (checkModeOf_eq_none h)
  · exact hd (index8OrNone_eq_none h fun e => h' (BitVec.eq_of_toNat_eq e))
  · exact h hr

end Fiducial

theorem keeps_storeFiducial_round (i : Fin 16) (e : FiducialEntry) (s : State) :
    keepsOthers [.round, .events] s (storeFiducial i e s) :=
  keeps_then (keeps_mono (keeps_setRound s _) (by simp)) (keeps_reportLevel _ _) (by simp)

theorem sources_storeFiducial (i : Fin 16) (e : FiducialEntry) (s : State) : keepsSources [.drift] s (storeFiducial i e s) :=
  sources_then_report (sources_of_events rfl) (by simp)

/-- R132 and R133: a request that stores the entry `e` at `i`, arriving at a ready port. -/
theorem requestArrive_storeFiducial {q : Taking} {r : Request} {s : State} {i : Fin 16} {e : FiducialEntry}
    {data : List Datum} (hr : r ≠ .restart) (h : portReady s)
    (ht : taken q r s = accept (storeFiducial i e (takingState q (.named q.tag r) s)) data) :
    acceptsWithin q (requestCode r) .ok data [.round] [.drift] s (requestArrive q r s) ∧
      (requestArrive q r s).round = { s.round with table := s.round.table.set i.val e i.isLt } ∧
      ((requestArrive q r s).events.get .drift).genuine = genuineOf (requestArrive q r s) .drift := by
  obtain ⟨hacc, hpart, hsrc⟩ := requestArrive_answered (parts := [.round]) (sources := [.drift]) hr h ht
    (keeps_mono (keeps_storeFiducial_round i e _) (by simp)) (sources_mono (sources_storeFiducial i e _) (by simp))
  have hround := hpart .round (by simp)
  refine ⟨hacc, hround, ?_⟩
  rw [hsrc .drift (by simp), storeFiducial, reportLevel_get_self, genuineOf, genuineOf, hround]
  rfl

section FiducialRequests

variable {index : Byte} {i : Fin 16} {f : FiducialField} {st : FiducialState} {s : State}

theorem writeFiducial_of_no_entry (h : 16 ≤ index.toNat) : writeFiducial index f s = refuse s .range := by
  simp [writeFiducial, index16_eq_none h]

theorem writeFiducial_of_running (h : index.toNat = i.val) (hr : s.round.state.isRunning = true) :
    writeFiducial index f s = refuse s .busy := by simp [writeFiducial, index16_eq_some h, hr]

theorem writeFiducial_of_range (h : index.toNat = i.val) (hr : s.round.state.isRunning = false) (hf : fiducialOf f = none) :
    writeFiducial index f s = refuse s .range := by simp [writeFiducial, index16_eq_some h, hr, hf]

theorem writeFiducial_of_valid {e : FiducialEntry} (h : index.toNat = i.val) (hr : s.round.state.isRunning = false)
    (hf : fiducialOf f = some e) : writeFiducial index f s = accept (storeFiducial i e s) e.data := by
  simp [writeFiducial, index16_eq_some h, hr, hf]

theorem changeFiducial_of_no_entry (h : 16 ≤ index.toNat) : changeFiducial st index s = refuse s .range := by
  simp [changeFiducial, index16_eq_none h]

theorem changeFiducial_of_running (h : index.toNat = i.val) (hr : s.round.state.isRunning = true) :
    changeFiducial st index s = refuse s .busy := by simp [changeFiducial, index16_eq_some h, hr]

theorem changeFiducial_of_unused (h : index.toNat = i.val) (hr : s.round.state.isRunning = false)
    (hu : s.round.table[i].state = .unused) : changeFiducial st index s = refuse s .state := by
  simp [changeFiducial, index16_eq_some h, hr, show s.round.table[i.val].state = .unused from hu]

theorem changeFiducial_of_used (h : index.toNat = i.val) (hr : s.round.state.isRunning = false)
    (hu : s.round.table[i].state ≠ .unused) :
    changeFiducial st index s = accept (storeFiducial i { s.round.table[i] with state := st } s) [d1 st.code] := by
  simp [changeFiducial, index16_eq_some h, hr, show ¬ s.round.table[i.val].state = .unused from hu]

end FiducialRequests

/-- R133: both requests at a ready port; `r` is the one that gives the state `st`. -/
theorem requestArrive_changeFiducial {q : Taking} {r : Request} {index : Byte} {st : FiducialState} {s : State}
    (hreq : r ≠ .restart) (h : portReady s) (hp : ∀ w, perform r w = changeFiducial st index w) :
    (16 ≤ index.toNat → refuses q (requestCode r) .range s (requestArrive q r s)) ∧
      ∀ i : Fin 16, index.toNat = i.val →
        (s.round.state.isRunning = true → refuses q (requestCode r) .busy s (requestArrive q r s)) ∧
        (s.round.state.isRunning = false → s.round.table[i].state = .unused →
          refuses q (requestCode r) .state s (requestArrive q r s)) ∧
        (s.round.state.isRunning = false → s.round.table[i].state ≠ .unused →
          acceptsWithin q (requestCode r) .ok [d1 st.code] [.round] [.drift] s (requestArrive q r s) ∧
          (requestArrive q r s).round =
            { s.round with table := s.round.table.set i.val { s.round.table[i] with state := st } i.isLt } ∧
          ((requestArrive q r s).events.get .drift).genuine = genuineOf (requestArrive q r s) .drift) := by
  refine ⟨fun hi => ?_, fun i hi => ⟨fun hr => ?_, fun hr hu => ?_, fun hr hu => ?_⟩⟩
  · exact requestArrive_refuses q r s hreq h .range ((hp _).trans (changeFiducial_of_no_entry hi))
  · exact requestArrive_refuses q r s hreq h .busy ((hp _).trans (changeFiducial_of_running hi hr))
  · exact requestArrive_refuses q r s hreq h .state ((hp _).trans (changeFiducial_of_unused hi hr hu))
  · have ht : taken q r s = _ :=
      (hp _).trans (changeFiducial_of_used (s := takingState q (.named q.tag r) s) hi hr hu)
    exact requestArrive_storeFiducial hreq h ht

/-! ### ACK_EVENT and RAISE_TEST (R157, R158) -/

theorem ofNumber_number (src : Source) : Source.ofNumber src.number = some src := by cases src <;> rfl

theorem ofNumber_eq_none {n : Byte} (h : n = 0 ∨ 25 ≤ n.toNat) : Source.ofNumber n.toNat = none := by
  rcases h with rfl | h
  · rfl
  · rw [Source.ofNumber, if_neg (by omega)]
    exact List.getElem?_eq_none (by simp [Source.all]; omega)

/-- R177: the taking of a request evaluates QUEUE_CONGESTED and leaves its test mark. -/
theorem requestArrive_congested {q : Taking} {r : Request} {s : State} (hr : r ≠ .restart) (h : portReady s) :
    ((requestArrive q r s).events.get .queueCongested).testMark = ((taken q r s).state.events.get .queueCongested).testMark := by
  have hget : (requestArrive q r s).events.get .queueCongested =
      (admitRecord (.reply (replyTo (.named q.tag r) (taken q r s))) (taken q r s).state).events.get .queueCongested := by
    rw [requestArrive_ready q r hr s h]
    rfl
  rw [hget, admitRecord, reportLevel_get_self]
  rfl

/-- R157: the cleared test mark of a level source ends its effective condition exactly when the mark alone made it true. -/
theorem SourceState.level_untested (x : SourceState) (t : Word) :
    x.level x.genuine false t =
      { x with
        testMark := false, changeTime := if x.genuine = false ∧ x.testMark = true then t else x.changeTime } := by
  cases hg : x.genuine <;> cases hm : x.testMark <;> simp [SourceState.level, SourceState.effective, hg, hm]

section Tests

variable {n : Byte} {src : Source} {s : State}

theorem ackEvent_of_no_source (h : n = 0 ∨ 25 ≤ n.toNat) : ackEvent n s = refuse s .range := by
  simp [ackEvent, ofNumber_eq_none h]

theorem ackEvent_of_edge (h : n.toNat = src.number) (he : src.isLevel = false) :
    ackEvent n s =
      accept (s.setEvents (s.events.put src (s.events.get src).acknowledged))
        [d1 (s.events.get src).count, d1 (codeBool (s.events.get src).reported)] := by
  simp [ackEvent, h, ofNumber_number, he]

theorem ackEvent_of_level (h : n.toNat = src.number) (hl : src.isLevel = true) :
    ackEvent n s =
      accept (s.setEvents (s.events.put src ((s.events.get src).level (s.events.get src).genuine false s.localTime)))
        [d1 (codeBool (s.events.get src).genuine), d1 (codeBool (s.events.get src).genuine),
          d1 (codeBool (s.events.get src).reported)] := by
  simp [ackEvent, h, ofNumber_number, hl, SourceState.level, SourceState.effective]

theorem raiseTest_of_no_source (h : n = 0 ∨ 25 ≤ n.toNat) : raiseTest n s = refuse s .range := by
  simp [raiseTest, ofNumber_eq_none h]

theorem raiseTest_of_no_service (h : n.toNat = src.number) (hl : src.isLevel = true) (hv : s.service = false) :
    raiseTest n s = refuse s .authority := by
  simp [raiseTest, h, ofNumber_number, hl, hv]

theorem raiseTest_of_edge (h : n.toNat = src.number) (he : src.isLevel = false) :
    raiseTest n s =
      accept (s.setEvents (s.events.put src { (s.events.get src).occurred s.localTime with testMark := true }))
        [⟨1, 1⟩, d1 ((s.events.get src).occurred s.localTime).count, ⟨1, 1⟩] := by
  simp [raiseTest, h, ofNumber_number, he, SourceState.occurred_latch, codeBool, d1]

theorem raiseTest_of_level (h : n.toNat = src.number) (hl : src.isLevel = true) (hv : s.service = true) :
    raiseTest n s =
      accept (s.setEvents (s.events.put src ((s.events.get src).level (s.events.get src).genuine true s.localTime)))
        [d1 (codeBool (s.events.get src).genuine), ⟨1, 1⟩, ⟨1, 1⟩] := by
  simp [raiseTest, h, ofNumber_number, hl, hv, SourceState.level, SourceState.effective, codeBool, d1]

end Tests

/-- R157 and R158: a request that changes the one source `src`, arriving at a ready port. -/
theorem requestArrive_putSource {q : Taking} {r : Request} {s : State} {src : Source} {x : SourceState} {data : List Datum}
    (hr : r ≠ .restart) (h : portReady s)
    (ht : taken q r s =
      accept ((takingState q (.named q.tag r) s).setEvents ((takingState q (.named q.tag r) s).events.put src x)) data) :
    answers q (requestCode r) .ok data s (requestArrive q r s) ∧
      keepsOthers [.station, .service, .events] s (requestArrive q r s) ∧
      keepsSources [src, .queueCongested] s (requestArrive q r s) ∧
      (src ≠ .queueCongested → (requestArrive q r s).events.get src = x) ∧
      ((requestArrive q r s).events.get src).testMark = x.testMark := by
  obtain ⟨⟨hans, hkeep, hsources⟩, -, hsrc⟩ := requestArrive_answered (parts := []) (sources := [src]) hr h ht
    (keeps_mono (keeps_setEvents _ _) (by simp)) (sources_mono (sources_put _ _) (by simp))
  have hput : (taken q r s).state.events.get src = x := by
    rw [ht]
    exact EventUnit.get_put_self _ _ _
  refine ⟨hans, hkeep, sources_mono hsources (by simp), fun hne => ?_, ?_⟩
  · rw [requestArrive_source q r s hr h hne, hput]
  · by_cases hq : src = .queueCongested
    · subst hq
      rw [requestArrive_congested hr h, hput]
    · rw [requestArrive_source q r s hr h hq, hput]

end Sys2Proof.Machine

/-! ### The statements -/

namespace Sys2Proof.Proofs

open Sys2Proof Sys2Proof.Machine

/-- R114: START_MEASURE at a ready port, one mode after the other. -/
theorem startMeasure_arrives (q : Taking) (mode mask : Byte) (p1 p2 p3 : Word) (s : State) (h : portReady s) :
    ∃ t, exec (.startMeasure q mode mask p1 p2 p3) s = .next t ∧
      (mode = 0 ∨ 5 ≤ mode.toNat → refuses q 0x16 .range s t) ∧
      (1 ≤ mode.toNat → mode.toNat ≤ 4 → s.round.state.isRunning = true ∨ s.emitter.mode.isSingle = true →
        refuses q 0x16 .busy s t) ∧
      (s.round.state.isRunning = false → s.emitter.mode.isSingle = false →
        (∀ n tol settle : Int, mode = 1 →
          n = (if mask.getLsbD 0 then max 1 (min 64 p1.toInt) else 16) →
          tol = (if mask.getLsbD 1 then max 5 (min 2000 p2.toInt) else 25) →
          settle = (if mask.getLsbD 2 then max 5 (min 100 p3.toInt) else 20) →
          (∃ res, (res = .ok ∨ res = .okClamped) ∧
            acceptsWithin q 0x16 res [⟨1, 1⟩, ⟨4, n⟩, ⟨4, tol⟩, ⟨4, settle⟩] [.emitter] [] s t ∧
            (res = .ok ↔ (mask.getLsbD 0 = true → n = p1.toInt) ∧ (mask.getLsbD 1 = true → tol = p2.toInt) ∧
              (mask.getLsbD 2 = true → settle = p3.toInt))) ∧
          t.emitter =
            { s.emitter with
              mode := .single
                { n := n.toNat, tol := tol.toNat, settle := settle.toNat, phase := .settling, anchor := none, window := 0
                  settleTotal := 0, timer := 5000 } }) ∧
        (∀ m : Int, mode = 2 → m = (if mask.getLsbD 0 then max 1 (min 1000 p1.toInt) else 10) →
          t.emitter = { s.emitter with mode := .stream m.toNat 0 } ∧
          ∃ res, (res = .ok ∨ res = .okClamped) ∧ acceptsWithin q 0x16 res [⟨1, 2⟩, ⟨4, m⟩] [.emitter] [] s t ∧
            (res = .ok ↔ (mask.getLsbD 0 = true → m = p1.toInt))) ∧
        (∀ g : Int, mode = 3 → g = (if mask.getLsbD 0 then max 100 (min 1000000 p1.toInt) else 5000) →
          t.emitter = { s.emitter with mode := .spaced g.toNat none } ∧
          ∃ res, (res = .ok ∨ res = .okClamped) ∧ acceptsWithin q 0x16 res [⟨1, 3⟩, ⟨4, g⟩] [.emitter] [] s t ∧
            (res = .ok ↔ (mask.getLsbD 0 = true → g = p1.toInt))) ∧
        (mode = 4 → t.emitter = { s.emitter with mode := .triggered none } ∧
          acceptsWithin q 0x16 .ok [⟨1, 4⟩] [.emitter] [] s t)) := by
  have hreq : Request.startMeasure mode mask p1 p2 p3 ≠ .restart := by simp
  refine ⟨_, rfl, fun hm => ?_, fun h1 h4 hb => ?_, fun hr hs => ⟨?_, ?_, ?_, ?_⟩⟩
  · exact requestArrive_refuses q _ s hreq h .range (startMeasure_of_no_mode hm)
  · exact requestArrive_refuses q _ s hreq h .busy (startMeasure_of_busy h1 h4 hb)
  · rintro n tol settle rfl hn htol hsettle
    rw [← slotParam_value (by decide)] at hn htol hsettle
    subst hn htol hsettle
    obtain ⟨hacc, hemitter⟩ := requestArrive_startMeasure_of_mode (mode := 1) (mask := mask) (p1 := p1) (p2 := p2) (p3 := p3) (q := q)
      h rfl hr hs
    refine ⟨acceptsWithin_clamped
      (clamped := (slotParam mask 0 p1 1 64 16).2 || (slotParam mask 1 p2 5 2000 25).2 || (slotParam mask 2 p3 5 100 20).2)
      ?_ ?_, hemitter⟩
    · simp only [Bool.or_eq_false_iff, slotParam_unclamped_iff, and_assoc]
    · have hn := slotParam_toNat (mask := mask) (bit := 0) (v := p1) (lo := 1) (hi := 64) (dflt := 16)
        (by decide) (by decide) (by decide)
      have htol := slotParam_toNat (mask := mask) (bit := 1) (v := p2) (lo := 5) (hi := 2000) (dflt := 25)
        (by decide) (by decide) (by decide)
      have hsettle := slotParam_toNat (mask := mask) (bit := 2) (v := p3) (lo := 5) (hi := 100) (dflt := 20)
        (by decide) (by decide) (by decide)
      simpa only [EmissionMode.data, singleStart, d1, d4, hn, htol, hsettle] using hacc
  · rintro m rfl hm
    rw [← slotParam_value (by decide)] at hm
    subst hm
    obtain ⟨hacc, hemitter⟩ := requestArrive_startMeasure_of_mode (mode := 2) (mask := mask) (p1 := p1) (p2 := p2) (p3 := p3) (q := q)
      h rfl hr hs
    refine ⟨hemitter, acceptsWithin_clamped slotParam_unclamped_iff ?_⟩
    have hm := slotParam_toNat (mask := mask) (bit := 0) (v := p1) (lo := 1) (hi := 1000) (dflt := 10)
      (by decide) (by decide) (by decide)
    simpa only [EmissionMode.data, d1, d4, hm] using hacc
  · rintro g rfl hg
    rw [← slotParam_value (by decide)] at hg
    subst hg
    obtain ⟨hacc, hemitter⟩ := requestArrive_startMeasure_of_mode (mode := 3) (mask := mask) (p1 := p1) (p2 := p2) (p3 := p3) (q := q)
      h rfl hr hs
    refine ⟨hemitter, acceptsWithin_clamped slotParam_unclamped_iff ?_⟩
    have hg := slotParam_toNat (mask := mask) (bit := 0) (v := p1) (lo := 100) (hi := 1000000) (dflt := 5000)
      (by decide) (by decide) (by decide)
    simpa only [EmissionMode.data, d1, d4, hg] using hacc
  · rintro rfl
    obtain ⟨hacc, hemitter⟩ := requestArrive_startMeasure_of_mode (mode := 4) (mask := mask) (p1 := p1) (p2 := p2) (p3 := p3) (q := q)
      h rfl hr hs
    exact ⟨hemitter, hacc⟩

/-- R116: STOP_MEASURE at a ready port; a DUE round is examined once the mode is IDLE. -/
theorem stopMeasure_arrives (q : Taking) (s : State) (h : portReady s) : ∃ t, exec (.stopMeasure q) s = .next t ∧
    answers q 0x17 .ok [⟨1, s.emitter.mode.code⟩] s t ∧ t.emitter = { s.emitter with mode := .idle } ∧
    (s.round.state ≠ .due ∨ s.follower.state = .aiming ∨ s.search.active ≠ none →
      acceptsWithin q 0x17 .ok [⟨1, s.emitter.mode.code⟩] [.emitter] [] s t) ∧
    (s.round.state = .due → s.follower.state ≠ .aiming → s.search.active = none →
      (∀ x, roundCondition s = some x →
        t.round = { s.round with state := .idle, summary := .aborted x.abortReason } ∧
        t.events.get .roundAborted = (s.events.get .roundAborted).occurred s.localTime) ∧
      (roundCondition s = none →
        t.round.state.isRunning = true ∧ t.follower.state = .aiming ∧ t.distance.state = .none)) := by
  obtain ⟨hans, hkeep, hsrc⟩ := requestArrive_taken q .stopMeasure s (by simp) h
  -- The emitter is IDLE in `u`, and the round is examined there.
  let u : State := setMode .idle (takingState q (.named q.tag .stopMeasure) s)
  have hstate : (taken q .stopMeasure s).state = examineDue u := rfl
  rw [hstate] at hkeep hsrc
  have hemitter : (requestArrive q .stopMeasure s).emitter = (examineDue u).emitter := hkeep .emitter (by simp)
  have hround : (requestArrive q .stopMeasure s).round = (examineDue u).round := hkeep .round (by simp)
  have hfollower : (requestArrive q .stopMeasure s).follower = (examineDue u).follower := hkeep .follower (by simp)
  have hdistance : (requestArrive q .stopMeasure s).distance = (examineDue u).distance := hkeep .distance (by simp)
  have hbusy : roundBusy u = true ↔ s.follower.state = .aiming ∨ s.search.active ≠ none := roundBusy_setMode_idle _
  refine ⟨_, rfl, hans, hemitter.trans (by simp [u]), fun hn => ?_, fun hd hf ha => ?_⟩
  · have hwait : examineDue u = u := by
      rcases hn with hn | hn
      · exact examineDue_of_not_due u hn
      · exact examineDue_of_busy u (hbusy.mpr hn)
    exact (requestArrive_changes_part (r := .stopMeasure) (p := .emitter) (by simp) h (by simp) (congrArg (accept · _) hwait)
      (keeps_setMode _ _)).1
  · have hfree : roundBusy u = false := by rw [← Bool.not_eq_true, hbusy]; simp [hf, ha]
    obtain ⟨habandon, hstart⟩ := examineDue_leaves (s := u) hd hfree
    rw [hround, hfollower, hdistance, hsrc.2 .roundAborted (by simp)]
    exact ⟨fun x hx => (habandon x hx).2, hstart⟩

/-- Settles O54: the three requests, one after the other. -/
theorem measureRequests : Obligations.MeasureRequests := by
  refine ⟨startMeasure_arrives, stopMeasure_arrives, fun q s h => ?_⟩
  obtain ⟨hacc, hemitter⟩ := requestArrive_changes_part (q := q) (r := .readLatest) (p := .emitter) (by simp) h (by simp) rfl
    (keeps_setEmitter _ _)
  refine ⟨_, rfl, hemitter, fun p hp => ?_, fun hn => ?_⟩
  · simp only [takingState_emitter, hp] at hacc
    exact hacc
  · simp only [takingState_emitter, hn] at hacc
    exact hacc

/-- Settles O55: the fields of an entry are checked whole, and an accepted request stores the entry and evaluates DRIFT. -/
theorem fiducialRequests : Obligations.FiducialRequests := by
  refine ⟨fun q index f s h => ?_, fun q index enable s h => ?_⟩
  · have hreq : Request.writeFiducial index f ≠ .restart := by simp
    refine ⟨_, rfl, fun hi => ?_, fun i hi => ⟨fun hr => ?_, fun hr hbad => ?_, ?_⟩⟩
    · exact requestArrive_refuses q _ s hreq h .range (writeFiducial_of_no_entry hi)
    · exact requestArrive_refuses q _ s hreq h .busy (writeFiducial_of_running hi hr)
    · refine requestArrive_refuses q _ s hreq h .range (writeFiducial_of_range hi hr (fiducialOf_eq_none ?_))
      simp only [fiducialInRange, not_and_or, Int.not_le, Nat.not_le]
      tauto
    · intro st m d hr hst hm hd hx hx' hy hy' hz hz' haz haz' hel hel' htol htol'
      have hf : fiducialOf f = some (fiducialEntry f st m d) :=
        fiducialOf_of_inRange hst hm hd
          ⟨⟨⟨hx, hx'⟩, ⟨hy, hy'⟩, hz, hz'⟩, ⟨haz, haz'⟩, ⟨hel, hel'⟩, htol, htol'⟩
      have ht : taken q (.writeFiducial index f) s = _ :=
        writeFiducial_of_valid (s := takingState q (.named q.tag (.writeFiducial index f)) s) hi hr hf
      obtain ⟨hacc, hround, hdrift⟩ := requestArrive_storeFiducial hreq h ht
      have hself : (requestArrive q (.writeFiducial index f) s).round.table[i] = fiducialEntry f st m d := by simp [hround]
      refine ⟨by rw [hself]; exact hacc, hself, fun j hj => ?_, by simp [hround], hdrift⟩
      have hne : i.val ≠ j.val := fun e => hj (Fin.ext e.symm)
      simp [hround, hne]
  · cases enable with
    | true => exact ⟨_, rfl, requestArrive_changeFiducial (r := .enableFiducial index) (by simp) h fun _ => rfl⟩
    | false => exact ⟨_, rfl, requestArrive_changeFiducial (r := .disableFiducial index) (by simp) h fun _ => rfl⟩

/-- Settles O57: an acknowledgement and a test change the one source, edge or level. -/
theorem ackAndTest : Obligations.AckAndTest := by
  intro q n s h
  refine ⟨⟨_, rfl, fun hn => ?_, fun src hn => ?_⟩, ⟨_, rfl, fun hn => ?_, fun src hn => ⟨fun hl hv => ?_, fun he => ?_, fun hl hv => ?_⟩⟩⟩
  · exact requestArrive_refuses q (.ackEvent n) s (by simp) h .range (ackEvent_of_no_source hn)
  · have hedge := fun he => requestArrive_putSource (q := q) (r := .ackEvent n) (by simp) h (ackEvent_of_edge hn he)
    have hlevel := fun hl => requestArrive_putSource (q := q) (r := .ackEvent n) (by simp) h (ackEvent_of_level hn hl)
    cases hl : src.isLevel with
    | false =>
      obtain ⟨hans, hkeep, hsrc, hget, -⟩ := hedge hl
      have hne : src ≠ .queueCongested := fun e => by simp [e, Source.isLevel] at hl
      exact ⟨hkeep, hsrc, fun _ => ⟨hans, hget hne⟩, by simp, by simp, by simp⟩
    | true =>
      obtain ⟨hans, hkeep, hsrc, hget, hmark⟩ := hlevel hl
      exact ⟨hkeep, hsrc, by simp, fun _ => hans, fun _ hne => (hget hne).trans (SourceState.level_untested _ _), fun _ => hmark⟩
  · exact requestArrive_refuses q (.raiseTest n) s (by simp) h .range (raiseTest_of_no_source hn)
  · exact requestArrive_refuses q (.raiseTest n) s (by simp) h .authority
      (raiseTest_of_no_service (s := takingState q (.named q.tag (.raiseTest n)) s) hn hl hv)
  · have hne : src ≠ .queueCongested := fun e => by simp [e, Source.isLevel] at he
    obtain ⟨hans, hkeep, hsrc, hget, -⟩ :=
      requestArrive_putSource (q := q) (r := .raiseTest n) (by simp) h (raiseTest_of_edge hn he)
    exact ⟨hkeep, hsrc, hget hne, by rw [hget hne]; exact hans⟩
  · obtain ⟨hans, hkeep, hsrc, hget, hmark⟩ := requestArrive_putSource (q := q) (r := .raiseTest n) (by simp) h
      (raiseTest_of_level (s := takingState q (.named q.tag (.raiseTest n)) s) hn hl hv)
    have htest : ((requestArrive q (.raiseTest n) s).events.get src).testMark = true := hmark
    exact ⟨hkeep, hsrc, htest, by rw [SourceState.effective, htest, Bool.or_true], fun hne => by rw [hget hne]; rfl, hans⟩

end Sys2Proof.Proofs
end

