-- ==== Sys2Proof/Proofs/Starting.lean ====
section
/-! The start of a search (sections 5.4 and 5.5): its first step, by the descriptor's mode and the ring, and START_SEARCH. -/

namespace Sys2Proof.Machine

/-! ### The first step (R99, R101, R103, R104) -/

/-- R99 and R101: the record of a search of descriptor `i` around `centre` that has taken the step `st`. -/
def searchRecord (i : Fin 8) (play : SearchPlay) (centre : Angles) (owner : SearchOwner) (st : Step) : ActiveSearch :=
  { descriptor := i, play := play, centre := centre, target := stepTarget centre st, dwell := st.dwell, owner := owner }

/-- R99: the state in which the search `x` has started. -/
def searchStarted (x : SearchUnit) (s : State) : State := enterSearching (storeSearch x s)

section SearchStarted

variable (x : SearchUnit) (s : State)

theorem keeps_searchStarted : keepsOthers [.search, .follower, .events] s (searchStarted x s) :=
  keeps_then (keeps_mono (keeps_storeSearch x s) (by simp)) (keeps_enterSearching _) (by simp)

theorem sources_searchStarted : keepsSources [.patternLow, .beamAbsent] s (searchStarted x s) :=
  sources_trans (sources_mono (sources_storeSearch s x) (by simp)) (sources_mono (sources_storeFollower _ _) (by simp))

@[simp] theorem searchStarted_search : (searchStarted x s).search = x := by simp [searchStarted]

@[simp] theorem searchStarted_follower :
    (searchStarted x s).follower =
      { s.follower with
        state := .searching, followPending := false, grace := none, aim := none, arrivalRun := 0, acqRun := 0 } := by
  simp [searchStarted]

/-- R83: BEAM_ABSENT is true once a search has started. -/
theorem searchStarted_beamAbsent : ((searchStarted x s).events.get .beamAbsent).genuine = true := by
  rw [searchStarted, enterSearching, storeFollower_beamAbsent]
  rfl

end SearchStarted

section StartSearch

variable {i : Fin 8} {centre : Angles} {owner : SearchOwner} {st : Step} {s : State}

theorem stepAt_of_some {u : SearchUnit} {n : Nat} (h : u.store[n]? = some st) : u.stepAt n = st := by
  rw [SearchUnit.stepAt, h, Option.getD_some]

theorem startSearch_of_block (hm : s.search.descriptors[i].mode = .block)
    (hst : s.search.store[s.search.descriptors[i].start]? = some st) :
    startSearch i centre owner s =
      (searchStarted
        { s.search with
          active := some (searchRecord i (.block s.search.descriptors[i].start s.search.descriptors[i].repeats) centre owner st) }
        s, .started (stepTarget centre st)) := by
  simp only [startSearch, hm, stepAt_of_some hst]
  rfl

theorem startSearch_of_ring (hm : s.search.descriptors[i].mode = .stream) (hf : 0 < s.search.ringFill)
    (hst : s.search.store[384 + s.search.ringRead]? = some st) :
    startSearch i centre owner s =
      (searchStarted { s.search.ringTaken with active := some (searchRecord i .stream centre owner st) } s,
        .started (stepTarget centre st)) := by
  simp only [startSearch, hm, if_neg (Nat.pos_iff_ne_zero.mp hf), SearchUnit.ringHead, stepAt_of_some hst]
  rfl

/-- R104: a STREAM search that finds the ring empty ends STARVED at once, its record removed. -/
theorem startSearch_of_empty (hm : s.search.descriptors[i].mode = .stream) (hf : s.search.ringFill = 0) :
    ∃ a, startSearch i centre owner s =
      (endSearch .searchStarved (searchStarted { s.search with active := some a } s), .starved) := by
  simp only [startSearch, hm, if_pos hf]
  exact ⟨_, rfl⟩

/-! ### The end of a search (R79, R103, R104) -/

theorem endSearch_follower (src : Source) (s : State) :
    (endSearch src s).follower =
      { s.follower with state := .lost, grace := none, aim := none, arrivalRun := 0, acqRun := 0 } := by
  simp [endSearch]

@[simp] theorem endSearch_search (src : Source) (s : State) :
    (endSearch src s).search = { s.search with active := none } := by simp [endSearch]

/-- R83: BEAM_ABSENT is true once a search has ended. -/
theorem endSearch_beamAbsent (src : Source) (s : State) : ((endSearch src s).events.get .beamAbsent).genuine = true := by
  rw [endSearch, enterLost, storeFollower_beamAbsent]
  rfl

/-- The event of the end is latched once. -/
theorem endSearch_event {src : Source} (h : src ≠ .beamAbsent) (h' : src ≠ .patternLow) (s : State) :
    (endSearch src s).events.get src = (s.events.get src).occurred s.localTime := by
  rw [endSearch, enterLost, (sources_storeFollower _ _).2 src (by simpa using h), occur_get_self, removeSearch,
    reportLevel_get_other _ h']
  rfl

theorem sources_endSearch_parts (src : Source) (s : State) : keepsSources [src, .patternLow, .beamAbsent] s (endSearch src s) :=
  sources_trans
    (sources_then_occur (sources_mono (sources_storeSearch s { s.search with active := none }) (by simp)) (by simp))
    (sources_mono (sources_storeFollower _ _) (by simp))

end StartSearch

/-- R104: what a STREAM search leaves that finds the ring empty. -/
theorem startSearch_empty_leaves {i : Fin 8} {centre : Angles} {owner : SearchOwner} {s : State}
    (hm : s.search.descriptors[i].mode = .stream) (hf : s.search.ringFill = 0) :
    ∃ w, startSearch i centre owner s = (w, .starved) ∧
      w.follower =
        { s.follower with
          state := .lost, followPending := false, grace := none, aim := none, arrivalRun := 0, acqRun := 0 } ∧
      w.search = { s.search with active := none } ∧
      w.events.get .searchStarved = (s.events.get .searchStarved).occurred s.localTime ∧
      (w.events.get .beamAbsent).genuine = true ∧ keepsOthers [.search, .follower, .events] s w ∧
      keepsSources [.patternLow, .beamAbsent, .searchStarved] s w := by
  obtain ⟨a, ha⟩ := startSearch_of_empty (centre := centre) (owner := owner) hm hf
  refine ⟨_, ha, ?_, by simp, ?_, endSearch_beamAbsent _ _, ?_, ?_⟩
  · rw [endSearch_follower]
    simp
  · rw [endSearch_event (by simp) (by simp), (sources_searchStarted _ _).2 .searchStarved (by simp),
      (keeps_searchStarted _ _ .localTime (by simp) : (searchStarted _ s).localTime = s.localTime)]
  · exact keeps_then (keeps_searchStarted _ _) (keeps_endSearch _ _) (by simp)
  · exact sources_trans (sources_mono (sources_searchStarted _ _) (by simp)) (sources_mono (sources_endSearch_parts _ _) (by simp))

/-! ### START_SEARCH (R100) -/

section StationSearch

variable {index : Byte} {i : Fin 8} {s : State}

theorem stationSearch_of_no_entry (h : 8 ≤ index.toNat) : stationSearch index s = refuse s .range := by
  simp [stationSearch, index8_eq_none h]

theorem stationSearch_of_running (h : index.toNat = i.val) (hr : s.round.state.isRunning = true) :
    stationSearch index s = refuse s .busy := by simp [stationSearch, index8_eq_some h, hr]

theorem maySearch_iff (f : FollowerState) : f.maySearch = true ↔ f = .parked ∨ f = .lost := by
  cases f <;> simp [FollowerState.maySearch]

theorem stationSearch_of_state (h : index.toNat = i.val) (hr : s.round.state.isRunning = false)
    (hbad : s.head.driveState = .disabled ∨ (s.follower.state ≠ .parked ∧ s.follower.state ≠ .lost) ∨
      s.search.descriptors[i].ready = false) : stationSearch index s = refuse s .state := by
  simp only [stationSearch, index8_eq_some h, hr, Bool.false_eq_true, if_false]
  by_cases hd : s.head.driveState = .disabled
  · rw [if_pos hd]
  · rw [if_neg hd]
    by_cases hs : s.follower.state.maySearch = false
    · rw [if_pos hs]
    · rw [if_neg hs]
      have hmay := (maySearch_iff s.follower.state).mp (by simpa using hs)
      exact if_pos ((hbad.resolve_left hd).resolve_left fun ⟨h1, h2⟩ => hmay.elim h1 h2)

/-- R100: a search that passes every check starts without the follow-pending mark. -/
theorem stationSearch_of_ready (h : index.toNat = i.val) (hr : s.round.state.isRunning = false)
    (hd : s.head.driveState = .enabled) (hf : s.follower.state = .parked ∨ s.follower.state = .lost)
    (hready : s.search.descriptors[i].ready = true) {u : State} {x : State × SearchStart}
    (hu : u = s.setFollower { s.follower with followPending := false })
    (hx : startSearch i (searchCentre s.follower) .follower u = x) :
    stationSearch index s =
      accept (writeStart x)
        [⟨1, i.val⟩, ⟨4, (searchCentre s.follower).az⟩, ⟨4, (searchCentre s.follower).el⟩,
          ⟨1, codeBool x.1.search.active.isSome⟩] := by
  subst hu hx
  simp only [stationSearch, index8_eq_some h, hr, hd, (maySearch_iff _).mpr hf, hready, Bool.false_eq_true,
    Bool.true_eq_false, reduceCtorEq, if_false]
  rfl

end StationSearch

/-- R99 and R101: a START_SEARCH that starts with the step `st`, arriving at a ready port. -/
theorem requestArrive_startSearch_of_started {q : Taking} {index : Byte} {i : Fin 8} {s : State} {x : SearchUnit} {g : Angles}
    (h : portReady s) (hi : index.toNat = i.val) (hr : s.round.state.isRunning = false) (hd : s.head.driveState = .enabled)
    (hf : s.follower.state = .parked ∨ s.follower.state = .lost) (hready : s.search.descriptors[i].ready = true)
    {u : State}
    (hu : u = (takingState q (.named q.tag (.startSearch index)) s).setFollower { s.follower with followPending := false })
    (hstart : startSearch i (searchCentre s.follower) .follower u = (searchStarted x u, .started g))
    (hx : x.active.isSome = true)
    {t : State} (ht : t = requestArrive q (.startSearch index) s) :
    acceptsWithin q 0x15 .ok
        [⟨1, i.val⟩, ⟨4, (searchCentre s.follower).az⟩, ⟨4, (searchCentre s.follower).el⟩, ⟨1, 1⟩]
        [.search, .follower, .head] [.patternLow, .beamAbsent] s t ∧
      t.follower =
        { s.follower with
          state := .searching, followPending := false, grace := none, aim := none, arrivalRun := 0, acqRun := 0 } ∧
      t.search = x ∧ (t.events.get .beamAbsent).genuine = true ∧ steerWritten (.position g.az g.el) s t := by
  subst ht hu
  -- The search starts in `u`, which has lost the follow-pending mark; `w` has written the first frame.
  let v : State := takingState q (.named q.tag (.startSearch index)) s
  let u : State := v.setFollower { s.follower with followPending := false }
  let w : State := writeSteer (.position g.az g.el) (searchStarted x u)
  have htaken : taken q (.startSearch index) s = ⟨w, .ok, _⟩ :=
    stationSearch_of_ready (s := v) hi hr hd hf hready (u := u) rfl hstart
  have hkeep : keepsOthers [.search, .follower, .events, .head] v w :=
    keeps_then
      (keeps_trans (keeps_mono (keeps_setFollower v _) (by simp)) (keeps_mono (keeps_searchStarted x u) (by simp)))
      (keeps_writeSteer _ _) (by simp)
  have hsources : keepsSources [.patternLow, .beamAbsent] v w :=
    sources_then (sources_trans (sources_of_events rfl) (sources_searchStarted x u)) (sources_writeSteer _ _) (by simp)
  obtain ⟨hacc, hpart, hsrc⟩ := requestArrive_answered (parts := [.search, .follower, .head])
    (sources := [.patternLow, .beamAbsent]) (by simp) h htaken (keeps_mono hkeep (by simp)) (sources_mono hsources (by simp))
  have hfollower : (requestArrive q (.startSearch index) s).follower = w.follower := hpart .follower (by simp)
  have hsearch : (requestArrive q (.startSearch index) s).search = w.search := hpart .search (by simp)
  have hhead : (requestArrive q (.startSearch index) s).head = w.head := hpart .head (by simp)
  refine ⟨?_, ?_, ?_, ?_, ?_⟩
  · simp only [searchStarted_search, hx, codeBool, if_true] at hacc
    exact hacc
  · rw [hfollower]
    simp [w, u]
  · rw [hsearch]
    simp [w]
  · rw [hsrc .beamAbsent (by simp), (sources_writeSteer _ _).2 .beamAbsent (by simp)]
    exact searchStarted_beamAbsent x u
  · have hsteer := steerWritten_writeSteer (searchStarted x u) (.position g.az g.el)
    have hx : (searchStarted x u).head = s.head := keeps_searchStarted x u .head (by simp)
    rw [steerWritten, hx] at hsteer
    rw [steerWritten, hhead]
    exact hsteer

/-! ### The examination of a DUE round after a search (R140) -/

theorem enabledSlots_of_condition {s : State} (h : roundCondition s = none) :
    ∃ first more, s.round.enabledSlots = first :: more := by
  cases he : s.round.enabledSlots with
  | cons first more => exact ⟨first, more, rfl⟩
  | nil =>
    simp [roundCondition, he] at h
    (split at h <;> (try cases h)); (split at h <;> cases h)

/-- R141: a start leaves no search. -/
theorem startRoundNow_search {s : State} (h : roundCondition s = none) :
    (startRoundNow s).search = { s.search with active := none } := by
  obtain ⟨first, more, he⟩ := enabledSlots_of_condition h
  have hstarted : (startedRound (.ofSlots first more) s).search = s.search := keeps_startedRound _ s .search (by simp)
  rw [startRoundNow_of_slots he]
  simp [beginSlot, hstarted]

/-- R140: an examination with no search active leaves the search unit and the head port. -/
theorem examineDue_of_no_search {s : State} (h : s.search.active = none) :
    (examineDue s).search = s.search ∧ (examineDue s).head = s.head := by
  by_cases hd : s.round.state = .due
  · cases hb : roundBusy s with
    | true => rw [examineDue_of_busy s hb]; exact ⟨rfl, rfl⟩
    | false =>
      cases hc : roundCondition s with
      | some x => rw [(examineDue_of_free hd hb).1 x hc]; simp
      | none =>
        obtain ⟨first, more, he⟩ := enabledSlots_of_condition hc
        rw [(examineDue_of_free hd hb).2 hc, startRoundNow_search hc]
        exact ⟨by rw [← h], keeps_startRoundNow_head he .head (by simp)⟩
  · rw [examineDue_of_not_due s hd]
    exact ⟨rfl, rfl⟩

theorem sources_examineDue (s : State) :
    keepsSources [.roundDue, .roundAborted, .patternLow, .beamAbsent] s (examineDue s) := by
  by_cases hd : s.round.state = .due
  · cases hb : roundBusy s with
    | true => rw [examineDue_of_busy s hb]; exact sources_refl _ s
    | false =>
      cases hc : roundCondition s with
      | some x => rw [(examineDue_of_free hd hb).1 x hc]; exact sources_mono (sources_abandonRound s _) (by simp)
      | none =>
        obtain ⟨-, -, -, -, -, hsrc⟩ := startRoundNow_leaves hc
        rw [(examineDue_of_free hd hb).2 hc]
        exact sources_mono hsrc (by simp)
  · rw [examineDue_of_not_due s hd]
    exact sources_refl _ s

/-- R169: a STEER frame leaves the head facts. -/
theorem writeSteer_facts (f : Steer) (s : State) :
    (writeSteer f s).head.hasAdm = s.head.hasAdm ∧ (writeSteer f s).head.driveState = s.head.driveState := by
  rw [writeSteer_head]
  split <;> exact ⟨rfl, rfl⟩

/-- R104: what a START_SEARCH leaves that finds the ring empty, before a DUE round is examined: `y` has written HOLD. -/
theorem stationSearch_of_empty {index : Byte} {i : Fin 8} {s : State} (hi : index.toNat = i.val)
    (hr : s.round.state.isRunning = false) (hd : s.head.driveState = .enabled)
    (hf : s.follower.state = .parked ∨ s.follower.state = .lost) (hready : s.search.descriptors[i].ready = true)
    (hm : s.search.descriptors[i].mode = .stream) (he : s.search.ringFill = 0) :
    ∃ y, stationSearch index s =
        accept (examineDue y)
          [⟨1, i.val⟩, ⟨4, (searchCentre s.follower).az⟩, ⟨4, (searchCentre s.follower).el⟩, ⟨1, 0⟩] ∧
      y.follower =
        { s.follower with
          state := .lost, followPending := false, grace := none, aim := none, arrivalRun := 0, acqRun := 0 } ∧
      y.search = { s.search with active := none } ∧
      y.events.get .searchStarved = (s.events.get .searchStarved).occurred s.localTime ∧ steerWritten .hold s y ∧
      (y.head.hasAdm = s.head.hasAdm ∧ y.head.driveState = s.head.driveState) ∧
      keepsOthers [.search, .follower, .events, .head] s y ∧ keepsSources [.patternLow, .beamAbsent, .searchStarved] s y := by
  let u : State := s.setFollower { s.follower with followPending := false }
  obtain ⟨w, hw, hfollower, hsearch, hstarved, -, hkeep, hsources⟩ :=
    startSearch_empty_leaves (i := i) (centre := searchCentre s.follower) (owner := .follower) (s := u) hm he
  have hhead : w.head = s.head := hkeep .head (by simp)
  refine ⟨writeSteer .hold w, ?_, by simp [hfollower, u], by simp [hsearch, u], ?_, ?_,
    hhead ▸ writeSteer_facts .hold w, ?_, ?_⟩
  · rw [stationSearch_of_ready hi hr hd hf hready (u := u) rfl hw]
    simp [hsearch, codeBool, writeStart]
  · rw [(sources_writeSteer _ _).2 .searchStarved (by simp), hstarved]
    rfl
  · have hsteer := steerWritten_writeSteer w .hold
    rw [steerWritten, hhead] at hsteer
    exact hsteer
  · exact keeps_then (keeps_trans (keeps_mono (keeps_setFollower s _) (by simp)) (keeps_mono hkeep (by simp)))
      (keeps_writeSteer _ _) (by simp)
  · exact sources_then (sources_trans (sources_of_events rfl) hsources) (sources_writeSteer _ _) (by simp)

/-- Whether a start is possible depends on the poses, the head facts and the round's table only. -/
theorem roundCondition_congr {s t : State} (hp : t.poses = s.poses) (ha : t.head.hasAdm = s.head.hasAdm)
    (hd : t.head.driveState = s.head.driveState) (hr : t.round = s.round) : roundCondition t = roundCondition s := by
  simp [roundCondition, hp, ha, hd, hr]

end Sys2Proof.Machine

/-! ### The statement -/

namespace Sys2Proof.Proofs

open Sys2Proof Sys2Proof.Machine

/-- Settles O53: the refusals by R100's checks in their order, and a start by the descriptor's mode and the ring. -/
theorem startSearchRequest : Obligations.StartSearchRequest := by
  intro q index s h
  have hreq : Request.startSearch index ≠ .restart := by simp
  refine ⟨_, rfl, fun hi => ?_, fun i hi => ⟨fun hr => ?_, fun hr hbad => ?_, fun centre st hr hd hf hready hm hc hst => ?_,
    fun centre hr hd hf hready hm hc he => ?_, fun centre hr hd hf hready hm hc he => ?_,
    fun centre st hr hd hf hready hm hc hfill hst => ?_⟩⟩
  · exact requestArrive_refuses q _ s hreq h .range (stationSearch_of_no_entry hi)
  · exact requestArrive_refuses q _ s hreq h .busy (stationSearch_of_running hi hr)
  · exact requestArrive_refuses q _ s hreq h .state (stationSearch_of_state hi hr hbad)
  · subst hc
    obtain ⟨hacc, hfollower, hsearch, hbeam, hsteer⟩ := requestArrive_startSearch_of_started (q := q) (s := s) h hi hr hd hf hready
      rfl (startSearch_of_block hm hst) rfl rfl
    exact ⟨hacc, hfollower, congrArg SearchUnit.active hsearch, hbeam, hsteer⟩
  · subst hc
    have hrun : s.round.state.isRunning = false := by rw [hr]; rfl
    obtain ⟨y, hy, hfollower, hsearch, hstarved, hsteer, -, hkept, hsources⟩ :=
      stationSearch_of_empty (s := takingState q (.named q.tag (.startSearch index)) s) hi hrun
        hd hf hready hm he
    have hround : y.round = s.round := hkept .round (by simp)
    have hidle : examineDue y = y := examineDue_of_not_due y (by rw [hround, hr]; simp)
    have ht : taken q (.startSearch index) s = ⟨y, .ok, _⟩ := hy.trans (by rw [hidle]; rfl)
    obtain ⟨hacc, hpart, hsrc⟩ := requestArrive_answered (parts := [.search, .follower, .head])
      (sources := [.patternLow, .beamAbsent, .searchStarved]) hreq h ht (keeps_mono hkept (by simp))
      (sources_mono hsources (by simp))
    have hhead : (requestArrive q (.startSearch index) s).head = y.head := hpart .head (by simp)
    refine ⟨hacc, (hpart .follower (by simp)).trans hfollower, (hpart .search (by simp)).trans hsearch,
      (hsrc .searchStarved (by simp)).trans hstarved, ?_⟩
    rw [steerWritten, hhead]
    exact hsteer
  · subst hc
    have hrun : s.round.state.isRunning = false := by rw [hr]; rfl
    obtain ⟨y, hy, hfollower, hsearch, hstarved, hsteer, hfacts, hkept, hsources⟩ :=
      stationSearch_of_empty (s := takingState q (.named q.tag (.startSearch index)) s) hi hrun
        hd hf hready hm he
    have ht : taken q (.startSearch index) s = _ := hy
    obtain ⟨hans, hkeep, hsrc⟩ := requestArrive_taken q (.startSearch index) s hreq h
    rw [ht] at hans hkeep hsrc
    have hsrcT : ∀ src, src ≠ .queueCongested →
        (requestArrive q (.startSearch index) s).events.get src = (examineDue y).events.get src := fun src hne =>
      hsrc.2 src (by simpa using hne)
    have hround : (requestArrive q (.startSearch index) s).round = (examineDue y).round := hkeep .round (by simp)
    have hfollowerT : (requestArrive q (.startSearch index) s).follower = (examineDue y).follower := hkeep .follower (by simp)
    have hdistance : (requestArrive q (.startSearch index) s).distance = (examineDue y).distance := hkeep .distance (by simp)
    have hheadT : (requestArrive q (.startSearch index) s).head = (examineDue y).head := hkeep .head (by simp)
    have hnone : y.search.active = none := by rw [hsearch]
    obtain ⟨hsearchT, hheadY⟩ := examineDue_of_no_search hnone
    have hroundY : y.round = s.round := hkept .round (by simp)
    have hemitterY : y.emitter = s.emitter := hkept .emitter (by simp)
    have hlost : y.follower.state = .lost := by rw [hfollower]
    have hcond : roundCondition y = roundCondition s :=
      roundCondition_congr (hkept .poses (by simp)) hfacts.1 hfacts.2 hroundY
    have hfree : s.emitter.mode = .idle → roundBusy y = false := fun hidle =>
      (roundBusy_eq_false_iff y).mpr ⟨by rw [hemitterY, hidle], hnone, by simp [hlost]⟩
    refine ⟨hans, ?_, ?_, ?_, fun hmode => ?_, fun x hmode hx => ?_, fun hmode hx => ?_⟩
    · exact (hkeep .search (by simp)).trans (hsearchT.trans hsearch)
    · rw [hsrcT .searchStarved (by simp), (sources_examineDue y).2 .searchStarved (by simp)]
      exact hstarved
    · rw [steerWritten, hheadT, hheadY]
      exact hsteer
    · have hwait : examineDue y = y := examineDue_of_busy y ((roundBusy_iff y).mpr (.inl (by rw [hemitterY]; exact hmode)))
      rw [hfollowerT, hround, hwait]
      exact ⟨hlost, hroundY⟩
    · obtain ⟨habandon, hroundX, hevent⟩ := (examineDue_leaves (by rw [hroundY, hr]) (hfree hmode)).1 x (hcond.trans hx)
      have hevents : y.events.get .roundAborted = s.events.get .roundAborted := hsources.2 .roundAborted (by simp)
      have htime : y.localTime = s.localTime := hkept .localTime (by simp)
      rw [hfollowerT, hround, hroundX, hsrcT .roundAborted (by simp), hevent, habandon, hroundY, hevents, htime]
      exact ⟨by simpa using hlost, rfl, rfl⟩
    · rw [hfollowerT, hround, hdistance]
      exact (examineDue_leaves (by rw [hroundY, hr]) (hfree hmode)).2 (hcond.trans hx)
  · subst hc
    obtain ⟨hacc, hfollower, hsearch, -, hsteer⟩ := requestArrive_startSearch_of_started (q := q) (s := s) h hi hr hd hf hready
      rfl (startSearch_of_ring hm hfill hst) rfl rfl
    exact ⟨hacc, congrArg Follower.state hfollower, hsearch, hsteer⟩

end Sys2Proof.Proofs
end

