-- ==== Sys2Proof/Proofs/Ticking.lean ====
section
/-! The tick (sections 1.5, 3.4, 4.5, 6.4, 7.2, 7.3, 9.2): a tick that ends no timer only counts, and one that ends one timer is
the handling of that timer after the counting. -/

namespace Sys2Proof.Machine

/-! ### Timers that run -/

/-- No timer but the silence timer stands at 0. -/
structure TimersRun (s : State) : Prop where
  wait : ∀ k o m, s.distance.state.wait = some (k, o, m) → m ≠ 0
  aim : ∀ a, s.follower.aim = some a → a.timer ≠ 0
  measure : ∀ m, s.emitter.mode = .single m → m.timer ≠ 0
  slot : ∀ r, s.round.state = .running r → r.slotTimer ≠ 0
  period : s.round.period ≠ 0 → s.round.periodTimer ≠ 0

/-- R140: the examination of a DUE round leaves every timer running, those that it starts included. -/
theorem examineDue_timersRun {s : State} (h : TimersRun s) : TimersRun (examineDue s) := by
  by_cases hd : s.round.state = .due
  · cases hb : roundBusy s with
    | true => rw [examineDue_of_busy s hb]; exact h
    | false =>
      cases hc : roundCondition s with
      | some x =>
        rw [(examineDue_of_free hd hb).1 x hc]
        exact ⟨by simpa using h.wait, by simpa using h.aim, by simpa using h.measure, by simp, by simpa using h.period⟩
      | none =>
        obtain ⟨first, more, he⟩ := enabledSlots_of_condition hc
        obtain ⟨-, -, hdistance, -⟩ := startRoundNow_leaves hc
        rw [(examineDue_of_free hd hb).2 hc]
        refine ⟨?_, ?_, by simpa using h.measure, ?_, ?_⟩
        · simp [hdistance, DistanceState.wait]
        · simp [startRoundNow_aim he]
        · simp [startRoundNow_round he, RoundUnit.started]
        · simp [startRoundNow_round he, RoundUnit.started]
  · rw [examineDue_of_not_due s hd]
    exact h

/-- Where every timer runs, the rest of a tick does nothing. -/
theorem expireOthers_of_run {s : State} (h : TimersRun s) :
    expireRoundPeriod (expireSlot (expireMeasure (expireAim (expireWait s)))) = s := by
  rw [expireWait_of_quiet h.wait, expireAim_of_quiet h.aim, expireMeasure_of_quiet h.measure, expireSlot_of_quiet h.slot,
    expireRoundPeriod_of_quiet h.period]

/-! ### A tick that ends no timer, or one -/

theorem countTick_timersRun {s : State} (h : ∀ e, e ≠ .silence → expiryDue s e = false) : TimersRun (countTick s) :=
  ⟨countTick_wait (h _ (by simp)), countTick_aim (h _ (by simp)), countTick_measure (h _ (by simp)), countTick_slot (h _ (by simp)),
    countTick_period (h _ (by simp))⟩

theorem baseTick_counts {s : State} (h : ∀ e, expiryDue s e = false) : baseTick s = countTick s := by
  rw [baseTick_of_quiet s h, tickIn_of_not_silent (h .silence), expireOthers_of_run (countTick_timersRun fun e _ => h e)]

section OneTimer

variable {s : State}

theorem namedTick_silence (h : onlyDue .silence s) (hrun : TimersRun (assertSilence (countTick s))) :
    namedTick .silence s = assertSilence (countTick s) := by
  rw [namedTick_of_only s _ h.1 h.2, tickIn_of_silent h.1, expireOthers_of_run hrun]

theorem namedTick_establish (h : onlyDue .establish s) (hrun : TimersRun (expireWait (countTick s))) :
    namedTick .establish s = expireWait (countTick s) := by
  rw [namedTick_of_only s _ h.1 h.2, tickIn_of_not_silent (h.2 _ (by simp)), expireAim_of_quiet hrun.aim,
    expireMeasure_of_quiet hrun.measure, expireSlot_of_quiet hrun.slot, expireRoundPeriod_of_quiet hrun.period]

theorem namedTick_aim (h : onlyDue .aim s) (hrun : TimersRun (expireAim (countTick s))) :
    namedTick .aim s = expireAim (countTick s) := by
  rw [namedTick_of_only s _ h.1 h.2, tickIn_of_not_silent (h.2 _ (by simp)),
    expireWait_of_quiet (countTick_wait (h.2 _ (by simp))), expireMeasure_of_quiet hrun.measure,
    expireSlot_of_quiet hrun.slot, expireRoundPeriod_of_quiet hrun.period]

theorem namedTick_measure (h : onlyDue .measure s) (hrun : TimersRun (expireMeasure (countTick s))) :
    namedTick .measure s = expireMeasure (countTick s) := by
  rw [namedTick_of_only s _ h.1 h.2, tickIn_of_not_silent (h.2 _ (by simp)),
    expireWait_of_quiet (countTick_wait (h.2 _ (by simp))), expireAim_of_quiet (countTick_aim (h.2 _ (by simp))),
    expireSlot_of_quiet hrun.slot, expireRoundPeriod_of_quiet hrun.period]

theorem namedTick_slot (h : onlyDue .slot s) (hrun : TimersRun (expireSlot (countTick s))) :
    namedTick .slot s = expireSlot (countTick s) := by
  rw [namedTick_of_only s _ h.1 h.2, tickIn_of_not_silent (h.2 _ (by simp)),
    expireWait_of_quiet (countTick_wait (h.2 _ (by simp))), expireAim_of_quiet (countTick_aim (h.2 _ (by simp))),
    expireMeasure_of_quiet (countTick_measure (h.2 _ (by simp))), expireRoundPeriod_of_quiet hrun.period]

theorem namedTick_period (h : onlyDue .period s) : namedTick .period s = expireRoundPeriod (countTick s) := by
  rw [namedTick_of_only s _ h.1 h.2, tickIn_of_not_silent (h.2 _ (by simp)),
    expireWait_of_quiet (countTick_wait (h.2 _ (by simp))), expireAim_of_quiet (countTick_aim (h.2 _ (by simp))),
    expireMeasure_of_quiet (countTick_measure (h.2 _ (by simp))), expireSlot_of_quiet (countTick_slot (h.2 _ (by simp)))]

end OneTimer

/-! ### What the counting leaves (R21, R51, R74, R121, R137, R142) -/

section Counting

variable (s : State)

/-- R21: the age of N counts to its cap. -/
theorem countTick_correction :
    (countTick s).correction = { s.correction with age := min 4294967295 (s.correction.age + 1) } := by
  rw [← countUp_eq_min]
  rfl

/-- R21: REFRACTION_STALE is true exactly past 600,000 ms. -/
theorem countTick_stale :
    ((countTick s).events.get .refractionStale).genuine = decide (600000 < (countTick s).correction.age) := by
  rw [countTick, reportLevel_get_self]
  rfl

theorem keeps_countTick :
    keepsOthers [.localTime, .correction, .head, .distance, .follower, .emitter, .round, .events] s (countTick s) := by
  intro p hp
  cases p <;> simp_all [samePart, countTick]

theorem countTick_aim_eq (h : s.follower.aim = none) : (countTick s).follower = s.follower := by
  have hmap : s.follower.aim.map (fun a => { a with timer := a.timer - 1 }) = s.follower.aim := by rw [h]; rfl
  rw [(countTick_fields s).2.2.1, hmap]

theorem EmissionMode.tick_of_not_single {m : EmissionMode} (h : m.isSingle = false) : m.tick = m := by
  cases m with
  | single x => simp [EmissionMode.isSingle] at h
  | idle | stream _ _ | spaced _ _ | triggered _ => rfl

theorem EmissionMode.tick_isSingle (m : EmissionMode) : m.tick.isSingle = m.isSingle := by cases m <;> rfl

theorem RoundState.tick_of_not_running {r : RoundState} (h : r.isRunning = false) : r.tick = r := by
  cases r with
  | running x => simp [RoundState.isRunning] at h
  | idle | due => rfl

theorem DistanceState.tick_of_no_wait {d : DistanceState} (h : d.wait = Option.none) : d.tick = d := by
  cases d with
  | awaitAdm o m => simp [DistanceState.wait] at h
  | awaitHome o c m => simp [DistanceState.wait] at h
  | established a b c => rfl
  | none => rfl

theorem DistanceState.tick_wait (d : DistanceState) :
    d.tick.wait = d.wait.map fun w => (w.1, w.2.1, w.2.2 - 1) := by cases d <;> rfl

theorem countTick_emitter_of_not_single (h : s.emitter.mode.isSingle = false) : (countTick s).emitter = s.emitter := by
  rw [(countTick_fields s).2.2.2.1, EmissionMode.tick_of_not_single h]

theorem countTick_distance_of_no_wait (h : s.distance.state.wait = none) : (countTick s).distance = s.distance := by
  rw [(countTick_fields s).2.1, DistanceState.tick_of_no_wait h]

/-- Whether a start is possible does not depend on a timer. -/
theorem roundCondition_countTick : roundCondition (countTick s) = roundCondition s := rfl

end Counting

theorem roundBusy_countTick (s : State) : roundBusy (countTick s) = roundBusy s := by
  obtain ⟨-, -, hfollower, hemitter, -, hsearch, -⟩ := countTick_fields s
  simp [roundBusy, hfollower, hemitter, hsearch, EmissionMode.tick_idle]

/-! ### The round period (R137, R139, R140) -/

section Period

variable {s : State}

theorem expirePeriod_of_waiting (h : s.round.state ≠ .idle) : expirePeriod s = s.setRound (loadPeriod s.round) := by
  cases hr : s.round.state with
  | idle => exact absurd hr h
  | running r => simp [expirePeriod, loadPeriod, hr]
  | due => simp [expirePeriod, loadPeriod, hr]

theorem expirePeriod_of_idle (h : s.round.state = .idle) :
    expirePeriod s =
      if roundBusy s then storeRoundState .due (s.setRound (loadPeriod s.round))
      else tryRound (s.setRound (loadPeriod s.round)) := by
  have hbusy : roundBusy (s.setRound (loadPeriod s.round)) = roundBusy s := rfl
  have hstate : (s.setRound (loadPeriod s.round)).round.state = .idle := h
  simp only [expirePeriod, hstate, hbusy]

/-- R139: the timer is loaded whatever becomes of the round. -/
theorem expirePeriod_timer : (expirePeriod s).round.periodTimer = s.round.period * 60000 := by
  by_cases h : s.round.state = .idle
  · rw [expirePeriod_of_idle h]
    split
    · simp [storeRoundState, loadPeriod]
    · cases hc : roundCondition (s.setRound (loadPeriod s.round)) with
      | some x =>
        simp only [tryRound, hc, abandonRound_round]
        rfl
      | none =>
        obtain ⟨-, -, -, -, htimer, -⟩ := startRoundNow_leaves hc
        simp only [tryRound, hc]
        exact htimer
  · rw [expirePeriod_of_waiting h]
    rfl

/-- R139: an expiry in IDLE while a busy condition holds makes the round DUE. -/
theorem expirePeriod_of_busy (h : s.round.state = .idle) (hb : roundBusy s = true) :
    (expirePeriod s).round.state = .due ∧ ((expirePeriod s).events.get .roundDue).genuine = true := by
  rw [expirePeriod_of_idle h, if_pos hb, storeRoundState, reportLevel_get_self]
  exact ⟨by simp, rfl⟩

/-- R139: an expiry in IDLE with no busy condition abandons the round, or starts it. -/
theorem expirePeriod_of_free (h : s.round.state = .idle) (hb : roundBusy s = false) :
    (∀ x, roundCondition s = some x →
      (expirePeriod s).round.state = .idle ∧ (expirePeriod s).round.summary = .aborted x.abortReason ∧
      (expirePeriod s).events.get .roundAborted = (s.events.get .roundAborted).occurred s.localTime) ∧
    (roundCondition s = none →
      (expirePeriod s).round.state.isRunning = true ∧ (expirePeriod s).follower.state = .aiming ∧
      (expirePeriod s).distance.state = .none) := by
  have hcond : roundCondition (s.setRound (loadPeriod s.round)) = roundCondition s := rfl
  have htry : expirePeriod s = tryRound (s.setRound (loadPeriod s.round)) := by
    rw [expirePeriod_of_idle h, if_neg (by simp [hb])]
  refine ⟨fun x hx => ?_, fun hn => ?_⟩
  · rw [htry, tryRound, hcond, hx]
    dsimp only
    rw [abandonRound_round, abandonRound_event]
    exact ⟨rfl, rfl, rfl⟩
  · obtain ⟨hrunning, haiming, hdistance, -⟩ := startRoundNow_leaves (hcond.trans hn)
    rw [htry, tryRound, hcond, hn]
    exact ⟨hrunning, haiming, by rw [hdistance]; exact (releaseDistance_state _).1⟩

theorem expireRoundPeriod_of_due (h : expiryDue s .period = true) : expireRoundPeriod (countTick s) = expirePeriod (countTick s) := by
  simp only [expiryDue, Bool.and_eq_true, decide_eq_true_eq] at h
  have hround := (countTick_fields s).2.2.2.2.1
  refine if_pos ⟨by rw [hround]; exact h.1, ?_⟩
  rw [hround]
  simp only [RoundUnit.tick, if_neg h.1]
  omega

end Period

/-- R140: an examination that finds no busy condition makes ROUND_DUE false; an abandoned round changes nothing else, and a
started one has its period timer loaded. -/
theorem examineDue_roundDue {s : State} (hd : s.round.state = .due) (hb : roundBusy s = false) :
    ((examineDue s).events.get .roundDue).genuine = false ∧
      (roundCondition s = none → (examineDue s).round.periodTimer = s.round.period * 60000) := by
  cases hc : roundCondition s with
  | some x =>
    rw [(examineDue_of_free hd hb).1 x hc]
    exact ⟨abandonRound_roundDue _ s, by simp⟩
  | none =>
    obtain ⟨first, more, he⟩ := enabledSlots_of_condition hc
    obtain ⟨-, -, -, -, htimer, -⟩ := startRoundNow_leaves hc
    rw [(examineDue_of_free hd hb).2 hc]
    exact ⟨startRoundNow_roundDue he, fun _ => htimer⟩

/-! ### The end of a wait (R51) -/

section Wait

theorem timeOutWait_distance (k : DistanceSource) (s : State) :
    (timeOutWait k s).distance = { s.distance with state := .none, lastWaitKind := k, lastWaitOutcome := .timedOut } := rfl

theorem timeOutWait_event (k : DistanceSource) (s : State) :
    (timeOutWait k s).events.get .admTimeout = (s.events.get .admTimeout).occurred s.localTime := by
  rw [timeOutWait, occur_get_self]
  rfl

theorem keeps_timeOutWait_parts (k : DistanceSource) (s : State) : keepsOthers [.distance, .events] s (timeOutWait k s) :=
  keeps_then (keeps_mono (keeps_setDistance s _) (by simp)) (keeps_occur _ _) (by simp)

theorem sources_timeOutWait (k : DistanceSource) (s : State) : keepsSources [.admTimeout] s (timeOutWait k s) :=
  sources_then_occur (sources_of_events rfl) (by simp)

variable {s : State}

theorem wait_of_due (h : expiryDue s .establish = true) :
    ∃ k o m, s.distance.state.wait = some (k, o, m) ∧ (countTick s).distance.state.wait = some (k, o, 0) := by
  simp only [expiryDue, Option.any_eq_true, decide_eq_true_eq] at h
  obtain ⟨⟨k, o, m⟩, hw, hm⟩ := h
  refine ⟨k, o, m, hw, ?_⟩
  rw [(countTick_fields s).2.1]
  simp only [DistanceState.tick_wait, hw, Option.map_some]
  rw [show m - 1 = 0 from Nat.sub_eq_zero_of_le hm]

theorem expireWait_of_wait {k : DistanceSource} {o : WaitOwner} (h : s.distance.state.wait = some (k, o, 0)) :
    expireWait s = if o = .round then roundWaitFailed (timeOutWait k s) else timeOutWait k s := by
  simp only [expireWait, h]

theorem roundWaitFailed_of_not_running (h : s.round.state.isRunning = false) : roundWaitFailed s = s := by
  cases hr : s.round.state with
  | running r => simp [hr, RoundState.isRunning] at h
  | idle | due => simp only [roundWaitFailed, hr]

/-- R51: with no RUNNING round a wait that ends is timed out, whoever owns it. -/
theorem expireWait_of_not_running {k : DistanceSource} {o : WaitOwner} (h : s.distance.state.wait = some (k, o, 0))
    (hr : s.round.state.isRunning = false) : expireWait s = timeOutWait k s := by
  have hround : (timeOutWait k s).round = s.round := keeps_timeOutWait_parts k s .round (by simp)
  rw [expireWait_of_wait h, roundWaitFailed_of_not_running (by rw [hround]; exact hr), ite_self]

end Wait

/-! ### The end of an aim (R74) -/

/-- R74: the aim has timed out, before any round hears of it. -/
def aimTimedOut (s : State) : State := occur .aimTimeout (enterLost s)

section Aim

theorem keeps_aimTimedOut (s : State) : keepsOthers [.follower, .events] s (aimTimedOut s) :=
  keeps_then (keeps_enterLost s) (keeps_occur _ _) (by simp)

theorem sources_aimTimedOut (s : State) : keepsSources [.beamAbsent, .aimTimeout] s (aimTimedOut s) :=
  sources_then_occur (sources_mono (sources_storeFollower s _) (by simp)) (by simp)

theorem aimTimedOut_event (s : State) :
    (aimTimedOut s).events.get .aimTimeout = (s.events.get .aimTimeout).occurred s.localTime := by
  rw [aimTimedOut, occur_get_self, enterLost, (sources_storeFollower _ _).2 .aimTimeout (by simp)]
  rfl

theorem aimTimedOut_beamAbsent (s : State) : ((aimTimedOut s).events.get .beamAbsent).genuine = true := by
  rw [aimTimedOut, occur_get_other _ (by simp), enterLost, storeFollower_beamAbsent]
  rfl

@[simp] theorem aimTimedOut_follower (s : State) :
    (aimTimedOut s).follower = { s.follower with state := .lost, grace := none, aim := none, arrivalRun := 0, acqRun := 0 } := rfl

variable {s : State}

theorem aim_of_due (h : expiryDue s .aim = true) :
    ∃ a, s.follower.aim = some a ∧ (countTick s).follower.aim = some { a with timer := 0 } := by
  simp only [expiryDue, Option.any_eq_true, decide_eq_true_eq] at h
  obtain ⟨a, ha, hm⟩ := h
  refine ⟨a, ha, ?_⟩
  rw [(countTick_fields s).2.2.1]
  simp only [ha, Option.map_some, show a.timer - 1 = 0 from Nat.sub_eq_zero_of_le hm]

theorem expireAim_of_aim {a : Aim} (h : s.follower.aim = some a) (ht : a.timer = 0) :
    expireAim s = examineDue (if a.owner = .round then roundAimTimeout (aimTimedOut s) else aimTimedOut s) := by
  simp only [expireAim, h, ht, if_true]
  rfl

theorem roundAimTimeout_of_not_running (h : s.round.state.isRunning = false) : roundAimTimeout s = s := by
  cases hr : s.round.state with
  | running r => simp [hr, RoundState.isRunning] at h
  | idle | due => simp only [roundAimTimeout, hr]

/-- R74: with no RUNNING round an aim that ends is timed out, whoever owns it, and a DUE round is examined. -/
theorem expireAim_of_not_running {a : Aim} (h : s.follower.aim = some a) (ht : a.timer = 0)
    (hr : s.round.state.isRunning = false) : expireAim s = examineDue (aimTimedOut s) := by
  have hround : (aimTimedOut s).round = s.round := keeps_aimTimedOut s .round (by simp)
  rw [expireAim_of_aim h ht, roundAimTimeout_of_not_running (by rw [hround]; exact hr), ite_self]

end Aim

/-! ### The end of a SINGLE (R121) -/

/-- R121: the SINGLE has timed out, before a DUE round is examined. -/
def singleTimedOut (s : State) : State := occur .measureTimeout (setMode .idle s)

section Single

theorem keeps_singleTimedOut (s : State) : keepsOthers [.emitter, .events] s (singleTimedOut s) :=
  keeps_then (keeps_mono (keeps_setMode _ s) (by simp)) (keeps_occur _ _) (by simp)

theorem sources_singleTimedOut (s : State) : keepsSources [.measureTimeout] s (singleTimedOut s) :=
  sources_then_occur (sources_of_events rfl) (by simp)

theorem singleTimedOut_event (s : State) :
    (singleTimedOut s).events.get .measureTimeout = (s.events.get .measureTimeout).occurred s.localTime := by
  rw [singleTimedOut, occur_get_self]
  rfl

@[simp] theorem singleTimedOut_emitter (s : State) : (singleTimedOut s).emitter = { s.emitter with mode := .idle } := rfl

variable {s : State}

theorem expireMeasure_of_due (h : expiryDue s .measure = true) :
    expireMeasure (countTick s) = examineDue (singleTimedOut (countTick s)) := by
  cases hm : s.emitter.mode with
  | single m =>
    simp only [expiryDue, hm, decide_eq_true_eq] at h
    have hmode : (countTick s).emitter.mode = .single { m with timer := m.timer - 1 } := by
      rw [(countTick_fields s).2.2.2.1, hm]
      rfl
    simp only [expireMeasure, hmode, if_pos (Nat.sub_eq_zero_of_le h)]
    rfl
  | idle | stream _ _ | spaced _ _ | triggered _ => simp [expiryDue, hm] at h

end Single

end Sys2Proof.Machine

/-! ### The statements -/

namespace Sys2Proof.Proofs

open Sys2Proof Sys2Proof.Machine

/-- Settles O26: a tick that ends no timer is the counting, field by field. -/
theorem quietTick : Obligations.QuietTick := by
  refine ⟨fun s h => ?_, fun s hage h => ?_⟩
  · have htick : exec .timeBaseTick s = .next (countTick s) := congrArg _ (baseTick_counts h)
    obtain ⟨htime, hdistance, hfollower, hemitter, hround, -, -, -, hhead⟩ := countTick_fields s
    refine ⟨_, htick, htime, countTick_correction s, hhead, fun o m hd => ?_, fun o c m hd => ?_,
      countTick_distance_of_no_wait s, fun a ha => ?_, countTick_aim_eq s, fun m hm => ?_, countTick_emitter_of_not_single s,
      fun r hr => countTick_running hr, fun hr => ?_, ?_, ?_, countTick_stale s, keeps_countTick s, sources_countTick s⟩
    · rw [hdistance, hd]
      rfl
    · rw [hdistance, hd]
      rfl
    · rw [hfollower, ha]
      rfl
    · rw [hemitter, hm]
      rfl
    · rw [hround]
      exact RoundState.tick_of_not_running hr
    · rw [hround]
      rfl
    · rw [hround]
      rfl
  · have htick : exec .timeBaseTick s = .next (countTick s) := congrArg _ (baseTick_counts h)
    have hstale : exec .refractionStale s = .next (countTick s) := congrArg _ ((if_pos hage).trans (baseTick_counts h))
    have hcorrection : (countTick s).correction = { s.correction with age := 600001 } := by rw [countTick_correction, hage]; rfl
    exact ⟨_, hstale, htick, hcorrection, by rw [countTick_stale, hcorrection]; rfl⟩

/-- Settles O30: the tick of the period is the counting and the expiry, and a DUE round's start is its examination. -/
theorem roundDueAndStart : Obligations.RoundDueAndStart := by
  refine ⟨fun s h => ?_, fun s => ⟨_, rfl, fun hn => ?_, fun x hd hb hx => ?_, fun hd hb hn => ?_⟩⟩
  · have htick : exec .roundPeriodExpiry s = .next (expirePeriod (countTick s)) :=
      congrArg _ ((namedTick_period h).trans (expireRoundPeriod_of_due h.1))
    have hround : (countTick s).round = s.round.tick := (countTick_fields s).2.2.2.2.1
    have hidle : s.round.state = .idle → (countTick s).round.state = .idle := fun hi => by rw [hround, RoundUnit.tick, hi]; rfl
    have haborted : (countTick s).events.get .roundAborted = s.events.get .roundAborted := (sources_countTick s).2 _ (by simp)
    have htime : (countTick s).localTime = s.localTime + 1 := rfl
    refine ⟨_, htick, by simp [htime], ?_, fun hd => ?_, fun hi hb => ?_, fun x hi hb hx => ?_, fun hi hb hn => ?_⟩
    · rw [expirePeriod_timer, hround]
      rfl
    · rw [expirePeriod_of_waiting (by rw [hround, RoundUnit.tick, hd]; simp [RoundState.tick]), hround]
      exact (RoundState.tick_due _).mpr hd
    · exact expirePeriod_of_busy (hidle hi) ((roundBusy_countTick s).trans hb)
    · rw [← haborted, ← htime]
      exact (expirePeriod_of_free (hidle hi) ((roundBusy_countTick s).trans hb)).1 x ((roundCondition_countTick s).trans hx)
    · exact (expirePeriod_of_free (hidle hi) ((roundBusy_countTick s).trans hb)).2 ((roundCondition_countTick s).trans hn)
  · rcases hn with hn | hb
    · exact examineDue_of_not_due s hn
    · exact examineDue_of_busy s hb
  · obtain ⟨habandon, hround, hevent⟩ := (examineDue_leaves hd hb).1 x hx
    exact ⟨hround, (examineDue_roundDue hd hb).1, hevent, habandon ▸ keeps_abandonRound _ s⟩
  · obtain ⟨hrunning, haiming, hdistance⟩ := (examineDue_leaves hd hb).2 hn
    obtain ⟨hdue, htimer⟩ := examineDue_roundDue hd hb
    exact ⟨hrunning, hdue, htimer hn, haiming, hdistance⟩

/-- R51: the tick of the establish timer with no RUNNING round. -/
theorem establishExpiry_alone {s : State} (hr : s.round.state.isRunning = false) (h : onlyDue .establish s) :
    ∃ k o m, s.distance.state.wait = some (k, o, m) ∧ exec .establishTimerExpiry s = .next (timeOutWait k (countTick s)) := by
  obtain ⟨k, o, m, hw, hw'⟩ := wait_of_due h.1
  have hrunning : (countTick s).round.state.isRunning = false := by
    rw [(countTick_fields s).2.2.2.2.1]
    exact (RoundState.tick_running _).trans hr
  have hexpire := expireWait_of_not_running hw' hrunning
  have hrun : TimersRun (timeOutWait k (countTick s)) :=
    ⟨by simp [timeOutWait_distance, DistanceState.wait], countTick_aim (h.2 .aim (by simp)),
      countTick_measure (h.2 .measure (by simp)), countTick_slot (h.2 .slot (by simp)), countTick_period (h.2 .period (by simp))⟩
  exact ⟨k, o, m, hw, congrArg _ ((namedTick_establish h (hexpire ▸ hrun)).trans hexpire)⟩

/-- R74: the tick of the aim timer with no RUNNING round. -/
theorem aimExpiry_alone {s : State} (hr : s.round.state.isRunning = false) (h : onlyDue .aim s) :
    exec .aimTimerExpiry s = .next (examineDue (aimTimedOut (countTick s))) := by
  obtain ⟨a, -, ha⟩ := aim_of_due h.1
  have hrunning : (countTick s).round.state.isRunning = false := by
    rw [(countTick_fields s).2.2.2.2.1]
    exact (RoundState.tick_running _).trans hr
  have hexpire := expireAim_of_not_running ha rfl hrunning
  have hrun : TimersRun (aimTimedOut (countTick s)) :=
    ⟨countTick_wait (h.2 .establish (by simp)), by simp, countTick_measure (h.2 .measure (by simp)),
      countTick_slot (h.2 .slot (by simp)), countTick_period (h.2 .period (by simp))⟩
  exact congrArg _ ((namedTick_aim h (hexpire ▸ examineDue_timersRun hrun)).trans hexpire)

/-- R121: the tick of the measure timer. -/
theorem measureExpiry_alone {s : State} (h : onlyDue .measure s) :
    exec .measureTimerExpiry s = .next (examineDue (singleTimedOut (countTick s))) := by
  have hexpire := expireMeasure_of_due h.1
  have hrun : TimersRun (singleTimedOut (countTick s)) :=
    ⟨countTick_wait (h.2 .establish (by simp)), countTick_aim (h.2 .aim (by simp)), by simp,
      countTick_slot (h.2 .slot (by simp)), countTick_period (h.2 .period (by simp))⟩
  exact congrArg _ ((namedTick_measure h (hexpire ▸ examineDue_timersRun hrun)).trans hexpire)

/-- Settles O28: each expiry is the counting and the handling of its timer, and a DUE round is examined after it. -/
theorem timerExpiries : Obligations.TimerExpiries := by
  intro s
  have hround : (countTick s).round = s.round.tick := (countTick_fields s).2.2.2.2.1
  have hemitter : (countTick s).emitter = { s.emitter with mode := s.emitter.mode.tick } := (countTick_fields s).2.2.2.1
  have hdue : s.round.state = .due → (countTick s).round.state = .due := fun hd => by
    rw [hround]
    exact (RoundState.tick_due _).mpr hd
  have hnotdue : s.round.state ≠ .due → (countTick s).round.state ≠ .due := fun hd hc => by
    rw [hround] at hc
    exact hd ((RoundState.tick_due _).mp hc)
  refine ⟨fun hr h => ?_, fun hi h => ?_, fun hn h => ?_, fun hd h => ?_, fun hd h => ?_⟩
  · obtain ⟨k, o, m, hw, hexec⟩ := establishExpiry_alone hr h
    refine ⟨_, hexec, rfl, rfl, rfl, by rw [hw]; rfl, rfl, ?_, ?_, ?_, ?_⟩
    · rw [timeOutWait_event, (sources_countTick s).2 .admTimeout (by simp)]
      rfl
    · exact (congrArg RoundUnit.state hround).trans (RoundState.tick_of_not_running hr)
    · exact keeps_then (keeps_countTick s) (keeps_timeOutWait_parts k _) (by simp)
    · exact sources_then (sources_mono (sources_countTick s) (by simp)) (sources_timeOutWait k _) (by simp)
  · have hrun : s.round.state.isRunning = false := by rw [hi]; rfl
    have hwait : examineDue (aimTimedOut (countTick s)) = aimTimedOut (countTick s) :=
      examineDue_of_not_due _ (hnotdue (by simp [hi]))
    refine ⟨_, (aimExpiry_alone hrun h).trans (congrArg _ hwait), rfl, rfl, aimTimedOut_beamAbsent _, ?_, ?_, ?_⟩
    · rw [aimTimedOut_event, (sources_countTick s).2 .aimTimeout (by simp)]
      rfl
    · exact keeps_then (keeps_countTick s) (keeps_aimTimedOut _) (by simp)
    · exact sources_then (sources_mono (sources_countTick s) (by simp)) (sources_aimTimedOut _) (by simp)
  · have hwait : examineDue (singleTimedOut (countTick s)) = singleTimedOut (countTick s) :=
      examineDue_of_not_due _ (hnotdue hn)
    refine ⟨_, (measureExpiry_alone h).trans (congrArg _ hwait), rfl, by rw [singleTimedOut_emitter, hemitter], ?_, ?_, ?_⟩
    · rw [singleTimedOut_event, (sources_countTick s).2 .measureTimeout (by simp)]
      rfl
    · exact keeps_then (keeps_countTick s) (keeps_singleTimedOut _) (by simp)
    · exact sources_then (sources_mono (sources_countTick s) (by simp)) (sources_singleTimedOut _) (by simp)
  · have hrun : s.round.state.isRunning = false := by rw [hd]; rfl
    let u : State := aimTimedOut (countTick s)
    have hbusy : roundBusy u = true ↔ s.emitter.mode ≠ .idle ∨ s.search.active ≠ none := by
      rw [roundBusy_iff, show u.emitter = _ from hemitter]
      simp [u, EmissionMode.tick_idle, (countTick_fields s).2.2.2.2.2.1, aimTimedOut]
    have hcond : roundCondition u = roundCondition s := rfl
    refine ⟨_, aimExpiry_alone hrun h, ?_, fun hb => ?_, fun x hm ha hx => ?_, fun hm ha hx => ?_⟩
    · rw [(sources_examineDue _).2 .aimTimeout (by simp), aimTimedOut_event, (sources_countTick s).2 .aimTimeout (by simp)]
      rfl
    · rw [examineDue_of_busy u (hbusy.mpr hb)]
      exact ⟨hdue hd, rfl⟩
    · have hfree : roundBusy u = false := by rw [← Bool.not_eq_true, hbusy]; simp [hm, ha]
      obtain ⟨habandon, hroundX, -⟩ := (examineDue_leaves (s := u) (hdue hd) hfree).1 x (hcond.trans hx)
      rw [hroundX, habandon]
      exact ⟨rfl, rfl, rfl⟩
    · have hfree : roundBusy u = false := by rw [← Bool.not_eq_true, hbusy]; simp [hm, ha]
      obtain ⟨hrunning, haiming, -⟩ := (examineDue_leaves (s := u) (hdue hd) hfree).2 (hcond.trans hx)
      exact ⟨hrunning, haiming⟩
  · let u : State := singleTimedOut (countTick s)
    have hbusy : roundBusy u = true ↔ s.follower.state = .aiming ∨ s.search.active ≠ none := by
      rw [roundBusy_iff, or_comm (a := u.search.active ≠ none)]
      simp [u, (countTick_fields s).2.2.2.2.2.1, (countTick_fields s).2.2.1, singleTimedOut]
    have hcond : roundCondition u = roundCondition s := rfl
    refine ⟨_, measureExpiry_alone h, ?_, ?_, fun hb => ?_, fun x hf ha hx => ?_, fun hf ha hx => ?_⟩
    · exact (examineDue_keeps u).2.2.1.trans (by rw [show u.emitter = _ from singleTimedOut_emitter _, hemitter])
    · rw [(sources_examineDue _).2 .measureTimeout (by simp), singleTimedOut_event,
        (sources_countTick s).2 .measureTimeout (by simp)]
      rfl
    · rw [examineDue_of_busy u (hbusy.mpr hb)]
      exact hdue hd
    · have hfree : roundBusy u = false := by rw [← Bool.not_eq_true, hbusy]; simp [hf, ha]
      obtain ⟨-, hroundX, -⟩ := (examineDue_leaves (s := u) (hdue hd) hfree).1 x (hcond.trans hx)
      rw [hroundX]
      exact ⟨rfl, rfl⟩
    · have hfree : roundBusy u = false := by rw [← Bool.not_eq_true, hbusy]; simp [hf, ha]
      obtain ⟨hrunning, haiming, -⟩ := (examineDue_leaves (s := u) (hdue hd) hfree).2 (hcond.trans hx)
      exact ⟨hrunning, haiming⟩

end Sys2Proof.Proofs
end

