-- ==== Sys2Proof/Proofs/Silence.lean ====
section
/-! The assertion of HEAD_SILENT (R168): what the tick that ends the silence timer leaves of the distance, the follower, a
SINGLE and a round. -/

namespace Sys2Proof.Machine

/-! ### The follower's action (R82) -/

section SilenceFollower

variable (s : State)

theorem silenceFollower_of_parked (h : s.follower.state = .parked) :
    silenceFollower s = s.setFollower { s.follower with followPending := false } := by simp only [silenceFollower, h]

theorem silenceFollower_of_lost (h : s.follower.state = .lost) :
    silenceFollower s = s.setFollower { s.follower with followPending := false, acqRun := 0 } := by simp only [silenceFollower, h]

theorem silenceFollower_of_moving (hp : s.follower.state ≠ .parked) (hl : s.follower.state ≠ .lost) :
    silenceFollower s = enterLost ((abortSearch s).setFollower { (abortSearch s).follower with followPending := false }) := by
  cases hs : s.follower.state with
  | parked => exact absurd hs hp
  | lost => exact absurd hs hl
  | aiming | following | holding | searching => simp only [silenceFollower, hs, silenceFollower.silenced]

theorem keeps_silenceFollower_parts : keepsOthers [.search, .follower, .events] s (silenceFollower s) := by
  by_cases hp : s.follower.state = .parked
  · rw [silenceFollower_of_parked s hp]
    exact keeps_mono (keeps_setFollower s _) (by simp)
  · by_cases hl : s.follower.state = .lost
    · rw [silenceFollower_of_lost s hl]
      exact keeps_mono (keeps_setFollower s _) (by simp)
    · rw [silenceFollower_of_moving s hp hl]
      exact keeps_then (keeps_then (keeps_mono (keeps_abortSearch s) (by simp)) (keeps_setFollower _ _) (by simp))
        (keeps_enterLost _) (by simp)

theorem sources_silenceFollower : keepsSources [.patternLow, .beamAbsent] s (silenceFollower s) := by
  by_cases hp : s.follower.state = .parked
  · rw [silenceFollower_of_parked s hp]
    exact sources_of_events rfl
  · by_cases hl : s.follower.state = .lost
    · rw [silenceFollower_of_lost s hl]
      exact sources_of_events rfl
    · rw [silenceFollower_of_moving s hp hl]
      exact sources_trans (sources_then_same (sources_mono (sources_abortSearch s) (by simp)) rfl)
        (sources_mono (sources_storeFollower _ _) (by simp))

/-- R82: PARKED stays, every other state is LOST; the moving ones lose their search and their aim. -/
structure FollowerSilenced (s t : State) : Prop where
  pending : t.follower.followPending = false
  state : t.follower.state = if s.follower.state = .parked then .parked else .lost
  run : s.follower.state ≠ .parked → t.follower.acqRun = 0
  moving : s.follower.state ≠ .parked → s.follower.state ≠ .lost → t.search.active = none ∧ t.follower.aim = none
  still : s.follower.state = .parked ∨ s.follower.state = .lost →
    t.search.active = s.search.active ∧ t.follower.aim = s.follower.aim

theorem silenceFollower_silenced : FollowerSilenced s (silenceFollower s) := by
  by_cases hp : s.follower.state = .parked
  · rw [silenceFollower_of_parked s hp]
    exact ⟨rfl, by simp [hp], fun hn => absurd hp hn, fun hn => absurd hp hn, fun _ => ⟨rfl, rfl⟩⟩
  · by_cases hl : s.follower.state = .lost
    · rw [silenceFollower_of_lost s hl]
      exact ⟨rfl, by simp [hl], fun _ => rfl, fun _ hn => absurd hl hn, fun _ => ⟨rfl, rfl⟩⟩
    · rw [silenceFollower_of_moving s hp hl]
      exact ⟨by simp, by simp [hp], by simp, fun _ _ => by simp, fun hn => (hn.elim hp hl).elim⟩

theorem FollowerSilenced.congr {s s' t t' : State} (h : FollowerSilenced s t) (hf : s'.follower.state = s.follower.state)
    (ha : s'.follower.aim = s.follower.aim) (hs : s'.search = s.search) (hf' : t'.follower = t.follower)
    (hs' : t'.search = t.search) : FollowerSilenced s' t' where
  pending := hf' ▸ h.pending
  state := by rw [hf, hf']; exact h.state
  run := by rw [hf, hf']; exact h.run
  moving := by rw [hf, hf', hs']; exact h.moving
  still := by rw [hf, ha, hf', hs, hs']; exact h.still

end SilenceFollower

/-! ### The release of a RUNNING round (R152) -/

section SilenceRelease

variable (s : State)

theorem keeps_silenceRelease_parts : keepsOthers [.distance, .freeCount] s (silenceRelease s) := by
  unfold silenceRelease
  split
  · split
    · exact keeps_then (keeps_mono (keeps_setFreeCount s _) (by simp)) (keeps_releaseDistance _) (by simp)
    · exact keeps_mono (keeps_setFreeCount s _) (by simp)
  · exact keeps_refl _ s

theorem silenceRelease_events : (silenceRelease s).events = s.events := keeps_silenceRelease_parts s .events (by simp)

theorem silenceRelease_of_not_running (h : s.round.state.isRunning = false) : silenceRelease s = s := by
  simp [silenceRelease, h]

end SilenceRelease

/-! ### The assertion up to the round unit -/

/-- R168: HEAD_SILENT is reported, the distance is left, the follower is silenced and a SINGLE is aborted. -/
def silencedUnits (s : State) : State :=
  abortSingle (silenceFollower (leaveDistance .silence (silenceRelease (reportLevel .headSilent s))))

theorem assertSilence_eq (s : State) : assertSilence s = examineDue (silenceRound (silencedUnits s)) := rfl

section SilencedUnits

variable (s : State)

theorem keeps_silencedUnits :
    keepsOthers [.events, .distance, .freeCount, .search, .follower, .emitter] s (silencedUnits s) :=
  keeps_then
    (keeps_then
      (keeps_then
        (keeps_then (keeps_mono (keeps_reportLevel .headSilent s) (by simp)) (keeps_silenceRelease_parts _) (by simp))
        (keeps_leaveDistance _ _) (by simp))
      (keeps_silenceFollower_parts _) (by simp))
    (keeps_abortSingle _) (by simp)

theorem sources_silencedUnits :
    keepsSources [.headSilent, .distanceLost, .patternLow, .beamAbsent, .measureAborted] s (silencedUnits s) :=
  sources_then
    (sources_then
      (sources_then
        (sources_then_same (sources_mono (sources_reportLevel .headSilent s) (by simp)) (silenceRelease_events _))
        (sources_leaveDistance _ _) (by simp))
      (sources_silenceFollower _) (by simp))
    (sources_abortSingle _) (by simp)

theorem silencedUnits_headSilent :
    ((silencedUnits s).events.get .headSilent).genuine = decide (s.head.silenceTimer = 0) := by
  rw [silencedUnits, (sources_abortSingle _).2 .headSilent (by simp), (sources_silenceFollower _).2 .headSilent (by simp),
    (sources_leaveDistance _ _).2 .headSilent (by simp), silenceRelease_events, reportLevel_get_self]
  rfl

theorem silencedUnits_follower : FollowerSilenced s (silencedUnits s) := by
  have hrelease := keeps_silenceRelease_parts (reportLevel .headSilent s)
  have hleave := keeps_leaveDistance .silence (silenceRelease (reportLevel .headSilent s))
  have hfollower : (leaveDistance .silence (silenceRelease (reportLevel .headSilent s))).follower = s.follower :=
    (hleave .follower (by simp)).trans (hrelease .follower (by simp))
  have hsearch : (leaveDistance .silence (silenceRelease (reportLevel .headSilent s))).search = s.search :=
    (hleave .search (by simp)).trans (hrelease .search (by simp))
  exact (silenceFollower_silenced _).congr (by rw [hfollower]) (by rw [hfollower]) hsearch.symm
    (keeps_abortSingle _ .follower (by simp)) (keeps_abortSingle _ .search (by simp))

theorem silencedUnits_distance : (silencedUnits s).distance.state = .none := by
  have habort : (silencedUnits s).distance = _ := keeps_abortSingle _ .distance (by simp)
  have hfollower := keeps_silenceFollower_parts (leaveDistance .silence (silenceRelease (reportLevel .headSilent s))) .distance (by simp)
  rw [habort, hfollower]
  exact leaveDistance_state _ _

/-- R55: outside a RUNNING round the distance is left with cause SILENCE. -/
theorem silencedUnits_left (h : s.round.state.isRunning = false) : DistanceLeft .silence s (silencedUnits s) := by
  have hwhole : silenceRelease (reportLevel .headSilent s) = reportLevel .headSilent s :=
    silenceRelease_of_not_running _ (by simpa using h)
  rw [silencedUnits, hwhole]
  refine (leaveDistance_left .silence (reportLevel .headSilent s)).congr (by simp) ?_ (by simp) ?_ ?_
  · exact (reportLevel_get_other _ (by simp)).symm
  · exact (keeps_abortSingle _ .distance (by simp)).trans (keeps_silenceFollower_parts _ .distance (by simp))
  · rw [(sources_abortSingle _).2 .distanceLost (by simp), (sources_silenceFollower _).2 .distanceLost (by simp)]

/-- R120: a SINGLE is aborted, any other mode stays. -/
theorem silencedUnits_emitter :
    (s.emitter.mode.isSingle = true →
      (silencedUnits s).emitter = { s.emitter with mode := .idle } ∧
      (silencedUnits s).events.get .measureAborted = (s.events.get .measureAborted).occurred s.localTime) ∧
    (s.emitter.mode.isSingle = false → (silencedUnits s).emitter = s.emitter) := by
  generalize hw : silenceFollower (leaveDistance .silence (silenceRelease (reportLevel .headSilent s))) = w
  have hkeep : keepsOthers [.events, .distance, .freeCount, .search, .follower] s w := by
    rw [← hw]
    exact keeps_then
      (keeps_then
        (keeps_then (keeps_mono (keeps_reportLevel .headSilent s) (by simp)) (keeps_silenceRelease_parts _) (by simp))
        (keeps_leaveDistance _ _) (by simp))
      (keeps_silenceFollower_parts _) (by simp)
  have hsources : w.events.get .measureAborted = s.events.get .measureAborted := by
    rw [← hw, (sources_silenceFollower _).2 .measureAborted (by simp), (sources_leaveDistance _ _).2 .measureAborted (by simp),
      silenceRelease_events, reportLevel_get_other _ (by simp)]
  have hemitter : w.emitter = s.emitter := hkeep .emitter (by simp)
  have htime : w.localTime = s.localTime := hkeep .localTime (by simp)
  rw [silencedUnits, hw]
  refine ⟨fun hm => ?_, fun hm => ?_⟩
  · rw [abortSingle_of_single w (by rw [hemitter]; exact hm), occur_get_self, setMode_events, hsources]
    exact ⟨by simp [hemitter], by simp [htime]⟩
  · rw [abortSingle_of_not w (by rw [hemitter]; exact hm), hemitter]

/-- The measure timer runs on in no mode but SINGLE, which is aborted. -/
theorem silencedUnits_not_single : (silencedUnits s).emitter.mode.isSingle = false := by
  cases hm : s.emitter.mode.isSingle with
  | true => rw [((silencedUnits_emitter s).1 hm).1]; rfl
  | false => rw [(silencedUnits_emitter s).2 hm, hm]

end SilencedUnits


/-! ### The round unit (R140, R152) -/

theorem examineDue_head (s : State) : (examineDue s).head = s.head := by
  by_cases hd : s.round.state = .due
  · cases hb : roundBusy s with
    | true => rw [examineDue_of_busy s hb]
    | false =>
      cases hc : roundCondition s with
      | some x => rw [(examineDue_of_free hd hb).1 x hc]; simp
      | none =>
        obtain ⟨first, more, he⟩ := enabledSlots_of_condition hc
        rw [(examineDue_of_free hd hb).2 hc]
        exact keeps_startRoundNow_head he .head (by simp)
  · rw [examineDue_of_not_due s hd]

section RoundUnit

variable {s : State}

theorem silencedUnits_round (s : State) : (silencedUnits s).round = s.round := keeps_silencedUnits s .round (by simp)

theorem assertSilence_of_idle (h : s.round.state = .idle) : assertSilence s = silencedUnits s := by
  have hround := congrArg RoundUnit.state (silencedUnits_round s)
  have hstays : silenceRound (silencedUnits s) = silencedUnits s := by
    rw [silenceRound, hround, h, RoundState.isRunning]
    rfl
  rw [assertSilence_eq, hstays]
  exact examineDue_of_not_due _ (by rw [hround, h]; simp)

theorem assertSilence_of_due (h : s.round.state = .due) : assertSilence s = examineDue (silencedUnits s) := by
  have hround := congrArg RoundUnit.state (silencedUnits_round s)
  have hstays : silenceRound (silencedUnits s) = silencedUnits s := by
    rw [silenceRound, hround, h, RoundState.isRunning]
    rfl
  rw [assertSilence_eq, hstays]

theorem assertSilence_of_running (h : s.round.state.isRunning = true) :
    assertSilence s = discardRound .silent (silencedUnits s) := by
  have hdiscard : silenceRound (silencedUnits s) = discardRound .silent (silencedUnits s) :=
    if_pos (by rw [silencedUnits_round]; exact h)
  rw [assertSilence_eq, hdiscard]
  exact examineDue_of_not_due _ (by rw [discardRound_round]; simp)

theorem assertSilence_headSilent (s : State) :
    ((assertSilence s).events.get .headSilent).genuine = decide (s.head.silenceTimer = 0) := by
  rw [assertSilence_eq, (sources_examineDue _).2 .headSilent (by simp)]
  refine Eq.trans ?_ (silencedUnits_headSilent s)
  unfold silenceRound
  split
  · rw [(sources_discardRound _ _).2 .headSilent (by simp)]
  · rfl

/-- The distance unit, the follower and the emitter after the assertion run no timer that has come to 0. -/
theorem assertSilence_timersRun (hround : s.round.period ≠ 0 → s.round.periodTimer ≠ 0)
    (haim : ∀ a, s.follower.aim = some a → a.timer ≠ 0) : TimersRun (assertSilence s) := by
  rw [assertSilence_eq]
  refine examineDue_timersRun ?_
  have hfollower := silencedUnits_follower s
  have haim' : ∀ a, (silencedUnits s).follower.aim = some a → a.timer ≠ 0 := fun a ha => by
    by_cases hstill : s.follower.state = .parked ∨ s.follower.state = .lost
    · exact haim a ((hfollower.still hstill).2 ▸ ha)
    · obtain ⟨hp, hl⟩ := not_or.mp hstill
      exact absurd ((hfollower.moving hp hl).2.symm.trans ha) (by simp)
  have hwait : ∀ k o m, (silencedUnits s).distance.state.wait = some (k, o, m) → m ≠ 0 := by
    simp [silencedUnits_distance, DistanceState.wait]
  have hmeasure : ∀ m, (silencedUnits s).emitter.mode = .single m → m.timer ≠ 0 := fun m hm =>
    absurd (silencedUnits_not_single s) (by simp [hm, EmissionMode.isSingle])
  have hperiod : (silencedUnits s).round.period ≠ 0 → (silencedUnits s).round.periodTimer ≠ 0 := by
    rw [silencedUnits_round]
    exact hround
  unfold silenceRound
  split
  · exact ⟨by simpa using hwait, by simpa using haim', by simpa using hmeasure, by simp, by simpa using hperiod⟩
  · next hr => exact ⟨hwait, haim', hmeasure, fun r h => absurd (by simp [h, RoundState.isRunning]) hr, hperiod⟩

end RoundUnit

end Sys2Proof.Machine

/-! ### The statement -/

namespace Sys2Proof.Proofs

open Sys2Proof Sys2Proof.Machine

/-- R168: the row is the counting and the assertion. -/
theorem headSilent_alone {s : State} (h : onlyDue .silence s) : exec .headSilent s = .next (assertSilence (countTick s)) :=
  congrArg _
    (namedTick_silence h
      (assertSilence_timersRun (countTick_period (h.2 .period (by simp))) (countTick_aim (h.2 .aim (by simp)))))

/-- What the assertion at the tick leaves of a held base and of a SINGLE. -/
theorem silencedTick_units {s : State} (hr : s.round.state.isRunning = false) :
    ((∃ d b c, s.distance.state = .established d b c) →
      (silencedUnits (countTick s)).distance = { s.distance with state := .none, lastLoss := .silence } ∧
      (silencedUnits (countTick s)).events.get .distanceLost =
        (s.events.get .distanceLost).occurred (s.localTime + 1)) ∧
    (s.emitter.mode.isSingle = true →
      (silencedUnits (countTick s)).emitter = { s.emitter with mode := .idle } ∧
      (silencedUnits (countTick s)).events.get .measureAborted =
        (s.events.get .measureAborted).occurred (s.localTime + 1)) := by
  have hleft : DistanceLeft .silence (countTick s) (silencedUnits (countTick s)) :=
    silencedUnits_left _ (by rw [(countTick_fields s).2.2.2.2.1]; exact (RoundState.tick_running _).trans hr)
  refine ⟨fun ⟨d, b, c, he⟩ => ?_, fun hm => ?_⟩
  · have hsame : (countTick s).distance = s.distance :=
      countTick_distance_of_no_wait s (by rw [he]; rfl)
    obtain ⟨hdistance, hevent⟩ := hleft.base d b c (by rw [hsame]; exact he)
    exact ⟨hdistance.trans (by rw [hsame]), by rw [hevent, (sources_countTick s).2 .distanceLost (by simp)]; rfl⟩
  · have hemitter := (countTick_fields s).2.2.2.1
    obtain ⟨hidle, hevent⟩ :=
      (silencedUnits_emitter (countTick s)).1 (by rw [hemitter]; exact (EmissionMode.tick_isSingle _).trans hm)
    exact ⟨hidle.trans (by rw [hemitter]), by rw [hevent, (sources_countTick s).2 .measureAborted (by simp)]; rfl⟩

/-- Settles O27: the row is the assertion after the counting; an IDLE round hears nothing of it, a DUE one is examined and a
RUNNING one discarded. -/
theorem headSilentTick : Obligations.HeadSilentTick := by
  intro s h
  have hround : (countTick s).round = s.round.tick := (countTick_fields s).2.2.2.2.1
  have hfollower : FollowerSilenced (countTick s) (silencedUnits (countTick s)) := silencedUnits_follower _
  have hzero : (countTick s).head.silenceTimer = 0 := by
    have hdue := h.1
    simp only [expiryDue, decide_eq_true_eq] at hdue
    simp [(countTick_fields s).2.2.2.2.2.2.2.2, hdue]
  have hhead : (assertSilence (countTick s)).head = (countTick s).head := by
    rw [assertSilence_eq, examineDue_head, silenceRound]
    split
    · exact (keeps_discardRound _ _ .head (by simp)).trans (keeps_silencedUnits _ .head (by simp))
    · exact keeps_silencedUnits _ .head (by simp)
  refine ⟨_, headSilent_alone h, by rw [hhead, hzero], by rw [assertSilence_headSilent, hzero]; rfl, ?_, fun hi => ?_,
    fun hd hagree => ?_, fun hr => ?_⟩
  · rw [assertSilence_eq, (examineDue_keeps _).2.2.2.2.1, silenceRound]
    split
    · exact (keeps_discardRound _ _ .localTime (by simp)).trans (keeps_silencedUnits _ .localTime (by simp))
    · exact keeps_silencedUnits _ .localTime (by simp)
  · obtain ⟨hbase, hsingle⟩ := silencedTick_units (s := s) (by rw [hi]; rfl)
    rw [assertSilence_of_idle (by rw [hround, RoundUnit.tick, hi]; rfl)]
    exact ⟨hfollower.pending, hfollower.state, hfollower.run, hfollower.moving, silencedUnits_distance _, hbase, hsingle⟩
  · obtain ⟨hbase, hsingle⟩ := silencedTick_units (s := s) (by rw [hd]; rfl)
    have hdue : (countTick s).round.state = .due := by rw [hround]; exact (RoundState.tick_due _).mpr hd
    rw [assertSilence_of_due hdue]
    let u : State := silencedUnits (countTick s)
    have hdueU : u.round.state = .due := (congrArg RoundUnit.state (silencedUnits_round _)).trans hdue
    have hsearch : u.search.active = none := by
      by_cases hstill : s.follower.state = .parked ∨ s.follower.state = .lost
      · refine ((hfollower.still hstill).1.trans (congrArg SearchUnit.active (countTick_fields s).2.2.2.2.2.1)).trans ?_
        rcases hstill with hs | hs <;> simpa [State.searchAgrees, hs] using hagree
      · obtain ⟨hp, hl⟩ := not_or.mp hstill
        exact (hfollower.moving hp hl).1
    have hstate : u.follower.state ≠ .aiming := by
      have hst : u.follower.state = if s.follower.state = .parked then .parked else .lost := hfollower.state
      rw [hst]
      split <;> simp
    obtain ⟨hdistance, hlost⟩ := examineDue_of_no_distance (s := u) (silencedUnits_distance _)
    have hcond : roundCondition u = roundCondition s :=
      (roundCondition_congr (keeps_silencedUnits _ .poses (by simp))
        (congrArg (·.hasAdm) (keeps_silencedUnits _ .head (by simp)))
        (congrArg (·.driveState) (keeps_silencedUnits _ .head (by simp))) (silencedUnits_round _)).trans
        (roundCondition_countTick s)
    have hfree : s.emitter.mode = .idle ∨ s.emitter.mode.isSingle = true → roundBusy u = false := by
      intro hm
      refine (roundBusy_eq_false_iff u).mpr ⟨?_, hsearch, hstate⟩
      rcases hm with hm | hm
      · have hnot : (countTick s).emitter = s.emitter := countTick_emitter_of_not_single s (by rw [hm]; rfl)
        exact (congrArg Emitter.mode ((silencedUnits_emitter (countTick s)).2 (by rw [hnot, hm]; rfl))).trans (by rw [hnot, hm])
      · exact congrArg Emitter.mode (hsingle hm).1
    refine ⟨(examineDue_of_no_search hsearch).1 ▸ hsearch, hdistance ▸ silencedUnits_distance _, fun hb => ?_, fun hm => ?_,
      fun hidle hsn => ?_, fun x hm hx => ?_, fun hm hx => ?_⟩
    · exact ⟨hdistance.trans (hbase hb).1, (hlost.2 .distanceLost (by simp)).trans (hbase hb).2⟩
    · exact ⟨(examineDue_keeps u).2.2.1.trans (hsingle hm).1,
        ((sources_examineDue u).2 .measureAborted (by simp)).trans (hsingle hm).2⟩
    · have hnot : (countTick s).emitter = s.emitter := countTick_emitter_of_not_single s hsn
      have hemitter : u.emitter = s.emitter := ((silencedUnits_emitter (countTick s)).2 (by rw [hnot, hsn])).trans hnot
      rw [examineDue_of_busy u ((roundBusy_iff u).mpr (.inl (by rw [hemitter]; exact hidle)))]
      exact ⟨hdueU, hfollower.state⟩
    · obtain ⟨habandon, hroundX, hevent⟩ := (examineDue_leaves hdueU (hfree hm)).1 x (hcond.trans hx)
      refine ⟨congrArg RoundUnit.state hroundX, congrArg RoundUnit.summary hroundX, ?_, ?_⟩
      · rw [hevent, (sources_silencedUnits _).2 .roundAborted (by simp), (sources_countTick s).2 .roundAborted (by simp)]
        exact congrArg _ (keeps_silencedUnits _ .localTime (by simp))
      · exact (congrArg (fun t => t.follower.state) habandon).trans hfollower.state
    · obtain ⟨hrunning, haiming, -⟩ := (examineDue_leaves hdueU (hfree hm)).2 (hcond.trans hx)
      exact ⟨hrunning, haiming⟩
  · have hrunning : (countTick s).round.state.isRunning = true := by
      rw [hround]
      exact (RoundState.tick_running _).trans hr
    rw [assertSilence_of_running hrunning, discardRound_round, silencedUnits_round, hround]
    refine ⟨hfollower.state, hfollower.run, rfl, rfl, rfl, rfl, rfl, silencedUnits_distance _, ?_⟩
    rw [discardRound_event, (sources_silencedUnits _).2 .roundAborted (by simp), (sources_countTick s).2 .roundAborted (by simp)]
    exact congrArg _ (keeps_silencedUnits _ .localTime (by simp))

end Sys2Proof.Proofs
end

