-- ==== Sys2Proof/Proofs/Fronts.lean ====
section
/-! The taking of the oldest queued sample (R1 to R4): what its correction leaves for the hand-over, told in the state before the
taking. -/

namespace Sys2Proof.Machine

section Front

variable (f : Sample) (rest : List Sample) (s : State)

theorem takeSample_front {s : State} (h : s.head.rx = f :: rest) :
    exec .takeSample s = .next (handOver (correctedFront f rest s).2 (correctedFront f rest s).1) :=
  congrArg _ (takeOldest_of_front h)

theorem correctedFront_keeps :
    (correctedFront f rest s).1.poses = s.poses ∧ (correctedFront f rest s).1.follower = s.follower ∧
      (correctedFront f rest s).1.search = s.search ∧ (correctedFront f rest s).1.emitter = s.emitter ∧
      (correctedFront f rest s).1.head = { s.head with rx := rest } ∧ (correctedFront f rest s).1.station = s.station ∧
      (correctedFront f rest s).1.localTime = s.localTime :=
  correctSample_keeps f _

theorem keeps_correctedFront :
    keepsOthers [.head, .correction, .distance, .events, .round] s (correctedFront f rest s).1 :=
  keeps_then (keeps_mono (keeps_setHead s _) (by simp)) (keeps_correctSample_parts f _) (by simp)

theorem correctedFront_fields :
    (correctedFront f rest s).2.frame = f ∧ (correctedFront f rest s).2.present = decidePresence s.follower f ∧
      (correctedFront f rest s).2.psdX = clampPsd f.psdX ∧ (correctedFront f rest s).2.psdY = clampPsd f.psdY ∧
      (correctedFront f rest s).2.angles = (if badSample f then none else some (correctAngles s.correction f)) :=
  correctSample_fields f _

theorem correctedFront_sampleAngles :
    (correctedFront f rest s).2.sampleAngles = (if badSample f then none else some (stageA s.correction f)) :=
  correctSample_sampleAngles f _

theorem sources_correctedFront : keepsSources [.distanceLost, .distanceFault] s (correctedFront f rest s).1 :=
  sources_trans (sources_of_events rfl) (sources_correctSample f _)

theorem correctedFront_correction :
    (correctedFront f rest s).1.correction =
      if badSample f then { s.correction with badSamples := count16 s.correction.badSamples }
      else { s.correction with cosEl := cosOf (stageA s.correction f).el, sinEl := sinOf (stageA s.correction f).el } :=
  correctSample_correction f _

variable {f rest s}

theorem correctedFront_round (h : ∀ r, s.round.state = .running r → r.phase ≠ .adm) :
    (correctedFront f rest s).1.round = s.round :=
  correctSample_round f h

theorem correctedFront_handed {src : DistanceSource} {d : CorrectedDistance} (h : handedDistance s f src d) :
    (correctedFront f rest s).2.distance = some d :=
  correctSample_handed (s := s.setHead { s.head with rx := rest }) h

theorem correctedFront_unhanded (h : ∀ src d, ¬ handedDistance s f src d) : (correctedFront f rest s).2.distance = none :=
  correctSample_unhanded (s := s.setHead { s.head with rx := rest }) h

/-- R53 and R111: a usable sample leaves the base that it was measured from, and is handed on with its distance. -/
theorem correctedFront_usable {src : DistanceSource} {d : CorrectedDistance} {flags : PointFlags}
    (h : usableFront s f rest src d flags) :
    (correctedFront f rest s).1.distance = s.distance ∧ (correctedFront f rest s).1.events = s.events ∧
      (correctedFront f rest s).2.distance = some d ∧ (correctedFront f rest s).2.present = true := by
  obtain ⟨-, -, -, hpresent, hifm, ⟨b, c, hbase, hplausible, hd⟩, -⟩ := h
  let u : State := s.setHead { s.head with rx := rest }
  have hu : u.distance.state = .established src b c := hbase
  have hheld : decided f u = u := decided_held hu hpresent hifm
  obtain ⟨hkept, -⟩ := correctSample_established f (good_of_present hpresent) (by rw [hheld, hu])
  obtain ⟨hdistance, hevents, hvalue⟩ := hkept hplausible
  rw [hheld] at hdistance hevents
  exact ⟨hdistance, hevents, hvalue.trans (by rw [hd]; rfl), (correctedFront_fields f rest s).2.1.trans hpresent⟩

end Front

/-- R127: the flags of the corrected front sample. -/
theorem pointFlags_front {f : Sample} {rest : List Sample} {s : State} (hg : badSample f = false) (d : CorrectedDistance)
    (hd : d.refractionStale = s.correction.stale) :
    pointFlags (correctedFront f rest s).2 d =
      { uncompensated := s.correction.uncompensated, outOfRange := d.outOfRange, refractionStale := s.correction.stale } := by
  have hangles := (correctedFront_fields f rest s).2.2.2.2
  rw [hg] at hangles
  simp [pointFlags, hangles, hd, correctAngles]

theorem steerWritten_congr {g : Steer} {s s' t : State} (h : s'.head.tx = s.head.tx) (hw : steerWritten g s' t) :
    steerWritten g s t := by
  rw [steerWritten, h] at hw
  exact hw

/-! ### The hand-over while a round is RUNNING (R66) -/

/-- The follower's and the round unit's handling of the front sample. -/
def roundHandled (f : Sample) (rest : List Sample) (s : State) : Handled :=
  roundSearch (correctedFront f rest s).2 (followerSample (correctedFront f rest s).2 (correctedFront f rest s).1)

/-- What the round unit finds in `v` when the follower, its own search and the emitter have handled the front sample of `s`. -/
structure HandedOn (f : Sample) (rest : List Sample) (s v : State) : Prop where
  round : v.round = (roundHandled f rest s).state.round
  follower : v.follower = (roundHandled f rest s).state.follower
  search : v.search = (roundHandled f rest s).state.search
  distance : v.distance = (roundHandled f rest s).state.distance
  poses : v.poses = s.poses
  localTime : v.localTime = s.localTime
  rx : v.head.rx = rest
  hasAdm : v.head.hasAdm = s.head.hasAdm
  correction : v.correction = (correctedFront f rest s).1.correction
  events : keepsSources [.measureAborted, .queueCongested] (roundHandled f rest s).state v
  frame : ∀ g, (roundHandled f rest s).frame = some g → steerWritten g s v

theorem takeSample_running {f : Sample} {rest : List Sample} {s : State} {r : RunningRound} (h : s.head.rx = f :: rest)
    (hr : (correctedFront f rest s).1.round.state = .running r) :
    ∃ v, exec .takeSample s = .next (roundSample (roundHandled f rest s).report (correctedFront f rest s).2 v) ∧
      HandedOn f rest s v := by
  obtain ⟨hposes, -, -, -, hhead, -, htime⟩ := correctedFront_keeps f rest s
  obtain ⟨v, hv, hround, hfollower, hsearch, hdistance, hvposes, hvtime, hrx, hadm, hcorrection, hevents, hframe⟩ :=
    handOver_running (correctedFront f rest s).2 hr
  exact ⟨v, (takeSample_front f rest h).trans (congrArg _ hv),
    { round := hround, follower := hfollower, search := hsearch, distance := hdistance
      poses := hvposes.trans hposes, localTime := hvtime.trans htime
      rx := hrx.trans (congrArg (·.rx) hhead), hasAdm := hadm.trans (congrArg (·.hasAdm) hhead)
      correction := hcorrection, events := hevents
      frame := fun g hg => steerWritten_congr (congrArg (·.tx) hhead) (hframe g hg) }⟩

/-! ### The hand-over with no round (R66) -/

/-- The follower's handling of the front sample. -/
def frontHandled (f : Sample) (rest : List Sample) (s : State) : Handled :=
  followerSample (correctedFront f rest s).2 (correctedFront f rest s).1

/-- What a sample taken with no round leaves: the units as the follower left them, and its frame written. -/
structure TakenIdle (f : Sample) (rest : List Sample) (s t : State) : Prop where
  follower : t.follower = (frontHandled f rest s).state.follower
  search : t.search = (frontHandled f rest s).state.search
  distance : t.distance = (frontHandled f rest s).state.distance
  round : t.round = s.round
  rx : t.head.rx = rest
  frame : ∀ g, (frontHandled f rest s).frame = some g → steerWritten g s t
  still : (frontHandled f rest s).frame = none → t.head = { s.head with rx := rest }
  events : keepsSources [.measureAborted, .queueCongested] (frontHandled f rest s).state t

theorem takeSample_idle {f : Sample} {rest : List Sample} {s : State} (h : s.head.rx = f :: rest)
    (hr : s.round.state = .idle) :
    ∃ t, exec .takeSample s = .next t ∧ TakenIdle f rest s t ∧
      t = emitterSample (correctedFront f rest s).2 (writeFrame (frontHandled f rest s).frame (frontHandled f rest s).state) := by
  have hhead := (correctedFront_keeps f rest s).2.2.2.2.1
  have hround : (correctedFront f rest s).1.round = s.round := correctedFront_round (by simp [hr])
  have hidle : (correctedFront f rest s).1.round.state = .idle := by rw [hround, hr]
  obtain ⟨hfollower, hsearch, hdistance, hframe, hstill, hkept, hrx, hevents⟩ :=
    handOver_idle_keeps (correctedFront f rest s).2 hidle
  exact ⟨_, takeSample_front f rest h,
    { follower := hfollower, search := hsearch, distance := hdistance, round := hkept.trans hround
      rx := hrx.trans (congrArg (·.rx) hhead)
      frame := fun g hg => steerWritten_congr (congrArg (·.tx) hhead) (hframe g hg)
      still := fun hn => (hstill hn).trans hhead, events := hevents }, handOver_idle _ hidle⟩

end Sys2Proof.Machine
end

