-- ==== Sys2Proof/Proofs/Slots.lean ====
section
/-! The ends of a slot (sections 7.4 and 7.5): what a slot that ends with a result leaves, and the timers, requests and samples
that end one. -/

namespace Sys2Proof.Machine

/-! ### The return (R151) -/

section Return

variable {s : State}

theorem returnRound_of_angles {a : Angles} (h : s.round.returnOn = true) (ha : s.round.returnAngles = some a) :
    returnRound s = enterAiming a .follow .round s := by simp only [returnRound, h, ha]

theorem returnRound_of_none (h : s.round.returnOn = false ∨ s.round.returnAngles = none) : returnRound s = enterParked s := by
  rcases h with h | h
  · simp only [returnRound, h]
  · cases hon : s.round.returnOn <;> simp only [returnRound, hon, h]

/-- R151: the return is an entry to AIMING or to PARKED, which leaves a distance unit with no distance alone. -/
theorem returnRound_quiet (h : s.distance.state = .none) :
    (returnRound s).distance = s.distance ∧ keepsSources [.patternLow, .beamAbsent] s (returnRound s) := by
  unfold returnRound
  split
  · exact enterAiming_of_none _ _ _ h
  · exact ⟨(enterParked_left s).none h, sources_enterParked_of_none h⟩
  · exact ⟨(enterParked_left s).none h, sources_enterParked_of_none h⟩

end Return

/-! ### The commit (R150) -/

/-- The last of the pending results is the one that its entry keeps. -/
theorem commitResults_append (n : Nat) (l : List PendingResult) (p : PendingResult) :
    ∀ tb : Vector FiducialEntry 16,
      commitResults n tb (l ++ [p]) =
        (commitResults n tb l).set p.entry.val ((commitResults n tb l)[p.entry].commit p n) p.entry.isLt := by
  induction l with
  | nil => intro tb; rfl
  | cons q l ih => intro tb; exact ih _

/-- The aim angles of a committed table do not depend on the round number. -/
theorem commitResults_aim (n m : Nat) (l : List PendingResult) :
    ∀ tb tb' : Vector FiducialEntry 16, (∀ i : Fin 16, tb[i].aim = tb'[i].aim) →
      ∀ i : Fin 16, (commitResults n tb l)[i].aim = (commitResults m tb' l)[i].aim := by
  induction l with
  | nil => intro tb tb' h; exact h
  | cons q l ih =>
    intro tb tb' h
    refine ih _ _ fun i => ?_
    have hq := h q.entry
    have hi := h i
    simp only [Fin.getElem_fin, Vector.getElem_set] at hq hi ⊢
    split
    · simp [FiducialEntry.commit, hq]
    · exact hi

section Complete

variable (l : List PendingResult) (s : State)

/-- R150: the round unit and the events between the commit and the return. -/
def committedRound : State := reportLevel .drift (occur .roundDone (s.setRound (s.round.committed l)))

theorem completeRound_eq : completeRound l s = returnRound (committedRound l s) := rfl

@[simp] theorem committedRound_round : (committedRound l s).round = s.round.committed l := by simp [committedRound]

@[simp] theorem committedRound_distance : (committedRound l s).distance = s.distance := by simp [committedRound]

@[simp] theorem completeRound_round : (completeRound l s).round = s.round.committed l := by
  rw [completeRound_eq, (returnRound_leaves _).2.2.1, committedRound_round]

theorem completeRound_event :
    (completeRound l s).events.get .roundDone = (s.events.get .roundDone).occurred s.localTime := by
  rw [completeRound_eq, (sources_returnRound _).2 .roundDone (by simp), committedRound, reportLevel_get_other _ (by simp),
    occur_get_self]
  rfl

/-- R150 step 5: DRIFT is evaluated on the committed table. -/
theorem completeRound_drift :
    ((completeRound l s).events.get .drift).genuine = genuineOf (completeRound l s) .drift := by
  have htable : genuineOf (completeRound l s) .drift = (s.round.committed l).table.toList.any FiducialEntry.drifts := by
    rw [genuineOf, completeRound_round]
  rw [completeRound_eq, (sources_returnRound _).2 .drift (by simp), ← completeRound_eq, htable, committedRound,
    reportLevel_get_self]
  rfl

theorem completeRound_quiet (h : s.distance.state = .none) :
    (completeRound l s).distance = s.distance ∧
      (completeRound l s).events.get .distanceLost = s.events.get .distanceLost := by
  have hnone : (committedRound l s).distance.state = .none := by rw [committedRound_distance, h]
  obtain ⟨hdistance, hsources⟩ := returnRound_quiet hnone
  rw [completeRound_eq]
  refine ⟨hdistance.trans (committedRound_distance l s), ?_⟩
  rw [hsources.2 .distanceLost (by simp), committedRound, reportLevel_get_other _ (by simp), occur_get_other _ (by simp)]
  rfl

/-- R150 and R151: the results are committed together, and the return is made. -/
theorem completeRound_committed : committed l s.localTime s (completeRound l s) := by
  rw [committed, committedAs, completeRound_round, RoundUnit.committed, nextRoundNumber_eq]
  refine ⟨rfl, rfl, rfl, fun i hi => commitResults_other _ _ _ _ hi, fun hn p hp => commitResults_mem _ _ _ hn p hp,
    completeRound_event l s, completeRound_drift l s, fun a hon ha => ?_, fun hn => ?_⟩
  · rw [completeRound_eq, returnRound_of_angles (by rw [committedRound_round]; exact hon)
      (by rw [committedRound_round]; exact ha)]
    simp
  · rw [completeRound_eq, returnRound_of_none (by rw [committedRound_round]; exact hn)]
    simp [Follower.parkedAs]

end Complete

/-! ### The end of a slot (R142, R149) -/

section EndSlot

variable {res : FiducialResult} {aim : Option Angles} {s : State} {r : RunningRound}

theorem endSlot_of_next {e : Fin 16} (hr : s.round.state = .running r) (hn : r.slots[r.results.length + 1]? = some e) :
    endSlot res aim s = beginSlot { r with results := r.results ++ [⟨r.current, res, aim⟩] } e (releaseDistance s) := by
  simp [endSlot, hr, hn]

theorem endSlot_of_last (hr : s.round.state = .running r) (hn : r.slots[r.results.length + 1]? = none) :
    endSlot res aim s = completeRound (r.results ++ [⟨r.current, res, aim⟩]) (releaseDistance s) := by
  simp only [endSlot, hr, List.length_append, List.length_singleton, hn]

/-- R149: the distance is released without an event, and nothing more becomes of it. -/
theorem endSlot_quiet_distance (hr : s.round.state = .running r) :
    (endSlot res aim s).distance = (releaseDistance s).distance ∧
      (endSlot res aim s).events.get .distanceLost = s.events.get .distanceLost := by
  have hnone : (releaseDistance s).distance.state = .none := (releaseDistance_state s).1
  have hevents : (releaseDistance s).events.get .distanceLost = s.events.get .distanceLost := by rw [releaseDistance_events]
  cases hn : r.slots[r.results.length + 1]? with
  | none =>
    rw [endSlot_of_last hr hn]
    obtain ⟨hdistance, hlost⟩ := completeRound_quiet (r.results ++ [⟨r.current, res, aim⟩]) _ hnone
    exact ⟨hdistance, hlost.trans hevents⟩
  | some e =>
    rw [endSlot_of_next hr hn]
    obtain ⟨hdistance, hsources⟩ := enterAiming_of_none
      ((releaseDistance s).round.table[e].aim) .hold .round
      (s := setRoundState
        (.running
          { r with
            results := r.results ++ [⟨r.current, res, aim⟩]
            current := e, phase := .aim, slotTimer := 10000, avgCount := 0, sums := zero3 }) (releaseDistance s)) hnone
    exact ⟨hdistance, (hsources.2 .distanceLost (by simp)).trans hevents⟩

end EndSlot

/-- The RUNNING round of `u` is in the slot that `r` describes, whatever its phase, with the round unit of `s` beside it. -/
structure InSlot (r : RunningRound) (s u : State) : Prop where
  running : ∃ x, u.round.state = .running x ∧ x.slots = r.slots ∧ x.results = r.results ∧ x.current = r.current
  table : u.round.table = s.round.table
  number : u.round.roundNumber = s.round.roundNumber
  returnOn : u.round.returnOn = s.round.returnOn
  returnAngles : u.round.returnAngles = s.round.returnAngles
  done : u.events.get .roundDone = s.events.get .roundDone

theorem InSlot.of_round {r : RunningRound} {s u : State} (hr : s.round.state = .running r) (h : u.round = s.round)
    (hdone : u.events.get .roundDone = s.events.get .roundDone) : InSlot r s u :=
  ⟨⟨r, by rw [h, hr], rfl, rfl, rfl⟩, by rw [h], by rw [h], by rw [h], by rw [h], hdone⟩

theorem slotEnds_endSlot {r : RunningRound} {s u : State} (h : InSlot r s u) (res : FiducialResult) (aim : Option Angles) :
    slotEnds r res aim u.localTime s (endSlot res aim u) := by
  obtain ⟨⟨x, hx, hslots, hresults, hcurrent⟩, htable, hnumber, hon, hangles, hdone⟩ := h
  refine ⟨(endSlot_leaves res aim hx).1, fun e he => ?_, fun hl => ?_⟩
  · have hround : (releaseDistance u).round = u.round := by simp
    rw [endSlot_of_next hx (by rw [hslots, hresults]; exact he), beginSlot_round, beginSlot_aim, hround]
    refine ⟨?_, htable, hnumber, by simp [beginSlot], by rw [htable], by simp [beginSlot]⟩
    rw [hslots, hresults, hcurrent]
    rfl
  · have hround : (releaseDistance u).round = u.round := by simp
    have htime : (releaseDistance u).localTime = u.localTime := by simp
    have hevents : (releaseDistance u).events = u.events := releaseDistance_events u
    rw [endSlot_of_last hx (by rw [hslots, hresults]; exact hl), hresults, hcurrent]
    have hall := completeRound_committed (r.results ++ [⟨r.current, res, aim⟩]) (releaseDistance u)
    rw [committed, committedAs, hround, htime, hevents, htable, hnumber, hon, hangles, hdone] at hall
    exact hall

/-- The end of a slot is seen in the distance unit, the round unit, the follower, the search unit and two events. -/
theorem slotEnds_congr {r : RunningRound} {res : FiducialResult} {aim : Option Angles} {time : Word} {s t t' : State}
    (h : slotEnds r res aim time s t)
    (hkeep : t'.distance = t.distance ∧ t'.round = t.round ∧ t'.follower = t.follower ∧ t'.search = t.search)
    (hevents : keepsSources [.queueCongested] t t') : slotEnds r res aim time s t' := by
  obtain ⟨hdistance, hround, hfollower, hsearch⟩ := hkeep
  have hdrift : genuineOf t' .drift = genuineOf t .drift := by simp only [genuineOf, hround]
  have hdone := hevents.2 .roundDone (by simp)
  have hdrifts := hevents.2 .drift (by simp)
  rw [slotEnds, committed, committedAs, hdistance, hround, hfollower, hsearch, hdrift, hdone, hdrifts]
  exact h

/-! ### The timers that end a slot (R51, R74, R142) -/

section Timers

variable {s : State} {r : RunningRound}

/-- The counting of a tick leaves the slot. -/
theorem inSlot_countTick (hr : s.round.state = .running r) : InSlot r s (countTick s) :=
  ⟨⟨_, countTick_running hr, rfl, rfl, rfl⟩, rfl, rfl, rfl, rfl, (sources_countTick s).2 .roundDone (by simp)⟩

/-- A state in which a slot ended at the tick runs every timer, where the counting left the measure and the period timer. -/
theorem endSlot_timersRun {u : State} {x : RunningRound} {res : FiducialResult} {aim : Option Angles}
    (hx : u.round.state = .running x) (hm : ∀ m, u.emitter.mode = .single m → m.timer ≠ 0)
    (hp : u.round.period ≠ 0 → u.round.periodTimer ≠ 0) : TimersRun (endSlot res aim u) := by
  obtain ⟨hdistance, -, hemitter, haim, hslot, hperiod, htimer, -, -⟩ := endSlot_leaves res aim hx
  exact ⟨by simp [hdistance, DistanceState.wait], haim, by rw [hemitter]; exact hm, hslot, by rw [hperiod, htimer]; exact hp⟩

theorem expireSlot_of_due (hr : s.round.state = .running r) (h : expiryDue s .slot = true) :
    expireSlot (countTick s) = endSlot .notFound none (countTick s) := by
  simp only [expiryDue, hr, decide_eq_true_eq] at h
  simp only [expireSlot, countTick_running hr, if_pos (Nat.sub_eq_zero_of_le h)]

theorem roundWaitFailed_of_adm (hr : s.round.state = .running r) (hp : r.phase = .adm) :
    roundWaitFailed s = endSlot .notFound none s := by simp only [roundWaitFailed, hr, if_pos hp]

theorem roundAimTimeout_of_aim (hr : s.round.state = .running r) (hp : r.phase = .aim) :
    roundAimTimeout s = endSlot .notFound none s := by simp only [roundAimTimeout, hr, if_pos hp]

end Timers

/-! ### DROP_DISTANCE in ADM (R57, R147) -/

theorem dropFor_of_round_wait {s : State} {r : RunningRound} {m : Nat} (hr : s.round.state = .running r) (hp : r.phase = .adm)
    (hw : s.distance.state = .awaitAdm .round m) : dropFor s = endSlot .notFound none (releaseDistance s) := by
  have hwhole : abortIfBroken s (releaseDistance s) = releaseDistance s :=
    abortIfBroken_of_same _ s (by simp [hw, DistanceState.isEstablished]) (by simp)
  have hround : (releaseDistance s).round = s.round := by simp
  simp only [dropFor, hwhole, hw]
  exact roundWaitFailed_of_adm (by rw [hround, hr]) hp

/-! ### A sample in AVERAGE (R148) -/

section Average

variable {s : State} {r : RunningRound} {c : Corrected}

theorem averageSample_of_none (h : usableDistance c s = none) : averageSample r c s = endSlot .notFound none s := by
  simp only [averageSample, h]

theorem averageSample_of_some {d : CorrectedDistance} (h : usableDistance c s = some d) :
    averageSample r c s =
      if r.avgCount + 1 < 8 then
        setRoundState (.running { r with avgCount := r.avgCount + 1, sums := r.sums.add d.at_.pos }) s
      else
        endSlot (judge (s.round.entry r) (r.sums.add d.at_.pos)) (c.sampleAngles.map clampAngles) s := by
  simp only [averageSample, h]

/-- In phase AVERAGE the round unit asks for no search. -/
theorem roundSearch_of_average {h : Handled} (hr : h.state.round.state = .running r) (hp : r.phase = .average) :
    roundSearch c h = h := by simp only [roundSearch, hr, hp]

/-- R148: in phase AVERAGE a sample that fails the follower's search ends the slot, and any other is averaged. -/
theorem roundSample_of_average {rep : FollowerReport} (hr : s.round.state = .running r) (hp : r.phase = .average) :
    roundSample rep c s = if rep = .searchFailed then endSlot .notFound none s else averageSample r c s := by
  cases rep <;> simp [roundSample, hr, hp]

theorem judge_of_presence {e : FiducialEntry} (h : e.checkMode = .presence) (sums : Triple) :
    judge e sums = .inTol ⟨sums.mean 8, (sums.mean 8).sub e.nominal⟩ := by simp only [judge, h]

theorem judge_of_near {e : FiducialEntry} (h : e.checkMode = .position) {sums : Triple}
    (hn : nearPoint e.tolerance e.nominal (sums.mean 8)) :
    judge e sums = .inTol ⟨sums.mean 8, (sums.mean 8).sub e.nominal⟩ := by
  have hwithin : ((sums.mean 8).sub e.nominal).within e.tolerance = true := (Triple.within_iff _ _).mpr hn
  simp only [judge, h, hwithin, if_true]

theorem judge_of_far {e : FiducialEntry} (h : e.checkMode = .position) {sums : Triple}
    (hf : ¬ nearPoint e.tolerance e.nominal (sums.mean 8)) :
    judge e sums = .outTol ⟨sums.mean 8, (sums.mean 8).sub e.nominal⟩ := by
  have hbeyond : ¬ ((sums.mean 8).sub e.nominal).within e.tolerance = true := fun hw => hf ((Triple.within_iff _ _).mp hw)
  simp only [judge, h, if_neg hbeyond]

end Average

/-! ### The front sample in AVERAGE -/

section AverageFront

variable {f : Sample} {rest : List Sample} {s : State} {r : RunningRound}

theorem frontHandled_round (f : Sample) (rest : List Sample) (s : State) :
    (frontHandled f rest s).state.round = (correctedFront f rest s).1.round :=
  keeps_followerSample _ _ .round (by decide)

/-- In AVERAGE the round unit finds the slot as it was, whatever the follower and the emitter made of the sample. -/
theorem takeSample_average (h : s.head.rx = f :: rest) (hr : s.round.state = .running r) (hp : r.phase = .average) :
    ∃ v, exec .takeSample s =
        .next
          (if (frontHandled f rest s).report = .searchFailed then endSlot .notFound none v
           else averageSample r (correctedFront f rest s).2 v) ∧
      v.round = s.round ∧ v.follower = (frontHandled f rest s).state.follower ∧
      v.distance = (frontHandled f rest s).state.distance ∧ v.localTime = s.localTime ∧ InSlot r s v ∧
      keepsSources [.measureAborted, .queueCongested] (frontHandled f rest s).state v := by
  have hfront : (correctedFront f rest s).1.round = s.round := correctedFront_round fun x hx => by
    rw [hr] at hx
    obtain rfl := RoundState.running.inj hx
    simp [hp]
  have hround : (frontHandled f rest s).state.round = s.round := (frontHandled_round f rest s).trans hfront
  have hsame : roundHandled f rest s = frontHandled f rest s := roundSearch_of_average (by
    rw [show (followerSample _ _).state.round = s.round from hround]
    exact hr) hp
  obtain ⟨v, hv, hon⟩ := takeSample_running h (by rw [hfront]; exact hr)
  rw [hsame] at hv
  have hvround : v.round = s.round := by rw [hon.round, hsame, hround]
  have hevents := hon.events
  rw [hsame] at hevents
  have hdone : v.events.get .roundDone = s.events.get .roundDone := by
    rw [hevents.2 .roundDone (by simp), frontHandled, (sources_followerSample _ _).2 .roundDone (by simp [followerSources]),
      (sources_correctedFront f rest s).2 .roundDone (by simp)]
  refine ⟨v, hv.trans (congrArg _ (roundSample_of_average (by rw [hvround, hr]) hp)), hvround, ?_, ?_, hon.localTime,
    .of_round hr hvround hdone, hevents⟩
  · rw [hon.follower, hsame]
  · rw [hon.distance, hsame]

end AverageFront

end Sys2Proof.Machine

/-! ### The statement -/

namespace Sys2Proof.Proofs

open Sys2Proof Sys2Proof.Machine

/-- R142: the slot timer ends the slot in any phase. -/
theorem slotTimer_endsSlot {s : State} {r : RunningRound} (hr : s.round.state = .running r) (h : onlyDue .slot s) :
    exec .slotTimerExpiry s = .next (endSlot .notFound none (countTick s)) := by
  have hexpire := expireSlot_of_due hr h.1
  have hrun := endSlot_timersRun (res := .notFound) (aim := none) (countTick_running hr) (countTick_measure (h.2 .measure (by simp)))
    (countTick_period (h.2 .period (by simp)))
  exact congrArg _ ((namedTick_slot h (hexpire ▸ hrun)).trans hexpire)

/-- R51 and R147: the establish timer ends the slot in ADM. -/
theorem establishTimer_endsSlot {s : State} {r : RunningRound} {m : Nat} (hr : s.round.state = .running r)
    (hp : r.phase = .adm) (hw : s.distance.state = .awaitAdm .round m) (h : onlyDue .establish s) :
    exec .establishTimerExpiry s = .next (endSlot .notFound none (timeOutWait .adm (countTick s))) := by
  obtain ⟨k, o, m', hk, hwait⟩ := wait_of_due h.1
  have hround : (timeOutWait .adm (countTick s)).round = (countTick s).round := keeps_timeOutWait_parts _ _ .round (by simp)
  have hrunning : (timeOutWait .adm (countTick s)).round.state = .running { r with slotTimer := r.slotTimer - 1 } := by
    rw [hround, countTick_running hr]
  have hown : k = .adm ∧ o = .round := by
    simp only [hw, DistanceState.wait, Option.some.injEq, Prod.mk.injEq] at hk
    exact ⟨hk.1.symm, hk.2.1.symm⟩
  have hexpire : expireWait (countTick s) = endSlot .notFound none (timeOutWait .adm (countTick s)) := by
    rw [expireWait_of_wait hwait, if_pos hown.2, hown.1]
    exact roundWaitFailed_of_adm hrunning hp
  have hrun := endSlot_timersRun (res := .notFound) (aim := none) hrunning
    (countTick_measure (h.2 .measure (by simp))) (by rw [hround]; exact countTick_period (h.2 .period (by simp)))
  exact congrArg _ ((namedTick_establish h (hexpire ▸ hrun)).trans hexpire)

/-- R74 and R143: the aim timer ends the slot in AIM. -/
theorem aimTimer_endsSlot {s : State} {r : RunningRound} {a : Aim} (hr : s.round.state = .running r) (hp : r.phase = .aim)
    (ha : s.follower.aim = some a) (ho : a.owner = .round) (h : onlyDue .aim s) :
    exec .aimTimerExpiry s = .next (endSlot .notFound none (aimTimedOut (countTick s))) := by
  obtain ⟨a', ha', haim⟩ := aim_of_due h.1
  obtain rfl : a = a' := Option.some.inj (ha.symm.trans ha')
  have hround : (aimTimedOut (countTick s)).round = (countTick s).round := keeps_aimTimedOut _ .round (by simp)
  have hrunning : (aimTimedOut (countTick s)).round.state = .running { r with slotTimer := r.slotTimer - 1 } := by
    rw [hround, countTick_running hr]
  have hexpire : expireAim (countTick s) = endSlot .notFound none (aimTimedOut (countTick s)) := by
    rw [expireAim_of_aim haim rfl, if_pos ho, roundAimTimeout_of_aim hrunning hp]
    exact examineDue_of_not_due _ (endSlot_leaves _ _ hrunning).2.2.2.2.2.2.2.2
  have hrun := endSlot_timersRun (res := .notFound) (aim := none) hrunning
    (countTick_measure (h.2 .measure (by simp))) (by rw [hround]; exact countTick_period (h.2 .period (by simp)))
  exact congrArg _ ((namedTick_aim h (hexpire ▸ hrun)).trans hexpire)

/-- R150: the entry whose slot ended last holds that slot's result after the commit. -/
theorem completeRound_lastEntry (l : List PendingResult) (i : Fin 16) (s : State) :
    (completeRound (l ++ [⟨i, .notFound, none⟩]) s).round.table[i].result = .notFound ∧
      (completeRound (l ++ [⟨i, .notFound, none⟩]) s).round.table[i].resultRound =
        some (min 4294967295 (s.round.roundNumber + 1)) ∧
      (completeRound (l ++ [⟨i, .notFound, none⟩]) s).round.table[i].aim = (commitResults 0 s.round.table l)[i].aim := by
  have htable : (completeRound (l ++ [⟨i, .notFound, none⟩]) s).round.table[i] =
      (commitResults (nextRoundNumber s.round.roundNumber) s.round.table l)[i].commit ⟨i, .notFound, none⟩
        (nextRoundNumber s.round.roundNumber) := by
    rw [completeRound_round, RoundUnit.committed, commitResults_append]
    simp
  rw [htable, ← nextRoundNumber_eq]
  exact ⟨rfl, rfl, commitResults_aim _ _ l _ _ (fun _ => rfl) i⟩

/-- R142: the slot timer, with what its row says beyond `slotEnds`. -/
theorem slotEnds_slotTimer {s : State} {r : RunningRound} (hr : s.round.state = .running r) (h : onlyDue .slot s) :
    ∃ t, exec .slotTimerExpiry s = .next t ∧ t.localTime = s.localTime + 1 ∧ t.distance.state = .none ∧
      slotEnds r .notFound none (s.localTime + 1) s t ∧
      (∀ e, r.slots[r.results.length + 1]? = some e → t.head.tx = s.head.tx) ∧
      (r.slots[r.results.length + 1]? = none →
        t.round.table[r.current].result = .notFound ∧
        t.round.table[r.current].resultRound = some (min 4294967295 (s.round.roundNumber + 1)) ∧
        t.round.table[r.current].aim = (commitResults 0 s.round.table r.results)[r.current].aim ∧
        t.follower.state =
          (if s.round.returnOn = true ∧ s.round.returnAngles ≠ none then .aiming else .parked)) := by
  have hends := slotEnds_endSlot (inSlot_countTick hr) .notFound none
  have hrunning := countTick_running hr
  refine ⟨_, slotTimer_endsSlot hr h, (endSlot_leaves _ _ hrunning).2.2.2.2.2.2.2.1, hends.1, hends, fun e he => ?_,
    fun hl => ?_⟩
  · have hhead := keeps_beginSlot_head
      { r with slotTimer := r.slotTimer - 1, results := r.results ++ [⟨r.current, .notFound, none⟩] } e
      (releaseDistance (countTick s)) .head (by simp)
    rw [endSlot_of_next hrunning he, hhead]
    simp [(countTick_fields s).2.2.2.2.2.2.2.2]
  · obtain ⟨hresult, hnumber, haim⟩ := completeRound_lastEntry r.results r.current (releaseDistance (countTick s))
    have hround : (releaseDistance (countTick s)).round = s.round.tick := by simp [(countTick_fields s).2.2.2.2.1]
    rw [hround] at hnumber haim
    have hlast := endSlot_of_last (res := .notFound) (aim := none) hrunning hl
    obtain ⟨-, -, -, -, -, -, -, hreturn, hpark⟩ := hends.2.2 hl
    refine ⟨hlast ▸ hresult, hlast ▸ hnumber, hlast ▸ haim, ?_⟩
    split
    · next hback =>
      obtain ⟨a, ha⟩ := Option.ne_none_iff_exists'.mp hback.2
      exact (hreturn a hback.1 ha).1
    · next hstay =>
      refine hpark ?_
      cases hon : s.round.returnOn with
      | false => exact .inl rfl
      | true => exact .inr (by_contra fun hn => hstay ⟨hon, hn⟩)

/-- R148: the usable sample in AVERAGE that is not the eighth is added, and the eighth gives the result. -/
theorem average_arrives {s : State} {r : RunningRound} {f : Sample} {rest : List Sample} {src : DistanceSource}
    {d : CorrectedDistance} {flags : PointFlags} (h : usableFront s f rest src d flags) (hr : s.round.state = .running r)
    (hp : r.phase = .average) :
    ∃ t, exec .takeSample s = .next t ∧
      (r.avgCount + 1 < 8 →
        t.round.state = .running { r with avgCount := r.avgCount + 1, sums := r.sums.add d.at_.pos } ∧
        t.distance = s.distance) ∧
      (8 ≤ r.avgCount + 1 →
        slotEnds r (judge s.round.table[r.current] (r.sums.add d.at_.pos))
            (some ⟨(stageA s.correction f).az, clamp (-720000) 960000 (stageA s.correction f).el⟩) s.localTime s t ∧
          t.events.get .distanceLost = s.events.get .distanceLost) := by
  obtain ⟨hkdistance, hkevents, hvalue, hpresent⟩ := correctedFront_usable h
  obtain ⟨hrx, hfollowing, hpending, hbeam, -⟩ := h
  have hkfollower := (correctedFront_keeps f rest s).2.1
  obtain ⟨hstays, hdistance, -, -, hevents, hreport⟩ :=
    followerSample_following (correctedFront f rest s).2 (s := (correctedFront f rest s).1) (by rw [hkfollower, hfollowing])
      (by rw [hkfollower, hpending]) hpresent
  obtain ⟨v, hv, hvround, hvfollower, hvdistance, hvtime, hslot, hvevents⟩ := takeSample_average hrx hr hp
  have husable : usableDistance (correctedFront f rest s).2 v = some d := by
    rw [usableDistance, hvfollower]
    exact (if_pos hstays).trans hvalue
  have hreport' : (frontHandled f rest s).report = .none := hreport
  rw [hreport', if_neg (by simp), averageSample_of_some husable] at hv
  have hvd : v.distance = s.distance := hvdistance.trans (hdistance.trans hkdistance)
  have hangles : (correctedFront f rest s).2.sampleAngles.map clampAngles =
      some ⟨(stageA s.correction f).az, clamp (-720000) 960000 (stageA s.correction f).el⟩ := by
    rw [correctedFront_sampleAngles, good_of_present hbeam]
    rfl
  have hentry : v.round.entry r = s.round.table[r.current] := by rw [hvround]; rfl
  refine ⟨_, hv, fun hfew => ?_, fun hmany => ?_⟩
  · rw [if_pos hfew]
    exact ⟨rfl, hvd⟩
  · rw [if_neg (by omega), hangles, hentry]
    refine ⟨hvtime ▸ slotEnds_endSlot hslot _ _, ?_⟩
    rw [(endSlot_quiet_distance (by rw [hvround, hr])).2, hvevents.2 .distanceLost (by simp), frontHandled, hevents, hkevents]

/-- R148 and R149: a sample with no distance ends the slot in AVERAGE. -/
theorem average_without_distance {s : State} {r : RunningRound} {f : Sample} {rest : List Sample} (h : s.head.rx = f :: rest)
    (hr : s.round.state = .running r) (hp : r.phase = .average) (hn : ∀ src d, ¬ handedDistance s f src d) :
    ∃ t, exec .takeSample s = .next t ∧ slotEnds r .notFound none s.localTime s t := by
  obtain ⟨v, hv, -, -, -, hvtime, hslot, -⟩ := takeSample_average h hr hp
  have hunusable : usableDistance (correctedFront f rest s).2 v = none := by
    rw [usableDistance, correctedFront_unhanded hn, ite_self]
  rw [averageSample_of_none hunusable, ite_self] at hv
  exact ⟨_, hv, hvtime ▸ slotEnds_endSlot hslot _ _⟩

/-- R57 and R147: DROP_DISTANCE ends the slot in ADM. -/
theorem dropDistance_endsSlot (q : Taking) {s : State} {r : RunningRound} {m : Nat} (h : portReady s)
    (hr : s.round.state = .running r) (hp : r.phase = .adm) (hw : s.distance.state = .awaitAdm .round m) :
    ∃ t, exec (.dropDistance q) s = .next t ∧ answers q 0x0B .ok [⟨1, 1⟩] s t ∧
      t.distance = { s.distance with state := .none, lastWaitKind := .adm, lastWaitOutcome := .cancelled } ∧
      slotEnds r .notFound none s.localTime s t := by
  let u : State := takingState q (.named q.tag .dropDistance) s
  obtain ⟨hans, hkeep, hsrc⟩ := requestArrive_taken q .dropDistance s (by simp) h
  have hdrop : dropFor u = endSlot .notFound none (releaseDistance u) := dropFor_of_round_wait hr hp hw
  have hstate : (taken q .dropDistance s).state = endSlot .notFound none (releaseDistance u) := hdrop
  rw [hstate] at hkeep hsrc
  have hrelease : (releaseDistance u).round = u.round := by simp
  have hslot : InSlot r s (releaseDistance u) := .of_round hr hrelease (by rw [releaseDistance_events]; rfl)
  have htime : (releaseDistance u).localTime = s.localTime := by simp [u]
  have hnone : (releaseDistance (releaseDistance u)) = releaseDistance u := releaseDistance_of_none _ (releaseDistance_state _).1
  have hwait : u.distance.state.wait = some (.adm, .round, m) := by simp [u, hw, DistanceState.wait]
  refine ⟨_, rfl, ?_, ?_, ?_⟩
  · have hdata : (taken q .dropDistance s).data = [⟨1, 1⟩] := by
      have hcode : (taken q .dropDistance s).data = [d1 u.distance.state.code] := rfl
      rw [hcode, show u.distance.state = .awaitAdm .round m from hw]
      rfl
    rw [hdata] at hans
    exact hans
  · have hdistance : (requestArrive q .dropDistance s).distance = (endSlot .notFound none (releaseDistance u)).distance :=
      hkeep .distance (by simp)
    rw [hdistance, (endSlot_quiet_distance (by rw [hrelease]; exact hr)).1, hnone, releaseDistance_of_wait u hwait]
    rfl
  · exact slotEnds_congr (htime ▸ slotEnds_endSlot hslot _ _)
      ⟨hkeep .distance (by simp), hkeep .round (by simp), hkeep .follower (by simp), hkeep .search (by simp)⟩ hsrc

/-- Settles O29: each end of a slot is the same step of the round unit, on what its timer, its request or its sample left. -/
theorem slotEnds : Obligations.SlotEnds := by
  refine ⟨fun s r hr h => ?_, fun s r m hr hp hw h => ?_, fun s r a hr hp ha ho h => ?_,
    fun q s r m h hr hp hw => dropDistance_endsSlot q h hr hp hw, fun s r f rest src d flags sums h hr hp hsums => ?_,
    fun s r f rest h hr hp hn => average_without_distance h hr hp hn⟩
  · obtain ⟨t, hexec, htime, hdistance, hends, htx, hlast⟩ := slotEnds_slotTimer hr h
    refine ⟨t, hexec, htime, hdistance, hends, fun e he => ?_, fun hl => ?_⟩
    · obtain ⟨hstate, htable, -, haiming, haim, hsearch⟩ := hends.2.1 e he
      exact ⟨hstate, htable, haiming, haim, hsearch, htx e he⟩
    · obtain ⟨hidle, hnumber, -, -, -, hdone, -⟩ := hends.2.2 hl
      obtain ⟨hresult, hround, haim, hstate⟩ := hlast hl
      exact ⟨hidle, hnumber, hresult, hround, haim, hdone, hstate⟩
  · let u : State := timeOutWait .adm (countTick s)
    have hround : u.round = (countTick s).round := keeps_timeOutWait_parts _ _ .round (by simp)
    have hslot : InSlot r s u := by
      obtain ⟨hrun, htable, hnumber, hon, hangles, hdone⟩ := inSlot_countTick hr
      exact ⟨hround ▸ hrun, hround ▸ htable, hround ▸ hnumber, hround ▸ hon, hround ▸ hangles,
        ((sources_timeOutWait _ _).2 .roundDone (by simp)).trans hdone⟩
    have hrunning : u.round.state = .running { r with slotTimer := r.slotTimer - 1 } := by rw [hround, countTick_running hr]
    refine ⟨_, establishTimer_endsSlot hr hp hw h, (endSlot_leaves _ _ hrunning).2.2.2.2.2.2.2.1, ?_, ?_,
      slotEnds_endSlot hslot _ _⟩
    · rw [(endSlot_quiet_distance hrunning).1, releaseDistance_of_none u rfl]
      rfl
    · rw [(sources_endSlot _ _ _).2 .admTimeout (by simp [slotSources]), timeOutWait_event,
        (sources_countTick s).2 .admTimeout (by simp)]
      rfl
  · let u : State := aimTimedOut (countTick s)
    have hround : u.round = (countTick s).round := keeps_aimTimedOut _ .round (by simp)
    have hslot : InSlot r s u := by
      obtain ⟨hrun, htable, hnumber, hon, hangles, hdone⟩ := inSlot_countTick hr
      exact ⟨hround ▸ hrun, hround ▸ htable, hround ▸ hnumber, hround ▸ hon, hround ▸ hangles,
        ((sources_aimTimedOut _).2 .roundDone (by simp)).trans hdone⟩
    have hrunning : u.round.state = .running { r with slotTimer := r.slotTimer - 1 } := by rw [hround, countTick_running hr]
    refine ⟨_, aimTimer_endsSlot hr hp ha ho h, (endSlot_leaves _ _ hrunning).2.2.2.2.2.2.2.1, ?_, slotEnds_endSlot hslot _ _⟩
    rw [(sources_endSlot _ _ _).2 .aimTimeout (by simp [slotSources]), aimTimedOut_event,
      (sources_countTick s).2 .aimTimeout (by simp)]
    rfl
  · obtain ⟨t, hexec, hfew, hmany⟩ := average_arrives h hr hp
    subst hsums
    refine ⟨t, hexec, hfew, fun pos dev h8 hpos hdev => ?_⟩
    obtain ⟨hends, hlost⟩ := hmany h8
    have hmean : (r.sums.add d.at_.pos).mean 8 = pos := hpos.symm
    have hsub : pos.sub s.round.table[r.current].nominal = dev := hdev.symm
    refine ⟨fun hin => ?_, fun hcheck hfar => ?_, hlost⟩
    · have hjudge : judge s.round.table[r.current] (r.sums.add d.at_.pos) = .inTol ⟨pos, dev⟩ := by
        rw [← hsub, ← hmean]
        cases hcheck : s.round.table[r.current].checkMode with
        | presence => exact judge_of_presence hcheck _
        | position => exact judge_of_near hcheck (hmean ▸ (hin.resolve_left (by rw [hcheck]; simp)))
      exact hjudge ▸ hends
    · have hjudge : judge s.round.table[r.current] (r.sums.add d.at_.pos) = .outTol ⟨pos, dev⟩ := by
        rw [← hsub, ← hmean]
        exact judge_of_far hcheck (hmean ▸ hfar)
      exact hjudge ▸ hends

end Sys2Proof.Proofs
end

