-- ==== Sys2Proof/Proofs/Following.lean ====
section
/-! The follower's handling of a sample, by its state (sections 4.2 to 4.10 and 5.4): the loop, an aim, a grace, and the search that
the follower or the round unit asks for. -/

namespace Sys2Proof.Machine

/-! ### The state in which the transition is made (R61, R64) -/

/-- The front sample's correction is made and its presence decision kept. -/
def notedFront (f : Sample) (rest : List Sample) (s : State) : State :=
  notePresence (correctedFront f rest s).2 (correctedFront f rest s).1

section Noted

variable (f : Sample) (rest : List Sample) (s : State)

theorem notedFront_follower :
    (notedFront f rest s).follower =
      { s.follower with
        present := decidePresence s.follower f
        lastAngles := if decidePresence s.follower f then some (stageA s.correction f) else s.follower.lastAngles } := by
  have hkept := (correctedFront_keeps f rest s).2.1
  have hpresent := (correctedFront_fields f rest s).2.1
  have hangles := correctedFront_sampleAngles f rest s
  have hnoted : (notedFront f rest s).follower =
      { (correctedFront f rest s).1.follower with
        present := (correctedFront f rest s).2.present
        lastAngles :=
          if (correctedFront f rest s).2.present then (correctedFront f rest s).2.sampleAngles
          else (correctedFront f rest s).1.follower.lastAngles } := rfl
  rw [hnoted, hkept, hpresent, hangles]
  cases hp : decidePresence s.follower f with
  | false => rfl
  | true => rw [good_of_present hp]; rfl

theorem keeps_notedFront : keepsOthers [.follower] (correctedFront f rest s).1 (notedFront f rest s) := keeps_setFollower _ _

theorem notedFront_events : (notedFront f rest s).events = (correctedFront f rest s).1.events := rfl

theorem notedFront_search : (notedFront f rest s).search = s.search := (correctedFront_keeps f rest s).2.2.1

theorem notedFront_localTime : (notedFront f rest s).localTime = s.localTime := (correctedFront_keeps f rest s).2.2.2.2.2.2

theorem notedFront_head : (notedFront f rest s).head = { s.head with rx := rest } := (correctedFront_keeps f rest s).2.2.2.2.1

theorem sources_notedFront : keepsSources [.distanceLost, .distanceFault] s (notedFront f rest s) :=
  sources_then_same (sources_correctedFront f rest s) rfl

end Noted

/-! ### The transition, by the follower's state (R66) -/

section Transition

variable {f : Sample} {rest : List Sample} {s : State}

theorem frontHandled_eq : frontHandled f rest s = followerTransition (correctedFront f rest s).2 (notedFront f rest s) := rfl

theorem frontHandled_of_pending (h : s.follower.followPending = true) :
    frontHandled f rest s = decidePending (correctedFront f rest s).2 (notedFront f rest s) := by
  rw [frontHandled_eq, followerTransition, notedFront_follower]
  exact if_pos h

variable (hp : s.follower.followPending = false)

include hp in
theorem frontHandled_of_parked (h : s.follower.state = .parked) : frontHandled f rest s = ⟨notedFront f rest s, none, .none⟩ := by
  simp only [frontHandled_eq, followerTransition, notedFront_follower, hp, Bool.false_eq_true, if_false, h]

include hp in
theorem frontHandled_of_aiming {a : Aim} (h : s.follower.state = .aiming) (ha : s.follower.aim = some a) :
    frontHandled f rest s = aimSample a (correctedFront f rest s).2 (notedFront f rest s) := by
  simp only [frontHandled_eq, followerTransition, notedFront_follower, hp, Bool.false_eq_true, if_false, h, ha]

include hp in
theorem frontHandled_of_following (h : s.follower.state = .following) :
    frontHandled f rest s =
      if decidePresence s.follower f then
        ⟨(steer (correctedFront f rest s).2 (notedFront f rest s)).1,
          some (steer (correctedFront f rest s).2 (notedFront f rest s)).2, .none⟩
      else enterHolding (notedFront f rest s) := by
  simp only [frontHandled_eq, followerTransition, notedFront_follower, hp, Bool.false_eq_true, if_false, h,
    (correctedFront_fields f rest s).2.1]

include hp in
theorem frontHandled_of_holding (h : s.follower.state = .holding) :
    frontHandled f rest s =
      if decidePresence s.follower f then closeLoop true .none (correctedFront f rest s).2 (notedFront f rest s)
      else countGrace (notedFront f rest s) := by
  simp only [frontHandled_eq, followerTransition, notedFront_follower, hp, Bool.false_eq_true, if_false, h,
    (correctedFront_fields f rest s).2.1]

include hp in
theorem frontHandled_of_searching (h : s.follower.state = .searching) :
    frontHandled f rest s = searchingSample (correctedFront f rest s).2 (notedFront f rest s) := by
  simp only [frontHandled_eq, followerTransition, notedFront_follower, hp, Bool.false_eq_true, if_false, h]

include hp in
theorem frontHandled_of_lost (h : s.follower.state = .lost) :
    frontHandled f rest s = lostSample (correctedFront f rest s).2 (notedFront f rest s) := by
  simp only [frontHandled_eq, followerTransition, notedFront_follower, hp, Bool.false_eq_true, if_false, h]

end Transition

/-! ### The loop (R66, R67, R85 to R87) -/

/-- R85 to R87: in `h` the loop of both axes has run on sample `f` from the integrators `iAz` and `iEl`, and its frame is to be
written. -/
def LoopRun (iAz iEl : Int) (f : Sample) (s : State) (h : Handled) : Prop :=
  ∃ az el : Int × Int,
    az = steerAxis s.follower.kpAz s.follower.kiAz iAz
      (azimuthError (clampPsd f.psdX) (cosOf (stageA s.correction f).el)) ∧
    el = steerAxis s.follower.kpEl s.follower.kiEl iEl (clampPsd f.psdY) ∧
    h.state.follower.iAz = az.2 ∧ h.state.follower.iEl = el.2 ∧ h.frame = some (.follow az.1 el.1)

theorem loopWritten_of_run {iAz iEl : Int} {f : Sample} {s t : State} {h : Handled} (hrun : LoopRun iAz iEl f s h)
    (hf : t.follower = h.state.follower) (hw : ∀ g, h.frame = some g → steerWritten g s t) : loopWritten iAz iEl f s t := by
  obtain ⟨az, el, haz, hel, hiaz, hiel, hframe⟩ := hrun
  exact ⟨az, el, haz, hel, by rw [hf, hiaz], by rw [hf, hiel], hw _ hframe⟩

section Loop

variable {f : Sample} {rest : List Sample} {s u : State}

/-- The gains and the elevation pair that a loop on the front sample runs with: those of `s` and of the sample's own angles. -/
structure LoopReady (f : Sample) (s u : State) : Prop where
  kpAz : u.follower.kpAz = s.follower.kpAz
  kiAz : u.follower.kiAz = s.follower.kiAz
  kpEl : u.follower.kpEl = s.follower.kpEl
  kiEl : u.follower.kiEl = s.follower.kiEl
  cosEl : u.correction.cosEl = cosOf (stageA s.correction f).el

theorem steer_run (h : LoopReady f s u) (rep : FollowerReport) :
    LoopRun u.follower.iAz u.follower.iEl f s
      ⟨(steer (correctedFront f rest s).2 u).1, some (steer (correctedFront f rest s).2 u).2, rep⟩ := by
  have hx := (correctedFront_fields f rest s).2.2.1
  have hy := (correctedFront_fields f rest s).2.2.2.1
  refine ⟨_, _, rfl, rfl, ?_, ?_, ?_⟩ <;> simp [steer, h.kpAz, h.kiAz, h.kpEl, h.kiEl, h.cosEl, hx, hy]

/-- R25: a PRESENT sample's loop runs with the pair of that sample. -/
theorem notedFront_ready (hp : decidePresence s.follower f = true) : LoopReady f s (notedFront f rest s) where
  kpAz := by rw [notedFront_follower]
  kiAz := by rw [notedFront_follower]
  kpEl := by rw [notedFront_follower]
  kiEl := by rw [notedFront_follower]
  cosEl := by
    have hcorrection : (notedFront f rest s).correction = (correctedFront f rest s).1.correction :=
      keeps_notedFront f rest s .correction (by simp)
    rw [hcorrection, correctedFront_correction, good_of_present hp]
    rfl

theorem closeLoop_run (keep : Bool) (rep : FollowerReport) (h : LoopReady f s u) :
    LoopRun (if keep then u.follower.iAz else 0) (if keep then u.follower.iEl else 0) f s
      (closeLoop keep rep (correctedFront f rest s).2 u) := by
  have hready : LoopReady f s (enterFollowing keep u) :=
    ⟨by rw [enterFollowing_follower]; exact h.kpAz, by rw [enterFollowing_follower]; exact h.kiAz,
      by rw [enterFollowing_follower]; exact h.kpEl, by rw [enterFollowing_follower]; exact h.kiEl,
      by rw [(enterFollowing_keeps keep u).1]; exact h.cosEl⟩
  have hrun := steer_run (rest := rest) hready rep
  rw [enterFollowing_follower] at hrun
  exact hrun

theorem closeLoop_follower (keep : Bool) (rep : FollowerReport) (c : Corrected) (u : State) :
    ∃ iAz iEl, (closeLoop keep rep c u).state.follower =
      { u.follower with
        state := .following, grace := none, aim := none, arrivalRun := 0, acqRun := 0, iAz := iAz, iEl := iEl } := by
  let v : State := enterFollowing keep u
  exact ⟨(steerAxis v.follower.kpAz v.follower.kiAz v.follower.iAz (azimuthError c.psdX v.correction.cosEl)).2,
    (steerAxis v.follower.kpEl v.follower.kiEl v.follower.iEl c.psdY).2, by simp [closeLoop, steer, v]⟩

/-- R45: the entry starts the automatic wait where nothing stands against it. -/
theorem closeLoop_distance (keep : Bool) (rep : FollowerReport) (c : Corrected) (u : State) :
    (closeLoop keep rep c u).state.distance = autoWait u := by
  have hentered : (closeLoop keep rep c u).state.distance = (enterFollowing keep u).distance := by simp [closeLoop, steer]
  rw [hentered, enterFollowing, autoAdmWait, autoWait]
  simp only [storeFollower_keeps]
  split <;> simp [startAdmWait]

end Loop

/-! ### The loss of the beam, and an aim (R72, R73, R80) -/

theorem countsArrival_front (a : Aim) (f : Sample) (rest : List Sample) (s : State) :
    countsArrival a (correctedFront f rest s).2.sampleAngles = true ↔ atTarget a s f := by
  rw [correctedFront_sampleAngles, atTarget]
  cases badSample f with
  | true => simp [countsArrival]
  | false => simp [countsArrival, inRange, revolution, and_assoc]

section AimSample

variable {a : Aim} {c : Corrected} {u : State}

theorem aimSample_of_off (h : ¬ countsArrival a c.sampleAngles = true) :
    aimSample a c u = ⟨u.setFollower { u.follower with arrivalRun := 0 }, some (.position a.az a.el), .none⟩ :=
  if_pos (by simpa using h)

theorem aimSample_of_short (h : countsArrival a c.sampleAngles = true) (hn : u.follower.arrivalRun + 1 < 5) :
    aimSample a c u =
      ⟨u.setFollower { u.follower with arrivalRun := u.follower.arrivalRun + 1 }, some (.position a.az a.el), .none⟩ := by
  rw [aimSample, if_neg (by simp [h]), if_pos hn]

theorem aimSample_of_follow (h : countsArrival a c.sampleAngles = true) (hn : 4 ≤ u.follower.arrivalRun)
    (ht : a.thenAction = .follow) (hp : c.present = true) :
    aimSample a c u = closeLoop false (a.owner.report .arrived) c u := by
  simp only [aimSample, h, Bool.true_eq_false, if_false, if_neg (show ¬ u.follower.arrivalRun + 1 < 5 by omega), ht, hp]

theorem aimSample_of_hold (h : countsArrival a c.sampleAngles = true) (hn : 4 ≤ u.follower.arrivalRun)
    (ht : a.thenAction = .hold ∨ c.present = false) : aimSample a c u = loseBeam (a.owner.report .arrived) u := by
  simp only [aimSample, h, Bool.true_eq_false, if_false, if_neg (show ¬ u.follower.arrivalRun + 1 < 5 by omega)]
  cases hth : a.thenAction with
  | hold => rfl
  | follow =>
    have hc : c.present = false := ht.resolve_left (by simp [hth])
    rw [hc]

end AimSample

/-! ### The grace (R75 to R77) -/

section Grace

variable {u : State}

/-- R75: the state in which HOLDING has been entered. -/
def heldState (u : State) : State := storeFollower { u.follower with state := .holding, grace := some u.follower.graceParam } u

theorem enterHolding_of_grace (h : 0 < u.follower.graceParam) : enterHolding u = ⟨heldState u, some .hold, .none⟩ :=
  if_neg (Nat.pos_iff_ne_zero.mp h)

theorem enterHolding_of_no_grace (h : u.follower.graceParam = 0) : enterHolding u = expireGrace (heldState u) := if_pos h

theorem countGrace_of_left {g : Nat} (hg : u.follower.grace = some g) (h : 1 < g) :
    countGrace u = ⟨u.setFollower { u.follower with grace := some (g - 1) }, some .hold, .none⟩ := by
  simp only [countGrace, hg, Option.getD_some, if_neg (show ¬ g - 1 = 0 by omega)]

theorem countGrace_of_last {g : Nat} (hg : u.follower.grace = some g) (h : g ≤ 1) :
    countGrace u = expireGrace (u.setFollower { u.follower with grace := some (g - 1) }) := by
  simp only [countGrace, hg, Option.getD_some, if_pos (show g - 1 = 0 by omega)]

theorem expireGrace_of_running (h : u.round.state.isRunning = true) : expireGrace u = loseBeam .beamLost u := if_pos h

theorem expireGrace_of_not_running (h : u.round.state.isRunning = false) :
    expireGrace u = autoSearch (u.follower.lastAngles.getD ⟨0, 0⟩) u := if_neg (by simp [h])

end Grace

/-! ### A search that is asked for on a sample (R69, R77, R99, R145) -/

section Ask

variable {o : Option (Fin 8)} {centre : Angles} {owner : SearchOwner}

theorem askSearch_of_unready {u : State} (h : o = none ∨ ∃ i, o = some i ∧ u.search.descriptors[i].ready = false) :
    askSearch o centre owner u = (u, .unusable) := by
  rcases h with rfl | ⟨i, rfl, hi⟩
  · rfl
  · exact if_neg (by rw [hi]; simp)

theorem askSearch_of_ready {u : State} {i : Fin 8} (h : u.search.descriptors[i].ready = true) :
    askSearch (some i) centre owner u = startSearch i centre owner u := if_pos h

/-- An answer other than "unusable" is that of a descriptor's search. -/
theorem askSearch_ready {u w : State} {x : SearchStart} (h : askSearch o centre owner u = (w, x)) (hx : x ≠ .unusable) :
    ∃ i, startSearch i centre owner u = (w, x) := by
  unfold askSearch at h
  split at h
  · exact absurd (congrArg Prod.snd h).symm hx
  · split at h
    · exact ⟨_, h⟩
    · exact absurd (congrArg Prod.snd h).symm hx

/-- The three answers that a request for a search of `o` in `u` can get, with what the asking block made of them in `t`, are what
the statements ask of a search on a sample of `s`. -/
theorem searchAsked_of_answers {s t u : State} {unusable started starved : Prop} (hsearch : u.search = s.search)
    (hevent : u.events.get .searchStarved = s.events.get .searchStarved) (htime : u.localTime = s.localTime)
    (hun : askSearch o centre owner u = (u, .unusable) → unusable)
    (hstarted : ∀ x g, askSearch o centre owner u = (searchStarted x u, .started g) →
      started ∧ t.follower.state = .searching ∧ t.follower.acqRun = 0 ∧ t.search = x ∧ steerWritten (.position g.az g.el) s t)
    (hstarved : ∀ w, askSearch o centre owner u = (w, .starved) →
      w.follower =
        { u.follower with
          state := .lost, followPending := false, grace := none, aim := none, arrivalRun := 0, acqRun := 0 } →
      w.search.active = none → keepsOthers [.search, .follower, .events] u w →
      keepsSources [.patternLow, .beamAbsent, .searchStarved] u w →
      starved ∧ t.events.get .searchStarved = w.events.get .searchStarved) :
    searchAsked o centre owner unusable started starved s t := by
  refine ⟨fun hn => hun (askSearch_of_unready (by rw [hsearch]; exact hn)), fun i st ho hr hm hst => ?_,
    fun i st ho hr hm hfill hst => ?_, fun i ho hr hm hfill => ?_⟩
  · subst ho
    have hanswer := (askSearch_of_ready (centre := centre) (owner := owner) (by rw [hsearch]; exact hr)).trans
      (startSearch_of_block (centre := centre) (owner := owner) (s := u) (i := i) (by rw [hsearch]; exact hm)
        (by rw [hsearch]; exact hst))
    obtain ⟨hdone, hstate, hrun, hs, hw⟩ := hstarted _ _ hanswer
    rw [hs, hsearch]
    exact ⟨hdone, hstate, hrun, rfl, hw⟩
  · subst ho
    have hanswer := (askSearch_of_ready (centre := centre) (owner := owner) (by rw [hsearch]; exact hr)).trans
      (startSearch_of_ring (centre := centre) (owner := owner) (s := u) (i := i) (by rw [hsearch]; exact hm)
        (by rw [hsearch]; exact hfill) (by rw [hsearch]; exact hst))
    obtain ⟨hdone, hstate, hrun, hs, hw⟩ := hstarted _ _ hanswer
    rw [hs, hsearch]
    exact ⟨hdone, hstate, hrun, rfl, rfl, rfl, hw⟩
  · subst ho
    obtain ⟨w, hw, hfollower, hactive, hlatched, -, hkeep, hsources⟩ :=
      startSearch_empty_leaves (centre := centre) (owner := owner) (s := u) (i := i) (by rw [hsearch]; exact hm)
        (by rw [hsearch]; exact hfill)
    obtain ⟨hdone, hsame⟩ := hstarved w ((askSearch_of_ready (by rw [hsearch]; exact hr)).trans hw) hfollower
      (by rw [hactive]) hkeep hsources
    exact ⟨by rw [hsame, hlatched, hevent, htime], hdone⟩

theorem autoSearch_of_unusable {u w : State} (h : askSearch u.follower.autoSearch centre .follower u = (w, .unusable)) :
    autoSearch centre u = loseBeam .none w := by simp only [autoSearch, h]

theorem autoSearch_of_started {u w : State} {g : Angles}
    (h : askSearch u.follower.autoSearch centre .follower u = (w, .started g)) :
    autoSearch centre u = ⟨w, some (.position g.az g.el), .none⟩ := by simp only [autoSearch, h]

theorem autoSearch_of_starved {u w : State} (h : askSearch u.follower.autoSearch centre .follower u = (w, .starved)) :
    autoSearch centre u = ⟨w, some .hold, .none⟩ := by simp only [autoSearch, h]

end Ask

section AutoSearch

variable {f : Sample} {rest : List Sample} {s t u : State} {centre : Angles}

/-- R69 and R77: a handling that ends in the auto-search of `u` does what the statements ask of it. -/
theorem autoSearched_of_taken (ht : TakenIdle f rest s t) (h : frontHandled f rest s = autoSearch centre u)
    (ho : u.follower.autoSearch = s.follower.autoSearch) (hsearch : u.search = s.search)
    (hevent : u.events.get .searchStarved = s.events.get .searchStarved) (htime : u.localTime = s.localTime) :
    autoSearched centre s t := by
  obtain ⟨hfollower, hsearched, -, -, -, hframe, -, hevents⟩ := ht
  rw [h] at hfollower hsearched hframe hevents
  have hstarvation := hevents.2 .searchStarved (by simp)
  rw [autoSearched, ← ho]
  refine searchAsked_of_answers hsearch hevent htime (fun hx => ?_) (fun x g hx => ?_) (fun w hx hw hactive _ _ => ?_)
  · rw [autoSearch_of_unusable hx] at hfollower hsearched hframe
    refine ⟨by rw [hfollower]; rfl, ?_, hframe _ rfl⟩
    rw [hsearched]
    simpa [loseBeam] using hsearch
  · rw [autoSearch_of_started hx] at hfollower hsearched hframe
    rw [searchStarted_search] at hsearched
    rw [searchStarted_follower] at hfollower
    exact ⟨trivial, by rw [hfollower], by rw [hfollower], hsearched, hframe _ rfl⟩
  · rw [autoSearch_of_starved hx] at hfollower hsearched hframe hstarvation
    exact ⟨⟨by rw [hfollower, hw], by rw [hsearched, hactive], hframe _ rfl⟩, hstarvation⟩

/-- A started search, and one that starved at once, leave no grace, no aim and no follow-pending mark. -/
theorem startSearch_follower (i : Fin 8) (centre : Angles) (owner : SearchOwner) (u : State) :
    ∃ state, (startSearch i centre owner u).1.follower =
      { u.follower with
        state := state, followPending := false, grace := none, aim := none, arrivalRun := 0, acqRun := 0 } := by
  unfold startSearch
  dsimp only
  split
  · exact ⟨.searching, by simp⟩
  · split
    · exact ⟨.lost, by rw [endSearch_follower]; simp⟩
    · exact ⟨.searching, by simp⟩

/-- Nor does the auto-search, whatever becomes of it. -/
theorem autoSearch_follower (centre : Angles) (u : State) (hf : u.follower.followPending = false) :
    (autoSearch centre u).state.follower.followPending = false ∧ (autoSearch centre u).state.follower.aim = none ∧
      (autoSearch centre u).state.follower.grace = none ∧
      (autoSearch centre u).state.follower.lastAngles = u.follower.lastAngles := by
  rcases hx : askSearch u.follower.autoSearch centre .follower u with ⟨w, x⟩
  cases x with
  | unusable =>
    rw [autoSearch_of_unusable hx, askSearch_unusable u hx]
    exact ⟨hf, rfl, rfl, rfl⟩
  | starved | started g =>
    have hready : ∃ i, startSearch i centre .follower u = (w, _) := askSearch_ready hx (by simp)
    obtain ⟨i, hi⟩ := hready
    obtain ⟨state, hstate⟩ := startSearch_follower i centre .follower u
    rw [hi] at hstate
    dsimp only at hstate
    simp [autoSearch, hx, hstate]

/-- R83: BEAM_ABSENT is true after a search has started or starved. -/
theorem startSearch_beamAbsent (i : Fin 8) (centre : Angles) (owner : SearchOwner) (u : State) :
    ((startSearch i centre owner u).1.events.get .beamAbsent).genuine = true := by
  unfold startSearch
  dsimp only
  split
  · exact searchStarted_beamAbsent _ u
  · split
    · exact endSearch_beamAbsent _ _
    · exact searchStarted_beamAbsent _ u

theorem loseBeam_beamAbsent (rep : FollowerReport) (u : State) :
    ((loseBeam rep u).state.events.get .beamAbsent).genuine = true := by
  rw [loseBeam, enterLost, storeFollower_beamAbsent]
  rfl

theorem autoSearch_beamAbsent (centre : Angles) (u : State) :
    ((autoSearch centre u).state.events.get .beamAbsent).genuine = true := by
  rcases hx : askSearch u.follower.autoSearch centre .follower u with ⟨w, x⟩
  cases x with
  | unusable =>
    rw [autoSearch_of_unusable hx]
    exact loseBeam_beamAbsent _ w
  | starved | started g =>
    obtain ⟨i, hi⟩ := askSearch_ready hx (by simp)
    have hgenuine := startSearch_beamAbsent i centre .follower u
    rw [hi] at hgenuine
    simp only [autoSearch, hx]
    exact hgenuine

end AutoSearch

/-! ### An active search on a sample (R78, R102 to R104) -/

section Play

variable {a : ActiveSearch} {u : State}

theorem searchSample_of_dwell (h : u.search.active = some a) (hd : 1 < a.dwell) :
    searchSample u = (u.setSearch { u.search with active := some { a with dwell := a.dwell - 1 } }, some a.target) := by
  simp only [searchSample, h, if_pos hd]

theorem searchSample_of_step (h : u.search.active = some a) (hd : a.dwell ≤ 1) : searchSample u = nextStep a u := by
  simp only [searchSample, h, if_neg (Nat.not_lt.mpr hd)]

/-- R103: where a block search goes next: the next step of the pass, or the first one of the next pass. -/
def blockNext (u : SearchUnit) (a : ActiveSearch) (pos rep next : Nat) : Prop :=
  pos + 1 < u.descriptors[a.descriptor].start + u.descriptors[a.descriptor].length ∧ next = pos + 1 ∨
    u.descriptors[a.descriptor].start + u.descriptors[a.descriptor].length ≤ pos + 1 ∧ 0 < rep ∧
      next = u.descriptors[a.descriptor].start

/-- R103: the record of a block search after its next step `st`, at `next`. -/
def blockStepped (u : SearchUnit) (a : ActiveSearch) (pos rep next : Nat) (st : Step) : ActiveSearch :=
  { a with
    play := .block next
      (if pos + 1 < u.descriptors[a.descriptor].start + u.descriptors[a.descriptor].length then rep else rep - 1)
    target := stepTarget a.centre st, dwell := st.dwell }

theorem nextStep_of_block {pos rep next : Nat} {st : Step} (h : a.play = .block pos rep)
    (hn : blockNext u.search a pos rep next) (hst : u.search.store[next]? = some st) :
    nextStep a u =
      (storeSearch { u.search with active := some (blockStepped u.search a pos rep next st) } u,
        some (stepTarget a.centre st)) := by
  rcases hn with ⟨hlt, rfl⟩ | ⟨hge, hrep, rfl⟩
  · simp only [nextStep, h, if_pos hlt, blockStepped, ActiveSearch.take, stepAt_of_some hst]
  · simp only [nextStep, h, if_neg (Nat.not_lt.mpr hge), if_pos hrep, blockStepped, ActiveSearch.take, stepAt_of_some hst]

theorem nextStep_of_exhausted {pos : Nat} (h : a.play = .block pos 0)
    (hge : u.search.descriptors[a.descriptor].start + u.search.descriptors[a.descriptor].length ≤ pos + 1) :
    nextStep a u = (endSearch .searchExhausted u, none) := by
  simp only [nextStep, h, if_neg (Nat.not_lt.mpr hge), Nat.lt_irrefl, if_false]

theorem nextStep_of_ring {st : Step} (h : a.play = .stream) (hfill : 0 < u.search.ringFill)
    (hst : u.search.store[384 + u.search.ringRead]? = some st) :
    nextStep a u =
      (storeSearch { u.search.ringTaken with active := some { a with target := stepTarget a.centre st, dwell := st.dwell } } u,
        some (stepTarget a.centre st)) := by
  simp only [nextStep, h, if_neg (Nat.pos_iff_ne_zero.mp hfill), SearchUnit.ringHead, ActiveSearch.take, stepAt_of_some hst]

theorem nextStep_of_empty (h : a.play = .stream) (hfill : u.search.ringFill = 0) :
    nextStep a u = (endSearch .searchStarved u, none) := by
  simp only [nextStep, h, if_pos hfill]

theorem playSample_of_target {owner : SearchOwner} {w : State} {g : Angles} (h : searchSample u = (w, some g)) :
    playSample owner u = ⟨w, some (.position g.az g.el), .none⟩ := by simp only [playSample, h]

/-- R79: what the end of a search tells the round unit. -/
def failureReport : SearchOwner → FollowerReport
  | .round => .searchFailed
  | .follower => .none

theorem playSample_of_end {owner : SearchOwner} {w : State} (h : searchSample u = (w, none)) :
    playSample owner u = ⟨w, some .hold, failureReport owner⟩ := by
  cases owner <;> simp only [playSample, h, failureReport]

/-- R78: the count of acquisition after a sample that is not the third in a row. -/
def countedRun (present : Bool) (u : State) : State :=
  u.setFollower { u.follower with acqRun := if present then u.follower.acqRun + 1 else 0 }

theorem searchingSample_of_play {c : Corrected} (ha : u.search.active = some a)
    (h : c.present = false ∨ u.follower.acqRun < 2) :
    searchingSample c u = playSample a.owner (countedRun c.present u) := by
  cases hp : c.present with
  | false => simp only [searchingSample, hp, ha, Option.map_some, Option.getD_some, Bool.false_eq_true, if_false, countedRun]
  | true =>
    have hrun : u.follower.acqRun + 1 < 3 := by have := h.resolve_left (by simp [hp]); omega
    simp only [searchingSample, hp, ha, Option.map_some, Option.getD_some, if_true, if_pos hrun, countedRun]

theorem searchingSample_of_acquired {c : Corrected} (ha : u.search.active = some a) (hp : c.present = true)
    (h : 2 ≤ u.follower.acqRun) : searchingSample c u = acquire a.owner c u := by
  simp only [searchingSample, hp, ha, Option.map_some, Option.getD_some, if_true,
    if_neg (show ¬ u.follower.acqRun + 1 < 3 by omega)]

end Play

/-- The state in which the front sample has been counted toward acquisition. -/
def searchedFront (f : Sample) (rest : List Sample) (s : State) : State :=
  countedRun (decidePresence s.follower f) (notedFront f rest s)

section SearchedFront

variable {f : Sample} {rest : List Sample} {s : State}

theorem frontHandled_of_play {a : ActiveSearch} (hp : s.follower.followPending = false) (h : s.follower.state = .searching)
    (ha : s.search.active = some a) (hq : decidePresence s.follower f = false ∨ s.follower.acqRun < 2) :
    frontHandled f rest s = playSample a.owner (searchedFront f rest s) := by
  have hpresent := (correctedFront_fields f rest s).2.1
  rw [frontHandled_of_searching hp h, searchingSample_of_play (a := a) (by rw [notedFront_search, ha])
    (by rw [hpresent, notedFront_follower]; exact hq), hpresent]
  rfl

theorem searchedFront_search : (searchedFront f rest s).search = s.search := notedFront_search f rest s

theorem searchedFront_follower :
    (searchedFront f rest s).follower =
      { (notedFront f rest s).follower with
        acqRun := if decidePresence s.follower f then s.follower.acqRun + 1 else 0 } := by
  rw [searchedFront, countedRun, State.setFollower_follower, notedFront_follower]

end SearchedFront

/-! ### An entry to FOLLOWING on a taken sample (R45, R66, R67) -/

section Enter

variable {f : Sample} {rest : List Sample} {s t u : State}

theorem correctedFront_no_distance (h : s.distance.state = .none) : (correctedFront f rest s).1.distance = s.distance :=
  correctSample_none f (s := s.setHead { s.head with rx := rest }) h

theorem entersFollowing_of_closeLoop {keep : Bool} {rep : FollowerReport} (ht : TakenIdle f rest s t)
    (h : frontHandled f rest s = closeLoop keep rep (correctedFront f rest s).2 u) (hready : LoopReady f s u)
    (hpending : u.follower.followPending = false) (hd : u.distance = (correctedFront f rest s).1.distance)
    (hh : u.head.hasAdm = s.head.hasAdm) (hr : u.round.state.isRunning = false) :
    entersFollowing (if keep then u.follower.iAz else 0) (if keep then u.follower.iEl else 0) f s t := by
  obtain ⟨hfollower, -, hdistance, -, -, hframe, -, -⟩ := ht
  have hrun := closeLoop_run (rest := rest) keep rep hready
  rw [← h] at hrun
  have hlooped := loopWritten_of_run hrun hfollower hframe
  obtain ⟨iAz, iEl, hstate⟩ := closeLoop_follower keep rep (correctedFront f rest s).2 u
  rw [h, hstate] at hfollower
  rw [h, closeLoop_distance] at hdistance
  refine ⟨by rw [hfollower], by rw [hfollower]; exact hpending, by rw [hfollower], by rw [hfollower], by rw [hfollower],
    by rw [hfollower], hlooped, fun hn ha hadm => ?_, fun hn ha => ?_⟩
  · have hsame : u.distance = s.distance := hd.trans (correctedFront_no_distance hn)
    rw [hdistance, autoWait, hsame, hh, if_pos ⟨hn, ha, hadm, hr⟩]
  · have hsame : u.distance = s.distance := hd.trans (correctedFront_no_distance hn)
    rw [hdistance, autoWait, hsame, hh, if_neg]
    rintro ⟨-, hauto, hadm, -⟩
    simp [hauto, hadm] at ha

/-- R67: an entry that is no return from HOLDING begins with both integrators at 0. -/
theorem entersFollowing_of_reset {rep : FollowerReport} (ht : TakenIdle f rest s t)
    (h : frontHandled f rest s = closeLoop false rep (correctedFront f rest s).2 u) (hready : LoopReady f s u)
    (hpending : u.follower.followPending = false) (hd : u.distance = (correctedFront f rest s).1.distance)
    (hh : u.head.hasAdm = s.head.hasAdm) (hr : u.round.state.isRunning = false) : entersFollowing 0 0 f s t := by
  have hentered := entersFollowing_of_closeLoop ht h hready hpending hd hh hr
  simpa only [Bool.false_eq_true, if_false] using hentered

/-- The state in which the transition is made has the distance, the ADM and the idle round that an entry looks at. -/
theorem entersFollowing_of_noted {keep : Bool} {rep : FollowerReport} (hr : s.round.state = .idle) (ht : TakenIdle f rest s t)
    (h : frontHandled f rest s = closeLoop keep rep (correctedFront f rest s).2 (notedFront f rest s))
    (hp : decidePresence s.follower f = true) (hpending : s.follower.followPending = false) :
    entersFollowing (if keep then s.follower.iAz else 0) (if keep then s.follower.iEl else 0) f s t := by
  have hround : (notedFront f rest s).round = s.round := correctedFront_round (by simp [hr])
  have hentered := entersFollowing_of_closeLoop ht h (notedFront_ready hp) (by rw [notedFront_follower]; exact hpending) rfl
    (by rw [notedFront_head]) (by rw [hround, hr]; rfl)
  rw [notedFront_follower] at hentered
  exact hentered

theorem entersFollowing_of_noted_reset {rep : FollowerReport} (hr : s.round.state = .idle) (ht : TakenIdle f rest s t)
    (h : frontHandled f rest s = closeLoop false rep (correctedFront f rest s).2 (notedFront f rest s))
    (hp : decidePresence s.follower f = true) (hpending : s.follower.followPending = false) :
    entersFollowing 0 0 f s t := by
  have hentered := entersFollowing_of_noted hr ht h hp hpending
  simpa only [Bool.false_eq_true, if_false] using hentered

theorem entersFollowing_of_noted_return {rep : FollowerReport} (hr : s.round.state = .idle) (ht : TakenIdle f rest s t)
    (h : frontHandled f rest s = closeLoop true rep (correctedFront f rest s).2 (notedFront f rest s))
    (hp : decidePresence s.follower f = true) (hpending : s.follower.followPending = false) :
    entersFollowing s.follower.iAz s.follower.iEl f s t := by
  have hentered := entersFollowing_of_noted hr ht h hp hpending
  simpa only [if_true] using hentered

end Enter

/-! ### What a handling can report and change -/

theorem sources_closeLoop (keep : Bool) (rep : FollowerReport) (c : Corrected) (u : State) :
    keepsSources [.beamAbsent] u (closeLoop keep rep c u).state :=
  sources_then_same
    (sources_then_same (sources_storeFollower u _) (keeps_autoAdmWait _ .events (by decide))) rfl

theorem takenIdle_keeps {f : Sample} {rest : List Sample} {s t : State} (hr : s.round.state = .idle)
    (ht : t = emitterSample (correctedFront f rest s).2 (writeFrame (frontHandled f rest s).frame (frontHandled f rest s).state)) :
    keepsOthers [.correction, .distance, .follower, .search, .emitter, .events, .head, .station] s t := by
  have hround : (correctedFront f rest s).1.round = s.round := correctedFront_round (by simp [hr])
  have hall : keepsOthers
      [.correction, .distance, .follower, .search, .emitter, .events, .head, .station, .round] s t := by
    rw [ht]
    exact keeps_then
      (keeps_then
        (keeps_then (keeps_mono (keeps_correctedFront f rest s) (by simp)) (keeps_followerSample _ _) (by simp))
        (writeFrame_keeps _ _) (by simp))
      (keeps_emitterSample _ _) (by simp)
  have hsame : t.round = s.round := by
    rw [ht, keeps_emitterSample _ _ .round (by decide), writeFrame_keeps _ _ .round (by decide), frontHandled_round, hround]
  intro p hp
  by_cases he : p = .round
  · subst he
    exact hsame
  · exact hall p (by simp_all)

/-- A search goes on with the follower as it is, or the follower is in LOST. -/
theorem searchSample_follower (u : State) :
    (searchSample u).1.follower = u.follower ∨ (searchSample u).1.follower.state = .lost := by
  unfold searchSample
  split
  · exact .inl rfl
  · split
    · exact .inl rfl
    · unfold nextStep
      split
      · dsimp only
        split
        · exact .inl rfl
        · split
          · exact .inl rfl
          · exact .inr rfl
      · split
        · exact .inr rfl
        · exact .inl rfl

/-! ### One axis of the loop (R86) -/

section Axis

variable {kp ki i e p d raw : Int}

/-- R86: the integrator runs on while the sum is in range, or where it brings the sum back. -/
theorem steerAxis_integrated (hp : p = (kp * e + 128) / 256) (hd : d = (ki * e + 128) / 256) (hraw : raw = p + i + d) :
    (steerAxis kp ki i e).2 =
      if (-32767 ≤ raw ∧ raw ≤ 32767) ∨ d * raw < 0 then clamp (-16384) 16384 (i + d) else i := by
  have hopposed : d * raw < 0 ↔ (0 < d ∧ raw < 0) ∨ (d < 0 ∧ 0 < raw) := mul_neg_iff
  subst hp hd hraw
  simp only [hopposed]
  rfl

theorem steerAxis_drive (hp : p = (kp * e + 128) / 256) :
    (steerAxis kp ki i e).1 = clamp (-32767) 32767 (p + (steerAxis kp ki i e).2) := by
  subst hp
  rfl

end Axis

/-! ### The rows named after an expiry (R75 to R77, R102) -/

theorem graceDue_of_last {s : State} {f : Sample} {rest : List Sample} {g : Nat} (h : s.head.rx = f :: rest)
    (hs : s.follower.state = .holding) (hp : s.follower.followPending = false) (hg : s.follower.grace = some g) (hl : g ≤ 1)
    (ha : decidePresence s.follower f = false) : graceDue s = true := by
  simp [graceDue, h, hs, hp, hg, hl, ha]

theorem dwellDue_of_last {s : State} {f : Sample} {rest : List Sample} {a : ActiveSearch} (h : s.head.rx = f :: rest)
    (hs : s.follower.state = .searching) (hp : s.follower.followPending = false) (ha : s.search.active = some a)
    (hd : a.dwell ≤ 1) (hq : decidePresence s.follower f = false ∨ s.follower.acqRun < 2) : dwellDue s = true := by
  have hun : (decidePresence s.follower f && decide (2 ≤ s.follower.acqRun)) = false := by
    rcases hq with hq | hq
    · simp [hq]
    · simp [hq]
  simp [dwellDue, h, hs, hp, ha, hd, hun]

end Sys2Proof.Machine

/-! ### The statements -/

namespace Sys2Proof.Proofs

open Sys2Proof Sys2Proof.Machine

/-- Settles O34: the loop of the noted front sample, axis by axis. -/
theorem steeringLoop : Obligations.SteeringLoop := by
  intro s f rest h hs hp hr hq eAz eEl pAz pEl dAz dEl rawAz rawEl heAz heEl hpAz hdAz hpEl hdEl hrawAz hrawEl
  obtain ⟨t, hexec, ht, -⟩ := takeSample_idle h hr
  have hhandled := frontHandled_of_following (f := f) (rest := rest) hp hs
  rw [if_pos hq] at hhandled
  obtain ⟨az, el, haz, hel, hiAz, hiEl, hframe⟩ := steer_run (rest := rest) (notedFront_ready (rest := rest) hq) .none
  rw [← hhandled] at hiAz hiEl hframe
  rw [notedFront_follower] at haz hel
  have heAz' : azimuthError (clampPsd f.psdX) (cosOf (stageA s.correction f).el) = eAz := heAz.symm
  have heEl' : clampPsd f.psdY = eEl := heEl.symm
  rw [heAz'] at haz
  rw [heEl'] at hel
  have hstate : (frontHandled f rest s).state.follower.state = .following := by
    rw [hhandled, steer, State.setFollower_follower, notedFront_follower]
    exact hs
  have hwritten := ht.frame _ hframe
  rw [haz, hel, steerAxis_drive hpAz, steerAxis_drive hpEl, ← haz, ← hel, ← hiAz, ← hiEl, ← ht.follower] at hwritten
  refine ⟨t, hexec, by rw [ht.follower, hstate], ?_, ?_, hwritten⟩
  · rw [ht.follower, hiAz, haz, steerAxis_integrated hpAz hdAz hrawAz]
  · rw [ht.follower, hiEl, hel, steerAxis_integrated hpEl hdEl hrawEl]

/-- Settles O37: the sample on which the grace ends is handled by the auto-search. -/
theorem graceExpires : Obligations.GraceExpires := by
  intro s f rest g h hr hs hp hg hl ha
  obtain ⟨t, hexec, ht, -⟩ := takeSample_idle h hr
  have hdue : exec .graceExpiry s = exec .takeSample s :=
    congrArg _ (if_pos (graceDue_of_last h hs hp hg hl ha))
  let u : State := (notedFront f rest s).setFollower { (notedFront f rest s).follower with grace := some (g - 1) }
  have hround : u.round = s.round := correctedFront_round (by simp [hr])
  have hfollower : u.follower = { (notedFront f rest s).follower with grace := some (g - 1) } := rfl
  rw [notedFront_follower] at hfollower
  have hangles : u.follower.lastAngles = s.follower.lastAngles := by rw [hfollower]; simp [ha]
  have hhandled : frontHandled f rest s = autoSearch (s.follower.lastAngles.getD ⟨0, 0⟩) u := by
    rw [frontHandled_of_holding hp hs, if_neg (by simp [ha]), countGrace_of_last (by rw [notedFront_follower]; exact hg) hl,
      expireGrace_of_not_running (by rw [show _ = s.round from hround, hr]; rfl), ← hangles]
  have hsearched : autoSearched (s.follower.lastAngles.getD ⟨0, 0⟩) s t :=
    autoSearched_of_taken ht hhandled (by rw [hfollower]) (notedFront_search f rest s)
      ((sources_notedFront f rest s).2 .searchStarved (by simp)) (notedFront_localTime f rest s)
  have hleft := autoSearch_follower (s.follower.lastAngles.getD ⟨0, 0⟩) u (by rw [hfollower]; exact hp)
  rw [← hhandled, ← ht.follower] at hleft
  refine ⟨t, hdue.trans hexec, hexec, ht.rx, ?_, hleft.2.2.1, hleft.2.2.2.trans hangles, hsearched, hsearched.1,
    fun i st hi hready hm hst => ?_, fun i hi hready hm hfill => ?_⟩
  · rw [ht.events.2 .beamAbsent (by simp), hhandled]
    exact autoSearch_beamAbsent _ _
  · obtain ⟨-, hstate, hrun, hactive, hwritten⟩ := hsearched.2.1 i st hi hready hm hst
    exact ⟨hstate, hrun, _, rfl, rfl, hactive, hwritten⟩
  · obtain ⟨hlatched, hstate, hactive, hwritten⟩ := hsearched.2.2.2 i hi hready hm hfill
    exact ⟨hstate, hactive, hwritten, hlatched⟩

/-- The frame, the follower and the search of a sample on which the search took its next step. -/
theorem search_steps {s t : State} {f : Sample} {rest : List Sample} {a : ActiveSearch} {x : SearchUnit} {g : Angles}
    (ht : TakenIdle f rest s t) (hs : s.follower.state = .searching)
    (h : frontHandled f rest s = playSample a.owner (searchedFront f rest s))
    (hx : searchSample (searchedFront f rest s) = (storeSearch x (searchedFront f rest s), some g)) :
    t.follower.state = .searching ∧ t.search = x ∧ steerWritten (.position g.az g.el) s t := by
  rw [playSample_of_target hx] at h
  have hfollower : (storeSearch x (searchedFront f rest s)).follower = (searchedFront f rest s).follower :=
    keeps_storeSearch _ _ .follower (by simp)
  refine ⟨?_, by rw [ht.search, h]; rfl, ht.frame _ (by rw [h])⟩
  rw [ht.follower, h, hfollower, searchedFront_follower, notedFront_follower]
  exact hs

/-- The frame, the follower and the event of a sample on which the follower's search ended. -/
theorem search_ends {s t : State} {f : Sample} {rest : List Sample} {a : ActiveSearch} {src : Source}
    (ht : TakenIdle f rest s t) (h : frontHandled f rest s = playSample a.owner (searchedFront f rest s))
    (hx : searchSample (searchedFront f rest s) = (endSearch src (searchedFront f rest s), none))
    (hsrc : src = .searchExhausted ∨ src = .searchStarved) :
    t.follower.state = .lost ∧ t.search.active = none ∧ steerWritten .hold s t ∧
      t.events.get src = (s.events.get src).occurred s.localTime := by
  rw [playSample_of_end hx] at h
  have hnoted : (searchedFront f rest s).events.get src = s.events.get src :=
    (sources_notedFront f rest s).2 src (by rcases hsrc with rfl | rfl <;> simp)
  have htime : (searchedFront f rest s).localTime = s.localTime := notedFront_localTime f rest s
  refine ⟨by rw [ht.follower, h, endSearch_follower], by rw [ht.search, h, endSearch_search], ht.frame _ (by rw [h]), ?_⟩
  rw [ht.events.2 src (by rcases hsrc with rfl | rfl <;> simp), h]
  dsimp only
  rw [endSearch_event (by rcases hsrc with rfl | rfl <;> simp) (by rcases hsrc with rfl | rfl <;> simp), hnoted, htime]

/-- Settles O38: the sample that ends a dwell is played by the search unit's next step. -/
theorem dwellExpires : Obligations.DwellExpires := by
  intro s f rest a h hr hs hp ha hd hq
  obtain ⟨t, hexec, ht, -⟩ := takeSample_idle h hr
  have hdue : exec .dwellExpiry s = exec .takeSample s :=
    congrArg _ (if_pos (dwellDue_of_last h hs hp ha hd hq))
  let u : State := searchedFront f rest s
  have hsearch : u.search = s.search := searchedFront_search
  have hhandled : frontHandled f rest s = playSample a.owner u := frontHandled_of_play hp hs ha hq
  have hplay : searchSample u = nextStep a u := searchSample_of_step (by rw [hsearch, ha]) hd
  refine ⟨t, hdue.trans hexec, hexec, ht.rx, fun hstill => ?_, fun pos rep next st hb hn hst => ?_, fun pos hb hge => ?_,
    fun st hb hfill hst => ?_, fun hb hfill => ?_⟩
  · have hkept : (playSample a.owner u).state = (searchSample u).1 := by
      unfold playSample
      split <;> (next heq => rw [heq])
    rw [ht.follower, hhandled, hkept] at hstill ⊢
    rcases searchSample_follower u with hsame | hlost
    · rw [hsame, searchedFront_follower]
    · exact absurd (hlost.symm.trans hstill) (by simp)
  · obtain ⟨hstate, hx, hwritten⟩ := search_steps ht hs hhandled
      (hplay.trans (nextStep_of_block hb (by rw [hsearch]; exact hn) (by rw [hsearch]; exact hst)))
    rw [hx, hsearch]
    exact ⟨hstate, rfl, hwritten⟩
  · exact search_ends ht hhandled (hplay.trans (nextStep_of_exhausted hb (by rw [hsearch]; exact hge))) (.inl rfl)
  · obtain ⟨hstate, hx, hwritten⟩ := search_steps ht hs hhandled
      (hplay.trans (nextStep_of_ring hb (by rw [hsearch]; exact hfill) (by rw [hsearch]; exact hst)))
    rw [hx, hsearch]
    exact ⟨hstate, rfl, rfl, rfl, hwritten⟩
  · exact search_ends ht hhandled (hplay.trans (nextStep_of_empty hb (by rw [hsearch]; exact hfill))) (.inr rfl)

section TakesSample

variable {s t : State} {f : Sample} {rest : List Sample}

/-- R69: the decision on a follow-pending mark. -/
theorem pending_decided (hr : s.round.state = .idle) (ht : TakenIdle f rest s t) (hp : s.follower.followPending = true) :
    (decidePresence s.follower f = true → entersFollowing 0 0 f s t) ∧
      (decidePresence s.follower f = false →
        t.follower.followPending = false ∧ t.follower.aim = none ∧
        autoSearched (s.follower.lastAngles.getD (if badSample f then ⟨0, 0⟩ else stageA s.correction f)) s t) := by
  let c : Corrected := (correctedFront f rest s).2
  let u : State :=
    (notedFront f rest s).setFollower { (notedFront f rest s).follower with followPending := false, aim := none }
  have hpresent : c.present = decidePresence s.follower f := (correctedFront_fields f rest s).2.1
  have hround : u.round = s.round := correctedFront_round (by simp [hr])
  have hhandled : frontHandled f rest s =
      if decidePresence s.follower f then closeLoop false .none c u
      else autoSearch (u.follower.lastAngles.getD (c.sampleAngles.getD ⟨0, 0⟩)) u := by
    rw [frontHandled_of_pending hp, ← hpresent]
    rfl
  refine ⟨fun hq => ?_, fun hq => ?_⟩
  · rw [hq, if_pos rfl] at hhandled
    obtain ⟨h1, h2, h3, h4, h5⟩ := notedFront_ready (rest := rest) hq
    exact entersFollowing_of_reset ht hhandled ⟨h1, h2, h3, h4, h5⟩ rfl rfl
      (congrArg (·.hasAdm) (notedFront_head f rest s)) (by rw [hround, hr]; rfl)
  · have hfollower : u.follower = { (notedFront f rest s).follower with followPending := false, aim := none } := rfl
    rw [notedFront_follower] at hfollower
    have hcentre : u.follower.lastAngles.getD (c.sampleAngles.getD ⟨0, 0⟩) =
        s.follower.lastAngles.getD (if badSample f then ⟨0, 0⟩ else stageA s.correction f) := by
      rw [hfollower, show c.sampleAngles = _ from correctedFront_sampleAngles f rest s, hq]
      cases badSample f <;> rfl
    rw [hq, if_neg (by simp), hcentre] at hhandled
    have hleft := autoSearch_follower
      (s.follower.lastAngles.getD (if badSample f then ⟨0, 0⟩ else stageA s.correction f)) u rfl
    rw [← hhandled, ← ht.follower] at hleft
    exact ⟨hleft.1, hleft.2.1,
      autoSearched_of_taken ht hhandled (by rw [hfollower]) (notedFront_search f rest s)
        ((sources_notedFront f rest s).2 .searchStarved (by simp)) (notedFront_localTime f rest s)⟩

/-- R72 and R73: a sample in AIMING. -/
theorem aim_handled (hr : s.round.state = .idle) (ht : TakenIdle f rest s t) (hp : s.follower.followPending = false)
    (hs : s.follower.state = .aiming) {a : Aim} (ha : s.follower.aim = some a) :
    (¬ atTarget a s f →
      t.follower.state = .aiming ∧ t.follower.aim = some a ∧ t.follower.arrivalRun = 0 ∧
      steerWritten (.position a.az a.el) s t) ∧
    (atTarget a s f → s.follower.arrivalRun + 1 < 5 →
      t.follower.state = .aiming ∧ t.follower.aim = some a ∧ t.follower.arrivalRun = s.follower.arrivalRun + 1 ∧
      steerWritten (.position a.az a.el) s t) ∧
    (atTarget a s f → 4 ≤ s.follower.arrivalRun → a.thenAction = .follow → decidePresence s.follower f = true →
      entersFollowing 0 0 f s t) ∧
    (atTarget a s f → 4 ≤ s.follower.arrivalRun → a.thenAction = .hold ∨ decidePresence s.follower f = false →
      t.follower.state = .lost ∧ t.follower.aim = none ∧ t.follower.arrivalRun = 0 ∧ t.follower.acqRun = 0 ∧
      (t.events.get .beamAbsent).genuine = true ∧ steerWritten .hold s t) := by
  have hpresent := (correctedFront_fields f rest s).2.1
  have hcounts := countsArrival_front a f rest s
  have hrun : (notedFront f rest s).follower.arrivalRun = s.follower.arrivalRun := by rw [notedFront_follower]
  have hhandled := frontHandled_of_aiming (f := f) (rest := rest) hp hs ha
  refine ⟨fun hoff => ?_, fun hon hn => ?_, fun hon hn hthen hq => ?_, fun hon hn hend => ?_⟩
  · rw [aimSample_of_off (mt hcounts.mp hoff)] at hhandled
    rw [ht.follower, hhandled, State.setFollower_follower, notedFront_follower]
    exact ⟨hs, ha, rfl, ht.frame _ (by rw [hhandled])⟩
  · rw [aimSample_of_short (hcounts.mpr hon) (by rw [hrun]; exact hn)] at hhandled
    rw [ht.follower, hhandled, State.setFollower_follower, notedFront_follower]
    exact ⟨hs, ha, rfl, ht.frame _ (by rw [hhandled])⟩
  · rw [aimSample_of_follow (hcounts.mpr hon) (by rw [hrun]; exact hn) hthen (hpresent.trans hq)] at hhandled
    exact entersFollowing_of_noted_reset hr ht hhandled hq hp
  · rw [aimSample_of_hold (hcounts.mpr hon) (by rw [hrun]; exact hn) (by rw [hpresent]; exact hend)] at hhandled
    rw [ht.follower, ht.events.2 .beamAbsent (by simp), hhandled]
    exact ⟨rfl, rfl, rfl, rfl, loseBeam_beamAbsent _ _, ht.frame _ (by rw [hhandled]; rfl)⟩

/-- R75 and R77: an ABSENT sample in FOLLOWING. -/
theorem following_loses (hr : s.round.state = .idle) (ht : TakenIdle f rest s t) (hp : s.follower.followPending = false)
    (hs : s.follower.state = .following) (hq : decidePresence s.follower f = false) :
    (0 < s.follower.graceParam →
      t.follower.state = .holding ∧ t.follower.grace = some s.follower.graceParam ∧ t.follower.iAz = s.follower.iAz ∧
      t.follower.iEl = s.follower.iEl ∧ steerWritten .hold s t) ∧
    (s.follower.graceParam = 0 →
      t.follower.grace = none ∧ autoSearched (s.follower.lastAngles.getD ⟨0, 0⟩) s t) := by
  have hhandled := frontHandled_of_following (f := f) (rest := rest) hp hs
  have hnoted := notedFront_follower f rest s
  rw [if_neg (by simp [hq])] at hhandled
  refine ⟨fun hg => ?_, fun hg => ?_⟩
  · rw [enterHolding_of_grace (by rw [hnoted]; exact hg)] at hhandled
    rw [ht.follower, hhandled, heldState, storeFollower_follower, hnoted]
    exact ⟨rfl, rfl, rfl, rfl, ht.frame _ (by rw [hhandled])⟩
  · let u : State := heldState (notedFront f rest s)
    have hround : u.round = s.round := (storeFollower_keeps _ _).2.2.2.2.2.1.trans (correctedFront_round (by simp [hr]))
    have hfollower : u.follower =
        { (notedFront f rest s).follower with state := .holding, grace := some (notedFront f rest s).follower.graceParam } := rfl
    rw [hnoted] at hfollower
    have hangles : u.follower.lastAngles = s.follower.lastAngles := by rw [hfollower]; simp [hq]
    rw [enterHolding_of_no_grace (by rw [hnoted]; exact hg),
      expireGrace_of_not_running (by rw [show _ = s.round from hround, hr]; rfl), hangles] at hhandled
    have hleft := autoSearch_follower (s.follower.lastAngles.getD ⟨0, 0⟩) u (by rw [hfollower]; exact hp)
    rw [← hhandled, ← ht.follower] at hleft
    have hevent : u.events.get .searchStarved = s.events.get .searchStarved :=
      ((sources_storeFollower _ _).2 .searchStarved (by simp)).trans
        ((sources_notedFront f rest s).2 .searchStarved (by simp))
    exact ⟨hleft.2.2.1,
      autoSearched_of_taken ht hhandled (by rw [hfollower])
        ((storeFollower_keeps _ _).2.2.2.1.trans (notedFront_search f rest s)) hevent
        ((keeps_storeFollower _ _ .localTime (by simp)).trans (notedFront_localTime f rest s))⟩

/-- R78 and R102: a sample in SEARCHING that acquires the beam, or that the dwell outlasts. -/
theorem searching_handled (hr : s.round.state = .idle) (ht : TakenIdle f rest s t) (hp : s.follower.followPending = false)
    (hs : s.follower.state = .searching) {a : ActiveSearch} (ha : s.search.active = some a) :
    (decidePresence s.follower f = true → 2 ≤ s.follower.acqRun →
      t.search.active = none ∧ t.events.get .reacquired = (s.events.get .reacquired).occurred s.localTime ∧
      entersFollowing 0 0 f s t) ∧
    (1 < a.dwell → decidePresence s.follower f = false ∨ s.follower.acqRun < 2 →
      t.follower.state = .searching ∧
      t.follower.acqRun = (if decidePresence s.follower f then s.follower.acqRun + 1 else 0) ∧
      t.search = { s.search with active := some { a with dwell := a.dwell - 1 } } ∧
      steerWritten (.position a.target.az a.target.el) s t) := by
  have hsearch := notedFront_search f rest s
  refine ⟨fun hq hn => ?_, fun hd hq => ?_⟩
  · let u : State := occur .reacquired (removeSearch (notedFront f rest s))
    obtain ⟨rep, hhandled⟩ : ∃ rep, frontHandled f rest s = closeLoop false rep (correctedFront f rest s).2 u :=
      ⟨_, (frontHandled_of_searching hp hs).trans (searchingSample_of_acquired (by rw [hsearch, ha])
        ((correctedFront_fields f rest s).2.1.trans hq) (by rw [notedFront_follower]; exact hn))⟩
    have hkeep : keepsOthers [.search, .events] (notedFront f rest s) u :=
      keeps_then (keeps_removeSearch _) (keeps_occur _ _) (by simp)
    have hfollower : u.follower = (notedFront f rest s).follower := hkeep .follower (by simp)
    have hcorrection : u.correction = (notedFront f rest s).correction := hkeep .correction (by simp)
    have hdistance : u.distance = (notedFront f rest s).distance := hkeep .distance (by simp)
    have hhead : u.head = (notedFront f rest s).head := hkeep .head (by simp)
    have hround : u.round = s.round := (hkeep .round (by simp)).trans (correctedFront_round (by simp [hr]))
    obtain ⟨h1, h2, h3, h4, h5⟩ := notedFront_ready (rest := rest) hq
    have hready : LoopReady f s u :=
      ⟨by rw [hfollower]; exact h1, by rw [hfollower]; exact h2, by rw [hfollower]; exact h3, by rw [hfollower]; exact h4,
        by rw [hcorrection]; exact h5⟩
    refine ⟨?_, ?_, entersFollowing_of_reset ht hhandled hready (by rw [hfollower, notedFront_follower]; exact hp)
      hdistance (by rw [hhead, notedFront_head]) (by rw [hround, hr]; rfl)⟩
    · have hkept : (closeLoop false rep (correctedFront f rest s).2 u).state.search = u.search :=
        keeps_closeLoop _ _ _ _ .search (by simp)
      rw [ht.search, hhandled, hkept]
      rfl
    · have htime : (removeSearch (notedFront f rest s)).localTime = s.localTime :=
        (keeps_removeSearch _ .localTime (by simp)).trans (notedFront_localTime f rest s)
      have hbefore : (removeSearch (notedFront f rest s)).events.get .reacquired = s.events.get .reacquired :=
        ((sources_storeSearch _ _).2 .reacquired (by simp)).trans ((sources_notedFront f rest s).2 .reacquired (by simp))
      rw [ht.events.2 .reacquired (by simp), hhandled, (sources_closeLoop _ _ _ _).2 .reacquired (by simp),
        occur_get_self, htime, hbefore]
  · have hhandled := frontHandled_of_play (rest := rest) hp hs ha hq
    rw [playSample_of_target (searchSample_of_dwell (by rw [searchedFront_search, ha]) hd)] at hhandled
    rw [ht.follower, ht.search, hhandled, State.setSearch_search, State.setSearch_follower, searchedFront_search,
      searchedFront_follower, notedFront_follower]
    exact ⟨hs, rfl, rfl, ht.frame _ (by rw [hhandled])⟩

end TakesSample

/-- Settles O18: each state's handling of the front sample, and what the hand-over makes of it. -/
theorem followerTakesSample : Obligations.FollowerTakesSample := by
  intro s f rest h hr
  obtain ⟨t, hexec, ht, heq⟩ := takeSample_idle h hr
  refine ⟨t, hexec, ht.rx, takenIdle_keeps hr heq, fun hp => (pending_decided hr ht hp).1,
    fun hp => (pending_decided hr ht hp).2, fun hp hs => ?_, fun a hp hs ha => aim_handled hr ht hp hs ha,
    fun hp hs hq => following_loses hr ht hp hs hq, fun hp hs hq => ?_, fun g hp hs hg hl hq => ?_,
    fun a hp hs ha => searching_handled hr ht hp hs ha, fun hp hs => ?_⟩
  · have hhandled := frontHandled_of_parked (f := f) (rest := rest) hp hs
    have hfollower := ht.follower
    rw [hhandled, notedFront_follower] at hfollower
    exact ⟨ht.still (by rw [hhandled]), by rw [ht.search, hhandled]; exact notedFront_search f rest s, by rw [hfollower]⟩
  · have hhandled := frontHandled_of_holding (f := f) (rest := rest) hp hs
    rw [if_pos hq] at hhandled
    exact entersFollowing_of_noted_return hr ht hhandled hq hp
  · have hhandled := frontHandled_of_holding (f := f) (rest := rest) hp hs
    rw [if_neg (by simp [hq]), countGrace_of_left (by rw [notedFront_follower]; exact hg) hl] at hhandled
    rw [ht.follower, hhandled, State.setFollower_follower, notedFront_follower]
    exact ⟨hs, rfl, rfl, rfl, ht.frame _ (by rw [hhandled])⟩
  · have hround : (notedFront f rest s).round = s.round := correctedFront_round (by simp [hr])
    have hhandled : frontHandled f rest s = ⟨notedFront f rest s, some .hold, .none⟩ :=
      (frontHandled_of_lost hp hs).trans (if_neg (by rw [hround, hr]; simp [RoundState.isRunning]))
    rw [ht.follower, ht.search, hhandled, notedFront_follower]
    exact ⟨hs, rfl, notedFront_search f rest s, ht.frame _ (by rw [hhandled])⟩

end Sys2Proof.Proofs
end

