-- ==== Sys2Proof/Proofs/Emitting.lean ====
section
/-! The emitter's handling of a sample (chapter 6): what a usable sample does in each mode, and the point records it offers. -/

namespace Sys2Proof.Machine

/-! ### An offered point (R128, R129) -/

section Offer

variable (p : PointRecord) (w : State)

theorem offerPoint_emitter :
    (offerPoint p w).emitter =
      { w.emitter with sequence := if w.station.out.length < 56 then w.emitter.sequence + 1 else w.emitter.sequence } := by
  unfold offerPoint
  split <;> rfl

@[simp] theorem offerPoint_mode : (offerPoint p w).emitter.mode = w.emitter.mode := by rw [offerPoint_emitter]

@[simp] theorem offerPoint_fresh : (offerPoint p w).emitter.fresh = w.emitter.fresh := by rw [offerPoint_emitter]

@[simp] theorem offerPoint_latest : (offerPoint p w).emitter.latest = w.emitter.latest := by rw [offerPoint_emitter]

@[simp] theorem offerPoint_latestTimestamp : (offerPoint p w).emitter.latestTimestamp = w.emitter.latestTimestamp := by
  rw [offerPoint_emitter]

/-- R128 and R129: the record takes the next sequence number and a place, or is dropped and counted. -/
theorem offerPoint_offered {s : State} (hst : w.station = s.station) (hseq : w.emitter.sequence = s.emitter.sequence) :
    pointOffered p s (offerPoint p w) := by
  refine ⟨fun hfew => ?_, fun hmany => ?_⟩
  · have hoffer : offerPoint p w =
        (admitRecord (.point { p with sequence := w.emitter.sequence }) w).setEmitter
          { w.emitter with sequence := w.emitter.sequence + 1 } := if_pos (by rw [hst]; exact hfew)
    rw [hoffer, State.setEmitter_station, admit_station, State.setEmitter_events, admit_congested, hst, hseq]
    exact ⟨rfl, rfl, rfl⟩
  · have hoffer : offerPoint p w = w.setStation { w.station with droppedPoints := count16 w.station.droppedPoints } :=
      if_neg (by rw [hst]; exact Nat.not_lt.mpr hmany)
    rw [hoffer, State.setStation_station, State.setStation_emitter, hst, hseq, count16_eq_min]
    exact ⟨rfl, rfl⟩

end Offer

/-- An offered point is seen in the station port, the sequence number and QUEUE_CONGESTED. -/
theorem pointOffered_congr {p : PointRecord} {s t t' : State} (h : pointOffered p s t) (hst : t'.station = t.station)
    (hem : t'.emitter = t.emitter) (hev : t'.events.get .queueCongested = t.events.get .queueCongested) :
    pointOffered p s t' := by
  rw [pointOffered, hst, hem, hev]
  exact h

/-! ### The modes (R117, R122, R123, R126) -/

theorem spacedEmits_iff (gap : Nat) (anchor : Option Anchor) (p : Anchor) :
    spacedEmits gap anchor p = true ↔
      ∀ a, anchor = some a → a.frame = p.frame →
        (gap : Int) * gap ≤
          (p.pos.c1 - a.pos.c1) * (p.pos.c1 - a.pos.c1) + (p.pos.c2 - a.pos.c2) * (p.pos.c2 - a.pos.c2) +
            (p.pos.c3 - a.pos.c3) * (p.pos.c3 - a.pos.c3) := by
  cases anchor with
  | none => simp [spacedEmits]
  | some a =>
    simp only [spacedEmits, Bool.or_eq_true, decide_eq_true_eq, Option.some.injEq, forall_eq']
    exact imp_iff_not_or.symm

theorem nearAnchor_iff (tol : Nat) (a p : Triple) : nearAnchor tol a p = true ↔ nearPoint tol a p := Triple.within_iff _ _

theorem anchor_near_iff (m : SingleMeasure) (p : Triple) :
    (m.anchor.any fun g => nearAnchor m.tol g.pos p) = true ↔ ∃ a, m.anchor = some a ∧ nearPoint m.tol a.pos p := by
  rw [Option.any_eq_true]
  exact exists_congr fun a => and_congr_right fun _ => nearAnchor_iff _ _ _

section Modes

variable {c : Corrected} {d : CorrectedDistance} {v : State}

theorem modeSample_of_idle (h : v.emitter.mode = .idle) : modeSample c d v = v := by simp only [modeSample, h]

theorem modeSample_of_stream {m count : Nat} (h : v.emitter.mode = .stream m count) :
    modeSample c d v =
      if m ≤ count + 1 then offerPoint (samplePoint .stream c d) (setMode (.stream m 0) v)
      else setMode (.stream m (count + 1)) v := by
  simp only [modeSample, h, streamSample]

theorem modeSample_of_spaced {gap : Nat} {anchor : Option Anchor} (h : v.emitter.mode = .spaced gap anchor) :
    modeSample c d v =
      if spacedEmits gap anchor d.at_ then offerPoint (samplePoint .spaced c d) (setMode (.spaced gap (some d.at_)) v)
      else v := by
  simp only [modeSample, h, spacedSample]

theorem modeSample_of_waiting (h : v.emitter.mode = .triggered none) : modeSample c d v = v := by
  simp only [modeSample, h, triggeredSample]

theorem modeSample_of_captured {k : Capture} (h : v.emitter.mode = .triggered (some k)) :
    modeSample c d v = offerPoint (samplePoint (.triggered k.timeMs k.timestamp) c d) (setMode (.triggered none) v) := by
  simp only [modeSample, h, triggeredSample]

theorem modeSample_of_single {m : SingleMeasure} (h : v.emitter.mode = .single m) :
    modeSample c d v = singleSample m c d v := by
  simp only [modeSample, h]

/-- R111 and R112: whatever its mode, the emitter leaves the latest timestamp and the slot as they were written. -/
theorem modeSample_slot (c : Corrected) (d : CorrectedDistance) (v : State) :
    (modeSample c d v).emitter.latestTimestamp = v.emitter.latestTimestamp ∧
      (modeSample c d v).emitter.latest = v.emitter.latest ∧ (modeSample c d v).emitter.fresh = v.emitter.fresh := by
  cases hm : v.emitter.mode with
  | idle => rw [modeSample_of_idle hm]; exact ⟨rfl, rfl, rfl⟩
  | stream m count => rw [modeSample_of_stream hm]; split <;> simp [setMode]
  | spaced gap anchor => rw [modeSample_of_spaced hm]; split <;> simp [setMode]
  | triggered k =>
    cases k with
    | none => rw [modeSample_of_waiting hm]; exact ⟨rfl, rfl, rfl⟩
    | some k => rw [modeSample_of_captured hm]; simp [setMode]
  | single m =>
    rw [modeSample_of_single hm, singleSample]
    split
    · simp [setMode]
    · split
      · dsimp only
        split <;> simp [setMode]
      · simp [setMode]

/-- R61: every sample sets the latest timestamp. -/
theorem emitterSample_timestamp (c : Corrected) (s : State) :
    (emitterSample c s).emitter.latestTimestamp = some c.frame.timestamp := by
  unfold emitterSample
  dsimp only
  split
  · unfold abortSingle
    split <;> rfl
  · rw [(modeSample_slot _ _ _).1]
    rfl

end Modes

/-! ### SINGLE (R117 to R119) -/

section Single

variable {m : SingleMeasure} {c : Corrected} {d : CorrectedDistance} {v : State}

/-- R117: the window after a usable sample in SETTLING, by its anchor and its count. -/
theorem settleOn_eq {anchor : Option Anchor} {w : Nat}
    (h : (∃ a, m.anchor = some a ∧ nearPoint m.tol a.pos d.at_.pos) ∧ anchor = m.anchor ∧ w = m.window + 1 ∨
      ¬ (∃ a, m.anchor = some a ∧ nearPoint m.tol a.pos d.at_.pos) ∧ anchor = some d.at_ ∧ w = 1) :
    m.settleOn d.at_ =
      if m.settle ≤ w then
        { m with
          phase := .averaging .fresh, anchor := anchor, window := w, settleTotal := min 65535 (m.settleTotal + 1) }
      else { m with anchor := anchor, window := w, settleTotal := min 65535 (m.settleTotal + 1) } := by
  rcases h with ⟨hn, rfl, rfl⟩ | ⟨hn, rfl, rfl⟩
  · have hnear := (anchor_near_iff m d.at_.pos).mpr hn
    simp only [SingleMeasure.settleOn, hnear, if_true, count16_eq_min]
  · have hfar : (m.anchor.any fun g => nearAnchor m.tol g.pos d.at_.pos) = false :=
      Bool.eq_false_iff.mpr fun hx => hn ((anchor_near_iff m d.at_.pos).mp hx)
    simp only [SingleMeasure.settleOn, hfar, Bool.false_eq_true, if_false, count16_eq_min]

theorem singleSample_of_settling (h : m.phase = .settling) :
    singleSample m c d v = setMode (.single (m.settleOn d.at_)) v := by
  simp only [singleSample, h]

theorem singleSample_of_far {a : Averaging} (h : m.phase = .averaging a)
    (hf : ¬ ∃ g, m.anchor = some g ∧ nearPoint m.tol g.pos d.at_.pos) :
    singleSample m c d v =
      setMode
        (.single
          { m with phase := .settling, anchor := some d.at_, window := 1, settleTotal := min 65535 (m.settleTotal + 1) })
        v := by
  simp only [singleSample, h, if_neg (mt (anchor_near_iff m d.at_.pos).mp hf), SingleMeasure.resettle, count16_eq_min]

theorem singleSample_of_near {a : Averaging} {g : Anchor} (h : m.phase = .averaging a) (hg : m.anchor = some g)
    (hn : nearPoint m.tol g.pos d.at_.pos) :
    singleSample m c d v =
      if m.n ≤ (a.add d.at_.pos (pointFlags c d)).count then
        offerPoint (singlePoint m (a.add d.at_.pos (pointFlags c d)) g.frame c d) (setMode .idle v)
      else setMode (.single { m with phase := .averaging (a.add d.at_.pos (pointFlags c d)) }) v := by
  have hnear := (anchor_near_iff m d.at_.pos).mpr ⟨g, hg, hn⟩
  simp only [singleSample, h, if_pos hnear]
  rw [hg, Option.map_some, Option.getD_some]

theorem averaging_add (a : Averaging) (p : Triple) (flags : PointFlags) : a.add p flags = averagingWith a p flags := rfl

end Single

/-! ### A measured front sample (R111, R112, R127) -/

/-- What the emitter's mode finds in `v` of a usable front sample: the slot written, and the station port as it was. -/
structure SlotWritten (f : Sample) (src : DistanceSource) (d : CorrectedDistance) (flags : PointFlags) (s v : State) : Prop where
  emitter : v.emitter =
    { s.emitter with
      latestTimestamp := some f.timestamp
      latest := some { seq := f.seq, timestamp := f.timestamp, at_ := d.at_, flags := flags, source := src }
      fresh := true }
  station : v.station = s.station

section Measured

variable {s : State} {f : Sample} {rest : List Sample} {src : DistanceSource} {d : CorrectedDistance} {flags : PointFlags}

/-- A distance is handed on with good samples only. -/
theorem good_of_handed (h : handedDistance s f src d) : badSample f = false := by
  obtain ⟨b, n, hcase, -, -⟩ := h
  rcases hcase with ⟨-, hp, -⟩ | ⟨o, m, dist, q, -, hq, -⟩ | ⟨o, m, -, hq, -⟩
  · exact good_of_present hp
  · exact hq.1
  · exact hq.1

theorem handed_fields (h : handedDistance s f src d) :
    d.source = src ∧ d.refractionStale = s.correction.stale ∧ d.at_ = frameCoordinates s.poses d.tracker := by
  obtain ⟨b, n, -, -, rfl⟩ := h
  exact ⟨rfl, rfl, rfl⟩

theorem pointFlags_measured (h : measuredFront s f rest src d flags) :
    pointFlags (correctedFront f rest s).2 d = flags := by
  obtain ⟨-, hd, hflags⟩ := h
  rw [pointFlags_front (good_of_handed hd) d (handed_fields hd).2.1, hflags]

theorem samplePoint_measured (kind : PointKind) (h : measuredFront s f rest src d flags) :
    samplePoint kind (correctedFront f rest s).2 d =
      { sequence := 0, timestamp := f.timestamp, kind := kind, at_ := d.at_, flags := flags, source := src, samples := 1 } := by
  have hflags := pointFlags_measured h
  obtain ⟨-, hd, -⟩ := h
  rw [samplePoint, hflags, (correctedFront_fields f rest s).1, (handed_fields hd).1]

/-- R112: the state that the mode handles, from a state `w` that the follower has left in FOLLOWING. -/
theorem slotWritten_of_measured (h : measuredFront s f rest src d flags) {w : State} (he : w.emitter = s.emitter)
    (hst : w.station = s.station) (hf : w.follower.state = .following) :
    ∃ v, SlotWritten f src d flags s v ∧
      emitterSample (correctedFront f rest s).2 w = modeSample (correctedFront f rest s).2 d v := by
  have hflags := pointFlags_measured h
  obtain ⟨-, hd, -⟩ := h
  refine ⟨_, ⟨?_, ?_⟩, emitterSample_usable hf (correctedFront_handed hd)⟩
  · rw [writeLatest, State.setEmitter_emitter, State.setEmitter_emitter, latestPoint, hflags, (correctedFront_fields f rest s).1,
      (handed_fields hd).1, he]
  · exact hst

end Measured

section MeasuredTaking

variable {s t : State} {f : Sample} {rest : List Sample}

/-- The state that the emitter handles: with no round, what the follower left, its frame written. -/
def emitterFront (f : Sample) (rest : List Sample) (s : State) : State :=
  writeFrame (frontHandled f rest s).frame (frontHandled f rest s).state

theorem keeps_emitterFront (f : Sample) (rest : List Sample) (s : State) :
    keepsOthers [.head, .correction, .distance, .events, .round, .search, .follower] s (emitterFront f rest s) :=
  keeps_then
    (keeps_then (keeps_mono (keeps_correctedFront f rest s) (by simp)) (keeps_followerSample _ _) (by simp))
    (writeFrame_keeps _ _) (by simp)

theorem emitterFront_follower (f : Sample) (rest : List Sample) (s : State) :
    (emitterFront f rest s).follower = (frontHandled f rest s).state.follower := writeFrame_keeps _ _ .follower (by simp)

/-- R53 and R85: a usable sample leaves the follower in FOLLOWING and the distance as it was. -/
theorem usable_keeps {src : DistanceSource} {d : CorrectedDistance} {flags : PointFlags} (ht : TakenIdle f rest s t)
    (h : usableFront s f rest src d flags) : t.follower.state = .following ∧ t.distance = s.distance := by
  obtain ⟨hkdistance, -, -, hpresent⟩ := correctedFront_usable h
  obtain ⟨-, hfollowing, hpending, -⟩ := h
  have hkfollower := (correctedFront_keeps f rest s).2.1
  obtain ⟨hstays, hdistance, -⟩ :=
    followerSample_following (correctedFront f rest s).2 (s := (correctedFront f rest s).1) (by rw [hkfollower, hfollowing])
      (by rw [hkfollower, hpending]) hpresent
  exact ⟨(congrArg Follower.state ht.follower).trans hstays, ht.distance.trans (hdistance.trans hkdistance)⟩

/-- R111 and R120: what a sample that is not usable leaves of the emitter, with the events beside it. -/
theorem unusable_emitter (ht : TakenIdle f rest s t) (heq : t = emitterSample (correctedFront f rest s).2 (emitterFront f rest s))
    (h : t.follower.state ≠ .following ∨ ∀ src d, ¬ handedDistance s f src d) :
    t = abortSingle
      ((emitterFront f rest s).setEmitter { (emitterFront f rest s).emitter with latestTimestamp := some f.timestamp }) := by
  have hfollower : (emitterFront f rest s).follower = t.follower := (emitterFront_follower f rest s).trans ht.follower.symm
  have hunusable : (emitterFront f rest s).follower.state ≠ .following ∨ (correctedFront f rest s).2.distance = none :=
    h.imp (fun hf => by rw [hfollower]; exact hf) correctedFront_unhanded
  rw [heq, emitterSample_unusable hunusable, (correctedFront_fields f rest s).1]

theorem unusable_not_single (ht : TakenIdle f rest s t) (heq : t = emitterSample (correctedFront f rest s).2 (emitterFront f rest s))
    (h : t.follower.state ≠ .following ∨ ∀ src d, ¬ handedDistance s f src d) (hm : s.emitter.mode.isSingle = false) :
    t.emitter = { s.emitter with latestTimestamp := some f.timestamp } ∧ noPoint s t := by
  have hemitter : (emitterFront f rest s).emitter = s.emitter := keeps_emitterFront f rest s .emitter (by simp)
  have hstation : (emitterFront f rest s).station = s.station := keeps_emitterFront f rest s .station (by simp)
  have hsame := unusable_emitter ht heq h
  rw [abortSingle_of_not _ (by rw [State.setEmitter_emitter, hemitter]; exact hm), hemitter] at hsame
  rw [noPoint, hsame]
  exact ⟨rfl, hstation, rfl⟩

theorem unusable_single (ht : TakenIdle f rest s t) (heq : t = emitterSample (correctedFront f rest s).2 (emitterFront f rest s))
    (h : t.follower.state ≠ .following ∨ ∀ src d, ¬ handedDistance s f src d) (hm : s.emitter.mode.isSingle = true) :
    t.emitter = { s.emitter with mode := .idle, latestTimestamp := some f.timestamp } ∧
      t.events.get .measureAborted = (s.events.get .measureAborted).occurred s.localTime ∧ noPoint s t := by
  have hemitter : (emitterFront f rest s).emitter = s.emitter := keeps_emitterFront f rest s .emitter (by simp)
  have hstation : (emitterFront f rest s).station = s.station := keeps_emitterFront f rest s .station (by simp)
  have htime : (emitterFront f rest s).localTime = s.localTime := keeps_emitterFront f rest s .localTime (by simp)
  have hevent : (emitterFront f rest s).events.get .measureAborted = s.events.get .measureAborted := by
    rw [emitterFront, writeFrame_events, frontHandled, (sources_followerSample _ _).2 .measureAborted (by simp [followerSources]),
      (sources_correctedFront f rest s).2 .measureAborted (by simp)]
  have hsame := unusable_emitter ht heq h
  rw [abortSingle_of_single _ (by rw [State.setEmitter_emitter, hemitter]; exact hm)] at hsame
  rw [noPoint, hsame, occur_get_self]
  refine ⟨?_, ?_, hstation, ?_⟩
  · simp [hemitter]
  · simp [setMode, hevent, htime]
  · simp [hemitter]

end MeasuredTaking

/-! ### The hand-over with a round (R66, R140) -/

section WithRound

/-- With no RUNNING round the sample goes to the follower and the emitter, and a DUE round is examined. -/
theorem handOver_not_running (c : Corrected) {s : State} (h : s.round.state.isRunning = false) :
    handOver c s = examineDue (emitterSample c (writeFrame (followerSample c s).frame (followerSample c s).state)) := by
  have hkept : (followerSample c s).state.round = s.round := keeps_followerSample c s .round (by decide)
  have hsearch : roundSearch c (followerSample c s) = followerSample c s := by
    cases hr : s.round.state with
    | running r => simp [hr, RoundState.isRunning] at h
    | idle | due => simp only [roundSearch, hkept, hr]
  have hround : (emitterSample c (writeFrame (followerSample c s).frame (followerSample c s).state)).round = s.round := by
    rw [keeps_emitterSample c _ .round (by decide), writeFrame_keeps _ _ .round (by decide), hkept]
  have hsample : ∀ rep, roundSample rep c (emitterSample c (writeFrame (followerSample c s).frame (followerSample c s).state)) =
      emitterSample c (writeFrame (followerSample c s).frame (followerSample c s).state) := fun rep => by
    cases hr : s.round.state with
    | running r => simp [hr, RoundState.isRunning] at h
    | idle | due => simp only [roundSample, hround, hr]
  rw [handOver]
  simp only [hsearch, hsample]

variable {s : State} {f : Sample} {rest : List Sample}

theorem takeSample_not_running (h : s.head.rx = f :: rest) (hr : s.round.state.isRunning = false) :
    exec .takeSample s = .next (examineDue (emitterSample (correctedFront f rest s).2 (emitterFront f rest s))) := by
  have hround : (correctedFront f rest s).1.round = s.round :=
    correctedFront_round fun r hx => absurd hr (by simp [hx, RoundState.isRunning])
  exact (takeSample_front f rest h).trans (congrArg _ (handOver_not_running _ (by rw [hround]; exact hr)))

/-- On a PRESENT sample that the follower reports nothing of, the round unit asks for no search. -/
theorem roundSearch_of_present {c : Corrected} {h : Handled} (hp : c.present = true) (hn : h.report = .none) :
    roundSearch c h = h := by
  unfold roundSearch
  rw [hn]
  split
  · split <;> simp_all
  · rfl
  · rfl

/-- R111: in a RUNNING or DUE round too, the emitter handles a usable sample as the follower left it. -/
theorem takeSample_usable {src : DistanceSource} {d : CorrectedDistance} {flags : PointFlags}
    (h : usableFront s f rest src d flags) :
    (emitterFront f rest s).follower.state = .following ∧
      ∃ t, exec .takeSample s = .next t ∧
        t.emitter = (emitterSample (correctedFront f rest s).2 (emitterFront f rest s)).emitter := by
  obtain ⟨-, -, -, hpresent⟩ := correctedFront_usable h
  obtain ⟨hrx, hfollowing, hpending, -⟩ := h
  have hkfollower := (correctedFront_keeps f rest s).2.1
  obtain ⟨hstays, -, -, -, -, hreport⟩ :=
    followerSample_following (correctedFront f rest s).2 (s := (correctedFront f rest s).1) (by rw [hkfollower, hfollowing])
      (by rw [hkfollower, hpending]) hpresent
  refine ⟨by rw [emitterFront_follower]; exact hstays, _, takeSample_front f rest hrx, ?_⟩
  rw [handOver]
  simp only [roundSearch_of_present hpresent hreport]
  rw [(examineDue_keeps _).2.2.1, keeps_roundSample _ _ _ .emitter (by decide)]
  rfl

end WithRound

end Sys2Proof.Machine

/-! ### The statements -/

namespace Sys2Proof.Proofs

open Sys2Proof Sys2Proof.Machine

section Measured

variable {s t : State} {f : Sample} {rest : List Sample} {src : DistanceSource} {d : CorrectedDistance} {flags : PointFlags}

/-- A sample taken with no round that is usable, and what the mode makes of it. -/
theorem measured_taken (h : measuredFront s f rest src d flags) (ht : TakenIdle f rest s t)
    (heq : t = emitterSample (correctedFront f rest s).2 (emitterFront f rest s)) (hf : t.follower.state = .following) :
    ∃ v, SlotWritten f src d flags s v ∧ t = modeSample (correctedFront f rest s).2 d v := by
  obtain ⟨v, hv, hmode⟩ := slotWritten_of_measured h (keeps_emitterFront f rest s .emitter (by simp))
    (keeps_emitterFront f rest s .station (by simp)) (by rw [emitterFront_follower, ← ht.follower]; exact hf)
  exact ⟨v, hv, heq.trans hmode⟩

/-- A mode that makes no point leaves the station port and the sequence number. -/
theorem noPoint_of_setMode {v : State} (hv : SlotWritten f src d flags s v) (m : EmissionMode) : noPoint s (setMode m v) :=
  ⟨hv.station, by rw [setMode, State.setEmitter_emitter, hv.emitter]⟩

/-- A mode that makes a point offers the record of the sample. -/
theorem point_of_setMode (h : measuredFront s f rest src d flags) {v : State} (hv : SlotWritten f src d flags s v)
    (kind : PointKind) (m : EmissionMode) :
    (offerPoint (samplePoint kind (correctedFront f rest s).2 d) (setMode m v)).emitter.mode = m ∧
      pointOffered
        { sequence := 0, timestamp := f.timestamp, kind := kind, at_ := d.at_, flags := flags, source := src, samples := 1 }
        s (offerPoint (samplePoint kind (correctedFront f rest s).2 d) (setMode m v)) := by
  rw [samplePoint_measured kind h]
  exact ⟨by simp [setMode], offerPoint_offered _ _ hv.station (by rw [setMode, State.setEmitter_emitter, hv.emitter])⟩

/-- R123: the mode SPACED, by whether the sample is far enough. -/
theorem spaced_taken (h : measuredFront s f rest src d flags) {v : State} (hv : SlotWritten f src d flags s v) {gap : Nat}
    {anchor : Option Anchor} (hm : s.emitter.mode = .spaced gap anchor) :
    (spacedEmits gap anchor d.at_ = true →
      (modeSample (correctedFront f rest s).2 d v).emitter.mode = .spaced gap (some d.at_) ∧
      pointOffered
        { sequence := 0, timestamp := f.timestamp, kind := .spaced, at_ := d.at_, flags := flags, source := src, samples := 1 }
        s (modeSample (correctedFront f rest s).2 d v)) ∧
    (¬ spacedEmits gap anchor d.at_ = true →
      (modeSample (correctedFront f rest s).2 d v).emitter.mode = .spaced gap anchor ∧
      noPoint s (modeSample (correctedFront f rest s).2 d v)) := by
  have hmode : v.emitter.mode = .spaced gap anchor := by rw [hv.emitter]; exact hm
  rw [modeSample_of_spaced hmode]
  refine ⟨fun he => ?_, fun he => ?_⟩
  · rw [if_pos he]
    exact point_of_setMode h hv _ _
  · rw [if_neg he]
    exact ⟨hmode, hv.station, by rw [hv.emitter]⟩

end Measured

/-- Settles O36: with no round the emitter handles what the follower left; the slot is written whatever the round. -/
theorem pointsEmitted : Obligations.PointsEmitted := by
  refine ⟨fun s f rest src d flags h hr hm => ?_, fun s f rest h hr hm hn => ?_, fun s f rest src d flags h => ?_⟩
  · obtain ⟨t, hexec, ht, heq⟩ := takeSample_idle h.1 hr
    refine ⟨t, hexec, usable_keeps ht, fun hf => unusable_not_single ht heq (.inl hf) hm, fun hf => ?_⟩
    obtain ⟨v, hv, hmode⟩ := measured_taken h ht heq hf
    obtain ⟨htimestamp, hlatest, hfresh⟩ := modeSample_slot (correctedFront f rest s).2 d v
    rw [hv.emitter] at htimestamp hlatest hfresh
    have hstays : ∀ m, s.emitter.mode = m → v.emitter.mode = m ∧ noPoint s v := fun m hm => by
      refine ⟨by rw [hv.emitter]; exact hm, hv.station, by rw [hv.emitter]⟩
    rw [hmode]
    refine ⟨hfresh, hlatest, htimestamp, ?_, fun hidle => ?_, fun m count hstream => ?_,
      fun gap anchor far hspaced hfar => ?_, fun hwait => ?_, fun k hcapture => ?_⟩
    · rw [(handed_fields h.2.1).2.2]
      rfl
    · rw [modeSample_of_idle (hstays _ hidle).1]
      exact hstays _ hidle
    · rw [modeSample_of_stream (hstays _ hstream).1]
      refine ⟨fun hfull => ?_, fun hfew => ?_⟩
      · rw [if_pos hfull]
        exact point_of_setMode h hv _ _
      · rw [if_neg (Nat.not_le.mpr hfew)]
        exact ⟨rfl, noPoint_of_setMode hv _⟩
    · have hemits : spacedEmits gap anchor d.at_ = true ↔ far := (spacedEmits_iff gap anchor d.at_).trans hfar.symm
      obtain ⟨hpoint, hnone⟩ := spaced_taken h hv hspaced
      exact ⟨fun hx => hpoint (hemits.mpr hx), fun hx => hnone (mt hemits.mp hx)⟩
    · rw [modeSample_of_waiting (hstays _ hwait).1]
      exact hstays _ hwait
    · rw [modeSample_of_captured (hstays _ hcapture).1]
      exact point_of_setMode h hv _ _
  · obtain ⟨t, hexec, ht, heq⟩ := takeSample_idle h hr
    exact ⟨t, hexec, unusable_not_single ht heq (.inr hn) hm⟩
  · obtain ⟨hfollowing, t, hexec, hemitter⟩ := takeSample_usable h
    obtain ⟨v, hv, hmode⟩ := slotWritten_of_measured (measured_of_usable h) (keeps_emitterFront f rest s .emitter (by simp))
      (keeps_emitterFront f rest s .station (by simp)) hfollowing
    obtain ⟨htimestamp, hlatest, hfresh⟩ := modeSample_slot (correctedFront f rest s).2 d v
    rw [hv.emitter] at htimestamp hlatest hfresh
    rw [hmode] at hemitter
    exact ⟨t, hexec, by rw [hemitter, hfresh], by rw [hemitter, htimestamp], by rw [hemitter, hlatest]⟩

/-- R123 and R35: a usable sample that finds no anchor, or one in another frame, with no RUNNING round. -/
theorem spaced_point_without_anchor {s : State} {f : Sample} {rest : List Sample} {src : DistanceSource} {d : CorrectedDistance}
    {flags : PointFlags} {gap : Nat} (h : usableFront s f rest src d flags) (hr : s.round.state.isRunning = false)
    (hm : s.emitter.mode = .spaced gap none ∨ ∃ a, s.emitter.mode = .spaced gap (some a) ∧ a.frame ≠ d.at_.frame) :
    ∃ t, exec .takeSample s = .next t ∧ t.emitter.mode = .spaced gap (some d.at_) ∧
      pointOffered
        { sequence := 0, timestamp := f.timestamp, kind := .spaced, at_ := d.at_, flags := flags, source := src, samples := 1 }
        s t := by
  have hmeasured := measured_of_usable h
  obtain ⟨hfollowing, -⟩ := takeSample_usable h
  obtain ⟨v, hv, hmode⟩ := slotWritten_of_measured hmeasured (keeps_emitterFront f rest s .emitter (by simp))
    (keeps_emitterFront f rest s .station (by simp)) hfollowing
  obtain ⟨anchor, hanchor, hfar⟩ : ∃ anchor, s.emitter.mode = .spaced gap anchor ∧ spacedEmits gap anchor d.at_ = true := by
    rcases hm with hm | ⟨a, hm, ha⟩
    · exact ⟨none, hm, rfl⟩
    · exact ⟨some a, hm, by simp [spacedEmits, ha]⟩
  obtain ⟨hspaced, hpoint⟩ := (spaced_taken hmeasured hv hanchor).1 hfar
  rw [← hmode] at hspaced hpoint
  refine ⟨_, takeSample_not_running h.1 hr, ?_, pointOffered_congr hpoint ?_ (examineDue_keeps _).2.2.1
    ((sources_examineDue _).2 .queueCongested (by simp))⟩
  · rw [(examineDue_keeps _).2.2.1]
    exact hspaced
  · exact (examineDue_keeps _).2.2.2.1

/-- R119: the record of a completed SINGLE. -/
theorem singlePoint_measured {s : State} {f : Sample} {rest : List Sample} {src : DistanceSource} {d : CorrectedDistance}
    {flags : PointFlags} (h : measuredFront s f rest src d flags) {m : SingleMeasure} {b : Averaging} {mean : Triple}
    {frame : CoordFrame} (hmean : mean = b.sum.mean m.n) :
    singlePoint m b frame (correctedFront f rest s).2 d =
      { sequence := 0, timestamp := f.timestamp, kind := .single (b.spread mean).toNat m.settleTotal, at_ := ⟨frame, mean⟩
        flags := b.flags, source := src, samples := m.n } := by
  subst hmean
  rw [singlePoint, (correctedFront_fields f rest s).1, (handed_fields h.2.1).1]

/-- Settles O60: the phases of a SINGLE on a usable sample, and its abort on any other. -/
theorem singleMeasured : Obligations.SingleMeasured := by
  refine ⟨fun s f rest src d flags m h hr hm => ?_, fun s f rest m h hr hm => ?_⟩
  · obtain ⟨t, hexec, ht, heq⟩ := takeSample_idle h.1 hr
    refine ⟨t, hexec, usable_keeps ht, fun hf => ?_⟩
    obtain ⟨v, hv, hmode⟩ := measured_taken h ht heq hf
    obtain ⟨-, hlatest, hfresh⟩ := modeSample_slot (correctedFront f rest s).2 d v
    rw [hv.emitter] at hlatest hfresh
    rw [hmode]
    refine ⟨hfresh, hlatest, ?_⟩
    rw [modeSample_of_single (by rw [hv.emitter]; exact hm)]
    refine ⟨fun anchor w hphase hwindow => ?_, fun a hphase hfar => ?_, fun a g b hphase hg hnear hb => ?_⟩
    · rw [singleSample_of_settling hphase, settleOn_eq hwindow]
      refine ⟨noPoint_of_setMode hv _, fun hshort => ?_, fun hfull => ?_⟩
      · rw [if_neg (Nat.not_le.mpr hshort)]
        rfl
      · rw [if_pos hfull]
        rfl
    · rw [singleSample_of_far hphase hfar]
      exact ⟨noPoint_of_setMode hv _, rfl⟩
    · rw [singleSample_of_near hphase hg hnear, pointFlags_measured h, averaging_add, ← hb]
      refine ⟨fun hfew => ?_, fun mean hfull hmean => ?_⟩
      · rw [if_neg (Nat.not_le.mpr hfew)]
        exact ⟨noPoint_of_setMode hv _, rfl⟩
      · rw [if_pos hfull, singlePoint_measured h hmean]
        exact ⟨by simp [setMode],
          offerPoint_offered _ _ hv.station (by rw [setMode, State.setEmitter_emitter, hv.emitter])⟩
  · obtain ⟨t, hexec, ht, heq⟩ := takeSample_idle h hr
    exact ⟨t, hexec, fun hu => unusable_single ht heq hu.symm (by rw [hm]; rfl)⟩

/-- R32: CLEAR_POSE at a ready port, by its checks in their order. -/
theorem clearPose_arrives (q : Taking) (index : Byte) (s : State) (h : portReady s) :
    ∃ t, exec (.clearPose q index) s = .next t ∧
      (8 ≤ index.toNat → refuses q 0x06 .range s t) ∧
      (∀ i : Fin 8, index.toNat = i.val → s.poses.active = some i → refuses q 0x06 .poseActive s t) ∧
      (∀ i : Fin 8, index.toNat = i.val → s.poses.active ≠ some i →
        acceptsWithin q 0x06 .ok [⟨1, i.val⟩, ⟨1, 0⟩, ⟨2, s.poses.entries[i].writeCount⟩] [.poses] [] s t ∧
        t.poses.active = s.poses.active ∧ t.poses.entries[i] = s.poses.entries[i].cleared ∧
        ∀ j : Fin 8, j ≠ i → t.poses.entries[j] = s.poses.entries[j]) := by
  have hreq : Request.clearPose index ≠ .restart := by simp
  exact ⟨_, rfl, fun hi => requestArrive_refuses q _ s hreq h _ (clearPose_of_no_entry hi),
    fun i hi ha => requestArrive_refuses q _ s hreq h _ (clearPose_of_active hi ha),
    fun i hi ha => requestArrive_storePose hreq h (clearPose_of_inactive (s := takingState q _ s) hi ha)⟩

/-- R34 to R36: an accepted SELECT_POSE, with the frame that distances have from then on. -/
theorem selectPose_accepted {q : Taking} {index : Byte} {s : State} {o : Option (Fin 8)} (h : portReady s)
    (ho : index8OrNone index = some o) (hm : s.emitter.mode.isSingle = false) (hr : s.round.state.isRunning = false)
    (hv : ∀ i, o = some i → s.poses.entries[i].state = .valid) {t : State} (ht : t = requestArrive q (.selectPose index) s) :
    acceptsWithin q 0x08 .ok { s.poses with active := o }.activeData [.poses, .emitter] [] s t ∧
      t.poses = { s.poses with active := o } ∧ t.correction = s.correction ∧
      (∀ g x, s.emitter.mode = .spaced g x → t.emitter = { s.emitter with mode := .spaced g none }) ∧
      ((∀ g x, s.emitter.mode ≠ .spaced g x) → t.emitter = s.emitter) := by
  subst ht
  obtain ⟨hacc, hposes, hemitter, hcorrection⟩ := requestArrive_selectPose_of_valid (q := q) h ho hm hr hv
  exact ⟨hacc, hposes, hcorrection, fun g x hx => hemitter.trans (Emitter.clearAnchor_of_spaced hx),
    fun hx => hemitter.trans (Emitter.clearAnchor_of_not_spaced hx)⟩

/-- Settles O45: CLEAR_POSE, SELECT_POSE, and the point of the first usable sample in SPACED after a selection. -/
theorem clearAndSelectPose : Obligations.ClearAndSelectPose := by
  refine ⟨clearPose_arrives, fun q index s h => ?_, fun s f rest src d flags gap h hr hm => spaced_point_without_anchor h hr hm⟩
  have hreq : Request.selectPose index ≠ .restart := by simp
  refine ⟨_, rfl, fun h8 h255 => ?_, fun o ho hb => ?_, fun i hi hm hr he => ?_, fun i hi hm hr hv => ?_,
    fun h255 hm hr => ?_⟩
  · exact requestArrive_refuses q _ s hreq h _ (selectPose_of_no_entry h8 h255)
  · exact requestArrive_refuses q _ s hreq h _ (selectPose_of_busy ho hb)
  · exact requestArrive_refuses q _ s hreq h _ (selectPose_of_empty hi hm hr he)
  · obtain ⟨hacc, hposes, hcorrection, hspaced, hother⟩ :=
      selectPose_accepted (q := q) h (index8OrNone_eq_some hi) hm hr (by rintro j ⟨rfl⟩; exact hv) rfl
    exact ⟨hacc, hposes, correctDistance_at hposes hcorrection, hspaced, hother⟩
  · obtain ⟨hacc, hposes, hcorrection, hspaced, hother⟩ :=
      selectPose_accepted (q := q) h (index8OrNone_of_255 h255) hm hr (by simp) rfl
    exact ⟨hacc, hposes, correctDistance_at hposes hcorrection, hspaced, hother⟩

end Sys2Proof.Proofs
end

