-- ==== Sys2Proof/Proofs/Deciding.lean ====
section
/-! What every taken sample does, in every state of the follower and of the round (R2, R4, R47 to R54, R61, R64): the distance that
its correction leaves, and what the hand-over leaves alone. -/

namespace Sys2Proof.Machine

/-! ### Refraction (R22) -/

/-- R22: the bounds of the three steps for a plausible optical distance. -/
theorem refraction_bounds {dOpt n corr : Int} (h0 : 0 ≤ dOpt) (h1 : dOpt ≤ 900000000) (hn0 : 150000 ≤ n) (hn1 : n ≤ 400000)
    (hcorr : corr = (dOpt * n + 500000000) / 1000000000) :
    dOpt * n ≤ 360000000000000 ∧ 0 ≤ corr ∧ corr ≤ dOpt := by
  have hlow : 0 ≤ dOpt * n := Int.mul_nonneg h0 (by omega)
  have hhigh : dOpt * n ≤ dOpt * 400000 := Int.mul_le_mul_of_nonneg_left hn1 h0
  omega

/-! ### The distance after the correction (R47 to R54) -/

section Corrected

variable {f : Sample} {rest : List Sample} {s : State}

theorem plausible_of_le {b : Nat} (h : b ≤ 900000000) (n : Word) : plausible (opticalDistance b n n) = true := by
  simp [plausible, inRange, opticalDistance]
  omega

theorem plausible_eq_false {x : Int} (h : x < 0 ∨ 900000000 < x) : plausible x = false := by
  simp [plausible, inRange]
  omega

theorem plausible_eq_true {x : Int} (h0 : 0 ≤ x) (h1 : x ≤ 900000000) : plausible x = true := by
  simp [plausible, inRange, h0, h1]

/-- R47 and R48: the sample that qualifies for an ADM wait sets the base. -/
theorem correctedFront_adm {o : WaitOwner} {m : Nat} {d : Word} {q : Byte} (hs : s.distance.state = .awaitAdm o m)
    (h : admQualifies s f d q) :
    (correctedFront f rest s).1.distance =
      { s.distance with
        state := .established .adm d.toNat f.ifmCount, lastWaitKind := .adm, lastWaitOutcome := .established } := by
  let u : State := s.setHead { s.head with rx := rest }
  have hset : decided f u = setBase .adm d.toNat f.ifmCount u := decided_adm (s := u) hs h
  obtain ⟨hkept, -⟩ := correctSample_established (s := u) f h.1 (by rw [hset]; rfl)
  exact (hkept (plausible_of_le h.2.2.1 _)).1.trans (by rw [hset]; rfl)

/-- R50: and one that qualifies for a HOME wait. -/
theorem correctedFront_home {o : WaitOwner} {c m : Nat} (hs : s.distance.state = .awaitHome o c m) (h : homeQualifies s f)
    (hc : c ≤ 900000000) :
    (correctedFront f rest s).1.distance =
      { s.distance with
        state := .established .home c f.ifmCount, lastWaitKind := .home, lastWaitOutcome := .established } := by
  let u : State := s.setHead { s.head with rx := rest }
  have hset : decided f u = setBase .home c f.ifmCount u := decided_home (s := u) hs h
  obtain ⟨hkept, -⟩ := correctSample_established (s := u) f h.1 (by rw [hset]; rfl)
  exact (hkept (plausible_of_le hc _)).1.trans (by rw [hset]; rfl)

theorem correctedFront_adm_passed {o : WaitOwner} {m : Nat} (hs : s.distance.state = .awaitAdm o m)
    (h : ∀ d q, ¬ admQualifies s f d q) : (correctedFront f rest s).1.distance = s.distance := by
  let u : State := s.setHead { s.head with rx := rest }
  have hpassed : decided f u = u := decided_adm_passed (s := u) hs h
  have hnone := (correctSample_unestablished (s := u) f (by
    rw [hpassed, show u.distance.state = .awaitAdm o m from hs]
    rfl)).1
  rw [hpassed] at hnone
  exact hnone

theorem correctedFront_home_passed {o : WaitOwner} {c m : Nat} (hs : s.distance.state = .awaitHome o c m)
    (h : ¬ homeQualifies s f) : (correctedFront f rest s).1.distance = s.distance := by
  let u : State := s.setHead { s.head with rx := rest }
  have hpassed : decided f u = u := decided_home_passed (s := u) hs h
  have hnone := (correctSample_unestablished (s := u) f (by
    rw [hpassed, show u.distance.state = .awaitHome o c m from hs]
    rfl)).1
  rw [hpassed] at hnone
  exact hnone

/-- R53: a base is dropped on a sample without beam or with ifm_ok clear. -/
theorem correctedFront_dropped {src : DistanceSource} {b : Nat} {c : Word} (hs : s.distance.state = .established src b c)
    (h : f.ifmOk = false ∨ decidePresence s.follower f = false) :
    (correctedFront f rest s).1.distance = { s.distance with state := .none, lastLoss := .sample } ∧
      (correctedFront f rest s).1.events.get .distanceLost = (s.events.get .distanceLost).occurred s.localTime ∧
      (correctedFront f rest s).1.events.get .distanceFault = s.events.get .distanceFault := by
  let u : State := s.setHead { s.head with rx := rest }
  have hdrop : decided f u = occur .distanceLost (u.setDistance { u.distance with state := .none, lastLoss := .sample }) :=
    (decided_dropped (s := u) hs h).trans (dropBase_of_established _ _ hs)
  obtain ⟨hdistance, hevents, -⟩ := correctSample_unestablished (s := u) f (by rw [hdrop]; rfl)
  rw [hdrop] at hdistance hevents
  refine ⟨hdistance, ?_, ?_⟩
  · rw [show (correctedFront f rest s).1.events = _ from hevents, occur_get_self]
    rfl
  · rw [show (correctedFront f rest s).1.events = _ from hevents, occur_get_other _ (by simp)]
    rfl

/-- R54: a base whose optical distance is implausible is dropped as a fault. -/
theorem correctedFront_fault {src : DistanceSource} {b : Nat} {c : Word} (hs : s.distance.state = .established src b c)
    (hi : f.ifmOk = true) (hp : decidePresence s.follower f = true) (h : plausible (opticalDistance b c f.ifmCount) = false) :
    (correctedFront f rest s).1.distance = { s.distance with state := .none, lastLoss := .fault } ∧
      (correctedFront f rest s).1.events.get .distanceFault = (s.events.get .distanceFault).occurred s.localTime ∧
      (correctedFront f rest s).1.events.get .distanceLost = (s.events.get .distanceLost).occurred s.localTime := by
  let u : State := s.setHead { s.head with rx := rest }
  have hheld : decided f u = u := decided_held (s := u) hs hp hi
  obtain ⟨-, hfault⟩ := correctSample_established (s := u) f (good_of_present hp) (by rw [hheld]; exact hs)
  obtain ⟨hdistance, hevents, -⟩ := hfault h
  rw [hheld] at hdistance
  have hdecided := (decided_keeps f u).2
  rw [hheld] at hdecided
  have htime : (decideStep f (decidePresence u.follower f) u).localTime = s.localTime :=
    keeps_decideStep_parts f _ u .localTime (by simp)
  refine ⟨hdistance, ?_, ?_⟩
  · rw [show (correctedFront f rest s).1.events = _ from hevents, dropFault, occur_get_other _ (by simp), occur_get_self,
      State.setDistance_events, State.setDistance_localTime, htime, hdecided]
    rfl
  · rw [show (correctedFront f rest s).1.events = _ from hevents, dropFault, occur_get_self, occur_get_other _ (by simp),
      (occur_keeps _ _).2.2.2.2.2.2.2.2.2.1, State.setDistance_events, State.setDistance_localTime, htime, hdecided]
    rfl

/-- R53: any other sample leaves a base. -/
theorem correctedFront_held {src : DistanceSource} {b : Nat} {c : Word} (hs : s.distance.state = .established src b c)
    (hi : f.ifmOk = true) (hp : decidePresence s.follower f = true) (h : plausible (opticalDistance b c f.ifmCount) = true) :
    (correctedFront f rest s).1.distance = s.distance ∧ (correctedFront f rest s).1.events = s.events := by
  let u : State := s.setHead { s.head with rx := rest }
  have hheld : decided f u = u := decided_held (s := u) hs hp hi
  obtain ⟨hkept, -⟩ := correctSample_established (s := u) f (good_of_present hp) (by rw [hheld]; exact hs)
  obtain ⟨hdistance, hevents, -⟩ := hkept h
  rw [hheld] at hdistance hevents
  exact ⟨hdistance, hevents⟩

end Corrected

/-! ### The distance after the hand-over, with no round (R45) -/

section Taken

variable {f : Sample} {rest : List Sample} {s t : State}

/-- The follower leaves the distance that the correction left, but for the automatic wait of an entry to FOLLOWING. -/
theorem taken_distance (ht : TakenIdle f rest s t) :
    (t.distance = (correctedFront f rest s).1.distance ∧
        (s.follower.state = .following ∧ s.follower.followPending = false ∨ t.follower.state ≠ .following)) ∨
      (t.distance = autoWait (correctedFront f rest s).1 ∧ t.follower.state = .following ∧
        decidePresence s.follower f = true ∧ ¬ (s.follower.state = .following ∧ s.follower.followPending = false)) := by
  have hpresent := (correctedFront_fields f rest s).2.1
  have hfollower := (correctedFront_keeps f rest s).2.1
  have hd := ht.distance
  have hf := congrArg Follower.state ht.follower
  rcases followerSample_handled (correctedFront f rest s).2 (correctedFront f rest s).1 with
    ⟨hs, hp, -, -, hsame⟩ | ⟨hnot, ⟨hleft, hsame⟩ | ⟨hin, hwait, hq⟩⟩
  · rw [hfollower] at hs hp
    exact .inl ⟨hd.trans hsame, .inl ⟨hs, hp⟩⟩
  · exact .inl ⟨hd.trans hsame, .inr fun hx => hleft (hf.symm.trans hx)⟩
  · rw [hfollower] at hnot
    rw [hpresent] at hq hnot
    exact .inr ⟨hd.trans hwait, hf.trans hin, hq, fun ⟨hs, hp⟩ => hnot ⟨hs, hp, hq⟩⟩

/-- Where the correction leaves a wait or a base, the follower adds nothing. -/
theorem taken_distance_of_held (ht : TakenIdle f rest s t) (h : (correctedFront f rest s).1.distance.state ≠ .none) :
    t.distance = (correctedFront f rest s).1.distance := by
  rcases taken_distance ht with ⟨hd, -⟩ | ⟨hd, -⟩
  · exact hd
  · rw [hd, autoWait, if_neg fun hn => h hn.1]

/-- R45 and R53: a base that was dropped on the sample. -/
theorem taken_dropped (ht : TakenIdle f rest s t) (hr : s.round.state = .idle) {cause : LossCause}
    (h : (correctedFront f rest s).1.distance = { s.distance with state := .none, lastLoss := cause }) :
    droppedOn cause s t := by
  have hhead := (correctedFront_keeps f rest s).2.2.2.2.1
  have hround : (correctedFront f rest s).1.round = s.round := correctedFront_round (by simp [hr])
  rcases taken_distance ht with ⟨hd, hcase⟩ | ⟨hd, hin, -, hnot⟩
  · refine ⟨fun _ => hd.trans h, fun hne hin => ?_⟩
    rcases hcase with ⟨hs, hp⟩ | hout
    · simp [hs, hp] at hne
    · exact absurd hin hout
  · refine ⟨fun hcase => ?_, fun _ _ => ?_⟩
    · rcases hcase with hsame | hout
      · exact absurd hsame hnot
      · exact absurd hin hout
    · rw [hd, autoWait, h, hhead, hround, hr]
      simp only [RoundState.isRunning, true_and, and_true]
      split <;> rfl

/-- The follower, the search and the emitter report no loss of a distance. -/
theorem taken_losses (ht : TakenIdle f rest s t) {src : Source} (h : src = .distanceLost ∨ src = .distanceFault) :
    t.events.get src = (correctedFront f rest s).1.events.get src := by
  rw [ht.events.2 src (by rcases h with rfl | rfl <;> simp), frontHandled,
    (sources_followerSample _ _).2 src (by rcases h with rfl | rfl <;> simp [followerSources])]

end Taken

/-! ### What the hand-over leaves of the presence decision (R61, R64) -/

/-- The presence decision and the last-present angles of `s` stand in `t`. -/
def seesAs (s t : State) : Prop :=
  t.follower.present = s.follower.present ∧ t.follower.lastAngles = s.follower.lastAngles

section Sees

theorem seesAs_of_follower {s t : State} (h : t.follower = s.follower) : seesAs s t := by
  rw [seesAs, h]
  exact ⟨rfl, rfl⟩

theorem seesAs_trans {s t u : State} (h : seesAs s t) (h' : seesAs t u) : seesAs s u :=
  ⟨h'.1.trans h.1, h'.2.trans h.2⟩

theorem seesAs_then {s t u : State} (h : seesAs s t) (h' : u.follower = t.follower) : seesAs s u :=
  seesAs_trans h (seesAs_of_follower h')

variable (s : State)

theorem seesAs_enterLost : seesAs s (enterLost s) := ⟨rfl, rfl⟩

theorem seesAs_closeLoop (keep : Bool) (rep : FollowerReport) (c : Corrected) : seesAs s (closeLoop keep rep c s).state := by
  obtain ⟨iAz, iEl, h⟩ := closeLoop_follower keep rep c s
  rw [seesAs, h]
  exact ⟨rfl, rfl⟩

theorem seesAs_endSearch (src : Source) : seesAs s (endSearch src s) := by
  rw [seesAs, endSearch_follower]
  exact ⟨rfl, rfl⟩

theorem seesAs_askSearch (o : Option (Fin 8)) (centre : Angles) (owner : SearchOwner) :
    seesAs s (askSearch o centre owner s).1 := by
  rcases hx : askSearch o centre owner s with ⟨w, x⟩
  cases x with
  | unusable => exact seesAs_of_follower (by rw [askSearch_unusable s hx])
  | starved | started g =>
    obtain ⟨i, hi⟩ := askSearch_ready hx (by simp)
    obtain ⟨state, hstate⟩ := startSearch_follower i centre owner s
    rw [hi] at hstate
    rw [seesAs, hstate]
    exact ⟨rfl, rfl⟩

theorem seesAs_autoSearch (centre : Angles) : seesAs s (autoSearch centre s).state := by
  have hask := seesAs_askSearch s s.follower.autoSearch centre .follower
  rcases hx : askSearch s.follower.autoSearch centre .follower s with ⟨w, x⟩
  rw [hx] at hask
  cases x with
  | unusable =>
    rw [autoSearch_of_unusable hx]
    exact seesAs_trans hask (seesAs_enterLost w)
  | starved =>
    rw [autoSearch_of_starved hx]
    exact hask
  | started g =>
    rw [autoSearch_of_started hx]
    exact hask

theorem seesAs_expireGrace : seesAs s (expireGrace s).state := by
  unfold expireGrace
  split
  · exact seesAs_enterLost s
  · exact seesAs_autoSearch s _

theorem seesAs_searchSample : seesAs s (searchSample s).1 := by
  unfold searchSample
  split
  · exact ⟨rfl, rfl⟩
  · split
    · exact ⟨rfl, rfl⟩
    · unfold nextStep
      split
      · dsimp only
        split
        · exact ⟨rfl, rfl⟩
        · split
          · exact ⟨rfl, rfl⟩
          · exact seesAs_endSearch s _
      · split
        · exact seesAs_endSearch s _
        · exact ⟨rfl, rfl⟩

theorem seesAs_playSample (owner : SearchOwner) : seesAs s (playSample owner s).state := by
  have hplay := seesAs_searchSample s
  unfold playSample
  split <;> (next heq => rw [heq] at hplay; exact hplay)

theorem seesAs_aimSample (a : Aim) (c : Corrected) : seesAs s (aimSample a c s).state := by
  unfold aimSample
  split
  · exact ⟨rfl, rfl⟩
  · split
    · exact ⟨rfl, rfl⟩
    · split
      · exact seesAs_closeLoop s _ _ c
      · exact seesAs_enterLost s
      · exact seesAs_enterLost s

theorem seesAs_enterHolding : seesAs s (enterHolding s).state := by
  unfold enterHolding
  dsimp only
  split
  · exact seesAs_trans ⟨rfl, rfl⟩ (seesAs_expireGrace _)
  · exact ⟨rfl, rfl⟩

theorem seesAs_countGrace : seesAs s (countGrace s).state := by
  unfold countGrace
  dsimp only
  split
  · exact seesAs_trans ⟨rfl, rfl⟩ (seesAs_expireGrace _)
  · exact ⟨rfl, rfl⟩

theorem seesAs_searchingSample (c : Corrected) : seesAs s (searchingSample c s).state := by
  unfold searchingSample
  dsimp only
  split
  · split
    · exact seesAs_trans ⟨rfl, rfl⟩ (seesAs_playSample _ _)
    · exact seesAs_trans ⟨rfl, rfl⟩ (seesAs_closeLoop _ _ _ c)
  · exact seesAs_trans ⟨rfl, rfl⟩ (seesAs_playSample _ _)

theorem seesAs_lostSample (c : Corrected) : seesAs s (lostSample c s).state := by
  unfold lostSample
  split
  · split
    · split
      · exact ⟨rfl, rfl⟩
      · exact seesAs_closeLoop s _ _ c
    · exact ⟨rfl, rfl⟩
  · exact ⟨rfl, rfl⟩

theorem seesAs_decidePending (c : Corrected) : seesAs s (decidePending c s).state := by
  unfold decidePending
  dsimp only
  split
  · exact seesAs_trans ⟨rfl, rfl⟩ (seesAs_closeLoop _ _ _ c)
  · exact seesAs_trans ⟨rfl, rfl⟩ (seesAs_autoSearch _ _)

/-- R61 and R64: the follower's transition leaves the decision and the angles that were noted before it. -/
theorem seesAs_followerTransition (c : Corrected) : seesAs s (followerTransition c s).state := by
  unfold followerTransition
  split
  · exact seesAs_decidePending s c
  · split
    · exact ⟨rfl, rfl⟩
    · split
      · exact seesAs_aimSample s _ c
      · exact ⟨rfl, rfl⟩
    · split
      · exact ⟨rfl, rfl⟩
      · exact seesAs_enterHolding s
    · split
      · exact seesAs_closeLoop s _ _ c
      · exact seesAs_countGrace s
    · exact seesAs_searchingSample s c
    · exact seesAs_lostSample s c

theorem seesAs_askRoundSearch (r : RunningRound) : seesAs s (askRoundSearch r s).state := by
  have hask := seesAs_askSearch s (s.round.entry r).descriptor (s.round.entry r).aim .round
  unfold askRoundSearch
  split
  case h_1 | h_2 | h_3 => next heq => rw [heq] at hask; exact hask

theorem seesAs_roundSearch (c : Corrected) (h : Handled) : seesAs h.state (roundSearch c h).state := by
  unfold roundSearch
  split
  · split
    · split
      · exact ⟨rfl, rfl⟩
      · exact seesAs_askRoundSearch _ _
    · exact seesAs_askRoundSearch _ _
    · exact seesAs_trans (seesAs_of_follower (by simp)) (seesAs_askRoundSearch _ _)
    · exact ⟨rfl, rfl⟩
  · exact ⟨rfl, rfl⟩
  · exact ⟨rfl, rfl⟩

end Sees

/-! ### What the end of a slot leaves alone -/

/-- From `s` to `t` the presence decision, its angles and the receive queue stand. -/
structure Undisturbed (s t : State) : Prop where
  sees : seesAs s t
  rx : t.head.rx = s.head.rx

section Undisturbed

theorem undisturbed_of_same {s t : State} (hf : t.follower = s.follower) (hh : t.head = s.head) : Undisturbed s t :=
  ⟨seesAs_of_follower hf, by rw [hh]⟩

theorem undisturbed_trans {s t u : State} (h : Undisturbed s t) (h' : Undisturbed t u) : Undisturbed s u :=
  ⟨seesAs_trans h.sees h'.sees, h'.rx.trans h.rx⟩

variable (s : State)

theorem undisturbed_enterAiming (a : Angles) (act : ThenAction) (o : AimOwner) : Undisturbed s (enterAiming a act o s) := by
  have hhead : (enterAiming a act o s).head = s.head := keeps_enterAiming a act o s .head (by simp)
  exact ⟨by rw [seesAs, enterAiming_follower]; exact ⟨rfl, rfl⟩, by rw [hhead]⟩

theorem undisturbed_enterParked : Undisturbed s (enterParked s) := by
  refine ⟨by rw [seesAs, enterParked_follower]; exact ⟨rfl, rfl⟩, ?_⟩
  rw [enterParked, writeSteer_rx]
  simp

theorem undisturbed_returnRound : Undisturbed s (returnRound s) := by
  unfold returnRound
  split
  · exact undisturbed_enterAiming s _ _ _
  · exact undisturbed_enterParked s
  · exact undisturbed_enterParked s

theorem undisturbed_beginSlot (r : RunningRound) (e : Fin 16) : Undisturbed s (beginSlot r e s) := by
  let w : State :=
    setRoundState (.running { r with current := e, phase := .aim, slotTimer := 10000, avgCount := 0, sums := zero3 }) s
  have hwrite : Undisturbed s w := undisturbed_of_same rfl rfl
  exact undisturbed_trans hwrite (undisturbed_enterAiming w w.round.table[e].aim .hold .round)

theorem undisturbed_endSlot (res : FiducialResult) (aim : Option Angles) : Undisturbed s (endSlot res aim s) := by
  have hrelease : Undisturbed s (releaseDistance s) := undisturbed_of_same (by simp) (by simp)
  unfold endSlot
  split
  · dsimp only
    split
    · exact undisturbed_trans hrelease (undisturbed_beginSlot _ _ _)
    · rw [completeRound_eq]
      exact undisturbed_trans
        (undisturbed_trans hrelease (undisturbed_of_same (by simp [committedRound]) (by simp [committedRound])))
        (undisturbed_returnRound _)
  · exact undisturbed_of_same rfl rfl
  · exact undisturbed_of_same rfl rfl

theorem undisturbed_centreSample (r : RunningRound) (c : Corrected) : Undisturbed s (centreSample r c s) := by
  have hwait : Undisturbed s (askRoundWait s).1 :=
    undisturbed_of_same (keeps_askRoundWait s .follower (by simp)) (keeps_askRoundWait s .head (by simp))
  unfold centreSample
  split
  · split
    · next heq => rw [heq] at hwait; exact undisturbed_trans hwait (undisturbed_of_same rfl rfl)
    · next heq => rw [heq] at hwait; exact undisturbed_trans hwait (undisturbed_endSlot _ _ _)
  · exact undisturbed_of_same rfl rfl

theorem undisturbed_averageSample (r : RunningRound) (c : Corrected) : Undisturbed s (averageSample r c s) := by
  unfold averageSample
  split
  · exact undisturbed_endSlot s _ _
  · dsimp only
    split
    · exact undisturbed_of_same rfl rfl
    · exact undisturbed_endSlot s _ _

theorem undisturbed_roundSample (rep : FollowerReport) (c : Corrected) : Undisturbed s (roundSample rep c s) := by
  unfold roundSample
  split
  · split
    · exact undisturbed_endSlot s _ _
    · exact undisturbed_of_same rfl rfl
    · exact undisturbed_centreSample s _ c
    · exact undisturbed_centreSample s _ c
    · exact undisturbed_centreSample s _ c
    · exact undisturbed_averageSample s _ c
    · exact undisturbed_of_same rfl rfl
  · exact undisturbed_of_same rfl rfl
  · exact undisturbed_of_same rfl rfl

theorem undisturbed_examineDue : Undisturbed s (examineDue s) := by
  refine ⟨?_, by rw [examineDue_head]⟩
  by_cases hd : s.round.state = .due
  · cases hb : roundBusy s with
    | true => rw [examineDue_of_busy s hb]; exact ⟨rfl, rfl⟩
    | false =>
      cases hc : roundCondition s with
      | some x => rw [(examineDue_of_free hd hb).1 x hc]; exact seesAs_of_follower (by simp)
      | none =>
        obtain ⟨first, more, he⟩ := enabledSlots_of_condition hc
        rw [(examineDue_of_free hd hb).2 hc, startRoundNow_of_slots he]
        exact seesAs_trans
          (seesAs_of_follower (keeps_startedRound _ _ .follower (by simp)))
          (undisturbed_beginSlot _ _ _).sees
  · rw [examineDue_of_not_due s hd]
    exact ⟨rfl, rfl⟩

end Undisturbed

/-! ### Every taken sample -/

theorem writeFrame_facts (o : Option Steer) (s : State) :
    (writeFrame o s).head.hasAdm = s.head.hasAdm ∧ (writeFrame o s).head.driveState = s.head.driveState := by
  cases o with
  | none => exact ⟨rfl, rfl⟩
  | some g => exact writeSteer_facts g s

/-- The state that the round unit handles: the follower, the round unit's search and the emitter have handled the front sample. -/
def roundFront (f : Sample) (rest : List Sample) (s : State) : State :=
  emitterSample (correctedFront f rest s).2 (writeFrame (roundHandled f rest s).frame (roundHandled f rest s).state)

section EverySample

variable {f : Sample} {rest : List Sample} {s : State}

theorem takeSample_every (h : s.head.rx = f :: rest) :
    exec .takeSample s =
      .next (examineDue (roundSample (roundHandled f rest s).report (correctedFront f rest s).2 (roundFront f rest s))) :=
  takeSample_front f rest h

theorem keeps_roundFront_emitter (f : Sample) (rest : List Sample) (s : State) :
    keepsOthers [.head, .station, .events, .emitter] (roundHandled f rest s).state (roundFront f rest s) :=
  keeps_then (keeps_mono (writeFrame_keeps _ _) (by simp)) (keeps_emitterSample _ _) (by simp)

/-- R2, R61 and R64: the decision on the front sample and its angles stand to the end of the handling. -/
theorem roundFront_undisturbed (f : Sample) (rest : List Sample) (s : State) :
    seesAs (notedFront f rest s) (roundFront f rest s) ∧ (roundFront f rest s).head.rx = rest := by
  refine ⟨?_, ?_⟩
  · exact seesAs_then
      (seesAs_trans (seesAs_followerTransition _ _) (seesAs_roundSearch _ (frontHandled f rest s)))
      (keeps_roundFront_emitter f rest s .follower (by simp))
  · have hemitter : (roundFront f rest s).head = _ := keeps_emitterSample _ _ .head (by simp)
    have hhandled : (roundHandled f rest s).state.head = { s.head with rx := rest } :=
      (roundSearch_head _ _).trans ((keeps_followerSample _ _ .head (by decide)).trans (correctedFront_keeps f rest s).2.2.2.2.1)
    rw [hemitter, writeFrame_rx, hhandled]

theorem roundFront_correction (f : Sample) (rest : List Sample) (s : State) :
    (roundFront f rest s).correction = (correctedFront f rest s).1.correction :=
  (keeps_roundFront_emitter f rest s .correction (by simp)).trans
    ((keeps_roundSearch _ _ .correction (by decide)).trans (keeps_followerSample _ _ .correction (by decide)))

end EverySample

/-! ### A sample whose base is gone (R46, R53) -/

section Gone

variable {s : State}

theorem askSearch_distance (o : Option (Fin 8)) (centre : Angles) (owner : SearchOwner) (s : State) :
    (askSearch o centre owner s).1.distance = s.distance ∧
      (s.follower.state ≠ .following → (askSearch o centre owner s).1.follower.state ≠ .following) := by
  rcases hx : askSearch o centre owner s with ⟨w, x⟩
  cases x with
  | unusable => rw [askSearch_unusable s hx]; exact ⟨rfl, id⟩
  | starved | started g =>
    obtain ⟨i, hi⟩ := askSearch_ready hx (by simp)
    have hleft := startSearch_leaves i centre owner s
    rw [hi] at hleft
    exact ⟨hleft.2, fun _ => hleft.1⟩

/-- With no distance and the follower outside FOLLOWING, from `s` to `t` it stays so, and no loss is reported. -/
structure StaysGone (s t : State) : Prop where
  distance : t.distance = s.distance
  follower : t.follower.state ≠ .following
  lost : t.events.get .distanceLost = s.events.get .distanceLost

theorem askRoundSearch_gone (r : RunningRound) (hf : s.follower.state ≠ .following) :
    StaysGone s (askRoundSearch r s).state := by
  obtain ⟨hdistance, hstate⟩ := askSearch_distance (s.round.entry r).descriptor (s.round.entry r).aim .round s
  have hsources :=
    (sources_askSearch (s.round.entry r).descriptor (s.round.entry r).aim .round s).2 .distanceLost (by simp [followerSources])
  unfold askRoundSearch
  split
  case h_1 | h_2 | h_3 => next heq => rw [heq] at hdistance hstate hsources; exact ⟨hdistance, hstate hf, hsources⟩

theorem roundSearch_gone (c : Corrected) {h : Handled} (hd : h.state.distance.state = .none)
    (hf : h.state.follower.state ≠ .following) : StaysGone h.state (roundSearch c h).state := by
  unfold roundSearch
  split
  · split
    · split
      · exact ⟨rfl, hf, rfl⟩
      · exact askRoundSearch_gone _ hf
    · exact askRoundSearch_gone _ hf
    · rw [releaseDistance_of_none _ hd]
      exact askRoundSearch_gone _ hf
    · exact ⟨rfl, hf, rfl⟩
  · exact ⟨rfl, hf, rfl⟩
  · exact ⟨rfl, hf, rfl⟩

theorem roundSample_gone (rep : FollowerReport) (c : Corrected) (hd : s.distance.state = .none)
    (hf : s.follower.state ≠ .following) :
    (roundSample rep c s).distance = s.distance ∧
      (roundSample rep c s).events.get .distanceLost = s.events.get .distanceLost := by
  cases hr : s.round.state with
  | idle | due => simp [roundSample, hr]
  | running r =>
    have hend : ∀ res aim, (endSlot res aim s).distance = s.distance ∧
        (endSlot res aim s).events.get .distanceLost = s.events.get .distanceLost := fun res aim => by
      obtain ⟨hdistance, hlost⟩ := endSlot_quiet_distance (res := res) (aim := aim) hr
      exact ⟨hdistance.trans (by rw [releaseDistance_of_none s hd]), hlost⟩
    have hcentre : (centreSample r c s).distance = s.distance ∧
        (centreSample r c s).events.get .distanceLost = s.events.get .distanceLost := by
      rw [centreSample, if_neg fun hx => hf hx.1]
      exact ⟨rfl, rfl⟩
    have haverage : averageSample r c s = endSlot .notFound none s :=
      averageSample_of_none (by rw [usableDistance, if_neg hf])
    simp only [roundSample, hr]
    split
    · exact hend _ _
    · exact ⟨rfl, rfl⟩
    · exact hcentre
    · exact hcentre
    · exact hcentre
    · rw [haverage]
      exact hend _ _
    · exact ⟨rfl, rfl⟩

/-- R46 and R53: an ABSENT sample that finds no distance, or drops it, leaves none, and reports no further loss. -/
theorem taken_gone {f : Sample} {rest : List Sample} (ha : decidePresence s.follower f = false)
    (hd : (correctedFront f rest s).1.distance.state = .none) {t : State}
    (ht : t = examineDue (roundSample (roundHandled f rest s).report (correctedFront f rest s).2 (roundFront f rest s))) :
    t.distance = (correctedFront f rest s).1.distance ∧
      t.events.get .distanceLost = (correctedFront f rest s).1.events.get .distanceLost := by
  have hpresent := (correctedFront_fields f rest s).2.1
  have hfollower : (frontHandled f rest s).state.follower.state ≠ .following ∧
      (frontHandled f rest s).state.distance = (correctedFront f rest s).1.distance := by
    rcases followerSample_handled (correctedFront f rest s).2 (correctedFront f rest s).1 with
      ⟨-, -, hp, -⟩ | ⟨-, ⟨hleft, hsame⟩ | ⟨-, -, hp⟩⟩
    · simp [hpresent, ha] at hp
    · exact ⟨hleft, hsame⟩
    · simp [hpresent, ha] at hp
  have hsearched : StaysGone (frontHandled f rest s).state (roundHandled f rest s).state :=
    roundSearch_gone _ (by rw [hfollower.2]; exact hd) hfollower.1
  have hkeep := keeps_roundFront_emitter f rest s
  have hfdistance : (roundFront f rest s).distance = (correctedFront f rest s).1.distance :=
    (hkeep .distance (by simp)).trans (hsearched.distance.trans hfollower.2)
  have hfstate : (roundFront f rest s).follower.state ≠ .following := by
    rw [hkeep .follower (by simp)]
    exact hsearched.follower
  have hflost : (roundFront f rest s).events.get .distanceLost = (correctedFront f rest s).1.events.get .distanceLost := by
    rw [roundFront, (sources_emitterSample _ _).2 .distanceLost (by simp), writeFrame_events, hsearched.lost, frontHandled,
      (sources_followerSample _ _).2 .distanceLost (by simp [followerSources])]
  obtain ⟨hrdistance, hrlost⟩ :=
    roundSample_gone (roundHandled f rest s).report (correctedFront f rest s).2 (by rw [hfdistance]; exact hd) hfstate
  obtain ⟨hedistance, helost⟩ := examineDue_of_no_distance
    (s := roundSample (roundHandled f rest s).report (correctedFront f rest s).2 (roundFront f rest s))
    (by rw [hrdistance, hfdistance]; exact hd)
  rw [ht]
  exact ⟨hedistance.trans (hrdistance.trans hfdistance),
    (helost.2 .distanceLost (by simp)).trans (hrlost.trans hflost)⟩

end Gone

end Sys2Proof.Machine

/-! ### The statements -/

namespace Sys2Proof.Proofs

open Sys2Proof Sys2Proof.Machine

/-- Settles O33: the three steps are the model's, and the bounds follow from the ranges of both factors. -/
theorem refractionRemoved : Obligations.RefractionRemoved := by
  intro dOpt n h0 h1 hn0 hn1
  obtain ⟨hproduct, hcorr0, hcorr1⟩ := refraction_bounds h0 h1 hn0 hn1 rfl
  refine ⟨_, _, _, rfl, rfl, rfl, rfl, hproduct, by omega, by omega, by omega, fun s src a href => ?_⟩
  have hum : (correctDistance s src a dOpt).dUm = geometricUm dOpt n := by rw [← href]; rfl
  refine ⟨rfl, hum, fun x y z h hh hx hy hz => ?_⟩
  have htracker : (correctDistance s src a dOpt).tracker = ⟨x, y, z⟩ := by
    rw [hx, hy, hz, hh, ← href]
    rfl
  have hat : (correctDistance s src a dOpt).at_ = frameCoordinates s.poses ⟨x, y, z⟩ := by rw [← htracker]; rfl
  refine ⟨htracker, fun hn => ?_, fun i p hi hp => ?_⟩
  · rw [hat, frameCoordinates, hn]
  · rw [hat, frameCoordinates, hi, hp]
    rfl

/-- Settles O35: the correction's decision on the distance, and the one thing that the follower adds to it. -/
theorem distanceOnSample : Obligations.DistanceOnSample := by
  intro s f rest h hr
  obtain ⟨t, hexec, ht, -⟩ := takeSample_idle h hr
  refine ⟨t, hexec, fun o m d q hs hq => ?_, fun o m hs hq => ?_, fun o c m hs hq hc => ?_, fun o c m hs hq => ?_,
    fun d b c hs hbad => ?_, fun d b c hs hi hp hrange => ?_, fun d b c hs hi hp h0 h1 => ?_⟩
  · have hset := correctedFront_adm (rest := rest) hs hq
    exact (taken_distance_of_held ht (by rw [hset]; simp)).trans hset
  · have hkept := correctedFront_adm_passed (rest := rest) hs hq
    exact (taken_distance_of_held ht (by rw [hkept, hs]; simp)).trans hkept
  · have hset := correctedFront_home (rest := rest) hs hq hc
    exact (taken_distance_of_held ht (by rw [hset]; simp)).trans hset
  · have hkept := correctedFront_home_passed (rest := rest) hs hq
    exact (taken_distance_of_held ht (by rw [hkept, hs]; simp)).trans hkept
  · obtain ⟨hdropped, hlost, hfault⟩ := correctedFront_dropped (rest := rest) hs hbad
    exact ⟨taken_dropped ht hr hdropped, (taken_losses ht (.inl rfl)).trans hlost, (taken_losses ht (.inr rfl)).trans hfault⟩
  · obtain ⟨hdropped, hfault, hlost⟩ := correctedFront_fault (rest := rest) hs hi hp (plausible_eq_false hrange)
    exact ⟨taken_dropped ht hr hdropped, (taken_losses ht (.inr rfl)).trans hfault, (taken_losses ht (.inl rfl)).trans hlost⟩
  · obtain ⟨hkept, hevents⟩ := correctedFront_held (rest := rest) hs hi hp (plausible_eq_true h0 h1)
    exact ⟨(taken_distance_of_held ht (by rw [hkept, hs]; simp)).trans hkept,
      (taken_losses ht (.inl rfl)).trans (by rw [hevents])⟩

/-- R140: a DUE round is examined at the end of the handling, with the conditions of the state before it. -/
theorem due_examined {s : State} {f : Sample} {rest : List Sample} (h : s.head.rx = f :: rest) (hr : s.round.state = .due) :
    ∃ t, exec .takeSample s = .next t ∧
      ((roundBusy t = true ∧ t.round = s.round) ∨
        (∃ x, roundCondition s = some x ∧ roundBusy t = false ∧
          t.round = { s.round with state := .idle, summary := .aborted x.abortReason } ∧
          t.events.get .roundAborted = (s.events.get .roundAborted).occurred s.localTime) ∨
        (roundCondition s = none ∧ t.emitter.mode = .idle ∧ t.search.active = none ∧ t.round.state.isRunning = true ∧
          t.follower.state = .aiming ∧ t.distance.state = .none)) := by
  have hnot : s.round.state.isRunning = false := by rw [hr]; rfl
  let w : State := emitterSample (correctedFront f rest s).2 (emitterFront f rest s)
  have hkemit := keeps_emitterSample (correctedFront f rest s).2 (emitterFront f rest s)
  have hkfront := keeps_emitterFront f rest s
  have hround : w.round = s.round :=
    (hkemit .round (by simp)).trans
      ((writeFrame_keeps _ _ .round (by simp)).trans
        ((frontHandled_round f rest s).trans (correctedFront_round (by simp [hr]))))
  have hposes : w.poses = s.poses := (hkemit .poses (by simp)).trans (hkfront .poses (by simp))
  have hhead : w.head.hasAdm = s.head.hasAdm ∧ w.head.driveState = s.head.driveState := by
    have hwhead : w.head = (emitterFront f rest s).head := hkemit .head (by simp)
    have hhandled : (frontHandled f rest s).state.head = { s.head with rx := rest } :=
      (keeps_followerSample _ _ .head (by decide)).trans (correctedFront_keeps f rest s).2.2.2.2.1
    have hframe := writeFrame_facts (frontHandled f rest s).frame (frontHandled f rest s).state
    rw [hhandled] at hframe
    rw [hwhead]
    exact hframe
  have hcond : roundCondition w = roundCondition s := roundCondition_congr hposes hhead.1 hhead.2 hround
  have htime : w.localTime = s.localTime := (hkemit .localTime (by simp)).trans (hkfront .localTime (by simp))
  have haborted : w.events.get .roundAborted = s.events.get .roundAborted := by
    rw [(sources_emitterSample _ _).2 .roundAborted (by simp), emitterFront, writeFrame_events, frontHandled,
      (sources_followerSample _ _).2 .roundAborted (by simp [followerSources]),
      (sources_correctedFront f rest s).2 .roundAborted (by simp)]
  refine ⟨examineDue w, takeSample_not_running h hnot, ?_⟩
  have hdue : w.round.state = .due := by rw [hround, hr]
  cases hb : roundBusy w with
  | true => exact .inl (by rw [examineDue_of_busy w hb]; exact ⟨hb, hround⟩)
  | false =>
    obtain ⟨hmode, hsearch, -⟩ := (roundBusy_eq_false_iff w).mp hb
    cases hc : roundCondition s with
    | some x =>
      obtain ⟨habandon, hroundX, hevent⟩ := (examineDue_leaves hdue hb).1 x (hcond.trans hc)
      refine .inr (.inl ⟨x, rfl, ?_, by rw [hroundX, hround], by rw [hevent, haborted, htime]⟩)
      rw [habandon, ← hb]
      exact roundBusy_congr (by simp) (by simp) (by simp)
    | none =>
      obtain ⟨hrunning, haiming, hdistance⟩ := (examineDue_leaves hdue hb).2 (hcond.trans hc)
      exact .inr (.inr ⟨rfl, by rw [(examineDue_keeps w).2.2.1, hmode], by rw [(examineDue_of_no_search hsearch).1, hsearch],
        hrunning, haiming, hdistance⟩)

/-- Settles O31: what the correction and the presence decision leave stands to the end of the hand-over. -/
theorem takenSampleIsDecided : Obligations.TakenSampleIsDecided := by
  intro s f rest h
  let w : State := roundFront f rest s
  let v : State := roundSample (roundHandled f rest s).report (correctedFront f rest s).2 w
  obtain ⟨hsees, hrx⟩ := roundFront_undisturbed f rest s
  have hround : Undisturbed w v := undisturbed_roundSample w _ _
  have hexamined : Undisturbed v (examineDue v) := undisturbed_examineDue v
  have hseen : seesAs (notedFront f rest s) (examineDue v) := seesAs_trans hsees (seesAs_trans hround.sees hexamined.sees)
  rw [seesAs, notedFront_follower] at hseen
  obtain ⟨hpresent, hangles⟩ := hseen
  have hemitter : (examineDue v).emitter = w.emitter :=
    (examineDue_keeps v).2.2.1.trans (keeps_roundSample _ _ _ .emitter (by decide))
  have hcorrection : (examineDue v).correction = (correctedFront f rest s).1.correction :=
    (examineDue_keeps v).1.trans ((keeps_roundSample _ _ _ .correction (by decide)).trans (roundFront_correction f rest s))
  rw [correctedFront_correction] at hcorrection
  refine ⟨_, takeSample_every h, hexamined.rx.trans (hround.rx.trans hrx), ?_, hpresent, fun hp => ?_, fun hp => ?_,
    fun hb => ⟨?_, fun hbase => ?_⟩, fun hb => ?_, fun hr => ?_⟩
  · rw [show (examineDue _).emitter = _ from hemitter]
    exact (emitterSample_timestamp _ _).trans (by rw [(correctedFront_fields f rest s).1])
  · have hq : decidePresence s.follower f = true := hpresent.symm.trans hp
    exact hangles.trans (if_pos hq)
  · have hq : decidePresence s.follower f = false := hpresent.symm.trans hp
    exact hangles.trans (if_neg (by simp [hq]))
  · rw [show (examineDue _).correction = _ from hcorrection, if_pos hb, count16_eq_min]
  · obtain ⟨src, b, c, hs⟩ := hbase
    have habsent : decidePresence s.follower f = false := by simp [decidePresence, hb]
    obtain ⟨hdropped, hlost, -⟩ := correctedFront_dropped (f := f) (rest := rest) hs (.inr habsent)
    obtain ⟨hdistance, hevent⟩ := taken_gone habsent (by rw [hdropped]) rfl
    refine ⟨by rw [hdistance, hdropped], by rw [hdistance, hdropped], ?_⟩
    rw [hevent, hlost]
    exact SourceState.occurred_latch _ _
  · rw [show (examineDue _).correction = _ from hcorrection, if_neg (by simp [hb])]
  · obtain ⟨t, hexec, hcases⟩ := due_examined h hr
    have hsame : examineDue v = t := by
      have hv := (takeSample_every h).symm.trans hexec
      simpa using hv
    exact hsame ▸ hcases

end Sys2Proof.Proofs
end

