-- ==== Sys2Proof/Proofs/Finding.lean ====
section
/-! A slot of a RUNNING round on a sample (sections 7.4 and 7.5): how it goes from phase to phase until its first averaged sample. -/

namespace Sys2Proof.Machine

/-! ### The round unit's handling, by phase (R143 to R147) -/

section Phases

variable {c : Corrected} {v : State} {x : RunningRound}

theorem roundSample_of_failed (hx : v.round.state = .running x) :
    roundSample .searchFailed c v = endSlot .notFound none v := by simp only [roundSample, hx]

theorem roundSample_of_arrived (hx : v.round.state = .running x) (hp : x.phase = .aim) :
    roundSample .arrived c v = setRoundState (.running { x with phase := .acquire }) v := by simp only [roundSample, hx, hp]

theorem roundSample_of_acquired (hx : v.round.state = .running x) (hp : x.phase = .acquire ∨ x.phase = .search) :
    roundSample .acquired c v = centreSample x c v := by
  rcases hp with hp | hp <;> simp only [roundSample, hx, hp]

theorem roundSample_of_centre (hx : v.round.state = .running x) (hp : x.phase = .centre) :
    roundSample .none c v = centreSample x c v := by simp only [roundSample, hx, hp]

/-- A sample on which the follower reports nothing leaves every phase but CENTRE and AVERAGE. -/
theorem roundSample_of_quiet (hx : v.round.state = .running x) (hc : x.phase ≠ .centre) (ha : x.phase ≠ .average) :
    roundSample .none c v = v := by
  cases hp : x.phase with
  | centre => exact absurd hp hc
  | average => exact absurd hp ha
  | aim | acquire | search | adm => simp only [roundSample, hx, hp]

theorem roundSearch_of_other {h : Handled} (hx : h.state.round.state = .running x)
    (hacq : x.phase = .acquire → c.present = true ∨ h.report ≠ .none) (hlost : h.report ≠ .beamLost) :
    roundSearch c h = h := by
  unfold roundSearch
  rw [hx]
  dsimp only
  split
  · next hp hrep =>
    rw [if_pos]
    exact (hacq hp).resolve_right fun hne => hne hrep
  · next hrep => exact absurd hrep hlost
  · next hrep => exact absurd hrep hlost
  · rfl

theorem roundSearch_of_acquire {h : Handled} (hx : h.state.round.state = .running x) (hp : x.phase = .acquire)
    (hrep : h.report = .none) (ha : c.present = false) : roundSearch c h = askRoundSearch x h.state := by
  simp [roundSearch, hx, hp, hrep, ha]

theorem roundSearch_of_centre_lost {h : Handled} (hx : h.state.round.state = .running x) (hp : x.phase = .centre)
    (hrep : h.report = .beamLost) : roundSearch c h = askRoundSearch x h.state := by
  simp only [roundSearch, hx, hp, hrep]

theorem roundSearch_of_adm_lost {h : Handled} (hx : h.state.round.state = .running x) (hp : x.phase = .adm)
    (hrep : h.report = .beamLost) : roundSearch c h = askRoundSearch x (releaseDistance h.state) := by
  simp only [roundSearch, hx, hp, hrep]

theorem askRoundWait_of_free (hd : v.distance.state = .none) (ha : v.head.hasAdm = true) :
    askRoundWait v = (startAdmWait .round v, true) := if_pos ⟨hd, ha⟩

theorem askRoundWait_of_gone (ha : v.head.hasAdm = false) : askRoundWait v = (v, false) := if_neg (by simp [ha])

end Phases

/-! ### The test for a centred beam (R146) -/

section Centre

variable {f : Sample} {rest : List Sample} {s v t : State} {r : RunningRound} {iAz iEl : Int}

theorem loopWritten_congr (h : loopWritten iAz iEl f s v) (hf : t.follower = v.follower) (hh : t.head = v.head) :
    loopWritten iAz iEl f s t := by
  rw [loopWritten, hf]
  obtain ⟨az, el, haz, hel, hiAz, hiEl, hw⟩ := h
  refine ⟨az, el, haz, hel, hiAz, hiEl, ?_⟩
  rw [steerWritten, hh]
  exact hw

theorem centred_front (f : Sample) (rest : List Sample) (s : State) :
    (inRange (-200) 200 (correctedFront f rest s).2.psdX = true ∧ inRange (-200) 200 (correctedFront f rest s).2.psdY = true) ↔
      centred f := by
  have hfields := correctedFront_fields f rest s
  rw [hfields.2.2.1, hfields.2.2.2.1, clampPsd_centred, clampPsd_centred]
  exact Iff.rfl

/-- The state in which a sample is tested for a centred beam: in FOLLOWING, the slot and the distance as they were, the loop run. -/
structure TestReady (r : RunningRound) (iAz iEl : Int) (f : Sample) (s v : State) : Prop where
  following : v.follower.state = .following
  distance : v.distance = s.distance
  hasAdm : v.head.hasAdm = s.head.hasAdm
  slot : InSlot r s v
  time : v.localTime = s.localTime
  loop : loopWritten iAz iEl f s v

theorem centreTested_of_ready (h : TestReady r iAz iEl f s v) (hn : s.distance.state = .none)
    (ht : t = centreSample r (correctedFront f rest s).2 v) : centreTested r iAz iEl f s t := by
  obtain ⟨hfollowing, hdistance, hadm, hslot, htime, hloop⟩ := h
  have hnone : v.distance.state = .none := by rw [hdistance, hn]
  have hcentred := centred_front f rest s
  refine ⟨fun hoff => ?_, fun hon ha => ?_, fun hon ha => ?_⟩
  · rw [centreSample, if_neg fun hx => hoff (hcentred.mp hx.2)] at ht
    rw [ht]
    exact ⟨rfl, hdistance, hfollowing, loopWritten_congr hloop rfl rfl⟩
  · rw [centreSample, if_pos ⟨hfollowing, hcentred.mpr hon⟩, askRoundWait_of_free hnone (by rw [hadm, ha])] at ht
    rw [ht]
    refine ⟨rfl, ?_, hfollowing, loopWritten_congr hloop rfl rfl⟩
    simp [setRoundState, startAdmWait, hdistance]
  · rw [centreSample, if_pos ⟨hfollowing, hcentred.mpr hon⟩, askRoundWait_of_gone (by rw [hadm, ha])] at ht
    rw [ht]
    exact htime ▸ slotEnds_endSlot hslot .notFound none

/-- R146: a sample that does not leave the follower in FOLLOWING is not tested. -/
theorem centreSample_of_left (hp : r.phase = .centre) (hf : v.follower.state ≠ .following) (c : Corrected) :
    centreSample r c v = setRoundState (.running r) v := by
  rw [centreSample, if_neg fun hx => hf hx.1, ← hp]

theorem sources_centreSample (r : RunningRound) (c : Corrected) (v : State) : keepsSources slotSources v (centreSample r c v) := by
  have hwait : keepsSources slotSources v (askRoundWait v).1 := sources_of_events (keeps_askRoundWait v .events (by simp))
  unfold centreSample
  split
  · split
    · next heq => rw [heq] at hwait; exact sources_then_same hwait rfl
    · next heq => rw [heq] at hwait; exact sources_trans hwait (sources_endSlot _ _ _)
  · exact sources_of_events rfl

theorem centreSample_search (hr : v.round.state = .running r) (hn : v.search.active = none) (c : Corrected) :
    (centreSample r c v).search.active = none := by
  have hsearch : (askRoundWait v).1.search = v.search := keeps_askRoundWait v .search (by simp)
  have hround : (askRoundWait v).1.round = v.round := keeps_askRoundWait v .round (by simp)
  unfold centreSample
  split
  · split
    · next heq => rw [heq] at hsearch; exact (congrArg SearchUnit.active hsearch).trans hn
    · next heq => rw [heq] at hround; exact (endSlot_leaves _ _ ((congrArg RoundUnit.state hround).trans hr)).2.1
  · exact hn

end Centre

/-! ### The search that the round unit asks for (R145) -/

section Searched

variable {f : Sample} {rest : List Sample} {s t u v : State} {r : RunningRound}

theorem askRoundSearch_of_unusable {w : State}
    (h : askSearch (u.round.entry r).descriptor (u.round.entry r).aim .round u = (w, .unusable)) :
    askRoundSearch r u = ⟨w, some .hold, .searchFailed⟩ := by simp only [askRoundSearch, h]

theorem askRoundSearch_of_starved {w : State}
    (h : askSearch (u.round.entry r).descriptor (u.round.entry r).aim .round u = (w, .starved)) :
    askRoundSearch r u = ⟨w, some .hold, .searchFailed⟩ := by simp only [askRoundSearch, h]

theorem askRoundSearch_of_started {w : State} {g : Angles}
    (h : askSearch (u.round.entry r).descriptor (u.round.entry r).aim .round u = (w, .started g)) :
    askRoundSearch r u =
      ⟨setRoundState (.running { r with phase := .search }) w, some (.position g.az g.el), .none⟩ := by
  simp only [askRoundSearch, h]

/-- The state in which the round unit asks for a search: the slot, the search unit and the local time as they were. -/
structure AskReady (r : RunningRound) (s u : State) : Prop where
  round : u.round = s.round
  running : s.round.state = .running r
  search : u.search = s.search
  time : u.localTime = s.localTime
  starved : u.events.get .searchStarved = s.events.get .searchStarved
  done : u.events.get .roundDone = s.events.get .roundDone

/-- R145 and R79: a search that could not start, or that ended, ends the slot. -/
theorem slotEnds_of_failed {w : State} (hr : s.round.state = .running r) (hround : w.round = s.round)
    (hdone : w.events.get .roundDone = s.events.get .roundDone)
    (hhandled : roundHandled f rest s = ⟨w, some .hold, .searchFailed⟩) (hon : HandedOn f rest s v)
    (ht : t = roundSample (roundHandled f rest s).report (correctedFront f rest s).2 v) :
    slotEnds r .notFound none s.localTime s t ∧ t.distance = (releaseDistance w).distance ∧
      ∀ src, src = .searchStarved ∨ src = .searchExhausted → t.events.get src = w.events.get src := by
  have hvround : v.round = s.round := by rw [hon.round, hhandled, hround]
  have hvrunning : v.round.state = .running r := by rw [hvround, hr]
  have hevents := hon.events
  rw [hhandled] at hevents
  have hvdone : v.events.get .roundDone = s.events.get .roundDone := by rw [hevents.2 .roundDone (by simp), hdone]
  have hend : t = endSlot .notFound none v := by
    rw [ht, hhandled]
    exact roundSample_of_failed hvrunning
  have hvdistance : v.distance = w.distance := by rw [hon.distance, hhandled]
  rw [hend]
  refine ⟨hon.localTime ▸ slotEnds_endSlot (.of_round hr hvround hvdone) .notFound none, ?_, fun src hsrc => ?_⟩
  · rw [(endSlot_quiet_distance hvrunning).1]
    exact releaseDistance_distance_congr hvdistance
  · rw [(sources_endSlot _ _ _).2 src (by rcases hsrc with rfl | rfl <;> simp [slotSources]),
      hevents.2 src (by rcases hsrc with rfl | rfl <;> simp)]

/-- R145: a sample on which the round unit asks for a search, which leaves a distance unit with no distance as it was. -/
theorem slotSearched_of_asked (h : AskReady r s u) (hhandled : roundHandled f rest s = askRoundSearch r u)
    (hon : HandedOn f rest s v) (ht : t = roundSample (roundHandled f rest s).report (correctedFront f rest s).2 v) :
    slotSearched r s t ∧ (u.distance.state = .none → t.distance = u.distance) := by
  have hentry : u.round.entry r = s.round.table[r.current] := by rw [h.round]; rfl
  have hfailed : ∀ w, keepsOthers [.search, .follower, .events] u w →
      keepsSources [.patternLow, .beamAbsent, .searchStarved] u w →
      roundHandled f rest s = ⟨w, some .hold, .searchFailed⟩ →
      slotEnds r .notFound none s.localTime s t ∧ t.distance = (releaseDistance w).distance ∧
        ∀ src, src = .searchStarved ∨ src = .searchExhausted → t.events.get src = w.events.get src :=
    fun w hw hsources hx => slotEnds_of_failed h.running ((hw .round (by simp)).trans h.round)
      ((hsources.2 .roundDone (by simp)).trans h.done) hx hon ht
  refine ⟨?_, fun hnone => ?_⟩
  · rw [slotSearched, ← hentry]
    refine searchAsked_of_answers h.search h.starved h.time (fun hx => ?_) (fun x g hx => ?_)
      (fun w hx _ _ hkeep hsources => ?_)
    · exact (hfailed u (keeps_refl _ u) (sources_refl _ u) (hhandled.trans (askRoundSearch_of_unusable hx))).1
    · rw [askRoundSearch_of_started hx] at hhandled
      have hvround : v.round.state = .running { r with phase := .search } := by rw [hon.round, hhandled]; rfl
      have htv : t = v := by rw [ht, hhandled]; exact roundSample_of_quiet hvround (by simp) (by simp)
      have hfollower : v.follower = (searchStarted x u).follower := by rw [hon.follower, hhandled]; rfl
      have hsearch : v.search = (searchStarted x u).search := by rw [hon.search, hhandled]; rfl
      rw [searchStarted_follower] at hfollower
      rw [searchStarted_search] at hsearch
      rw [htv]
      exact ⟨hvround, by rw [hfollower], by rw [hfollower], hsearch, hon.frame _ (by rw [hhandled])⟩
    · obtain ⟨hends, -, hevents⟩ := hfailed w hkeep hsources (hhandled.trans (askRoundSearch_of_starved hx))
      exact ⟨hends, hevents .searchStarved (.inl rfl)⟩
  · rcases hx : askSearch (u.round.entry r).descriptor (u.round.entry r).aim .round u with ⟨w, x⟩
    have hkeep := keeps_askSearch (u.round.entry r).descriptor (u.round.entry r).aim .round u
    rw [hx] at hkeep
    have hwdistance : w.distance = u.distance := hkeep .distance (by simp)
    have hwround : w.round = s.round := (hkeep .round (by simp)).trans h.round
    have hend : roundHandled f rest s = ⟨w, some .hold, .searchFailed⟩ → t.distance = u.distance := fun hh => by
      have hvround : v.round.state = .running r := by rw [hon.round, hh, hwround, h.running]
      have hvdistance : v.distance = u.distance := by rw [hon.distance, hh, hwdistance]
      rw [ht, hh, roundSample_of_failed hvround, (endSlot_quiet_distance hvround).1,
        releaseDistance_of_none v (by rw [hvdistance, hnone]), hvdistance]
    cases x with
    | unusable => exact hend (hhandled.trans (askRoundSearch_of_unusable hx))
    | starved => exact hend (hhandled.trans (askRoundSearch_of_starved hx))
    | started g =>
      rw [askRoundSearch_of_started hx] at hhandled
      have hvround : v.round.state = .running { r with phase := .search } := by rw [hon.round, hhandled]; rfl
      rw [ht, hhandled, roundSample_of_quiet hvround (by simp) (by simp), hon.distance, hhandled]
      exact hwdistance

/-- R149: the end of a slot leaves the follower on its way to the next entry, or back. -/
theorem slotEnds_not_searching {res : FiducialResult} {g : Option Angles} {n : Word} (h : slotEnds r res g n s t) :
    t.follower.state ≠ .searching := by
  obtain ⟨-, hnext, hlast⟩ := h
  rcases hx : r.slots[r.results.length + 1]? with _ | e
  · obtain ⟨-, -, -, -, -, -, -, hreturn, hpark⟩ := hlast hx
    rcases hon : s.round.returnOn with _ | _
    · simp [hpark (.inl hon)]
    · rcases ha : s.round.returnAngles with _ | a
      · simp [hpark (.inr ha)]
      · simp [(hreturn a hon ha).1]
  · obtain ⟨-, -, -, haiming, -⟩ := hnext e hx
    simp [haiming]

end Searched

/-! ### The correction of a sample in ADM (R47, R48, R147) -/

/-- R16: the count of the base itself gives the base's distance. -/
theorem opticalDistance_self (b : Nat) (n : Word) : opticalDistance b n n = b := by simp [opticalDistance]

section AdmCorrection

variable {f : Sample} {rest : List Sample} {s : State} {r : RunningRound} {m : Nat}

theorem decideStep_of_passed {b : Bool} {u : State} (h : decideDistance f b u = u)
    (hs : u.distance.state = .awaitAdm .round m) : decideStep f b u = u := by
  simp only [decideStep, noteEstablished, h, hs]

/-- R47: a sample that does not qualify leaves the wait and the phase. -/
theorem correctedFront_round_passed (hs : s.distance.state = .awaitAdm .round m) (h : ∀ d q, ¬ admQualifies s f d q) :
    (correctedFront f rest s).1.round = s.round := by
  let u : State := s.setHead { s.head with rx := rest }
  have hmeasure : ∀ a (w : State), (measure f a w).1.round = w.round := fun a w => keeps_measure f a w .round (by simp)
  cases hb : badSample f with
  | true =>
    let u' : State := u.setCorrection { u.correction with badSamples := count16 u.correction.badSamples }
    have habsent : decidePresence u'.follower f = false := by simp [decidePresence, hb]
    have hpassed : decided f u' = u' := decided_adm_passed (s := u') hs fun d q hq => by
      have hgood := hq.1
      rw [hb] at hgood
      exact absurd hgood (by simp)
    rw [decided, habsent] at hpassed
    have hstep : decideStep f false u' = u' := decideStep_of_passed hpassed hs
    have hcorrect : (correctedFront f rest s).1 = decideStep f false u' := by
      rw [correctedFront, correctSample, if_pos hb]
      rfl
    rw [hcorrect, hstep]
    rfl
  | false =>
    have hpassed : decided f u = u := decided_adm_passed (s := u) hs h
    have hstep : decideStep f (decidePresence u.follower f) u = u := decideStep_of_passed hpassed hs
    have hcorrect : (correctedFront f rest s).1.round = (measure f (correctAngles u.correction f) (decideStep f (decidePresence u.follower f) u)).1.round := by
      rw [correctedFront, correctSample, if_neg (by simp [hb])]
      rfl
    rw [hcorrect, hmeasure, hstep]
    rfl

/-- R147: the sample that qualifies brings the slot to AVERAGE. -/
theorem correctedFront_round_set (hr : s.round.state = .running r) (hp : r.phase = .adm)
    (hs : s.distance.state = .awaitAdm .round m) {d : Word} {q : Byte} (h : admQualifies s f d q) :
    (correctedFront f rest s).1.round = { s.round with state := .running { r with phase := .average } } := by
  let u : State := s.setHead { s.head with rx := rest }
  have hset : decided f u = setBase .adm d.toNat f.ifmCount u := decided_adm (s := u) hs h
  rw [decided] at hset
  have hstep : decideStep f (decidePresence u.follower f) u = roundEstablished (setBase .adm d.toNat f.ifmCount u) := by
    rw [decideStep, hset, show u.distance.state = .awaitAdm .round m from hs]
    rfl
  have hround : (setBase .adm d.toNat f.ifmCount u).round.state = .running r := hr
  have hestablished : roundEstablished (setBase .adm d.toNat f.ifmCount u) =
      setRoundState (.running { r with phase := .average }) (setBase .adm d.toNat f.ifmCount u) := by
    simp only [roundEstablished, hround, if_pos hp]
  have hcorrect : (correctedFront f rest s).1.round =
      (measure f (correctAngles u.correction f) (decideStep f (decidePresence u.follower f) u)).1.round := by
    rw [correctedFront, correctSample, if_neg (by simp [h.1])]
    rfl
  have hmeasure : ∀ a (w : State), (measure f a w).1.round = w.round := fun a w => keeps_measure f a w .round (by simp)
  rw [hcorrect, hmeasure, hstep, hestablished]
  rfl

end AdmCorrection

/-! ### The front sample of a RUNNING round -/

section Front

variable {f : Sample} {rest : List Sample} {s t u v : State} {r : RunningRound} {iAz iEl : Int}

theorem correctedFront_round_of_phase (hr : s.round.state = .running r) (hp : r.phase ≠ .adm) :
    (correctedFront f rest s).1.round = s.round :=
  correctedFront_round fun x hx => by
    rw [hr] at hx
    obtain rfl := RoundState.running.inj hx
    exact hp

/-- What is left of a taken sample for the round unit to handle. -/
theorem running_taken (h : s.head.rx = f :: rest) (hr : s.round.state = .running r)
    (hround : (correctedFront f rest s).1.round = s.round) (ht : exec .takeSample s = .next t) :
    ∃ v, t = roundSample (roundHandled f rest s).report (correctedFront f rest s).2 v ∧ HandedOn f rest s v := by
  obtain ⟨v, hv, hon⟩ := takeSample_running h (by rw [hround]; exact hr)
  exact ⟨v, by simpa using ht.symm.trans hv, hon⟩

theorem frontHandled_running (hr : s.round.state = .running r) (hround : (correctedFront f rest s).1.round = s.round) :
    (frontHandled f rest s).state.round.state = .running r := by
  rw [frontHandled_round, hround, hr]

/-- Where the round unit asked for no search, the slot is as it was. -/
theorem handedOn_slot (hr : s.round.state = .running r) (hround : (correctedFront f rest s).1.round = s.round)
    (hsame : roundHandled f rest s = frontHandled f rest s) (hon : HandedOn f rest s v) :
    v.round = s.round ∧ InSlot r s v := by
  have hv : v.round = s.round := by rw [hon.round, hsame, frontHandled_round, hround]
  have hevents := hon.events
  rw [hsame] at hevents
  refine ⟨hv, .of_round hr hv ?_⟩
  rw [hevents.2 .roundDone (by simp), frontHandled, (sources_followerSample _ _).2 .roundDone (by simp [followerSources]),
    (sources_correctedFront f rest s).2 .roundDone (by simp)]

/-- A sample on which the follower is in FOLLOWING and has run its loop is ready for the test of R146. -/
theorem testReady_of_loop (hr : s.round.state = .running r) (hround : (correctedFront f rest s).1.round = s.round)
    (hsame : roundHandled f rest s = frontHandled f rest s) (hon : HandedOn f rest s v)
    (hf : (frontHandled f rest s).state.follower.state = .following)
    (hd : (frontHandled f rest s).state.distance = s.distance) (hrun : LoopRun iAz iEl f s (frontHandled f rest s)) :
    TestReady r iAz iEl f s v := by
  obtain ⟨-, hslot⟩ := handedOn_slot hr hround hsame hon
  have hfollower := hon.follower
  have hdistance := hon.distance
  have hframe := hon.frame
  rw [hsame] at hfollower hdistance hframe
  exact ⟨by rw [hfollower, hf], hdistance.trans hd, hon.hasAdm, hslot, hon.localTime,
    loopWritten_of_run hrun hfollower hframe⟩

/-- A state that differs from the noted one in the follower only finds the slot and the search unit as they were. -/
theorem askReady_of_noted (hr : s.round.state = .running r) (hround : (correctedFront f rest s).1.round = s.round)
    (hkeep : keepsOthers [.follower, .events, .distance] (notedFront f rest s) u)
    (hsources : keepsSources [.beamAbsent] (notedFront f rest s) u) : AskReady r s u where
  round := (hkeep .round (by simp)).trans hround
  running := hr
  search := (hkeep .search (by simp)).trans (notedFront_search f rest s)
  time := (hkeep .localTime (by simp)).trans (notedFront_localTime f rest s)
  starved := (hsources.2 .searchStarved (by simp)).trans ((sources_notedFront f rest s).2 .searchStarved (by simp))
  done := (hsources.2 .roundDone (by simp)).trans ((sources_notedFront f rest s).2 .roundDone (by simp))

theorem autoWait_of_running (h : u.round.state.isRunning = true) : autoWait u = u.distance := by
  rw [autoWait, if_neg fun hx => by simp [h] at hx]

/-- What a sample leaves that keeps the slot in its phase: the units as the follower left them, and its frame written. -/
structure SlotKept (r : RunningRound) (f : Sample) (rest : List Sample) (s t : State) : Prop where
  running : t.round.state = .running r
  follower : t.follower = (frontHandled f rest s).state.follower
  search : t.search = (frontHandled f rest s).state.search
  distance : t.distance = (frontHandled f rest s).state.distance
  frame : ∀ g, (frontHandled f rest s).frame = some g → steerWritten g s t

/-- R143 to R147: a sample on which the follower reports nothing keeps the slot in its phase, but where R144, R146 or R148 acts. -/
theorem slot_kept (h : s.head.rx = f :: rest) (hr : s.round.state = .running r)
    (hround : (correctedFront f rest s).1.round = s.round) (ht : exec .takeSample s = .next t)
    (hreport : (frontHandled f rest s).report = .none) (hacq : r.phase = .acquire → decidePresence s.follower f = true)
    (hcentre : r.phase = .centre → (frontHandled f rest s).state.follower.state ≠ .following) (hav : r.phase ≠ .average) :
    SlotKept r f rest s t := by
  obtain ⟨v, hv, hon⟩ := running_taken h hr hround ht
  have hsame : roundHandled f rest s = frontHandled f rest s :=
    roundSearch_of_other (frontHandled_running hr hround)
      (fun hp => .inl ((correctedFront_fields f rest s).2.1.trans (hacq hp)))
      (by rw [show (followerSample _ _).report = _ from hreport]; simp)
  obtain ⟨hvround, -⟩ := handedOn_slot hr hround hsame hon
  have hvrunning : v.round.state = .running r := by rw [hvround, hr]
  have hleft : t.round.state = .running r ∧ t.follower = v.follower ∧ t.search = v.search ∧ t.distance = v.distance ∧
      t.head = v.head := by
    rw [hv, hsame, hreport]
    by_cases hp : r.phase = .centre
    · rw [roundSample_of_centre hvrunning hp,
        centreSample_of_left hp (by rw [hon.follower, hsame]; exact hcentre hp)]
      exact ⟨rfl, rfl, rfl, rfl, rfl⟩
    · rw [roundSample_of_quiet hvrunning hp hav]
      exact ⟨hvrunning, rfl, rfl, rfl, rfl⟩
  obtain ⟨htround, htfollower, htsearch, htdistance, hthead⟩ := hleft
  refine ⟨htround, ?_, ?_, ?_, fun g hg => ?_⟩
  · rw [htfollower, hon.follower, hsame]
  · rw [htsearch, hon.search, hsame]
  · rw [htdistance, hon.distance, hsame]
  · have hwritten := hon.frame g (by rw [hsame, hg])
    rw [steerWritten, ← hthead] at hwritten
    exact hwritten

/-- R45: an entry to FOLLOWING in a RUNNING round starts no wait. -/
theorem closeLoop_distance_of_running {keep : Bool} {rep : FollowerReport} {c : Corrected} (h : u.round.state = .running r) :
    (closeLoop keep rep c u).state.distance = u.distance := by
  rw [closeLoop_distance, autoWait_of_running (by rw [h]; rfl)]

/-! ### The follower in a slot (R75 to R77, R80) -/

theorem lostSample_of_counted {c : Corrected} (h : u.round.state.isRunning = true)
    (hq : c.present = false ∨ u.follower.acqRun < 2) : lostSample c u = ⟨countedRun c.present u, some .hold, .none⟩ := by
  cases hp : c.present with
  | false => simp only [lostSample, h, hp, if_true, Bool.false_eq_true, if_false, countedRun]
  | true =>
    have hrun : u.follower.acqRun + 1 < 3 := by have := hq.resolve_left (by simp [hp]); omega
    simp only [lostSample, h, hp, if_true, if_pos hrun, countedRun]

theorem lostSample_of_acquired {c : Corrected} (h : u.round.state.isRunning = true) (hp : c.present = true)
    (hn : 2 ≤ u.follower.acqRun) : lostSample c u = closeLoop false .acquired c u := by
  simp only [lostSample, h, hp, if_true, if_neg (show ¬ u.follower.acqRun + 1 < 3 by omega)]

/-- R80 and R78: the beam acquired for the round unit, whose follower enters FOLLOWING with both integrators at 0. -/
theorem acquired_followed (hr : s.round.state = .running r) (hu : u.round = s.round) (hready : LoopReady f s u)
    (hd : u.distance = s.distance) (h : frontHandled f rest s = closeLoop false .acquired (correctedFront f rest s).2 u) :
    (frontHandled f rest s).state.follower.state = .following ∧ (frontHandled f rest s).state.distance = s.distance ∧
      LoopRun 0 0 f s (frontHandled f rest s) ∧ (frontHandled f rest s).report = .acquired := by
  have hrun := closeLoop_run (rest := rest) false .acquired hready
  rw [← h] at hrun
  obtain ⟨iAz, iEl, hfollower⟩ := closeLoop_follower false .acquired (correctedFront f rest s).2 u
  refine ⟨by rw [h, hfollower], ?_, by simpa only [Bool.false_eq_true, if_false] using hrun, by rw [h]; rfl⟩
  rw [h, closeLoop_distance_of_running (r := r) (by rw [hu, hr]), hd]

/-- R85 and R76: a PRESENT sample in FOLLOWING or HOLDING leaves the follower in FOLLOWING with its loop run. -/
theorem present_followed (hrunning : (correctedFront f rest s).1.round.state = .running r)
    (hp : s.follower.followPending = false) (hs : s.follower.state = .following ∨ s.follower.state = .holding)
    (hq : decidePresence s.follower f = true) :
    (frontHandled f rest s).state.follower.state = .following ∧
      (frontHandled f rest s).state.distance = (correctedFront f rest s).1.distance ∧
      LoopRun s.follower.iAz s.follower.iEl f s (frontHandled f rest s) ∧ (frontHandled f rest s).report = .none := by
  have hready := notedFront_ready (rest := rest) hq
  rcases hs with hs | hs
  · have hhandled := frontHandled_of_following (f := f) (rest := rest) hp hs
    rw [if_pos hq] at hhandled
    have hrun := steer_run (rest := rest) hready .none
    rw [← hhandled, notedFront_follower] at hrun
    have hsteer : (steer (correctedFront f rest s).2 (notedFront f rest s)).1.follower.state = .following := by
      rw [steer, State.setFollower_follower, notedFront_follower]
      exact hs
    exact ⟨by rw [hhandled]; exact hsteer, by rw [hhandled]; rfl, hrun, by rw [hhandled]⟩
  · have hhandled := frontHandled_of_holding (f := f) (rest := rest) hp hs
    rw [if_pos hq] at hhandled
    have hrun := closeLoop_run (rest := rest) true .none hready
    rw [← hhandled, notedFront_follower] at hrun
    obtain ⟨iAz, iEl, hfollower⟩ := closeLoop_follower true .none (correctedFront f rest s).2 (notedFront f rest s)
    refine ⟨by rw [hhandled, hfollower], ?_, by simpa only [if_true] using hrun, by rw [hhandled]; rfl⟩
    rw [hhandled, closeLoop_distance_of_running (u := notedFront f rest s) hrunning]
    rfl

/-- R75 and R76: an ABSENT sample that the grace outlasts leaves the follower in HOLDING. -/
theorem absent_held (hp : s.follower.followPending = false) (ha : decidePresence s.follower f = false) :
    (s.follower.state = .following → 0 < s.follower.graceParam →
      (frontHandled f rest s).state.follower =
          { (notedFront f rest s).follower with state := .holding, grace := some s.follower.graceParam } ∧
        (frontHandled f rest s).state.distance = (correctedFront f rest s).1.distance ∧
        (frontHandled f rest s).frame = some .hold ∧ (frontHandled f rest s).report = .none) ∧
    (∀ g, s.follower.state = .holding → s.follower.grace = some g → 1 < g →
      (frontHandled f rest s).state.follower = { (notedFront f rest s).follower with grace := some (g - 1) } ∧
        (frontHandled f rest s).state.distance = (correctedFront f rest s).1.distance ∧
        (frontHandled f rest s).report = .none) := by
  have hnoted := notedFront_follower f rest s
  refine ⟨fun hs hg => ?_, fun g hs hgrace hg => ?_⟩
  · rw [frontHandled_of_following hp hs, if_neg (by simp [ha]), enterHolding_of_grace (by rw [hnoted]; exact hg)]
    refine ⟨by rw [heldState, storeFollower_follower, hnoted], ?_, rfl, rfl⟩
    exact (storeFollower_keeps _ _).2.2.1
  · rw [frontHandled_of_holding hp hs, if_neg (by simp [ha]), countGrace_of_left (by rw [hnoted]; exact hgrace) hg]
    exact ⟨rfl, rfl, rfl⟩

/-- R77: in a RUNNING round the sample on which the grace ends loses the beam to the round unit. -/
theorem grace_lost (hr : s.round.state = .running r) (hround : (correctedFront f rest s).1.round = s.round)
    (hp : s.follower.followPending = false) (ha : decidePresence s.follower f = false)
    (hend : (∃ g, s.follower.state = .holding ∧ s.follower.grace = some g ∧ g ≤ 1) ∨
      s.follower.state = .following ∧ s.follower.graceParam = 0) :
    ∃ w, frontHandled f rest s = loseBeam .beamLost w ∧ keepsOthers [.follower, .events] (notedFront f rest s) w ∧
      keepsSources [.beamAbsent] (notedFront f rest s) w := by
  have hrunning : (notedFront f rest s).round.state.isRunning = true := by
    rw [show (notedFront f rest s).round = s.round from hround, hr]
    rfl
  rcases hend with ⟨g, hs, hgrace, hg⟩ | ⟨hs, hg⟩
  · let w : State := (notedFront f rest s).setFollower { (notedFront f rest s).follower with grace := some (g - 1) }
    refine ⟨w, ?_, keeps_mono (keeps_setFollower (notedFront f rest s) _) (by simp), sources_of_events rfl⟩
    rw [frontHandled_of_holding hp hs, if_neg (by simp [ha]), countGrace_of_last (by rw [notedFront_follower]; exact hgrace) hg]
    exact expireGrace_of_running hrunning
  · have hkeep : keepsOthers [.follower, .events] (notedFront f rest s) (heldState (notedFront f rest s)) :=
      keeps_storeFollower _ _
    refine ⟨heldState (notedFront f rest s), ?_, hkeep, sources_storeFollower _ _⟩
    rw [frontHandled_of_following hp hs, if_neg (by simp [ha]), enterHolding_of_no_grace (by rw [notedFront_follower]; exact hg),
      expireGrace_of_running (by rw [hkeep .round (by simp)]; exact hrunning)]

end Front

end Sys2Proof.Machine

/-! ### The statement -/

namespace Sys2Proof.Proofs

open Sys2Proof Sys2Proof.Machine

section Slot

variable {f : Sample} {rest : List Sample} {s t : State} {r : RunningRound}

/-- R143: a sample in phase AIM. -/
theorem slot_aims (h : s.head.rx = f :: rest) (hr : s.round.state = .running r) (hpending : s.follower.followPending = false)
    (ht : exec .takeSample s = .next t) {a : Aim} (hp : r.phase = .aim) (hs : s.follower.state = .aiming)
    (ha : s.follower.aim = some a) (ho : a.owner = .round) (hthen : a.thenAction = .hold) :
    (¬ atTarget a s f ∨ s.follower.arrivalRun + 1 < 5 →
      t.round.state = .running r ∧ t.follower.aim = some a ∧ steerWritten (.position a.az a.el) s t) ∧
    (atTarget a s f → 4 ≤ s.follower.arrivalRun →
      t.round.state = .running { r with phase := .acquire } ∧ t.follower.state = .lost ∧ t.follower.acqRun = 0 ∧
      steerWritten .hold s t) := by
  have hround := correctedFront_round_of_phase (f := f) (rest := rest) hr (by simp [hp])
  have hcounts := countsArrival_front a f rest s
  have hrun : (notedFront f rest s).follower.arrivalRun = s.follower.arrivalRun := by rw [notedFront_follower]
  have hhandled := frontHandled_of_aiming (f := f) (rest := rest) hpending hs ha
  refine ⟨fun hmiss => ?_, fun hat hn => ?_⟩
  · obtain ⟨n, hstays⟩ : ∃ n, frontHandled f rest s =
        ⟨(notedFront f rest s).setFollower { (notedFront f rest s).follower with arrivalRun := n },
          some (.position a.az a.el), .none⟩ := by
      by_cases hoff : atTarget a s f
      · exact ⟨_, hhandled.trans
          (aimSample_of_short (hcounts.mpr hoff) (by rw [hrun]; exact hmiss.resolve_left (not_not.mpr hoff)))⟩
      · exact ⟨_, hhandled.trans (aimSample_of_off (mt hcounts.mp hoff))⟩
    have hkept := slot_kept h hr hround ht (by rw [hstays]) (by simp [hp]) (by simp [hp]) (by simp [hp])
    refine ⟨hkept.running, ?_, hkept.frame _ (by rw [hstays])⟩
    rw [hkept.follower, hstays, State.setFollower_follower, notedFront_follower]
    exact ha
  · obtain ⟨v, hv, hon⟩ := running_taken h hr hround ht
    rw [aimSample_of_hold (hcounts.mpr hat) (by rw [hrun]; exact hn) (.inl hthen), ho] at hhandled
    have hsame : roundHandled f rest s = frontHandled f rest s :=
      roundSearch_of_other (frontHandled_running hr hround) (by simp [hp])
        (by rw [show (followerSample _ _).report = _ from congrArg Handled.report hhandled]; simp [loseBeam, AimOwner.report])
    obtain ⟨hvround, -⟩ := handedOn_slot hr hround hsame hon
    have hreport : (roundHandled f rest s).report = .arrived := by rw [hsame, hhandled]; rfl
    have hfollower := hon.follower
    rw [hsame, hhandled, loseBeam, enterLost_follower] at hfollower
    have hwritten := hon.frame .hold (by rw [hsame, hhandled]; rfl)
    rw [hreport, roundSample_of_arrived (by rw [hvround, hr]) hp] at hv
    rw [hv]
    exact ⟨rfl, congrArg Follower.state hfollower, congrArg Follower.acqRun hfollower, hwritten⟩

/-- R80 and R146: a sample that acquires the beam for the round unit is tested at once, in the state `u` that the follower leaves. -/
theorem acquired_tested (h : s.head.rx = f :: rest) (hr : s.round.state = .running r)
    (ht : exec .takeSample s = .next t) (hp : r.phase = .acquire ∨ r.phase = .search) (hd : s.distance.state = .none)
    (hq : decidePresence s.follower f = true) {u : State} (hu : u.round = s.round) (hready : LoopReady f s u)
    (hdistance : u.distance = s.distance)
    (hhandled : frontHandled f rest s = closeLoop false .acquired (correctedFront f rest s).2 u) :
    centreTested r 0 0 f s t ∧ (u.search.active = none → t.search.active = none) ∧
      t.events.get .reacquired = u.events.get .reacquired := by
  have hround : (correctedFront f rest s).1.round = s.round :=
    correctedFront_round_of_phase hr (by rcases hp with hp | hp <;> simp [hp])
  obtain ⟨v, hv, hon⟩ := running_taken h hr hround ht
  obtain ⟨hf, hsame_distance, hrun, hreport⟩ := acquired_followed hr hu hready hdistance hhandled
  have hsame : roundHandled f rest s = frontHandled f rest s :=
    roundSearch_of_other (frontHandled_running hr hround) (fun _ => .inl ((correctedFront_fields f rest s).2.1.trans hq))
      (by rw [show (followerSample _ _).report = _ from hreport]; simp)
  have htest := testReady_of_loop hr hround hsame hon hf hsame_distance hrun
  obtain ⟨hvround, -⟩ := handedOn_slot hr hround hsame hon
  have hvrunning : v.round.state = .running r := by rw [hvround, hr]
  rw [hsame, hreport, roundSample_of_acquired hvrunning hp] at hv
  refine ⟨centreTested_of_ready htest hd hv, fun hnone => ?_, ?_⟩
  · have hsearch : (closeLoop false .acquired (correctedFront f rest s).2 u).state.search = u.search :=
      keeps_closeLoop _ _ _ _ .search (by simp)
    rw [hv]
    exact centreSample_search hvrunning (by rw [hon.search, hsame, hhandled, hsearch, hnone]) _
  · have hevents := hon.events
    rw [hsame] at hevents
    rw [hv, (sources_centreSample _ _ _).2 .reacquired (by simp [slotSources]), hevents.2 .reacquired (by simp), hhandled,
      (sources_closeLoop _ _ _ _).2 .reacquired (by simp)]

/-- R144 and R145: a sample in phase ACQUIRE. -/
theorem slot_acquires (h : s.head.rx = f :: rest) (hr : s.round.state = .running r)
    (hpending : s.follower.followPending = false) (ht : exec .takeSample s = .next t) (hp : r.phase = .acquire)
    (hs : s.follower.state = .lost) :
    (decidePresence s.follower f = true → s.follower.acqRun < 2 →
      t.round.state = .running r ∧ t.follower.state = .lost ∧ t.follower.acqRun = s.follower.acqRun + 1 ∧
      steerWritten .hold s t) ∧
    (decidePresence s.follower f = true → 2 ≤ s.follower.acqRun → s.distance.state = .none →
      centreTested r 0 0 f s t ∧ t.events.get .reacquired = s.events.get .reacquired) ∧
    (decidePresence s.follower f = false → slotSearched r s t) := by
  have hround := correctedFront_round_of_phase (f := f) (rest := rest) hr (by simp [hp])
  have hpresent := (correctedFront_fields f rest s).2.1
  have hrunning : (notedFront f rest s).round.state.isRunning = true := by
    rw [show (notedFront f rest s).round = s.round from hround, hr]
    rfl
  have hcounted : decidePresence s.follower f = false ∨ s.follower.acqRun < 2 →
      frontHandled f rest s =
        ⟨countedRun (decidePresence s.follower f) (notedFront f rest s), some .hold, .none⟩ := fun hq => by
    rw [frontHandled_of_lost hpending hs,
      lostSample_of_counted hrunning (by rw [hpresent, notedFront_follower]; exact hq), hpresent]
  refine ⟨fun hq hn => ?_, fun hq hn hd => ?_, fun hq => ?_⟩
  · have hhandled := hcounted (.inr hn)
    have hkept := slot_kept h hr hround ht (by rw [hhandled]) (fun _ => hq) (by simp [hp]) (by simp [hp])
    have hfollower := hkept.follower
    rw [hhandled, countedRun, State.setFollower_follower, notedFront_follower, hq] at hfollower
    exact ⟨hkept.running, by rw [hfollower]; exact hs, by rw [hfollower]; rfl, hkept.frame _ (by rw [hhandled])⟩
  · have hhandled : frontHandled f rest s = closeLoop false .acquired (correctedFront f rest s).2 (notedFront f rest s) := by
      rw [frontHandled_of_lost hpending hs,
        lostSample_of_acquired hrunning (hpresent.trans hq) (by rw [notedFront_follower]; exact hn)]
    obtain ⟨htested, -, hevent⟩ := acquired_tested (u := notedFront f rest s) h hr ht (.inl hp) hd hq hround (notedFront_ready hq)
      (correctedFront_no_distance hd) hhandled
    exact ⟨htested, hevent.trans ((sources_notedFront f rest s).2 .reacquired (by simp))⟩
  · obtain ⟨v, hv, hon⟩ := running_taken h hr hround ht
    have hhandled := hcounted (.inl hq)
    let u : State := countedRun (decidePresence s.follower f) (notedFront f rest s)
    have hready : AskReady r s u := askReady_of_noted hr hround (keeps_mono (keeps_setFollower _ _) (by simp))
      (sources_of_events rfl)
    have hasked : roundHandled f rest s = askRoundSearch r u := by
      have hask := roundSearch_of_acquire (c := (correctedFront f rest s).2) (frontHandled_running hr hround) hp
        (by rw [hhandled]) (hpresent.trans hq)
      rw [hhandled] at hask
      rw [← hask, ← hhandled]
      rfl
    exact (slotSearched_of_asked hready hasked hon hv).1

/-- R78 and R80: the third PRESENT sample in a row in a slot's search. -/
theorem slot_reacquires (h : s.head.rx = f :: rest) (hr : s.round.state = .running r)
    (hpending : s.follower.followPending = false) (ht : exec .takeSample s = .next t) {a : ActiveSearch}
    (hp : r.phase = .search) (hs : s.follower.state = .searching) (ha : s.search.active = some a) (ho : a.owner = .round)
    (hq : decidePresence s.follower f = true) (hn : 2 ≤ s.follower.acqRun) (hd : s.distance.state = .none) :
    centreTested r 0 0 f s t ∧ t.search.active = none ∧
      t.events.get .reacquired = (s.events.get .reacquired).occurred s.localTime := by
  have hround := correctedFront_round_of_phase (f := f) (rest := rest) hr (by simp [hp])
  let u : State := occur .reacquired (removeSearch (notedFront f rest s))
  have hhandled : frontHandled f rest s = closeLoop false .acquired (correctedFront f rest s).2 u := by
    rw [frontHandled_of_searching hpending hs,
      searchingSample_of_acquired (by rw [notedFront_search, ha]) ((correctedFront_fields f rest s).2.1.trans hq)
        (by rw [notedFront_follower]; exact hn), ho]
    rfl
  have hkeep : keepsOthers [.search, .events] (notedFront f rest s) u :=
    keeps_then (keeps_removeSearch _) (keeps_occur _ _) (by simp)
  have hfollower : u.follower = (notedFront f rest s).follower := hkeep .follower (by simp)
  have hcorrection : u.correction = (notedFront f rest s).correction := hkeep .correction (by simp)
  obtain ⟨h1, h2, h3, h4, h5⟩ := notedFront_ready (rest := rest) hq
  have hready : LoopReady f s u :=
    ⟨by rw [hfollower]; exact h1, by rw [hfollower]; exact h2, by rw [hfollower]; exact h3, by rw [hfollower]; exact h4,
      by rw [hcorrection]; exact h5⟩
  obtain ⟨htested, hsearch, hevent⟩ := acquired_tested h hr ht (.inr hp) hd hq ((hkeep .round (by simp)).trans hround) hready
    ((hkeep .distance (by simp)).trans (correctedFront_no_distance hd)) hhandled
  have htime : (removeSearch (notedFront f rest s)).localTime = s.localTime :=
    (keeps_removeSearch _ .localTime (by simp)).trans (notedFront_localTime f rest s)
  have hbefore : (removeSearch (notedFront f rest s)).events.get .reacquired = s.events.get .reacquired :=
    ((sources_storeSearch _ _).2 .reacquired (by simp)).trans ((sources_notedFront f rest s).2 .reacquired (by simp))
  exact ⟨htested, hsearch rfl, by rw [hevent, occur_get_self, htime, hbefore]⟩

/-- R102 to R104: the search that a slot's sample goes on with, by what it plays. -/
theorem slot_plays (h : s.head.rx = f :: rest) (hr : s.round.state = .running r)
    (hpending : s.follower.followPending = false) (ht : exec .takeSample s = .next t) {a : ActiveSearch}
    (hp : r.phase = .search) (hs : s.follower.state = .searching) (ha : s.search.active = some a) (ho : a.owner = .round)
    (hq : decidePresence s.follower f = false ∨ s.follower.acqRun < 2) :
    (∀ w g, searchSample (searchedFront f rest s) = (w, some g) →
      t.round.state = .running r ∧ t.follower = w.follower ∧ t.search = w.search ∧ steerWritten (.position g.az g.el) s t) ∧
    (∀ w, searchSample (searchedFront f rest s) = (w, none) →
      Machine.slotEnds r .notFound none s.localTime s t ∧
        ∀ src, src = .searchStarved ∨ src = .searchExhausted → t.events.get src = w.events.get src) := by
  have hround := correctedFront_round_of_phase (f := f) (rest := rest) hr (by simp [hp])
  have hhandled := frontHandled_of_play (rest := rest) hpending hs ha hq
  refine ⟨fun w g hx => ?_, fun w hx => ?_⟩
  · rw [playSample_of_target hx] at hhandled
    have hkept := slot_kept h hr hround ht (by rw [hhandled]) (by simp [hp]) (by simp [hp]) (by simp [hp])
    exact ⟨hkept.running, by rw [hkept.follower, hhandled], by rw [hkept.search, hhandled], hkept.frame _ (by rw [hhandled])⟩
  · rw [playSample_of_end hx, ho] at hhandled
    obtain ⟨v, hv, hon⟩ := running_taken h hr hround ht
    have hsame : roundHandled f rest s = frontHandled f rest s :=
      roundSearch_of_other (frontHandled_running hr hround) (by simp [hp])
        (by rw [show (followerSample _ _).report = _ from congrArg Handled.report hhandled]; simp [failureReport])
    have hkeep := keeps_searchSample (searchedFront f rest s)
    have hsources := sources_searchSample (searchedFront f rest s)
    rw [hx] at hkeep hsources
    have hwdone : w.events.get .roundDone = s.events.get .roundDone :=
      (hsources.2 .roundDone (by simp [followerSources])).trans ((sources_notedFront f rest s).2 .roundDone (by simp))
    obtain ⟨hends, -, hevents⟩ := slotEnds_of_failed hr ((hkeep .round (by simp)).trans hround) hwdone
      (hsame.trans hhandled) hon hv
    exact ⟨hends, hevents⟩

/-- R102 to R104: a slot's search takes its next step. -/
theorem slot_steps (h : s.head.rx = f :: rest) (hr : s.round.state = .running r)
    (hpending : s.follower.followPending = false) (ht : exec .takeSample s = .next t) {a : ActiveSearch}
    (hp : r.phase = .search) (hs : s.follower.state = .searching) (ha : s.search.active = some a) (ho : a.owner = .round)
    (hq : decidePresence s.follower f = false ∨ s.follower.acqRun < 2) {x : SearchUnit} {g : Angles}
    (hx : searchSample (searchedFront f rest s) = (storeSearch x (searchedFront f rest s), some g)) :
    t.round.state = .running r ∧ t.follower.state = .searching ∧ t.search = x ∧ steerWritten (.position g.az g.el) s t := by
  obtain ⟨hround, hfollower, hsearch, hwritten⟩ := (slot_plays h hr hpending ht hp hs ha ho hq).1 _ g hx
  have hkept : (storeSearch x (searchedFront f rest s)).follower = (searchedFront f rest s).follower :=
    keeps_storeSearch _ _ .follower (by simp)
  have hstored : (storeSearch x (searchedFront f rest s)).search = x := by simp
  refine ⟨hround, ?_, hsearch.trans hstored, hwritten⟩
  rw [hfollower, hkept, searchedFront_follower, notedFront_follower]
  exact hs

/-- R79 and R104: a slot's search that has nothing left ends the slot. -/
theorem slot_search_ends (h : s.head.rx = f :: rest) (hr : s.round.state = .running r)
    (hpending : s.follower.followPending = false) (ht : exec .takeSample s = .next t) {a : ActiveSearch}
    (hp : r.phase = .search) (hs : s.follower.state = .searching) (ha : s.search.active = some a) (ho : a.owner = .round)
    (hq : decidePresence s.follower f = false ∨ s.follower.acqRun < 2) {src : Source}
    (hsrc : src = .searchStarved ∨ src = .searchExhausted)
    (hx : searchSample (searchedFront f rest s) = (endSearch src (searchedFront f rest s), none)) :
    t.events.get src = (s.events.get src).occurred s.localTime ∧ Machine.slotEnds r .notFound none s.localTime s t := by
  obtain ⟨hends, hevents⟩ := (slot_plays h hr hpending ht hp hs ha ho hq).2 _ hx
  have hnoted : (searchedFront f rest s).events.get src = s.events.get src :=
    (sources_notedFront f rest s).2 src (by rcases hsrc with rfl | rfl <;> simp)
  have htime : (searchedFront f rest s).localTime = s.localTime := notedFront_localTime f rest s
  refine ⟨?_, hends⟩
  rw [hevents src hsrc, endSearch_event (by rcases hsrc with rfl | rfl <;> simp) (by rcases hsrc with rfl | rfl <;> simp),
    hnoted, htime]

/-- R144 and R145: a sample in phase SEARCH. -/
theorem slot_counts (h : s.head.rx = f :: rest) (hr : s.round.state = .running r)
    (hpending : s.follower.followPending = false) (ht : exec .takeSample s = .next t) {a : ActiveSearch}
    (hp : r.phase = .search) (hs : s.follower.state = .searching) (ha : s.search.active = some a) (ho : a.owner = .round)
    (hq : decidePresence s.follower f = false ∨ s.follower.acqRun < 2) (hstill : t.follower.state = .searching) :
    t.follower.acqRun = if decidePresence s.follower f then s.follower.acqRun + 1 else 0 := by
  obtain ⟨hgoes, hends⟩ := slot_plays h hr hpending ht hp hs ha ho hq
  rcases hx : searchSample (searchedFront f rest s) with ⟨w, _ | g⟩
  · exact absurd hstill (slotEnds_not_searching (hends w hx).1)
  · obtain ⟨-, hfollower, -, -⟩ := hgoes w g hx
    have hkept := searchSample_follower (searchedFront f rest s)
    rw [hx, ← hfollower] at hkept
    rcases hkept with hsame | hlost
    · rw [hsame, searchedFront_follower]
    · exact absurd (hlost.symm.trans hstill) (by simp)

/-- R146: a sample in phase CENTRE. -/
theorem slot_centres (h : s.head.rx = f :: rest) (hr : s.round.state = .running r)
    (hpending : s.follower.followPending = false) (ht : exec .takeSample s = .next t) (hp : r.phase = .centre) :
    (s.follower.state = .following ∨ s.follower.state = .holding → decidePresence s.follower f = true →
      s.distance.state = .none → centreTested r s.follower.iAz s.follower.iEl f s t) ∧
    (s.follower.state = .following → decidePresence s.follower f = false → 0 < s.follower.graceParam →
      t.round.state = .running r ∧ t.follower.state = .holding ∧ t.follower.grace = some s.follower.graceParam ∧
      steerWritten .hold s t) ∧
    (∀ g, s.follower.state = .holding → s.follower.grace = some g → decidePresence s.follower f = false → 1 < g →
      t.round.state = .running r ∧ t.follower.state = .holding ∧ t.follower.grace = some (g - 1)) ∧
    (decidePresence s.follower f = false →
      (∃ g, s.follower.state = .holding ∧ s.follower.grace = some g ∧ g ≤ 1) ∨
        s.follower.state = .following ∧ s.follower.graceParam = 0 →
      slotSearched r s t) := by
  have hround := correctedFront_round_of_phase (f := f) (rest := rest) hr (by simp [hp])
  have hrunning : (correctedFront f rest s).1.round.state = .running r := by rw [hround, hr]
  refine ⟨fun hs hq hd => ?_, fun hs hq hg => ?_, fun g hs hgrace hq hg => ?_, fun hq hend => ?_⟩
  · obtain ⟨hf, hdistance, hrun, hreport⟩ := present_followed (rest := rest) hrunning hpending hs hq
    obtain ⟨v, hv, hon⟩ := running_taken h hr hround ht
    have hsame : roundHandled f rest s = frontHandled f rest s :=
      roundSearch_of_other (frontHandled_running hr hround) (by simp [hp])
        (by rw [show (followerSample _ _).report = _ from hreport]; simp)
    have htest := testReady_of_loop hr hround hsame hon hf (hdistance.trans (correctedFront_no_distance hd)) hrun
    obtain ⟨hvround, -⟩ := handedOn_slot hr hround hsame hon
    rw [hsame, hreport, roundSample_of_centre (by rw [hvround, hr]) hp] at hv
    exact centreTested_of_ready htest hd hv
  · obtain ⟨hfollower, -, hframe, hreport⟩ := (absent_held (rest := rest) hpending hq).1 hs hg
    have hkept := slot_kept h hr hround ht hreport (by simp [hp]) (fun _ => by rw [hfollower]; simp) (by simp [hp])
    refine ⟨hkept.running, ?_, ?_, hkept.frame _ hframe⟩ <;> rw [hkept.follower, hfollower]
  · obtain ⟨hfollower, -, hreport⟩ := (absent_held (rest := rest) hpending hq).2 g hs hgrace hg
    have hheld : (frontHandled f rest s).state.follower.state = .holding := by
      rw [hfollower, notedFront_follower]
      exact hs
    have hkept := slot_kept h hr hround ht hreport (by simp [hp]) (fun _ => by rw [hheld]; simp) (by simp [hp])
    refine ⟨hkept.running, ?_, ?_⟩
    · rw [hkept.follower, hheld]
    · rw [hkept.follower, hfollower]
  · obtain ⟨w, hhandled, hkeep, hsources⟩ := grace_lost (rest := rest) hr hround hpending hq hend
    obtain ⟨v, hv, hon⟩ := running_taken h hr hround ht
    have hasked : roundHandled f rest s = askRoundSearch r (frontHandled f rest s).state :=
      roundSearch_of_centre_lost (frontHandled_running hr hround) hp (by rw [show followerSample _ _ = _ from hhandled]; rfl)
    have hready : AskReady r s (frontHandled f rest s).state := by
      rw [hhandled]
      exact askReady_of_noted hr hround (keeps_mono (keeps_then hkeep (keeps_enterLost w) (by simp)) (by simp))
        (sources_trans hsources (sources_storeFollower _ _))
    exact (slotSearched_of_asked hready hasked hon hv).1

/-- R147: the sample that qualifies in ADM is the first of the average. -/
theorem slot_establishes (h : s.head.rx = f :: rest) (hr : s.round.state = .running r)
    (hpending : s.follower.followPending = false) (ht : exec .takeSample s = .next t) {m : Nat} (hp : r.phase = .adm)
    (hw : s.distance.state = .awaitAdm .round m) {d : Word} {q : Byte}
    (hs : s.follower.state = .following ∨ s.follower.state = .holding) (hq : admQualifies s f d q) (hn : r.avgCount + 1 < 8) :
    t.distance =
      { s.distance with
        state := .established .adm d.toNat f.ifmCount, lastWaitKind := .adm, lastWaitOutcome := .established } ∧
    ∀ p, p = (correctDistance s .adm (correctAngles s.correction f) d.toNat).at_.pos →
      t.round.state =
        .running
          { r with
            phase := .average, avgCount := r.avgCount + 1
            sums := ⟨r.sums.c1 + p.c1, r.sums.c2 + p.c2, r.sums.c3 + p.c3⟩ } := by
  let x : RunningRound := { r with phase := .average }
  have hset : (correctedFront f rest s).1.round = { s.round with state := .running x } := correctedFront_round_set hr hp hw hq
  have hrunning : (correctedFront f rest s).1.round.state = .running x := by rw [hset]
  have hpresent : decidePresence s.follower f = true := hq.2.2.2.2.1
  obtain ⟨hf, hdistance, -, hreport⟩ := present_followed (rest := rest) hrunning hpending hs hpresent
  obtain ⟨v, hexec, hon⟩ := takeSample_running h hrunning
  have hfront : (frontHandled f rest s).state.round.state = .running x := by rw [frontHandled_round, hrunning]
  have hsame : roundHandled f rest s = frontHandled f rest s := roundSearch_of_average hfront rfl
  have hvrunning : v.round.state = .running x := by rw [hon.round, hsame, hfront]
  have hv : t = averageSample x (correctedFront f rest s).2 v := by
    have hnext : t = roundSample (roundHandled f rest s).report (correctedFront f rest s).2 v := by
      simpa using ht.symm.trans hexec
    rw [hnext, hsame, hreport, roundSample_of_average hvrunning rfl, if_neg (by simp)]
  have hhanded : handedDistance s f .adm (correctDistance s .adm (correctAngles s.correction f) d.toNat) := by
    refine ⟨d.toNat, f.ifmCount, .inr (.inl ⟨.round, m, d, q, hw, hq, rfl, rfl, rfl⟩), ?_⟩
    exact ⟨plausible_of_le hq.2.2.1 f.ifmCount, by rw [opticalDistance_self]⟩
  have husable : usableDistance (correctedFront f rest s).2 v =
      some (correctDistance s .adm (correctAngles s.correction f) d.toNat) := by
    rw [usableDistance, hon.follower, hsame, if_pos hf]
    exact correctedFront_handed hhanded
  rw [averageSample_of_some husable, if_pos hn] at hv
  rw [hv]
  refine ⟨?_, fun p hpos => by rw [hpos]; rfl⟩
  have hvdistance : v.distance = (correctedFront f rest s).1.distance := by rw [hon.distance, hsame, hdistance]
  exact hvdistance.trans (correctedFront_adm hw hq)

/-- R147: a sample that does not qualify in ADM, and the search after the grace. -/
theorem slot_waits (h : s.head.rx = f :: rest) (hr : s.round.state = .running r)
    (hpending : s.follower.followPending = false) (ht : exec .takeSample s = .next t) {m : Nat} (hp : r.phase = .adm)
    (hw : s.distance.state = .awaitAdm .round m) (hun : ∀ d q, ¬ admQualifies s f d q) :
    ((s.follower.state = .following ∨ s.follower.state = .holding) ∧ decidePresence s.follower f = true ∨
        s.follower.state = .following ∧ 0 < s.follower.graceParam ∨
        (∃ g, s.follower.state = .holding ∧ s.follower.grace = some g ∧ 1 < g) →
      t.round.state = .running r ∧ t.distance = s.distance) ∧
    (decidePresence s.follower f = false →
      (∃ g, s.follower.state = .holding ∧ s.follower.grace = some g ∧ g ≤ 1) ∨
        s.follower.state = .following ∧ s.follower.graceParam = 0 →
      t.distance = { s.distance with state := .none, lastWaitKind := .adm, lastWaitOutcome := .cancelled } ∧
      slotSearched r s t) := by
  have hround : (correctedFront f rest s).1.round = s.round := correctedFront_round_passed hw hun
  have hrunning : (correctedFront f rest s).1.round.state = .running r := by rw [hround, hr]
  have hpassed : (correctedFront f rest s).1.distance = s.distance := correctedFront_adm_passed hw hun
  have hquiet : (frontHandled f rest s).report = .none →
      (frontHandled f rest s).state.distance = (correctedFront f rest s).1.distance →
      t.round.state = .running r ∧ t.distance = s.distance := fun hreport hdistance => by
    have hkept := slot_kept h hr hround ht hreport (by simp [hp]) (by simp [hp]) (by simp [hp])
    exact ⟨hkept.running, hkept.distance.trans (hdistance.trans hpassed)⟩
  refine ⟨fun hcase => ?_, fun hq hend => ?_⟩
  · rcases hq : decidePresence s.follower f with _ | _
    · obtain ⟨hfollowing, hholding⟩ := absent_held (rest := rest) hpending hq
      rcases hcase with ⟨-, hq'⟩ | ⟨hs, hg⟩ | ⟨g, hs, hgrace, hg⟩
      · exact absurd (hq.symm.trans hq') (by simp)
      · obtain ⟨-, hdistance, -, hreport⟩ := hfollowing hs hg
        exact hquiet hreport hdistance
      · obtain ⟨-, hdistance, hreport⟩ := hholding g hs hgrace hg
        exact hquiet hreport hdistance
    · have hs : s.follower.state = .following ∨ s.follower.state = .holding := by
        rcases hcase with ⟨hs, -⟩ | ⟨hs, -⟩ | ⟨g, hs, -, -⟩
        · exact hs
        · exact .inl hs
        · exact .inr hs
      obtain ⟨-, hdistance, -, hreport⟩ := present_followed (rest := rest) hrunning hpending hs hq
      exact hquiet hreport hdistance
  · obtain ⟨w, hhandled, hkeep, hsources⟩ := grace_lost (rest := rest) hr hround hpending hq hend
    obtain ⟨v, hv, hon⟩ := running_taken h hr hround ht
    let u : State := releaseDistance (frontHandled f rest s).state
    have hasked : roundHandled f rest s = askRoundSearch r u :=
      roundSearch_of_adm_lost (frontHandled_running hr hround) hp (by rw [show followerSample _ _ = _ from hhandled]; rfl)
    have hlost : keepsOthers [.follower, .events] (notedFront f rest s) (frontHandled f rest s).state := by
      rw [hhandled]
      exact keeps_then hkeep (keeps_enterLost w) (by simp)
    have hlostSources : keepsSources [.beamAbsent] (notedFront f rest s) (frontHandled f rest s).state := by
      rw [hhandled]
      exact sources_trans hsources (sources_storeFollower _ _)
    have hready : AskReady r s u := askReady_of_noted hr hround
      (keeps_then (keeps_mono hlost (by simp)) (keeps_releaseDistance _) (by simp))
      (sources_then_same hlostSources (releaseDistance_events _))
    have hheld : (frontHandled f rest s).state.distance = s.distance := (hlost .distance (by simp)).trans hpassed
    have hwait : (frontHandled f rest s).state.distance.state.wait = some (.adm, .round, m) := by rw [hheld, hw]; rfl
    have hreleased : u.distance =
        { s.distance with state := .none, lastWaitKind := .adm, lastWaitOutcome := .cancelled } := by
      rw [show u = _ from releaseDistance_of_wait _ hwait, hheld]
      rfl
    obtain ⟨hsearched, hdistance⟩ := slotSearched_of_asked hready hasked hon hv
    exact ⟨(hdistance (by rw [hreleased])).trans hreleased, hsearched⟩

end Slot

/-- Settles O21: each phase's handling of the front sample, and what the hand-over makes of it. -/
theorem slotFindsBeam : Obligations.SlotFindsBeam := by
  intro s r f rest h hr hp
  let t : State := examineDue (roundSample (roundHandled f rest s).report (correctedFront f rest s).2 (roundFront f rest s))
  have ht : exec .takeSample s = .next t := takeSample_every h
  refine ⟨t, ht, ?_, fun a hphase hs ha ho hthen => slot_aims h hr hp ht hphase hs ha ho hthen,
    fun hphase hs => slot_acquires h hr hp ht hphase hs, fun a hphase hs ha ho => ?_,
    fun hphase => slot_centres h hr hp ht hphase, fun m hphase hw => ⟨fun d q hs hq hn => ?_, fun hun => ?_, fun hq => ?_⟩⟩
  · exact (undisturbed_trans (undisturbed_roundSample _ _ _) (undisturbed_examineDue _)).rx.trans
      (roundFront_undisturbed f rest s).2
  · have hsearch : (searchedFront f rest s).search = s.search := searchedFront_search
    have hactive : (searchedFront f rest s).search.active = some a := by rw [hsearch, ha]
    refine ⟨fun hq hn hd => slot_reacquires h hr hp ht hphase hs ha ho hq hn hd,
      fun hq hstill => slot_counts h hr hp ht hphase hs ha ho hq hstill, fun hq hd => ?_, fun pos rep next st hq hd hb hn hst => ?_,
      fun st hq hd hb hfill hst => ?_, fun pos hq hd hb hge => ?_, fun hq hd hb hfill => ?_⟩
    · obtain ⟨hround, hfollower, hkept, hwritten⟩ :=
        (slot_plays h hr hp ht hphase hs ha ho hq).1 _ _ (searchSample_of_dwell hactive hd)
      refine ⟨hround, ?_, ?_, hwritten⟩
      · rw [hfollower, State.setSearch_follower, searchedFront_follower, notedFront_follower]
        exact hs
      · rw [hkept, State.setSearch_search, hsearch]
    · obtain ⟨hround, hstate, hx, hwritten⟩ := slot_steps h hr hp ht hphase hs ha ho hq
        ((searchSample_of_step hactive hd).trans
          (nextStep_of_block hb (by rw [hsearch]; exact hn) (by rw [hsearch]; exact hst)))
      rw [hsearch] at hx
      exact ⟨hround, hstate, hx, hwritten⟩
    · obtain ⟨hround, hstate, hx, hwritten⟩ := slot_steps h hr hp ht hphase hs ha ho hq
        ((searchSample_of_step hactive hd).trans
          (nextStep_of_ring hb (by rw [hsearch]; exact hfill) (by rw [hsearch]; exact hst)))
      rw [hsearch] at hx
      exact ⟨hround, hstate, hx, hwritten⟩
    · exact slot_search_ends h hr hp ht hphase hs ha ho hq (.inr rfl)
        ((searchSample_of_step hactive hd).trans (nextStep_of_exhausted hb (by rw [hsearch]; exact hge)))
    · exact slot_search_ends h hr hp ht hphase hs ha ho hq (.inl rfl)
        ((searchSample_of_step hactive hd).trans (nextStep_of_empty hb (by rw [hsearch]; exact hfill)))
  · exact slot_establishes h hr hp ht hphase hw hs hq hn
  · exact (slot_waits h hr hp ht hphase hw hun).1
  · refine (slot_waits h hr hp ht hphase hw fun d q hadm => ?_).2 hq
    rw [hadm.2.2.2.2.1] at hq
    exact absurd hq (by simp)


end Sys2Proof.Proofs
end

