-- ==== Sys2Proof/Proofs/Received.lean ====
section
/-! Frames as they are received (sections 9.1, 10.1, 10.2 and 10.5): a payload is read back field by field in the order in which it
was written, and a frame passes exactly with its own check and length. -/

namespace Sys2Proof.Machine

/-! ### Fields read where they were written (R182) -/

section Fields

variable {b : Byte} {h : Half} {w : Word} {p : List Byte} {o n : Nat}

theorem half_of_bytes (h : Half) : half (h.extractLsb' 8 8) (h.extractLsb' 0 8) = h :=
  (BitVec.extractLsb'_append_extractLsb'_eq_extractLsb' (start₁ := 0) rfl).trans BitVec.extractLsb'_eq_self

theorem word_of_bytes (w : Word) :
    word (w.extractLsb' 24 8) (w.extractLsb' 16 8) (w.extractLsb' 8 8) (w.extractLsb' 0 8) = w := by
  rw [word, BitVec.extractLsb'_append_extractLsb'_eq_extractLsb' (start₂ := 24) (start₁ := 16) rfl,
    BitVec.extractLsb'_append_extractLsb'_eq_extractLsb' (start₂ := 16) (start₁ := 8) rfl,
    BitVec.extractLsb'_append_extractLsb'_eq_extractLsb' (start₂ := 8) (start₁ := 0) rfl]
  exact BitVec.extractLsb'_eq_self

theorem halfBytes_inj {h k : Half} (hk : halfBytes h = halfBytes k) : h = k := by
  have hb : h.extractLsb' 8 8 = k.extractLsb' 8 8 ∧ h.extractLsb' 0 8 = k.extractLsb' 0 8 := by simpa [halfBytes] using hk
  rw [← half_of_bytes h, hb.1, hb.2, half_of_bytes]

/-- The field at the front. -/
@[simp] theorem byteAt_front : byteAt (b :: p) 0 = b := rfl

@[simp] theorem halfAt_front : halfAt (halfBytes h ++ p) 0 = h := half_of_bytes h

@[simp] theorem wordAt_front : wordAt (wordBytes w ++ p) 0 = w := word_of_bytes w

@[simp] theorem halfAt_last : halfAt (halfBytes h) 0 = h := half_of_bytes h

@[simp] theorem wordAt_last : wordAt (wordBytes w) 0 = w := word_of_bytes w

/-- The fields behind one of one byte. -/
@[simp] theorem byteAt_behind_byte : byteAt (b :: p) (o + 1) = byteAt p o := rfl

@[simp] theorem halfAt_behind_byte : halfAt (b :: p) (o + 1) = halfAt p o := rfl

@[simp] theorem wordAt_behind_byte : wordAt (b :: p) (o + 1) = wordAt p o := rfl

/-- The fields behind one of two bytes. -/
@[simp] theorem byteAt_behind_half : byteAt (halfBytes h ++ p) (o + 2) = byteAt p o := rfl

@[simp] theorem halfAt_behind_half : halfAt (halfBytes h ++ p) (o + 2) = halfAt p o := rfl

@[simp] theorem wordAt_behind_half : wordAt (halfBytes h ++ p) (o + 2) = wordAt p o := rfl

/-- The fields behind one of four bytes. -/
@[simp] theorem byteAt_behind_word : byteAt (wordBytes w ++ p) (o + 4) = byteAt p o := rfl

@[simp] theorem halfAt_behind_word : halfAt (wordBytes w ++ p) (o + 4) = halfAt p o := rfl

@[simp] theorem wordAt_behind_word : wordAt (wordBytes w ++ p) (o + 4) = wordAt p o := rfl

end Fields

/-! ### Runs and records of fields (R184) -/

section Runs

variable {b : Byte} {h : Half} {p : List Byte} {o : Nat}

@[simp] theorem entriesAt_behind_byte (n : Nat) : entriesAt (b :: p) (o + 1) n = entriesAt p o n := by
  induction n generalizing o with
  | zero => rfl
  | succ n ih => rw [entriesAt, entriesAt, halfAt_behind_byte, show o + 1 + 2 = o + 2 + 1 from rfl, ih]

@[simp] theorem entriesAt_behind_half (n : Nat) : entriesAt (halfBytes h ++ p) (o + 2) n = entriesAt p o n := by
  simp [halfBytes, show o + 2 = o + 1 + 1 from rfl]

@[simp] theorem entriesAt_run (l : List Half) : entriesAt (l.flatMap halfBytes) 0 l.length = l := by
  induction l with
  | nil => rfl
  | cons x l ih => rw [List.flatMap_cons, List.length_cons, entriesAt, halfAt_front, entriesAt_behind_half, ih]

@[simp] theorem stepsAt_behind_byte (n : Nat) : stepsAt (b :: p) (o + 1) n = stepsAt p o n := by
  induction n generalizing o with
  | zero => rfl
  | succ n ih =>
    have hnext : stepsAt (b :: p) (o + 1 + 9) n = stepsAt p (o + 9) n := ih (o := o + 9)
    rw [stepsAt, stepsAt, hnext]
    rfl

@[simp] theorem stepsAt_behind_half (n : Nat) : stepsAt (halfBytes h ++ p) (o + 2) n = stepsAt p o n := by
  simp [halfBytes, show o + 2 = o + 1 + 1 from rfl]

theorem stepsAt_behind_step (f : StepField) (n : Nat) : stepsAt (stepFieldBytes f ++ p) (o + 9) n = stepsAt p o n := by
  simp [stepFieldBytes, wordBytes, show o + 9 = o + 1 + 1 + 1 + 1 + 1 + 1 + 1 + 1 + 1 from rfl]

@[simp] theorem stepsAt_run (l : List StepField) : stepsAt (l.flatMap stepFieldBytes) 0 l.length = l := by
  induction l with
  | nil => rfl
  | cons f l ih =>
    have hfront : (⟨wordAt (stepFieldBytes f ++ l.flatMap stepFieldBytes) 0,
        wordAt (stepFieldBytes f ++ l.flatMap stepFieldBytes) (0 + 4),
        byteAt (stepFieldBytes f ++ l.flatMap stepFieldBytes) (0 + 8)⟩ : StepField) = f := by simp [stepFieldBytes]
    rw [List.flatMap_cons, List.length_cons, stepsAt, hfront, stepsAt_behind_step, ih]

@[simp] theorem poseAt_behind_byte : poseAt (b :: p) (o + 1) = poseAt p o := rfl

@[simp] theorem poseAt_behind_half : poseAt (halfBytes h ++ p) (o + 2) = poseAt p o := rfl

@[simp] theorem poseAt_front (q : PoseField) : poseAt (poseFieldBytes q ++ p) 0 = q := by
  simp [poseAt, poseFieldBytes]

@[simp] theorem halfAt_behind_pose (q : PoseField) : halfAt (poseFieldBytes q ++ p) (o + 48) = halfAt p o := rfl

@[simp] theorem fiducialAt_behind_byte : fiducialAt (b :: p) (o + 1) = fiducialAt p o := rfl

@[simp] theorem fiducialAt_behind_half : fiducialAt (halfBytes h ++ p) (o + 2) = fiducialAt p o := rfl

@[simp] theorem fiducialAt_front (q : FiducialField) : fiducialAt (fiducialFieldBytes q) 0 = q := by
  simp [fiducialAt, fiducialFieldBytes]

end Runs

/-! ### A REQUEST payload (R166, R174, R184) -/

section Requests

variable {tag : Half} {r : Request}

theorem requestPayload_eq (tag : Half) (r : Request) :
    requestPayload tag r = requestCode r :: (halfBytes tag ++ requestFields r) := rfl

/-- A run of at most 255 values is counted by its count byte. -/
theorem countByte_toNat {n : Nat} (h : n ≤ 255) : (countByte n).toNat = n := by
  rw [countByte, BitVec.toNat_ofNat]
  exact Nat.mod_eq_of_lt (by omega)

theorem ofLength_self (p : List Byte) (n : Nat) (h : p.length = n) (r : Request) : ofLength p n r = some r := if_pos h

theorem requestPayload_length (tag : Half) (r : Request) :
    (requestPayload tag r).length = 3 + (requestFields r).length := by
  rw [requestPayload_eq, List.length_cons, List.length_append, Laws.halfBytes_length]
  omega

/-- A run is read back by its count. -/
theorem requestOf_loadCompData {table start : Byte} {entries : List Half} (h : entries.length ≤ 117) :
    requestOf (requestPayload tag (.loadCompData table start entries)) = some (.loadCompData table start entries) := by
  let p : List Byte := requestPayload tag (.loadCompData table start entries)
  have hcount : (byteAt p 5).toNat = entries.length := countByte_toNat (by omega)
  have hread : entriesAt p 6 entries.length = entries := by simp [p, requestPayload_eq, requestFields]
  have hlength : p.length = 6 + 2 * entries.length := by
    rw [requestPayload_length]
    simp [requestFields, Laws.entries_length, -List.length_flatMap]
    omega
  change ofLength p (6 + 2 * (byteAt p 5).toNat) (.loadCompData table start (entriesAt p 6 (byteAt p 5).toNat)) = _
  rw [hcount, hread, ofLength_self p _ hlength]

theorem requestOf_writeSteps {start : Half} {steps : List StepField} (h : steps.length ≤ 26) :
    requestOf (requestPayload tag (.writeSteps start steps)) = some (.writeSteps start steps) := by
  let p : List Byte := requestPayload tag (.writeSteps start steps)
  have hcount : (byteAt p 5).toNat = steps.length := countByte_toNat (by omega)
  have hstart : halfAt p 3 = start := by simp [p, requestPayload_eq, requestFields]
  have hread : stepsAt p 6 steps.length = steps := by simp [p, requestPayload_eq, requestFields]
  have hlength : p.length = 6 + 9 * steps.length := by
    rw [requestPayload_length]
    simp [requestFields, Laws.halfBytes_length, Laws.steps_length, -List.length_flatMap]
    omega
  change ofLength p (6 + 9 * (byteAt p 5).toNat) (.writeSteps (halfAt p 3) (stepsAt p 6 (byteAt p 5).toNat)) = _
  rw [hcount, hstart, hread, ofLength_self p _ hlength]

theorem requestOf_appendSteps {steps : List StepField} (h : steps.length ≤ 26) :
    requestOf (requestPayload tag (.appendSteps steps)) = some (.appendSteps steps) := by
  let p : List Byte := requestPayload tag (.appendSteps steps)
  have hcount : (byteAt p 3).toNat = steps.length := countByte_toNat (by omega)
  have hread : stepsAt p 4 steps.length = steps := by simp [p, requestPayload_eq, requestFields]
  have hlength : p.length = 4 + 9 * steps.length := by
    rw [requestPayload_length]
    simp [requestFields, Laws.steps_length, -List.length_flatMap]
    omega
  change ofLength p (4 + 9 * (byteAt p 3).toNat) (.appendSteps (stepsAt p 4 (byteAt p 3).toNat)) = _
  rw [hcount, hread, ofLength_self p _ hlength]

theorem requestOf_writePose {index : Byte} {pose : PoseField} {label : Half} :
    requestOf (requestPayload tag (.writePose index pose label)) = some (.writePose index pose label) := by
  let p : List Byte := requestPayload tag (.writePose index pose label)
  have hpose : poseAt p 4 = pose := by simp [p, requestPayload_eq, requestFields]
  have hlabel : halfAt p 52 = label := by simp [p, requestPayload_eq, requestFields]
  change ofLength p 54 (.writePose index (poseAt p 4) (halfAt p 52)) = _
  rw [hpose, hlabel]
  exact ofLength_self p 54 rfl _

theorem requestOf_writeFiducial {index : Byte} {fields : FiducialField} :
    requestOf (requestPayload tag (.writeFiducial index fields)) = some (.writeFiducial index fields) := by
  let p : List Byte := requestPayload tag (.writeFiducial index fields)
  have hfields : fiducialAt p 4 = fields := by simp [p, requestPayload_eq, requestFields]
  change ofLength p 29 (.writeFiducial index (fiducialAt p 4)) = _
  rw [hfields]
  exact ofLength_self p 29 rfl _

/-- R184: the request that a payload was made from. -/
theorem requestOf_payload (tag : Half) (r : Request) (h : requestFits r = true) :
    requestOf (requestPayload tag r) = some r := by
  cases r with
  | loadCompData table start entries => exact requestOf_loadCompData (by simpa [requestFits] using h)
  | writeSteps start steps => exact requestOf_writeSteps (by simpa [requestFits] using h)
  | appendSteps steps => exact requestOf_appendSteps (by simpa [requestFits] using h)
  | writePose index pose label => exact requestOf_writePose
  | writeFiducial index fields => exact requestOf_writeFiducial
  | establishAdm | establishHome | dropDistance | follow | park | resetStream | stopMeasure | readLatest | startRound
  | stopRound | restart => rfl
  | loadCompBegin | loadCompEnd | clearPose | readPose | selectPose | readSearch | startSearch | enableFiducial
  | disableFiducial | readFiducial | ackEvent | raiseTest | readStatus => rfl
  | setRefraction | setFloor | setParam | goto | writeSearch | readSteps | startMeasure =>
    simp [requestOf, requestPayload_eq, requestCode, requestFields, ofLength, Laws.halfBytes_length, Laws.wordBytes_length]

/-- R166: a REQUEST payload gives its tag and its request. -/
theorem parseRequest_payload (tag : Half) (r : Request) (h : requestFits r = true) :
    parseRequest (requestPayload tag r) = some (.named tag r) := by
  have htag : halfAt (requestPayload tag r) 1 = tag := by simp [requestPayload_eq]
  rw [parseRequest, if_pos (by rw [requestPayload_length]; omega), requestOf_payload tag r h, htag]

end Requests

/-! ### The payloads of the head link (R183) -/

section Head

theorem yesNo_yesNoByte (b : Bool) : yesNo (yesNoByte b) = some b := by cases b <;> rfl

theorem driveOf_driveByte (d : DriveState) : driveOf (driveByte d) = some d := by cases d <;> rfl

/-- The intensity's 12 bits in a field of two bytes. -/
theorem intensity_field (i : BitVec 12) : (i.setWidth 16).toNat ≤ 4095 ∧ (i.setWidth 16).extractLsb' 0 12 = i := by
  refine ⟨?_, ?_⟩
  · have := i.isLt
    simp
    omega
  · ext k hk
    simp [hk]
    omega

/-- The fixed part of a SAMPLE payload, read field by field; `rest` is the ADM part. -/
theorem sample_fields (f : Sample) :
    byteAt (samplePayload f) 0 = f.seq ∧ wordAt (samplePayload f) 1 = f.timestamp ∧ wordAt (samplePayload f) 5 = f.azRaw ∧
      wordAt (samplePayload f) 9 = f.elRaw ∧ wordAt (samplePayload f) 13 = f.ifmCount ∧
      byteAt (samplePayload f) 17 = yesNoByte f.ifmOk ∧ halfAt (samplePayload f) 18 = f.psdX ∧
      halfAt (samplePayload f) 20 = f.psdY ∧ halfAt (samplePayload f) 22 = f.intensity.setWidth 16 ∧
      byteAt (samplePayload f) 24 = yesNoByte f.atHome := by
  simp [samplePayload]

/-- The ADM part of a SAMPLE payload, by its length. -/
theorem sample_adm (f : Sample) :
    (f.adm = none → (samplePayload f).length = 25) ∧
      ∀ a, f.adm = some a →
        (samplePayload f).length = 30 ∧ wordAt (samplePayload f) 25 = a.1 ∧ byteAt (samplePayload f) 29 = a.2 := by
  refine ⟨fun ha => ?_, fun a ha => ?_⟩
  · simp [samplePayload, admBytes, ha, Laws.halfBytes_length, Laws.wordBytes_length]
  · simp [samplePayload, admBytes, ha, Laws.halfBytes_length, Laws.wordBytes_length]

/-- R183: the sample that a payload was made from. -/
theorem parseSample_payload (f : Sample) : parseSample (samplePayload f) = some f := by
  obtain ⟨hseq, htime, haz, hel, hcount, hok, hx, hy, hintensity, hhome⟩ := sample_fields f
  obtain ⟨hle, hbits⟩ := intensity_field f.intensity
  obtain ⟨hnone, hsome⟩ := sample_adm f
  have hlength : (samplePayload f).length = 25 ∨ (samplePayload f).length = 30 := by
    rcases ha : f.adm with _ | a
    · exact .inl (hnone ha)
    · exact .inr (hsome a ha).1
  have hadm : (if (samplePayload f).length = 30 then some (wordAt (samplePayload f) 25, byteAt (samplePayload f) 29) else none) =
      f.adm := by
    rcases ha : f.adm with _ | a
    · rw [if_neg (by rw [hnone ha]; decide)]
    · obtain ⟨h30, hdist, hquality⟩ := hsome a ha
      rw [if_pos h30, hdist, hquality]
  rw [parseSample, if_pos hlength, hok, hhome, yesNo_yesNoByte, yesNo_yesNoByte]
  simp only [hintensity, if_pos hle, hseq, htime, haz, hel, hcount, hx, hy, hbits, hadm]

/-- R166: a SAMPLE payload of neither length fails the form check. -/
theorem parseSample_of_length {p : List Byte} (h : p.length ≠ 25 ∧ p.length ≠ 30) : parseSample p = none :=
  if_neg (not_or.mpr h)

theorem parseHeadStatus_frame (h : HeadStatus) : parseHeadStatus (headStatusFrame h) = some h := by
  simp [parseHeadStatus, headStatusFrame, yesNo_yesNoByte, driveOf_driveByte]

/-- R166: a HEAD_STATUS payload without its two fields fails the form check. -/
theorem parseHeadStatus_of_short {f : Frame} (h : f.payload.length < 2) : parseHeadStatus f = none := by
  unfold parseHeadStatus
  split
  · next hp => rw [hp] at h; simp at h
  · rfl

theorem headFrameOf_sample {f : Frame} (h : f.kind = 0x10) : headFrameOf f = (parseSample f.payload).map .sample := if_pos h

theorem headFrameOf_headStatus {f : Frame} (h : f.kind = 0x11) : headFrameOf f = (parseHeadStatus f).map .headStatus := by
  rw [headFrameOf, if_neg (by rw [h]; decide), if_pos h]

theorem headFrameOf_other {f : Frame} (h : f.kind ≠ 0x10) (h' : f.kind ≠ 0x11) : headFrameOf f = none := by
  rw [headFrameOf, if_neg h, if_neg h']

end Head

/-! ### A frame between its start delimiter and the idle line (R165) -/

section Frames

variable {kind destination length : Byte} {payload : List Byte} {check : Half} {service : Bool} {f : Frame}

theorem frameOf_bytes :
    frameOf ([kind, destination, length] ++ payload ++ halfBytes check) =
      if length.toNat ≤ 240 ∧ length.toNat = payload.length ∧ check = crc16 ([kind, destination, length] ++ payload) then
        some ⟨kind, destination, payload⟩
      else none := by
  have hsize : (payload ++ halfBytes check).length - 2 = payload.length := by simp [Laws.halfBytes_length]
  have hroom : 2 ≤ (payload ++ halfBytes check).length := by simp [Laws.halfBytes_length]
  have hcheck : ∀ k, halfBytes check = halfBytes k ↔ check = k := fun k => ⟨halfBytes_inj, congrArg halfBytes⟩
  simp only [frameOf, List.cons_append, List.nil_append, hsize, List.take_left, List.drop_left, hcheck, hroom, true_and]

/-- R165: a frame with a payload that fits is received as itself. -/
theorem frameOf_checked (h : f.payload.length ≤ 240) : frameOf (f.checked ++ halfBytes (crc16 f.checked)) = some f := by
  have hlength : (BitVec.ofNat 8 f.payload.length).toNat = f.payload.length := countByte_toNat (by omega)
  exact frameOf_bytes.trans (if_pos ⟨by rw [hlength]; exact h, hlength, rfl⟩)

/-- R165: a frame whose check differs, or whose length field is over 240 or not the length, is none. -/
theorem frameOf_discarded
    (h : check ≠ crc16 ([kind, destination, length] ++ payload) ∨ 240 < length.toNat ∨ length.toNat ≠ payload.length) :
    frameOf ([kind, destination, length] ++ payload ++ halfBytes check) = none := by
  refine frameOf_bytes.trans (if_neg ?_)
  rintro ⟨hfits, hlength, hcheck⟩
  rcases h with h | h | h
  · exact h hcheck
  · omega
  · exact h hlength

theorem receiveStation_delimited (run : List Byte) :
    receiveStation service (0x5A :: run) = some (((frameOf run).bind (stationFrameOf service)).getD (.discardedFrame .station)) :=
  rfl

theorem receiveHead_delimited (run : List Byte) :
    receiveHead (0x5A :: run) = some (((frameOf run).bind headFrameOf).getD (.discardedFrame .head)) := rfl

/-- R166: what the ports make of a frame that fits. -/
theorem receiveStation_frame (h : f.payload.length ≤ 240) :
    receiveStation service f.bytes = some ((stationFrameOf service f).getD (.discardedFrame .station)) := by
  have hrun := receiveStation_delimited (service := service) (f.checked ++ halfBytes (crc16 f.checked))
  rw [frameOf_checked h] at hrun
  exact hrun

theorem receiveHead_frame (h : f.payload.length ≤ 240) :
    receiveHead f.bytes = some ((headFrameOf f).getD (.discardedFrame .head)) := by
  have hrun := receiveHead_delimited (f.checked ++ halfBytes (crc16 f.checked))
  rw [frameOf_checked h] at hrun
  exact hrun

theorem stationFrameOf_request (hd : f.destination = 0x01) (hk : f.kind = 0x30) :
    stationFrameOf service f = (parseRequest f.payload).map (.requestFrame service) := by
  rw [stationFrameOf, if_pos hd, if_pos hk]

theorem stationFrameOf_forward (hd : f.destination = 0x02) :
    stationFrameOf service f = some (.forwardFrame ⟨f.kind, f.payload⟩) := by
  rw [stationFrameOf, if_neg (by rw [hd]; decide), if_pos hd]

/-- R166 and R174: a frame for neither part, and one for this part that is no REQUEST with a code and a tag. -/
theorem stationFrameOf_discarded
    (h : (f.destination ≠ 0x01 ∧ f.destination ≠ 0x02) ∨
      (f.destination = 0x01 ∧ (f.kind ≠ 0x30 ∨ f.payload.length < 3))) : stationFrameOf service f = none := by
  rcases h with ⟨hpart, hhead⟩ | ⟨hpart, hkind | hshort⟩
  · rw [stationFrameOf, if_neg hpart, if_neg hhead]
  · rw [stationFrameOf, if_pos hpart, if_neg hkind]
  · by_cases hkind : f.kind = 0x30
    · rw [stationFrameOf_request hpart hkind, parseRequest, if_neg (Nat.not_le.mpr hshort)]
      rfl
    · rw [stationFrameOf, if_pos hpart, if_neg hkind]

end Frames

end Sys2Proof.Machine

/-! ### The statements -/

namespace Sys2Proof.Proofs

open Sys2Proof Sys2Proof.Machine

/-- Settles O58: the payload of a request that fits is read back field by field. -/
theorem requestFrameRoundTrip : Obligations.RequestFrameRoundTrip := by
  intro service tag r h
  have hfits : (requestPayload tag r).length ≤ 240 := Laws.requestPayload_fits tag r h
  rw [receiveStation_frame hfits, stationFrameOf_request rfl rfl, parseRequest_payload tag r h]
  rfl

/-- Settles O59: what each port makes of a frame that fits, and of bytes that make none. -/
theorem framesReceived : Obligations.FramesReceived := by
  refine ⟨fun f destination => ?_, fun h hsize => ?_, fun service f hsize => ?_,
    fun service kind destination length payload check h => ?_, fun service f hsize h => ?_, fun f hsize h => ?_⟩
  · have hfits : (samplePayload f).length ≤ 240 := Laws.samplePayload_fits f
    rw [receiveHead_frame hfits, headFrameOf_sample rfl, parseSample_payload]
    rfl
  · have hfits : (headStatusFrame h).payload.length ≤ 240 := by
      simp only [headStatusFrame, List.length_append, List.length_cons, List.length_nil]
      omega
    rw [receiveHead_frame hfits, headFrameOf_headStatus rfl, parseHeadStatus_frame]
    rfl
  · have hfits : (headLinkFrame (.forward f)).payload.length ≤ 240 := hsize
    rw [receiveStation_frame hfits, stationFrameOf_forward rfl]
    rfl
  · have hnone := frameOf_discarded h
    have hstation := receiveStation_delimited (service := service) ([kind, destination, length] ++ payload ++ halfBytes check)
    have hhead := receiveHead_delimited ([kind, destination, length] ++ payload ++ halfBytes check)
    rw [hnone] at hstation hhead
    exact ⟨hstation, hhead⟩
  · rw [receiveStation_frame hsize, stationFrameOf_discarded h]
    rfl
  · rw [receiveHead_frame hsize]
    rcases h with ⟨hsample, hstatus⟩ | ⟨hsample, hlength⟩ | ⟨hstatus, hshort⟩
    · rw [headFrameOf_other hsample hstatus]
      rfl
    · rw [headFrameOf_sample hsample, parseSample_of_length hlength]
      rfl
    · rw [headFrameOf_headStatus hstatus, parseHeadStatus_of_short hshort]
      rfl

end Sys2Proof.Proofs
end
